-- ==== Sys2Proof/Word.lean ====
section
/-! DEFINITION. The word types of nonpop/2015-periodi-3 CORE: a symbol is a byte (R7), a stream or a command is a
bit sequence written first bit first (R12, R57). Everything else in the block is an unbounded natural (R10). -/

namespace Sys2Proof

/-- A symbol, and one byte of IN or OUT (R7: "Symbols are bytes"). -/
abbrev Byte := BitVec 8

/-- A bit sequence, first bit first (R12). -/
abbrev Bits := List Bool

/-- A byte sequence, first byte first (R13, R27, R28). -/
abbrev Bytes := List Byte

end Sys2Proof
end

