-- ==== Sys2Proof/Config.lean ====
section
/-! DEFINITION. What is fixed for one chip: the constants of R8, the two open magic numbers of R9, and the free value
of R116 (b). The formulas GROW and RESET stand in Decode.lean, LAST_CODE
in Machine/Flags.lean. -/

namespace Sys2Proof.Config

/-- `NSYM` (R8): alphabet size. -/
def nsym : Nat := 256
/-- `MAX_RW_BITS` (R8): the most bits one BitWriter or BitReader operation moves. -/
def maxRwBits : Nat := 32
/-- `HEAP_CAP` (R8): capacity of the Huffman min-heap. -/
def heapCap : Nat := 256
/-- `ARENA_CAP` (R8): most nodes in a Huffman tree. -/
def arenaCap : Nat := 511
/-- `COUNT_BITS` (R8): width of one persisted frequency count. -/
def countBits : Nat := 32
/-- `INIT_WIDTH` (R8): LZW code width at the start and after a reset. -/
def initWidth : Nat := 9
/-- `FIRST_CODE` (R8): the first LZW code after the 256 singletons. -/
def firstCode : Nat := 256
/-- `WIDTH_FIELD_BITS` (R8): width of the LZW header's maximum-width field. -/
def widthFieldBits : Nat := 5

/-- `HUFF_MAGIC` (R9, D4: OPEN): its four bytes `m0 m1 m2 m3`, `m0` in the most significant position (R44). No body:
no proof can see its value. Log entry 1. -/
opaque huffMagic : BitVec 32

/-- How far `LZW_MAGIC` lies from `HUFF_MAGIC`, as a free value; 0 stands for 1, so that the two always differ. Log
entry 1. -/
opaque magicGap : BitVec 32

/-- `LZW_MAGIC` (R9, D4: OPEN, "must differ from `HUFF_MAGIC`"). As `huffMagic` and `magicGap` range over all values,
the pair of magics ranges over every pair that differs. Log entry 1. -/
def lzwMagic : BitVec 32 := if magicGap = 0#32 then huffMagic + 1#32 else huffMagic + magicGap

/-- The free value of R116 (b) and I4: "`OUT.data` after the raise is unspecified. A model must treat it as an arbitrary
byte sequence". No body; the argument is the draw counter of State. Log entry 2. -/
opaque unspecifiedOut : Nat → Bytes

end Sys2Proof.Config
end

