-- ==== Sys2Proof/Syntax.lean ====
section
/-! DEFINITION. One constructor per row of spec/opcode_table.json: the 28 commands of R59, the 4 LZW code-word classes
of R65 and the 2 file layouts of R62 and R64. The commands come through the command port; a code word or a file's magic
is fetched from IN by the command that decodes it (R43: "the block's only fetch"). Log entry 3. -/

namespace Sys2Proof

/-- The `algo` field (R58, D33): 0 is Huffman, 1 is LZW. -/
inductive Algo where
  | huffman
  | lzw
  deriving DecidableEq, Repr

/-- A Cursor (R36): `ROOT`, or the code of a trie node. As an operand it has 32 bits, and `0xFFFFFFFF` is `ROOT` (R58). -/
inductive Cursor where
  | root
  | code (c : Nat)
  deriving DecidableEq, Repr

/-- The classes of an LZW code word (R65). -/
inductive CodeWord where
  | grow
  | reset
  | literal (b : Byte)
  | reference (c : Nat)
  deriving DecidableEq, Repr

/-- The instructions. Operand names and widths are those of R57 and R58. -/
inductive Instr where
  -- host commands
  | compress (algo : Algo) (W : BitVec 5) (pct : BitVec 7) (mins : BitVec 32)
  | decompress
  -- BitWriter and BitReader
  | bwWrite (n : BitVec 6) (v : BitVec 32)
  | bwFlush
  | brRead (n : BitVec 6)
  -- FrequencyTable, heap and tree
  | ftClear
  | ftCount (b : Byte)
  | hpPush (i : BitVec 9)
  | hpPop
  | htBuild
  | htFindcode (b : Byte)
  -- Huffman codec
  | hufEncSym (b : Byte)
  | hufDecSym
  | hufCompress
  | hufDecompress
  -- LZW dictionary
  | ldInit (W : BitVec 5)
  | ldHasnext (c : Cursor) (b : Byte)
  | ldGetcode (c : Cursor)
  | ldAdd (c : Cursor) (b : Byte)
  | ldReset
  -- LZW encoder
  | lzcInit (W : BitVec 5) (pct : BitVec 7) (mins : BitVec 32)
  | lzcEmit (c : Cursor)
  | lzcByte (b : Byte)
  | lzcFinish
  | lzwCompress
  -- LZW decoder
  | lzdInit
  | lzdCode
  | lzwDecompress
  -- LZW code words, at the decoder's current width (R65, R106)
  | lzwGrow
  | lzwReset
  | lzwLiteral (b : Byte)
  | lzwReference (c : Nat)
  -- file layouts, known by their magic (R62, R64, R112)
  | huffFile
  | lzwFile
  deriving DecidableEq, Repr

/-- The instruction that a code word is. -/
def CodeWord.instr : CodeWord → Instr
  | .grow => .lzwGrow
  | .reset => .lzwReset
  | .literal b => .lzwLiteral b
  | .reference c => .lzwReference c

/-- The codec whose file layout a magic announces (R112). -/
inductive FileKind where
  | huffman
  | lzw
  deriving DecidableEq, Repr

/-- The instruction that a file layout is. -/
def FileKind.instr : FileKind → Instr
  | .huffman => .huffFile
  | .lzw => .lzwFile

end Sys2Proof
end

