-- ==== Sys2Proof/WellFormed.lean ====
section
/-! DEFINITION. Which terms of Instr an encoding of the spec stands for. Bit-vector operands have their field's width by
their type; what is left to check is a cursor operand (R58) and a REFERENCE code word (R65). An operand VALUE that R58
calls illegal (n = 33, W = 8, pct = 101) is still a command: executing it raises. -/

namespace Sys2Proof

/-- A cursor operand fits its 32-bit field, whose value `0xFFFFFFFF` is `ROOT` (R58). -/
def Cursor.wellFormed : Cursor → Bool
  | .root => true
  | .code c => decide (c < 2 ^ 32 - 1)

/-- A code word the decoder can classify at width `w` (R65: "The four classes cover every `w`-bit value exactly
once", `9 ≤ w ≤ 31`). -/
def CodeWord.wellFormed (w : Nat) : CodeWord → Bool
  | .grow => decide (9 ≤ w ∧ w ≤ 31)
  | .reset => decide (9 ≤ w ∧ w ≤ 31)
  | .literal _ => decide (9 ≤ w ∧ w ≤ 31)
  | .reference c => decide (9 ≤ w ∧ w ≤ 31 ∧ 256 ≤ c ∧ c ≤ 2 ^ w - 3)

/-- Well-formed at code width `w`; only the four code-word rows read `w`. -/
def Instr.wellFormedAt (w : Nat) : Instr → Bool
  | .compress _ _ _ _ => true
  | .decompress => true
  | .bwWrite _ _ => true
  | .bwFlush => true
  | .brRead _ => true
  | .ftClear => true
  | .ftCount _ => true
  | .hpPush _ => true
  | .hpPop => true
  | .htBuild => true
  | .htFindcode _ => true
  | .hufEncSym _ => true
  | .hufDecSym => true
  | .hufCompress => true
  | .hufDecompress => true
  | .ldInit _ => true
  | .ldHasnext c _ => c.wellFormed
  | .ldGetcode c => c.wellFormed
  | .ldAdd c _ => c.wellFormed
  | .ldReset => true
  | .lzcInit _ _ _ => true
  | .lzcEmit c => c.wellFormed
  | .lzcByte _ => true
  | .lzcFinish => true
  | .lzwCompress => true
  | .lzdInit => true
  | .lzdCode => true
  | .lzwDecompress => true
  | .lzwGrow => CodeWord.grow.wellFormed w
  | .lzwReset => CodeWord.reset.wellFormed w
  | .lzwLiteral b => (CodeWord.literal b).wellFormed w
  | .lzwReference c => (CodeWord.reference c).wellFormed w
  | .huffFile => true
  | .lzwFile => true

end Sys2Proof
end

