-- ==== Sys2Proof/Decode.lean ====
section
/-! DEFINITION. The bit order of the block (R12, R57), the decoder of the command port (R57 to R60), the classifier of
LZW code words (R65) and of a file's magic (R112), and the encoder written from the same tables. -/

namespace Sys2Proof

/-! ### Bit sequences and numbers (R11, R12) -/

/-- The low `n` bits of `v`, bit `n - 1` first (R12: "its bit `n−1` enters the stream first and its bit 0 last"). -/
def bitsMsb : Nat → Nat → Bits
  | 0, _ => []
  | n + 1, v => v.testBit n :: bitsMsb n v

/-- The number a bit sequence writes, first bit most significant. -/
def natOfBits (bs : Bits) : Nat := bs.foldl (fun r b => 2 * r + b.toNat) 0

/-- The bits of a byte sequence: the first stream bit of a byte is its bit 7 (R12). -/
def bitsOfBytes (bs : Bytes) : Bits := bs.flatMap fun b => bitsMsb 8 b.toNat

/-- The next `n`-bit field and the bits after it; none when fewer bits are left. -/
def field (n : Nat) (bs : Bits) : Option (BitVec n × Bits) :=
  if n ≤ bs.length then some (BitVec.ofNat n (natOfBits (bs.take n)), bs.drop n) else none

/-! ### Commands (R57, R58, R59) -/

/-- What the decoder answers. -/
inductive Decoded where
  /-- A command, and the bits after it. -/
  | command (i : Instr) (rest : Bits)
  /-- An opcode that R59 does not list (R60: the decoder "must return invalid"). -/
  | unassigned (op : Byte)
  /-- The bits end before the fields of the opcode's format do. -/
  | truncated
  /-- The first four bytes of a file equal neither magic (R67, R112). -/
  | unknownMagic
  deriving DecidableEq, Repr

/-- Read one field and go on with it. -/
def withField (n : Nat) (bs : Bits) (k : BitVec n → Bits → Decoded) : Decoded :=
  match field n bs with
  | none => .truncated
  | some (x, rest) => k x rest

/-- The `c` field (R58): "The value `0xFFFFFFFF` means `ROOT`. Any other value `c` is a code". -/
def cursorOfField (c : BitVec 32) : Cursor := if c = 0xFFFFFFFF#32 then .root else .code c.toNat

/-- The `algo` field (R58). -/
def algoOfField (a : BitVec 1) : Algo := if a = 0#1 then .huffman else .lzw

/-- The formats of R57, each with the constructor it fills. -/
def formatK0 (i : Instr) (bs : Bits) : Decoded := .command i bs
def formatKN (mk : BitVec 6 → Instr) (bs : Bits) : Decoded :=
  withField 6 bs fun n bs => .command (mk n) bs
def formatKNV (mk : BitVec 6 → BitVec 32 → Instr) (bs : Bits) : Decoded :=
  withField 6 bs fun n bs => withField 32 bs fun v bs => .command (mk n v) bs
def formatKS (mk : Byte → Instr) (bs : Bits) : Decoded :=
  withField 8 bs fun s bs => .command (mk s) bs
def formatKI (mk : BitVec 9 → Instr) (bs : Bits) : Decoded :=
  withField 9 bs fun i bs => .command (mk i) bs
def formatKC (mk : Cursor → Instr) (bs : Bits) : Decoded :=
  withField 32 bs fun c bs => .command (mk (cursorOfField c)) bs
def formatKCS (mk : Cursor → Byte → Instr) (bs : Bits) : Decoded :=
  withField 32 bs fun c bs => withField 8 bs fun s bs => .command (mk (cursorOfField c) s) bs
def formatKW (mk : BitVec 5 → Instr) (bs : Bits) : Decoded :=
  withField 5 bs fun w bs => .command (mk w) bs
def formatKLZ (mk : BitVec 5 → BitVec 7 → BitVec 32 → Instr) (bs : Bits) : Decoded :=
  withField 5 bs fun w bs => withField 7 bs fun p bs => withField 32 bs fun m bs => .command (mk w p m) bs
def formatKCFG (mk : Algo → BitVec 5 → BitVec 7 → BitVec 32 → Instr) (bs : Bits) : Decoded :=
  withField 1 bs fun a bs => withField 5 bs fun w bs => withField 7 bs fun p bs => withField 32 bs fun m bs =>
    .command (mk (algoOfField a) w p m) bs

/-- The opcode map (R59). -/
def decodeOpcode (op : Byte) (bs : Bits) : Decoded :=
  match op.toNat with
  | 0x01 => formatKCFG .compress bs
  | 0x02 => formatK0 .decompress bs
  | 0x10 => formatKNV .bwWrite bs
  | 0x11 => formatK0 .bwFlush bs
  | 0x12 => formatKN .brRead bs
  | 0x20 => formatK0 .ftClear bs
  | 0x21 => formatKS .ftCount bs
  | 0x22 => formatKI .hpPush bs
  | 0x23 => formatK0 .hpPop bs
  | 0x24 => formatK0 .htBuild bs
  | 0x25 => formatKS .htFindcode bs
  | 0x30 => formatKS .hufEncSym bs
  | 0x31 => formatK0 .hufDecSym bs
  | 0x32 => formatK0 .hufCompress bs
  | 0x33 => formatK0 .hufDecompress bs
  | 0x40 => formatKW .ldInit bs
  | 0x41 => formatKCS .ldHasnext bs
  | 0x42 => formatKC .ldGetcode bs
  | 0x43 => formatKCS .ldAdd bs
  | 0x44 => formatK0 .ldReset bs
  | 0x50 => formatKLZ .lzcInit bs
  | 0x51 => formatKC .lzcEmit bs
  | 0x52 => formatKS .lzcByte bs
  | 0x53 => formatK0 .lzcFinish bs
  | 0x54 => formatK0 .lzwCompress bs
  | 0x58 => formatK0 .lzdInit bs
  | 0x59 => formatK0 .lzdCode bs
  | 0x5A => formatK0 .lzwDecompress bs
  | _ => .unassigned op

/-- The decoder of the command port, total on any bits (R57: "a decoder reads 8 bits, looks the opcode up in rule R59,
and then reads the fixed fields of that format"). -/
def decodeCommand (bs : Bits) : Decoded := withField 8 bs decodeOpcode

/-! ### Code words and magics, fetched from IN -/

/-- `GROW(w) = 2^w − 2` (R8, R65). -/
def growCode (w : Nat) : Nat := 2 ^ w - 2

/-- `RESET(w) = 2^w − 1` (R8, R65). -/
def resetCode (w : Nat) : Nat := 2 ^ w - 1

/-- The class of the code word `v` read at width `w`: the first test that holds, in the order of R65. -/
def classifyCode (w v : Nat) : CodeWord :=
  if v = growCode w then .grow
  else if v = resetCode w then .reset
  else if v < 256 then .literal (BitVec.ofNat 8 v)
  else .reference v

/-- The value of a code word at width `w`. -/
def CodeWord.value (w : Nat) : CodeWord → Nat
  | .grow => growCode w
  | .reset => resetCode w
  | .literal b => b.toNat
  | .reference c => c

/-- The codec a file's first four bytes announce (R112); none is "magic mismatch". -/
def classifyMagic (m : BitVec 32) : Option FileKind :=
  if m = Config.huffMagic then some .huffman
  else if m = Config.lzwMagic then some .lzw
  else none

/-! ### The decoder of every row, by the port it comes through -/

/-- Where the bits of an instruction come from: the command port, or the input stream (the code stream of the LZW
decoder at its current width, or a file's start). R68: "`LX.width` is the only mode state that changes how bits are
decoded". -/
inductive Port where
  | command
  | codeStream (w : Nat)
  | fileStart
  deriving DecidableEq, Repr

/-- Decode one instruction at a port. -/
def decodeAt (p : Port) (bs : Bits) : Decoded :=
  match p with
  | .command => decodeCommand bs
  | .codeStream w => withField w bs fun v rest => .command (classifyCode w v.toNat).instr rest
  | .fileStart => withField 32 bs fun m rest =>
      match classifyMagic m with
      | some k => .command k.instr rest
      | none => .unknownMagic

/-- The port a row's bits come through. -/
def Instr.port (w : Nat) : Instr → Port
  | .lzwGrow => .codeStream w
  | .lzwReset => .codeStream w
  | .lzwLiteral _ => .codeStream w
  | .lzwReference _ => .codeStream w
  | .huffFile => .fileStart
  | .lzwFile => .fileStart
  | .compress _ _ _ _ => .command
  | .decompress => .command
  | .bwWrite _ _ => .command
  | .bwFlush => .command
  | .brRead _ => .command
  | .ftClear => .command
  | .ftCount _ => .command
  | .hpPush _ => .command
  | .hpPop => .command
  | .htBuild => .command
  | .htFindcode _ => .command
  | .hufEncSym _ => .command
  | .hufDecSym => .command
  | .hufCompress => .command
  | .hufDecompress => .command
  | .ldInit _ => .command
  | .ldHasnext _ _ => .command
  | .ldGetcode _ => .command
  | .ldAdd _ _ => .command
  | .ldReset => .command
  | .lzcInit _ _ _ => .command
  | .lzcEmit _ => .command
  | .lzcByte _ => .command
  | .lzcFinish => .command
  | .lzwCompress => .command
  | .lzdInit => .command
  | .lzdCode => .command
  | .lzwDecompress => .command

/-! ### The encoder, from the same tables -/

/-- The 32 bits of a cursor operand (R58). -/
def fieldOfCursor : Cursor → Nat
  | .root => 0xFFFFFFFF
  | .code c => c

/-- The bit of an `algo` operand (R58). -/
def fieldOfAlgo : Algo → Nat
  | .huffman => 0
  | .lzw => 1

/-- The bits of a well-formed instruction. Only the code-word rows read the width `w` (R65). -/
def encode (w : Nat) : Instr → Bits
  | .compress a W p m =>
    bitsMsb 8 0x01 ++ bitsMsb 1 (fieldOfAlgo a) ++ bitsMsb 5 W.toNat ++ bitsMsb 7 p.toNat ++ bitsMsb 32 m.toNat
  | .decompress => bitsMsb 8 0x02
  | .bwWrite n v => bitsMsb 8 0x10 ++ bitsMsb 6 n.toNat ++ bitsMsb 32 v.toNat
  | .bwFlush => bitsMsb 8 0x11
  | .brRead n => bitsMsb 8 0x12 ++ bitsMsb 6 n.toNat
  | .ftClear => bitsMsb 8 0x20
  | .ftCount s => bitsMsb 8 0x21 ++ bitsMsb 8 s.toNat
  | .hpPush i => bitsMsb 8 0x22 ++ bitsMsb 9 i.toNat
  | .hpPop => bitsMsb 8 0x23
  | .htBuild => bitsMsb 8 0x24
  | .htFindcode s => bitsMsb 8 0x25 ++ bitsMsb 8 s.toNat
  | .hufEncSym s => bitsMsb 8 0x30 ++ bitsMsb 8 s.toNat
  | .hufDecSym => bitsMsb 8 0x31
  | .hufCompress => bitsMsb 8 0x32
  | .hufDecompress => bitsMsb 8 0x33
  | .ldInit W => bitsMsb 8 0x40 ++ bitsMsb 5 W.toNat
  | .ldHasnext c s => bitsMsb 8 0x41 ++ bitsMsb 32 (fieldOfCursor c) ++ bitsMsb 8 s.toNat
  | .ldGetcode c => bitsMsb 8 0x42 ++ bitsMsb 32 (fieldOfCursor c)
  | .ldAdd c s => bitsMsb 8 0x43 ++ bitsMsb 32 (fieldOfCursor c) ++ bitsMsb 8 s.toNat
  | .ldReset => bitsMsb 8 0x44
  | .lzcInit W p m => bitsMsb 8 0x50 ++ bitsMsb 5 W.toNat ++ bitsMsb 7 p.toNat ++ bitsMsb 32 m.toNat
  | .lzcEmit c => bitsMsb 8 0x51 ++ bitsMsb 32 (fieldOfCursor c)
  | .lzcByte s => bitsMsb 8 0x52 ++ bitsMsb 8 s.toNat
  | .lzcFinish => bitsMsb 8 0x53
  | .lzwCompress => bitsMsb 8 0x54
  | .lzdInit => bitsMsb 8 0x58
  | .lzdCode => bitsMsb 8 0x59
  | .lzwDecompress => bitsMsb 8 0x5A
  | .lzwGrow => bitsMsb w (CodeWord.grow.value w)
  | .lzwReset => bitsMsb w (CodeWord.reset.value w)
  | .lzwLiteral b => bitsMsb w ((CodeWord.literal b).value w)
  | .lzwReference c => bitsMsb w ((CodeWord.reference c).value w)
  | .huffFile => bitsMsb 32 Config.huffMagic.toNat
  | .lzwFile => bitsMsb 32 Config.lzwMagic.toNat

/-- How many bits the encoding has: the format lengths of R57, the current width for a code word (R68), and the 32 magic
bits by which a file is known (R62, R64). -/
def Instr.encodedLength (w : Nat) : Instr → Nat
  | .compress _ _ _ _ => 53
  | .decompress => 8
  | .bwWrite _ _ => 46
  | .bwFlush => 8
  | .brRead _ => 14
  | .ftClear => 8
  | .ftCount _ => 16
  | .hpPush _ => 17
  | .hpPop => 8
  | .htBuild => 8
  | .htFindcode _ => 16
  | .hufEncSym _ => 16
  | .hufDecSym => 8
  | .hufCompress => 8
  | .hufDecompress => 8
  | .ldInit _ => 13
  | .ldHasnext _ _ => 48
  | .ldGetcode _ => 40
  | .ldAdd _ _ => 48
  | .ldReset => 8
  | .lzcInit _ _ _ => 52
  | .lzcEmit _ => 40
  | .lzcByte _ => 16
  | .lzcFinish => 8
  | .lzwCompress => 8
  | .lzdInit => 8
  | .lzdCode => 8
  | .lzwDecompress => 8
  | .lzwGrow => w
  | .lzwReset => w
  | .lzwLiteral _ => w
  | .lzwReference _ => w
  | .huffFile => 32
  | .lzwFile => 32

/-! ### The host's view of a command word -/

/-- How many bytes the longest command takes (53 bits, R57). -/
def longestCommandBytes : Nat := 7

/-- The first `k` bytes of the number `w`, least significant byte first. -/
def bytesLittle : Nat → Nat → Bytes
  | 0, _ => []
  | k + 1, w => BitVec.ofNat 8 w :: bytesLittle k (w / 256)

/-- The command bits of the table word `w` of `nbits` bits: byte `k` of the number is the command's byte `k`, each byte
most significant bit first, and every bit above `nbits` (rounded up to whole bytes) is 0. -/
def bitsOfTableWord (nbits w : Nat) : Bits :=
  bitsOfBytes (bytesLittle (max longestCommandBytes ((nbits + 7) / 8)) (w % 2 ^ (8 * ((nbits + 7) / 8))))

/-- The command the decoder reads from a table word; none where it refuses. -/
def decodeTableWord (nbits w : Nat) : Option Instr :=
  match decodeCommand (bitsOfTableWord nbits w) with
  | .command i _ => some i
  | .unassigned _ => none
  | .truncated => none
  | .unknownMagic => none

end Sys2Proof
end

