-- ==== Sys2Proof/Machine/State.lean ====
section
/-! DEFINITION. The state of one CORE instance as plain data (R18 to R40), the reasons a step can stop, and the state at
power-on (R125). -/

namespace Sys2Proof.Machine

/-! ### Status, configuration and result registers -/

/-- `STAT.PHASE` (R22), a 2-bit register with four values. -/
inductive Phase where
  | idle
  | busy
  | done
  | failed
  deriving DecidableEq, Repr

/-- The number R22 gives a phase. -/
def Phase.code : Phase → BitVec 2
  | .idle => 0
  | .busy => 1
  | .done => 2
  | .failed => 3

/-- `STAT.ERR` (R23, R114), a 3-bit register holding an error kind. -/
inductive ErrKind where
  | none
  | malformedHeader
  | configurationError
  | unexpectedEndOfStream
  | internalInvariantViolation
  | corruptStream
  | countOverflow
  | badOperand
  deriving DecidableEq, Repr

/-- The number R114 gives an error kind. -/
def ErrKind.code : ErrKind → BitVec 3
  | .none => 0
  | .malformedHeader => 1
  | .configurationError => 2
  | .unexpectedEndOfStream => 3
  | .internalInvariantViolation => 4
  | .corruptStream => 5
  | .countOverflow => 6
  | .badOperand => 7

/-- The `STAT` unit (R22, R23, R26). `total` is `STAT.TOTAL`, `resets` is `STAT.RESETS`. -/
structure Stat where
  phase : Phase
  err : ErrKind
  total : Nat
  resets : Nat
  deriving DecidableEq, Repr

/-- `RES` (R24), the result register of a unit command. -/
inductive Result where
  | none
  | num (v : Nat)
  | bool (t : Bool)
  | bits (s : Bits)
  | exhausted
  deriving DecidableEq, Repr

/-- The `CFG` registers (R25): `ALGO` 1 bit, `MAXW` 5 bits, `PCT` 7 bits, `MINS` 32 bits. -/
structure Cfg where
  algo : Algo
  maxw : BitVec 5
  pct : BitVec 7
  mins : BitVec 32
  deriving DecidableEq, Repr

/-! ### The units (R30 to R38) -/

/-- `BW` (R30): the pending bits of the current partial byte as a number, how many they are, and the bits written. -/
structure BitWriter where
  acc : Nat
  nacc : Nat
  total : Nat
  deriving DecidableEq, Repr

/-- `BR` (R28, R31): the number of bits of `IN.data` consumed. -/
structure BitReader where
  pos : Nat
  deriving DecidableEq, Repr

/-- `FT` (R32): one count per symbol. -/
structure FreqTable where
  count : Vector Nat 256
  deriving DecidableEq, Repr

/-- The two kinds of Huffman node (R17, R33). -/
inductive NodeKind where
  | leaf (sym : Byte)
  | internal (left right : Nat)
  deriving DecidableEq, Repr

/-- A record `HT.node[i]` (R33). -/
structure Node where
  kind : NodeKind
  weight : Nat
  parent : Option Nat
  deriving DecidableEq, Repr

/-- `HT` (R33): the allocated nodes `0..HT.n−1` in index order (`HT.n` is the list's length), the root, and the leaf of
each symbol. -/
structure HuffTree where
  node : List Node
  root : Option Nat
  leaf : Vector (Option Nat) 256
  deriving DecidableEq, Repr

/-- `HT.n` (R33): the number of nodes allocated. -/
def HuffTree.n (t : HuffTree) : Nat := t.node.length

/-- `HP` (R34): the queued node indices, in rising order, which fixes one list for each set (the array layout is not
architectural, R76). -/
structure Heap where
  items : List Nat
  deriving DecidableEq, Repr

/-- `HP.size` (R34). -/
def Heap.size (h : Heap) : Nat := h.items.length

/-- `HD` (R35). -/
structure HuffDec where
  total : Nat
  emitted : Nat
  deriving DecidableEq, Repr

/-- `LD` (R36): the edges `(c, s) ↦ d` other than the root's, in the order of their codes, the next code, the maximum
width and the last code. -/
structure LzwDict where
  child : List ((Nat × Byte) × Nat)
  next : Nat
  W : Nat
  last : Nat
  deriving DecidableEq, Repr

/-- `LE` (R37). -/
structure LzwEnc where
  cur : Cursor
  width : Nat
  hits : Nat
  misses : Nat
  resets : Nat
  pct : BitVec 7
  mins : BitVec 32
  deriving DecidableEq, Repr

/-- `LX` (R38). `table` is kept in the order of its codes, `reg` in the order of registration. -/
structure LzwDec where
  table : List (Nat × Bytes)
  reg : List Bytes
  last : Bytes
  next : Nat
  width : Nat
  W : Nat
  lastCode : Nat
  done : Bool
  deriving DecidableEq, Repr

/-- The units that a raise makes undefined (R61, R115). `LD`, `LE` and `LX` are also undefined, by themselves, until
their initialising command has run since power-on or the last START (R61, R126): `none` is that state of the spec's own. -/
structure Units where
  bw : BitWriter
  br : BitReader
  ft : FreqTable
  ht : HuffTree
  hp : Heap
  hd : HuffDec
  ld : Option LzwDict
  le : Option LzwEnc
  lx : Option LzwDec
  deriving DecidableEq, Repr

/-! ### The host (R18, R122) -/

/-- What the host does to the block, one action a step. -/
inductive HostAction where
  /-- Supply `IN.data` whole (R28, R122 step 2). -/
  | supply (data : Bytes)
  /-- Feed `OUT.data` to `IN.data` between commands (R55, P3 step 3). -/
  | feedBack
  /-- Issue the command whose bits these are (R57, R122 step 3). -/
  | issue (cmd : Bits)
  deriving DecidableEq, Repr

/-! ### The whole state -/

/-- One CORE instance and the host actions that wait for it. `cfg` is what the last COMPRESS
stored in `CFG` (R25, R111), `none` before any has; `cfgReady` says that a COMPRESS has succeeded since power-on, before
which `CFG` is undefined to a unit command that reads it (R25, R61, I5; log entry 17); `units` is `none` from a raise to the next START (R61, R115). `input` and `out` are
`IN.data` and `OUT.data` (R27, R28). `host` and `draws` are the model's own: what the host will do, and how many free
values have been drawn (log entries 2 and 4). -/
structure State where
  stat : Stat
  res : Result
  cfg : Option Cfg
  cfgReady : Bool
  input : Bytes
  out : Bytes
  units : Option Units
  host : List HostAction
  draws : Nat
  deriving DecidableEq, Repr

/-! ### The reasons a step can stop -/

/-- Stuck states: the spec's own pseudocode has no next step there. Every one needs a node arena that HT_BUILD cannot make
(R80, R81), so no run from reset and no state that meets the invariant of Safety.lean reaches one. Log entry 6. -/
inductive Fault where
  /-- Raised by HP_POP, HT_BUILD, HT_FINDCODE and HUF_DEC_SYM when a stored node index lies outside `HT.node[0..HT.n−1]`
  (R33: only those nodes are valid), or a parent link leads to a leaf. Safe: the model stops. -/
  | danglingNode
  /-- Raised by HT_FINDCODE and HUF_ENC_SYM when the parent links form a cycle, so that the loop of R82 never ends. Safe:
  the model stops. -/
  | parentCycle
  /-- Raised by no run: the bound of a structurally recursive loop was passed (R79, R84, R97, R108). Safe: the model
  stops. -/
  | loopBound
  deriving DecidableEq, Repr

/-- Refusals: the model has no meaning for what the host did. -/
inductive Refusal where
  /-- Raised by exec's arm of an instruction that has no meaning yet; no arm is left. Safe: the model stops. -/
  | notModelled (mnemonic : String)
  /-- Raised by step when the issued bits end before the fields of the opcode's format do: they are no command (R57).
  Safe: the model stops. Log entry 7. -/
  | truncatedCommand
  /-- Raised by step when the host changes `IN.data` while a command runs; R28 and R128 forbid it, and I18 says "the model
  has no such step". Safe: the model stops. -/
  | inputWhileBusy
  deriving DecidableEq, Repr

/-! ### Start and power-on values -/

/-- The empty tree of START (R110). -/
def HuffTree.empty : HuffTree := { node := [], root := none, leaf := Vector.replicate 256 none }

/-- The table of zero counts of START and FT_CLEAR (R73, R110). -/
def FreqTable.zero : FreqTable := { count := Vector.replicate 256 0 }

/-- The start-of-command value of every unit (R110), which is also its power-on value (R125). -/
def Units.start : Units :=
  { bw := { acc := 0, nacc := 0, total := 0 }
    br := { pos := 0 }
    ft := FreqTable.zero
    ht := HuffTree.empty
    hp := { items := [] }
    hd := { total := 0, emitted := 0 }
    ld := none
    le := none
    lx := none }

/-- The power-on state (R125). The host has nothing pending and no free value has been drawn. -/
def State.reset : State :=
  { stat := { phase := .idle, err := .none, total := 0, resets := 0 }
    res := .none
    cfg := none
    cfgReady := false
    input := []
    out := []
    units := some Units.start
    host := []
    draws := 0 }

end Sys2Proof.Machine
end

