-- ==== Sys2Proof/Machine/Ops.lean ====
section
/-! DEFINITION. The named operations every meaning is built from: state updates, the effect of a command body, reading a
unit that may be undefined (R61), the streams (R27, R28, R70 to R72), the raise (R115, R116), and the frame around a unit
command and a host command (R110, R122). -/

namespace Sys2Proof.Machine

/-! ### State updates -/

def State.withStat (s : State) (x : Stat) : State := { s with stat := x }
def State.withRes (s : State) (x : Result) : State := { s with res := x }
def State.withCfg (s : State) (x : Option Cfg) : State := { s with cfg := x }
def State.withCfgReady (s : State) (x : Bool) : State := { s with cfgReady := x }
def State.withInput (s : State) (x : Bytes) : State := { s with input := x }
def State.withOut (s : State) (x : Bytes) : State := { s with out := x }
def State.withUnits (s : State) (x : Option Units) : State := { s with units := x }
def State.withHost (s : State) (x : List HostAction) : State := { s with host := x }
def State.withDraws (s : State) (x : Nat) : State := { s with draws := x }

/-- Write units. While they are undefined, a write leaves them so (R61: "until the next START"; log entry 8). -/
def State.mapUnits (s : State) (f : Units → Units) : State := s.withUnits (s.units.map f)

/-- `STAT.TOTAL` is written (R26). -/
def State.withTotal (s : State) (n : Nat) : State := s.withStat { s.stat with total := n }
/-- `STAT.RESETS` is written (R26). -/
def State.withResets (s : State) (n : Nat) : State := s.withStat { s.stat with resets := n }
/-- `STAT.PHASE` is written (R22). -/
def State.withPhase (s : State) (p : Phase) : State := s.withStat { s.stat with phase := p }

/-! ### The effect of a command body -/

/-- What running part of a command gives: a value and a state, a raise with the state it happens in, or a stuck state. -/
inductive Eff (α : Type) where
  | ok (a : α) (s : State)
  | raised (e : ErrKind) (s : State)
  | stuck (f : Fault)
  deriving DecidableEq, Repr

/-- Go on with the rest of a command; a raise ends it at once (R115). -/
def Eff.bind {α β : Type} (r : Eff α) (k : α → State → Eff β) : Eff β :=
  match r with
  | .ok a s => k a s
  | .raised e s => .raised e s
  | .stuck f => .stuck f

/-- Do `f` for each element of a list, in order. -/
def forEach {α : Type} (f : α → State → Eff Unit) : List α → State → Eff Unit
  | [], s => .ok () s
  | a :: as, s => (f a s).bind fun _ s => forEach f as s

/-- Read the units; R61: "A command that reads a unit whose state is undefined raises `BadOperand`". -/
def readUnits {α : Type} (s : State) (k : Units → Eff α) : Eff α :=
  match s.units with
  | none => .raised .badOperand s
  | some u => k u

/-- Read `LD` (R61). -/
def readLd {α : Type} (s : State) (k : LzwDict → Eff α) : Eff α :=
  readUnits s fun u =>
    match u.ld with
    | none => .raised .badOperand s
    | some d => k d

/-- Read `LE` (R61). -/
def readLe {α : Type} (s : State) (k : LzwEnc → Eff α) : Eff α :=
  readUnits s fun u =>
    match u.le with
    | none => .raised .badOperand s
    | some e => k e

/-- Read `LX` (R61). -/
def readLx {α : Type} (s : State) (k : LzwDec → Eff α) : Eff α :=
  readUnits s fun u =>
    match u.lx with
    | none => .raised .badOperand s
    | some x => k x

/-- Read `CFG` in a unit command (R25: "A unit command that reads them before the first successful COMPRESS raises
`BadOperand`"; R61). -/
def readCfg {α : Type} (s : State) (k : Cfg → Eff α) : Eff α :=
  match s.cfgReady, s.cfg with
  | true, some c => k c
  | true, none => .raised .badOperand s
  | false, _ => .raised .badOperand s

/-- Write `LD`; the other units stay. -/
def setLd (s : State) (d : LzwDict) : State := s.mapUnits fun u => { u with ld := some d }
/-- Write `LE`; the other units stay. -/
def setLe (s : State) (e : LzwEnc) : State := s.mapUnits fun u => { u with le := some e }
/-- Write `LX`; the other units stay. -/
def setLx (s : State) (x : LzwDec) : State := s.mapUnits fun u => { u with lx := some x }

/-! ### Streams: SinkByte, WriteBits, Flush, ReadBits -/

/-- `SinkByte(b)` (R27): "it appends `b`". -/
def sinkByte (b : Byte) (s : State) : State := s.withOut (s.out ++ [b])

/-- `emit` (R14): SinkByte applied to each byte in order. -/
def emitBytes (bs : Bytes) (s : State) : State := s.withOut (s.out ++ bs)

/-- One pass of the loop of R70: shift one bit into the accumulator, and sink the byte when it has 8. -/
def putBit (b : Bool) (p : BitWriter × Bytes) : BitWriter × Bytes :=
  let acc := 2 * p.1.acc + b.toNat
  if p.1.nacc + 1 = 8 then ({ p.1 with acc := 0, nacc := 0 }, p.2 ++ [BitVec.ofNat 8 acc])
  else ({ p.1 with acc := acc, nacc := p.1.nacc + 1 }, p.2)

/-- The loop of R70: the low `n` bits of `v`, "most significant written bit first". -/
def putBits (v : Nat) : Nat → BitWriter × Bytes → BitWriter × Bytes
  | 0, p => p
  | n + 1, p => putBits v n (putBit (v.testBit n) p)

/-- `WriteBits(n, v)` (R70). -/
def writeBits (n v : Nat) (s : State) : Eff Unit :=
  if n > Config.maxRwBits then .raised .badOperand s
  else readUnits s fun u =>
    match putBits v n (u.bw, s.out) with
    | (bw, out) =>
      .ok () (((s.withOut out).withUnits (some { u with bw := { bw with total := u.bw.total + n } })).withTotal
        (u.bw.total + n))

/-- `Flush()` (R71). -/
def flush (s : State) : Eff Unit :=
  readUnits s fun u =>
    if u.bw.nacc > 0 then
      .ok () ((sinkByte (BitVec.ofNat 8 (u.bw.acc * 2 ^ (8 - u.bw.nacc))) s).withUnits
        (some { u with bw := { u.bw with acc := 0, nacc := 0 } }))
    else .ok () s

/-- Stream bit `k` of a byte sequence: "bit `7 − (k mod 8)` of byte `floor(k / 8)`" (R12). Only read inside the sequence. -/
def bitAt (data : Bytes) (k : Nat) : Bool := (data.getD (k / 8) 0).toNat.testBit (7 - k % 8)

/-- The loop of R72: `n` bits from position `pos`, shifted into `r`. -/
def getBits (data : Bytes) : Nat → Nat → Nat → Nat
  | 0, _, r => r
  | n + 1, pos, r => getBits data n (pos + 1) (2 * r + (bitAt data pos).toNat)

/-- How many bits of IN are left (R31). If the host has supplied a shorter input since `BR.pos` moved, none are (log
entry 5). -/
def bitsLeft (s : State) (u : Units) : Nat := 8 * s.input.length - u.br.pos

/-- `ReadBits(n)` (R72). `none` is `EXHAUSTED`. -/
def readBits (n : Nat) (s : State) : Eff (Option Nat) :=
  if n > Config.maxRwBits then .raised .badOperand s
  else readUnits s fun u =>
    if bitsLeft s u < n then
      .ok none (s.withUnits (some { u with br := { pos := 8 * s.input.length } }))
    else
      .ok (some (getBits s.input n u.br.pos 0)) (s.withUnits (some { u with br := { pos := u.br.pos + n } }))

/-- ReadBits where the caller's rule makes exhaustion `UnexpectedEndOfStream` (R72, R84, R86, R105, R112). -/
def readOrEnd (n : Nat) (s : State) : Eff Nat :=
  (readBits n s).bind fun r s =>
    match r with
    | none => .raised .unexpectedEndOfStream s
    | some v => .ok v s

/-- Byte `k` of a magic, `m0` first (R44). -/
def magicByte (m : BitVec 32) (k : Nat) : Byte := (m >>> (24 - 8 * k)).setWidth 8

/-- The four bytes of a magic in order (R44, R62, R64). -/
def magicBytes (m : BitVec 32) : Bytes := (List.range 4).map (magicByte m)

/-- Write a magic: four times `WriteBits(8, mk)` (R44). -/
def writeMagic (m : BitVec 32) (s : State) : Eff Unit :=
  forEach (fun b s => writeBits 8 b.toNat s) (magicBytes m) s

/-- Read a magic: four times `ReadBits(8)`, the first byte most significant (R112, R44). -/
def readMagic (s : State) : Eff (BitVec 32) :=
  (readOrEnd 8 s).bind fun m0 s =>
  (readOrEnd 8 s).bind fun m1 s =>
  (readOrEnd 8 s).bind fun m2 s =>
  (readOrEnd 8 s).bind fun m3 s =>
  .ok (BitVec.ofNat 32 (((m0 * 256 + m1) * 256 + m2) * 256 + m3)) s

/-! ### Raise and START (R110, R115, R116, R119) -/

/-- `RAISE(E)` (R115, R116), in the state `s` of the raise, for a command that started in `start`: the error and the phase
are recorded, RES is cleared, every unit but CFG, STAT and OUT becomes undefined. "If the raise comes before the
command's first `SinkByte`, `OUT.data = []` after the raise"; otherwise OUT is a free value (log entry 2). SinkByte is the
only writer of OUT and only appends, so a byte was sunk exactly when OUT is longer than it was at the start. -/
def raise (e : ErrKind) (start s : State) : State :=
  let t := ((s.withStat { s.stat with err := e, phase := .failed }).withRes .none).withUnits none
  if s.out.length = start.out.length then t.withOut []
  else (t.withOut (Config.unspecifiedOut s.draws)).withDraws (s.draws + 1)

/-- `START()` (R110). It is also the only way on after a raise (R119: "the host's only option is a new host command, which
rebuilds all unit state"): no rule returns into a failed command. -/
def startHost (s : State) : State :=
  (((s.withStat { phase := .busy, err := .none, total := 0, resets := 0 }).withRes .none).withOut []).withUnits
    (some Units.start)

/-- The start of a unit command (R22, R23, R61, R122): `BUSY`, `STAT.ERR` 0, and nothing reset. -/
def startUnit (s : State) : State := s.withStat { s.stat with phase := .busy, err := .none }

/-- The end of a command that started in `start` (R22, R115). -/
def finish (start : State) (r : Eff Unit) : Host.Outcome State Fault Refusal :=
  match r with
  | .ok _ s => .next (s.withPhase .done)
  | .raised e s => .next (raise e start s)
  | .stuck f => .fault f

/-- A unit command around its body. One issued while `BUSY` "has no effect" (R122). -/
def unitCommand (body : State → Eff Unit) (s : State) : Host.Outcome State Fault Refusal :=
  if s.stat.phase = .busy then .next s else finish (startUnit s) (body (startUnit s))

/-- A host command around its body (R110, R122). -/
def hostCommand (body : State → Eff Unit) (s : State) : Host.Outcome State Fault Refusal :=
  if s.stat.phase = .busy then .next s else finish (startHost s) (body (startHost s))

/-- The body of a command that sets RES to `none` at its end (R24). -/
def noResult (body : State → Eff Unit) (s : State) : Eff Unit :=
  (body s).bind fun _ s => .ok () (s.withRes .none)

/-- The body of a command that stores what it returns in RES (R24). -/
def withResult {α : Type} (f : α → Result) (body : State → Eff α) (s : State) : Eff Unit :=
  (body s).bind fun a s => .ok () (s.withRes (f a))

end Sys2Proof.Machine
end

