-- ==== Sys2Proof/Machine/Flags.lean ====
section
/-! DEFINITION. The conditions a rule computes from state (R29: the block has no condition-code register) and the code
bounds they use (R8). -/

namespace Sys2Proof.Machine

/-- `LAST_CODE(W) = 2^W − 3` (R8, D15). -/
def lastCodeAt (W : Nat) : Nat := 2 ^ W - 3

/-- `full() = (LD.next > LD.last)` (R90). -/
def LzwDict.full (d : LzwDict) : Bool := decide (d.next > d.last)

/-- `reset_due()` (R100), exactly over naturals, both comparisons strict (D17). -/
def LzwEnc.resetDue (e : LzwEnc) : Bool :=
  decide (e.hits + e.misses > e.mins.toNat) && decide (100 * e.misses > e.pct.toNat * (e.hits + e.misses))

/-- `key(i) = (HT.node[i].weight, i)` (R75), none for an index outside the arena. -/
def heapKey (nodes : List Node) (i : Nat) : Option (Nat × Nat) := (nodes[i]?).map fun nd => (nd.weight, i)

/-- The lexicographic order of heap keys (R34, R75). -/
def keyLess (a b : Nat × Nat) : Bool := decide (a.1 < b.1 ∨ (a.1 = b.1 ∧ a.2 < b.2))

/-- The lesser of two keys. -/
def keyMin (a b : Nat × Nat) : Nat × Nat := if keyLess b a then b else a

/-- The item with the least key (R75, R78), none for an empty list or one with an index outside the arena. -/
def leastItem (nodes : List Node) : List Nat → Option (Nat × Nat)
  | [] => none
  | [i] => heapKey nodes i
  | i :: is =>
    match heapKey nodes i, leastItem nodes is with
    | some a, some b => some (keyMin a b)
    | _, _ => none

/-- `EXHAUSTED` as a result (R24, R72, R106). -/
def readResult : Option Nat → Result
  | none => .exhausted
  | some v => .num v

end Sys2Proof.Machine
end

