-- ==== Sys2Proof/Machine/Operands.lean ====
section
/-! DEFINITION. Which operand values a command accepts (R58). A width `n` above 32 is refused by WriteBits and ReadBits
themselves (Ops.lean, R70, R72). -/

namespace Sys2Proof.Machine

/-- `W` (R58): "Legal values are 9 to 31. A value from 0 to 8 raises `ConfigurationError`". -/
def legalMaxWidth (W : Nat) : Bool := decide (9 ≤ W)

/-- `pct` (R58): "Legal values are 0 to 100". -/
def legalPct (pct : BitVec 7) : Bool := decide (pct.toNat ≤ 100)

/-- `i` (R58): "It is legal when `i < HT.n`". -/
def legalNode (t : HuffTree) (i : Nat) : Bool := decide (i < t.n)

/-- A cursor that names an entry: `ROOT`, or a code below `LD.next` (R36, R58). -/
def legalCursor (d : LzwDict) : Cursor → Bool
  | .root => true
  | .code c => decide (c < d.next)

/-- The code of a non-root cursor that names an entry (R92, R93, R97: `ROOT` holds no code). -/
def entryCode (d : LzwDict) : Cursor → Option Nat
  | .root => none
  | .code c => if c < d.next then some c else none

end Sys2Proof.Machine
end

