-- ==== Sys2Proof/Machine/BitIo.lean ====
section
/-! DEFINITION. BW_WRITE, BW_FLUSH and BR_READ (R70 to R72). -/

namespace Sys2Proof.Machine

/-- BW_WRITE (R70). -/
def execBwWrite (n : BitVec 6) (v : BitVec 32) (s : State) : Host.Outcome State Fault Refusal :=
  unitCommand (noResult (writeBits n.toNat v.toNat)) s

/-- BW_FLUSH (R71). -/
def execBwFlush (s : State) : Host.Outcome State Fault Refusal := unitCommand (noResult flush) s

/-- BR_READ (R72). -/
def execBrRead (n : BitVec 6) (s : State) : Host.Outcome State Fault Refusal :=
  unitCommand (withResult readResult (readBits n.toNat)) s

end Sys2Proof.Machine
end

