-- ==== Sys2Proof/Machine/HuffmanTree.lean ====
section
/-! DEFINITION. FrequencyTable, min-heap and tree builder (R73 to R82). -/

namespace Sys2Proof.Machine

/-! ### FrequencyTable -/

/-- `FT.count[s]` (R32). -/
def FreqTable.get (t : FreqTable) (s : Byte) : Nat := t.count[s.toNat]'s.isLt

/-- Write `FT.count[s]` (R32). -/
def FreqTable.set (t : FreqTable) (s : Byte) (n : Nat) : FreqTable := { count := t.count.set s.toNat n s.isLt }

/-- The symbols in ascending order, "for s from 0 to 255" (R79, R86, D9). -/
def allSymbols : List Byte := (List.range Config.nsym).map (BitVec.ofNat 8)

/-- The counts in symbol order. -/
def FreqTable.counts (t : FreqTable) : List Nat := t.count.toList

/-- Each symbol with its count, in ascending symbol order. -/
def FreqTable.entries (t : FreqTable) : List (Byte × Nat) := allSymbols.zip t.counts

/-- The sum of all counts (R86). -/
def FreqTable.sum (t : FreqTable) : Nat := t.counts.sum

/-- `FT_CLEAR()` (R73). -/
def ftClear (s : State) : Eff Unit := .ok () (s.mapUnits fun u => { u with ft := FreqTable.zero })

/-- `FT_COUNT(b)` (R74). -/
def ftCount (b : Byte) (s : State) : Eff Unit :=
  readUnits s fun u => .ok () (s.withUnits (some { u with ft := u.ft.set b (u.ft.get b + 1) }))

/-! ### The min-heap -/

/-- Insert an index that is not in a rising list. -/
def insertRising (i : Nat) : List Nat → List Nat
  | [] => [i]
  | j :: js => if i < j then i :: j :: js else j :: insertRising i js

/-- `HP_PUSH(i)` (R77). -/
def heapPush (i : Nat) (s : State) : Eff Unit :=
  readUnits s fun u =>
    if !legalNode u.ht i || u.hp.items.contains i || u.hp.size == Config.heapCap then .raised .badOperand s
    else .ok () (s.withUnits (some { u with hp := { items := insertRising i u.hp.items } }))

/-- `HP_POP()` (R78). -/
def heapPop (s : State) : Eff Nat :=
  readUnits s fun u =>
    if u.hp.size = 0 then .raised .badOperand s
    else
      match leastItem u.ht.node u.hp.items with
      | none => .stuck .danglingNode
      | some k => .ok k.2 (s.withUnits (some { u with hp := { items := u.hp.items.erase k.2 } }))

/-! ### Tree building -/

/-- Allocate a node (R79: `i <- HT.n ; HT.n <- HT.n + 1 ; HT.node[i] <- ...`) and return its index. -/
def allocNode (nd : Node) (s : State) : Eff Nat :=
  readUnits s fun u => .ok u.ht.n (s.withUnits (some { u with ht := { u.ht with node := u.ht.node ++ [nd] } }))

/-- `HT.leaf[b] <- i` (R79). -/
def setLeaf (b : Byte) (i : Nat) (s : State) : State :=
  s.mapUnits fun u => { u with ht := { u.ht with leaf := u.ht.leaf.set b.toNat (some i) b.isLt } }

/-- `HT.node[a].parent <- i` (R79). -/
def setParent (a i : Nat) (s : State) : State :=
  s.mapUnits fun u =>
    { u with ht := { u.ht with node := u.ht.node.modify a fun nd => { nd with parent := some i } } }

/-- `HT.node[a].weight` (R79). -/
def nodeWeight (a : Nat) (s : State) : Eff Nat :=
  readUnits s fun u =>
    match u.ht.node[a]? with
    | none => .stuck .danglingNode
    | some nd => .ok nd.weight s

/-- One pass of the first loop of R79: a leaf for symbol `e.1`, which occurs `e.2` times, if it occurs. -/
def buildLeaf (e : Byte × Nat) (s : State) : Eff Unit :=
  if e.2 > 0 then
    (allocNode { kind := .leaf e.1, weight := e.2, parent := none } s).bind fun i s =>
    heapPush i (setLeaf e.1 i s)
  else .ok () s

/-- One pass of the second loop of R79: the two least nodes get a parent, the first popped its left child (D11). -/
def mergeTwo (s : State) : Eff Unit :=
  (heapPop s).bind fun a s =>
  (heapPop s).bind fun b s =>
  (nodeWeight a s).bind fun wa s =>
  (nodeWeight b s).bind fun wb s =>
  (allocNode { kind := .internal a b, weight := wa + wb, parent := none } s).bind fun i s =>
  heapPush i (setParent b i (setParent a i s))

/-- The second loop of R79, "while HP.size >= 2". Each pass lowers `HP.size` by 1, so `HP.size` passes are enough. -/
def mergeAll : Nat → State → Eff Unit
  | 0, s => readUnits s fun u => if u.hp.size ≥ 2 then .stuck .loopBound else .ok () s
  | k + 1, s => readUnits s fun u =>
      if u.hp.size ≥ 2 then (mergeTwo s).bind fun _ s => mergeAll k s else .ok () s

/-- The end of R79: "if HP.size = 1: HT.root <- HP_POP()". -/
def takeRoot (s : State) : Eff Unit :=
  readUnits s fun u =>
    if u.hp.size = 1 then
      (heapPop s).bind fun i s => .ok () (s.mapUnits fun u => { u with ht := { u.ht with root := some i } })
    else .ok () s

/-- `HT_BUILD()` (R79). -/
def htBuild (s : State) : Eff Unit :=
  readUnits s fun u =>
    (forEach buildLeaf u.ft.entries (s.withUnits (some { u with ht := HuffTree.empty, hp := { items := [] } }))).bind
      fun _ s => readUnits s fun u => (mergeAll u.hp.size s).bind fun _ s => takeRoot s

/-! ### Code words -/

/-- `HT.leaf[b]` (R33). -/
def HuffTree.leafOf (t : HuffTree) (b : Byte) : Option Nat := t.leaf[b.toNat]'b.isLt

/-- The loop of R82 from node `i` up: a bit for each link, nearest the leaf first, put in front of the bits found so far,
which reverses them. At most `HT.n` links lead up a tree. -/
def climb (t : HuffTree) : Nat → Nat → Bits → Except Fault Bits
  | 0, _, _ => .error .parentCycle
  | k + 1, i, code =>
    match t.node[i]? with
    | none => .error .danglingNode
    | some nd =>
      match nd.parent with
      | none => .ok code
      | some p =>
        match t.node[p]? with
        | none => .error .danglingNode
        | some pn =>
          match pn.kind with
          | .leaf _ => .error .danglingNode
          | .internal _ right => climb t k p (decide (right = i) :: code)

/-- `HT_FINDCODE(b)` (R82). -/
def findCode (b : Byte) (s : State) : Eff Bits :=
  readUnits s fun u =>
    match u.ht.leafOf b with
    | none => .raised .badOperand s
    | some i =>
      match climb u.ht u.ht.n i [] with
      | .error f => .stuck f
      | .ok code => .ok code s

/-! ### The commands -/

/-- FT_CLEAR (R73). -/
def execFtClear (s : State) : Host.Outcome State Fault Refusal := unitCommand (noResult ftClear) s

/-- FT_COUNT (R74). -/
def execFtCount (b : Byte) (s : State) : Host.Outcome State Fault Refusal := unitCommand (noResult (ftCount b)) s

/-- HP_PUSH (R77). -/
def execHpPush (i : BitVec 9) (s : State) : Host.Outcome State Fault Refusal :=
  unitCommand (noResult (heapPush i.toNat)) s

/-- HP_POP (R78). -/
def execHpPop (s : State) : Host.Outcome State Fault Refusal := unitCommand (withResult .num heapPop) s

/-- HT_BUILD (R79). -/
def execHtBuild (s : State) : Host.Outcome State Fault Refusal := unitCommand (noResult htBuild) s

/-- HT_FINDCODE (R82). -/
def execHtFindcode (b : Byte) (s : State) : Host.Outcome State Fault Refusal :=
  unitCommand (withResult .bits (findCode b)) s

end Sys2Proof.Machine
end

