-- ==== Sys2Proof/Machine/HuffmanCodec.lean ====
section
/-! DEFINITION. Huffman encoder and decoder (R83 to R87), and the effect of a Huffman file (R62). -/

namespace Sys2Proof.Machine

/-! ### Encoder -/

/-- `HUF_ENC_SYM(b)` (R83): the code, one bit at a time. -/
def hufEncSym (b : Byte) (s : State) : Eff Unit :=
  (findCode b s).bind fun code s => forEach (fun (t : Bool) s => writeBits 1 t.toNat s) code s

/-- "if some s has FT.count[s] > 2^32 - 1: raise CountOverflow" (R85). -/
def checkCounts (s : State) : Eff Unit :=
  readUnits s fun u =>
    if u.ft.counts.any fun n => decide (n > 2 ^ Config.countBits - 1) then .raised .countOverflow s else .ok () s

/-- The 256 counts, big-endian, in symbol order (R62, R85). -/
def writeCounts (s : State) : Eff Unit :=
  readUnits s fun u => forEach (writeBits Config.countBits) u.ft.counts s

/-- `HUF_COMPRESS()` (R85). -/
def hufCompress (s : State) : Eff Unit :=
  (ftClear s).bind fun _ s =>
  (forEach ftCount s.input s).bind fun _ s =>
  (checkCounts s).bind fun _ s =>
  (htBuild s).bind fun _ s =>
  (writeMagic Config.huffMagic s).bind fun _ s =>
  (writeCounts s).bind fun _ s =>
  (forEach hufEncSym s.input s).bind fun _ s =>
  flush s

/-! ### Decoder -/

/-- The descent of R84 from node `n` to a leaf, one bit a level; it ends at a leaf or with the input. -/
def descend : Nat → Nat → State → Eff Byte
  | 0, _, _ => .stuck .loopBound
  | k + 1, n, s => readUnits s fun u =>
      match u.ht.node[n]? with
      | none => .stuck .danglingNode
      | some nd =>
        match nd.kind with
        | .leaf sym => .ok sym s
        | .internal left right =>
          (readOrEnd 1 s).bind fun t s => descend k (if t = 0 then left else right) s

/-- `HUF_DEC_SYM()` (R84); its value is the symbol. -/
def hufDecSym (s : State) : Eff Byte :=
  readUnits s fun u =>
    match u.ht.root with
    | none => .raised .badOperand s
    | some root =>
      (descend (bitsLeft s u + 1) root s).bind fun sym s =>
      .ok sym ((sinkByte sym s).mapUnits fun u => { u with hd := { u.hd with emitted := u.hd.emitted + 1 } })

/-- One count of the header (R86). -/
def readCount (b : Byte) (s : State) : Eff Unit :=
  (readOrEnd Config.countBits s).bind fun v s => .ok () (s.mapUnits fun u => { u with ft := u.ft.set b v })

/-- "exactly one s has FT.count[s] > 0" (R86): that symbol. -/
def FreqTable.onlySymbol (t : FreqTable) : Option Byte :=
  match t.entries.filter fun e => decide (e.2 > 0) with
  | [e] => some e.1
  | _ => none

/-- The loop of R86, "while HD.emitted < HD.total: HUF_DEC_SYM()": each pass emits one symbol, so the passes are as many
as the symbols still to emit. -/
def decodeSymbols : Nat → State → Eff Unit
  | 0, s => .ok () s
  | k + 1, s => (hufDecSym s).bind fun _ s => decodeSymbols k s

/-- `HUF_DECOMPRESS()` (R86), which runs after the magic. -/
def hufDecompress (s : State) : Eff Unit :=
  (forEach readCount allSymbols s).bind fun _ s =>
  readUnits s fun u =>
    let total := u.ft.sum
    match u.ft.onlySymbol with
    | some b => .ok () ((emitBytes (List.replicate total b) s).mapUnits fun u =>
        { u with hd := { total := total, emitted := total } })
    | none =>
      (htBuild (s.mapUnits fun u => { u with hd := { total := total, emitted := 0 } })).bind fun _ s =>
      decodeSymbols total s

/-! ### The commands and the file row -/

/-- HUF_ENC_SYM (R83). -/
def execHufEncSym (b : Byte) (s : State) : Host.Outcome State Fault Refusal :=
  unitCommand (noResult (hufEncSym b)) s

/-- HUF_DEC_SYM (R84). -/
def execHufDecSym (s : State) : Host.Outcome State Fault Refusal :=
  unitCommand (withResult (fun b : Byte => .num b.toNat) hufDecSym) s

/-- HUF_COMPRESS (R85). -/
def execHufCompress (s : State) : Host.Outcome State Fault Refusal := unitCommand (noResult hufCompress) s

/-- HUF_DECOMPRESS (R86). -/
def execHufDecompress (s : State) : Host.Outcome State Fault Refusal := unitCommand (noResult hufDecompress) s

/-- The row HUFF_FILE (R62): what the block does with a Huffman file once its magic has been fetched and matched (R112:
"if m = HUFF_MAGIC: HUF_DECOMPRESS()"). Log entry 3. -/
def execHuffFile (s : State) : Host.Outcome State Fault Refusal := unitCommand (noResult hufDecompress) s

end Sys2Proof.Machine
end

