-- ==== Sys2Proof/Machine/LzwDecoder.lean ====
section
/-! DEFINITION. The LZW decoder (R105 to R109), the effect of each class of code word (R65, R106), and the effect of an LZW
file (R64). -/

namespace Sys2Proof.Machine

/-- `LZD_INIT()` (R105); its value is the width field. -/
def lzdInit (s : State) : Eff Nat :=
  (readOrEnd Config.widthFieldBits s).bind fun W s =>
  if !legalMaxWidth W then .raised .configurationError s
  else
    .ok W (setLx s { table := [], reg := [], last := [], next := Config.firstCode, width := Config.initWidth, W := W,
                     lastCode := lastCodeAt W, done := false })

/-- The string of a code in `LX.table` (R38). -/
def tableAt (c : Nat) : List (Nat × Bytes) → Option Bytes
  | [] => none
  | e :: es => if e.1 = c then some e.2 else tableAt c es

/-- The last statement of R106: register `toDict` if it is longer than 1, not registered, and a code is left. -/
def LzwDec.register (x : LzwDec) (toDict : Bytes) : LzwDec :=
  if toDict.length > 1 ∧ toDict ∉ x.reg ∧ x.next ≤ x.lastCode then
    { x with table := x.table ++ [(x.next, toDict)], reg := x.reg ++ [toDict], next := x.next + 1 }
  else x

/-- Output the string `dec` and register `toDict`; `LX.last` becomes `dec` (R106, R107). -/
def lzdOutput (x : LzwDec) (dec toDict : Bytes) (s : State) : State :=
  setLx (emitBytes dec s) ({ x with last := dec }.register toDict)

/-- GROW (R106): "CorruptStream" at the maximum width, otherwise one bit wider. -/
def actGrow (x : LzwDec) (s : State) : Eff Unit :=
  if x.width ≥ x.W then .raised .corruptStream s else .ok () (setLx s { x with width := x.width + 1 })

/-- RESET (R106). -/
def actReset (x : LzwDec) (s : State) : Eff Unit :=
  .ok () (setLx s { x with table := [], reg := [], next := Config.firstCode, width := Config.initWidth, last := [] })

/-- LITERAL (R106). -/
def actLiteral (b : Byte) (x : LzwDec) (s : State) : Eff Unit := .ok () (lzdOutput x [b] (x.last ++ [b]) s)

/-- REFERENCE (R106): found in the table, or the entry being formed, which needs a last output. -/
def actReference (c : Nat) (x : LzwDec) (s : State) : Eff Unit :=
  match tableAt c x.table with
  | some dec => .ok () (lzdOutput x dec (x.last ++ dec.take 1) s)
  | none =>
    match x.last with
    | [] => .raised .internalInvariantViolation s
    | b :: rest =>
      let dec := b :: rest ++ [b]
      .ok () (lzdOutput x dec dec s)

/-- What the decoder does with a code word it has read at its current width: "RES <- num(v)", then the branch of the
word's class (R106). -/
def actOn (k : CodeWord) (s : State) : Eff Unit :=
  readLx s fun x =>
    let s := s.withRes (.num (k.value x.width))
    match k with
    | .grow => actGrow x s
    | .reset => actReset x s
    | .literal b => actLiteral b x s
    | .reference c => actReference c x s

/-- `LZD_CODE()` (R106): fetch a code word at `LX.width`, classify it (R65), act on it. -/
def lzdCode (s : State) : Eff Unit :=
  readLx s fun x =>
    if x.done then .ok () (s.withRes .exhausted)
    else
      (readBits x.width s).bind fun r s =>
      match r with
      | none => .ok () ((setLx s { x with done := true }).withRes .exhausted)
      | some v => actOn (classifyCode x.width v) s

/-- The loop of R108, "while not LX.done: LZD_CODE()". Every pass but the last consumes a code word of at least 9 bits, so
one pass more than the bits left is enough. -/
def decodeCodes : Nat → State → Eff Unit
  | 0, s => readLx s fun x => if x.done then .ok () s else .stuck .loopBound
  | k + 1, s => readLx s fun x =>
      if x.done then .ok () s else (lzdCode s).bind fun _ s => decodeCodes k s

/-- `LZW_DECOMPRESS()` (R108), which runs after the magic. -/
def lzwDecompress (s : State) : Eff Unit :=
  (lzdInit s).bind fun _ s => readUnits s fun u => decodeCodes (bitsLeft s u + 1) s

/-! ### The commands, the code-word rows and the file row -/

/-- LZD_INIT (R105). -/
def execLzdInit (s : State) : Host.Outcome State Fault Refusal := unitCommand (withResult .num lzdInit) s

/-- LZD_CODE (R106), whose result is RES as its body leaves it. -/
def execLzdCode (s : State) : Host.Outcome State Fault Refusal := unitCommand lzdCode s

/-- LZW_DECOMPRESS (R108). -/
def execLzwDecompress (s : State) : Host.Outcome State Fault Refusal := unitCommand (noResult lzwDecompress) s

/-- The row LZW_GROW (R65, R106): the control code at the decoder's width, fetched. Log entry 3. -/
def execLzwGrow (s : State) : Host.Outcome State Fault Refusal := unitCommand (actOn .grow) s

/-- The row LZW_RESET (R65, R106). -/
def execLzwReset (s : State) : Host.Outcome State Fault Refusal := unitCommand (actOn .reset) s

/-- The row LZW_LITERAL (R65, R106). -/
def execLzwLiteral (b : Byte) (s : State) : Host.Outcome State Fault Refusal := unitCommand (actOn (.literal b)) s

/-- The row LZW_REFERENCE (R65, R106). -/
def execLzwReference (c : Nat) (s : State) : Host.Outcome State Fault Refusal := unitCommand (actOn (.reference c)) s

/-- The row LZW_FILE (R64): what the block does with an LZW file once its magic has been fetched and matched (R112: "else
if m = LZW_MAGIC: LZW_DECOMPRESS()"). -/
def execLzwFile (s : State) : Host.Outcome State Fault Refusal := unitCommand (noResult lzwDecompress) s

end Sys2Proof.Machine
end

