-- ==== Sys2Proof/Machine/LzwDictionary.lean ====
section
/-! DEFINITION. The LZW dictionary (R88 to R95). -/

namespace Sys2Proof.Machine

/-- The value of an edge list at a key. -/
def edgeAt (k : Nat × Byte) : List ((Nat × Byte) × Nat) → Option Nat
  | [] => none
  | e :: es => if e.1 = k then some e.2 else edgeAt k es

/-- `child(c, s)` (R88); none where it is undefined. -/
def LzwDict.childOf (d : LzwDict) (c : Cursor) (b : Byte) : Option Nat :=
  match c with
  | .root => some b.toNat
  | .code c => edgeAt (c, b) d.child

/-- `LD_INIT(W)` (R89). -/
def ldInit (W : Nat) (s : State) : Eff Unit :=
  if !legalMaxWidth W then .raised .configurationError s
  else .ok () (setLd s { child := [], next := Config.firstCode, W := W, last := lastCodeAt W })

/-- `LD_HASNEXT(c, b)` (R91). -/
def ldHasnext (c : Cursor) (b : Byte) (s : State) : Eff Bool :=
  readLd s fun d => if !legalCursor d c then .raised .badOperand s else .ok (d.childOf c b).isSome s

/-- `LD_GETCODE(c)` (R92). -/
def ldGetcode (c : Cursor) (s : State) : Eff Nat :=
  readLd s fun d =>
    match entryCode d c with
    | none => .raised .badOperand s
    | some c => .ok c s

/-- `LD_ADD(c, b)` (R93): "no-op once full". -/
def ldAdd (c : Cursor) (b : Byte) (s : State) : Eff Unit :=
  readLd s fun d =>
    match entryCode d c with
    | none => .raised .badOperand s
    | some c =>
      if (edgeAt (c, b) d.child).isSome then .raised .badOperand s
      else if d.full then .ok () s
      else .ok () (setLd s { d with child := d.child ++ [((c, b), d.next)], next := d.next + 1 })

/-- `LD_RESET()` (R94). It reads no field, so on an undefined `LD` it completes and leaves `LD` undefined (R94:
"Exceptions. None"; R126: LD_INIT is the one command that defines `LD`). Log entry 9. -/
def ldReset (s : State) : Eff Unit :=
  .ok () (s.mapUnits fun u => { u with ld := u.ld.map fun d => { d with child := [], next := Config.firstCode } })

/-! ### The commands -/

/-- LD_INIT (R89). -/
def execLdInit (W : BitVec 5) (s : State) : Host.Outcome State Fault Refusal :=
  unitCommand (noResult (ldInit W.toNat)) s

/-- LD_HASNEXT (R91). -/
def execLdHasnext (c : Cursor) (b : Byte) (s : State) : Host.Outcome State Fault Refusal :=
  unitCommand (withResult .bool (ldHasnext c b)) s

/-- LD_GETCODE (R92). -/
def execLdGetcode (c : Cursor) (s : State) : Host.Outcome State Fault Refusal :=
  unitCommand (withResult .num (ldGetcode c)) s

/-- LD_ADD (R93). -/
def execLdAdd (c : Cursor) (b : Byte) (s : State) : Host.Outcome State Fault Refusal :=
  unitCommand (noResult (ldAdd c b)) s

/-- LD_RESET (R94). -/
def execLdReset (s : State) : Host.Outcome State Fault Refusal := unitCommand (noResult ldReset) s

end Sys2Proof.Machine
end

