-- ==== Sys2Proof/Machine/LzwEncoder.lean ====
section
/-! DEFINITION. The LZW encoder (R96 to R104). -/

namespace Sys2Proof.Machine

/-- `LZC_INIT(W, pct, mins)` (R96). -/
def lzcInit (W : BitVec 5) (pct : BitVec 7) (mins : BitVec 32) (s : State) : Eff Unit :=
  if !legalMaxWidth W.toNat || !legalPct pct then .raised .configurationError s
  else
    (ldInit W.toNat s).bind fun _ s =>
    .ok () ((setLe s { cur := .root, width := Config.initWidth, hits := 0, misses := 0, resets := 0, pct := pct,
                       mins := mins }).withResets 0)

/-- The loop of R97 and the plain code after it: while the code is not below GROW(width), write GROW at the old width and
widen. A width above 32 raises in WriteBits, so the passes are few. -/
def growAndWrite (c : Nat) : Nat → State → Eff Unit
  | 0, _ => .stuck .loopBound
  | k + 1, s => readLe s fun e =>
      if c ≥ growCode e.width then
        (writeBits e.width (growCode e.width) s).bind fun _ s =>
        growAndWrite c k (setLe s { e with width := e.width + 1 })
      else writeBits e.width c s

/-- `LZC_EMIT(c)` (R97). -/
def lzcEmit (c : Cursor) (s : State) : Eff Unit :=
  readLd s fun d =>
    match entryCode d c with
    | none => .raised .badOperand s
    | some c => growAndWrite c (Config.maxRwBits + 2) s

/-- `LZC_RESET(b)` (R101). -/
def lzcReset (b : Byte) (s : State) : Eff Unit :=
  readLe s fun e =>
    (writeBits e.width (resetCode e.width) s).bind fun _ s =>
    (ldReset s).bind fun _ s =>
    .ok () ((setLe s { e with width := Config.initWidth, hits := 0, misses := 0, resets := e.resets + 1,
                              cur := .code b.toNat }).withResets (e.resets + 1))

/-- The extending branch of R98: the cursor moves along the edge to `c`, and a hit is counted while full (R99). -/
def lzcExtend (e : LzwEnc) (d : LzwDict) (c : Nat) (s : State) : State :=
  setLe s { e with cur := .code c, hits := if d.full then e.hits + 1 else e.hits }

/-- The end of the else branch of R98: restart at the singleton `b`, count a miss while full (R99), and reset if due. -/
def lzcRestart (b : Byte) (s : State) : Eff Unit :=
  readLe s fun e => readLd s fun d =>
    if d.full then
      let e' := { e with cur := .code b.toNat, misses := e.misses + 1 }
      if e'.resetDue then lzcReset b (setLe s e') else .ok () (setLe s e')
    else .ok () (setLe s { e with cur := .code b.toNat })

/-- The else branch of R98 up to the restart: write the cursor's code, and register `b` under it unless full. -/
def lzcMiss (cur : Cursor) (b : Byte) (s : State) : Eff Unit :=
  (ldGetcode cur s).bind fun c s =>
  (lzcEmit (.code c) s).bind fun _ s =>
  readLd s fun d => if d.full then .ok () s else ldAdd cur b s

/-- `LZC_BYTE(b)` (R98). LD_HASNEXT checks the cursor and is true exactly when the edge exists (R91). -/
def lzcByte (b : Byte) (s : State) : Eff Unit :=
  readLe s fun e =>
    (ldHasnext e.cur b s).bind fun _ s =>
    readLd s fun d =>
      match d.childOf e.cur b with
      | some c => .ok () (lzcExtend e d c s)
      | none => (lzcMiss e.cur b s).bind fun _ s => lzcRestart b s

/-- `LZC_FINISH()` (R102). -/
def lzcFinish (s : State) : Eff Unit :=
  readLe s fun e =>
    match e.cur with
    | .root => .ok () s
    | .code c => lzcEmit (.code c) s

/-- The steps of LZW_COMPRESS on the configuration `cfg` (R103). -/
def lzwCompressWith (cfg : Cfg) (s : State) : Eff Unit :=
  (lzcInit cfg.maxw cfg.pct cfg.mins s).bind fun _ s =>
  (writeMagic Config.lzwMagic s).bind fun _ s =>
  (writeBits Config.widthFieldBits cfg.maxw.toNat s).bind fun _ s =>
  (forEach lzcByte s.input s).bind fun _ s =>
  (lzcFinish s).bind fun _ s =>
  flush s

/-- `LZW_COMPRESS()` as a unit command (R103), which reads `CFG`. -/
def lzwCompress (s : State) : Eff Unit := readCfg s fun cfg => lzwCompressWith cfg s

/-! ### The commands -/

/-- LZC_INIT (R96). -/
def execLzcInit (W : BitVec 5) (pct : BitVec 7) (mins : BitVec 32) (s : State) : Host.Outcome State Fault Refusal :=
  unitCommand (noResult (lzcInit W pct mins)) s

/-- LZC_EMIT (R97). -/
def execLzcEmit (c : Cursor) (s : State) : Host.Outcome State Fault Refusal :=
  unitCommand (noResult (lzcEmit c)) s

/-- LZC_BYTE (R98). -/
def execLzcByte (b : Byte) (s : State) : Host.Outcome State Fault Refusal :=
  unitCommand (noResult (lzcByte b)) s

/-- LZC_FINISH (R102). -/
def execLzcFinish (s : State) : Host.Outcome State Fault Refusal := unitCommand (noResult lzcFinish) s

/-- LZW_COMPRESS (R103). -/
def execLzwCompress (s : State) : Host.Outcome State Fault Refusal := unitCommand (noResult lzwCompress) s

end Sys2Proof.Machine
end

