-- ==== Sys2Proof/Machine/EntryPoints.lean ====
section
/-! DEFINITION. The host commands COMPRESS and DECOMPRESS (R111 to R113) and an issued opcode that R59 does not list (R60). -/

namespace Sys2Proof.Machine

/-- The body of COMPRESS after START (R111). It stores `CFG` before the codec runs, and a later raise keeps what is stored
(R115); but "the first successful COMPRESS" (R25, R61) is one that ends without a raise, so the end of the codec is where
`CFG` becomes readable. The spec leaves open how the two fit after a first COMPRESS that raises `CountOverflow`: DESIGN
CHOICE, log entry 17. -/
def compress (algo : Algo) (W : BitVec 5) (pct : BitVec 7) (mins : BitVec 32) (s : State) : Eff Unit :=
  if !legalMaxWidth W.toNat || !legalPct pct then .raised .configurationError s
  else
    let cfg : Cfg := { algo := algo, maxw := W, pct := pct, mins := mins }
    let s := s.withCfg (some cfg)
    (match algo with
      | .huffman => hufCompress s
      | .lzw => lzwCompressWith cfg s).bind fun _ s => .ok () (s.withCfgReady true)

/-- The body of DECOMPRESS after START (R112). -/
def decompress (s : State) : Eff Unit :=
  (readMagic s).bind fun m s =>
  match classifyMagic m with
  | some .huffman => hufDecompress s
  | some .lzw => lzwDecompress s
  | none => .raised .malformedHeader s

/-- COMPRESS (R111). -/
def execCompress (algo : Algo) (W : BitVec 5) (pct : BitVec 7) (mins : BitVec 32) (s : State) :
    Host.Outcome State Fault Refusal :=
  hostCommand (noResult (compress algo W pct mins)) s

/-- DECOMPRESS (R112). -/
def execDecompress (s : State) : Host.Outcome State Fault Refusal := hostCommand (noResult decompress) s

/-- An issued opcode outside R59 (R60): "the block raises `BadOperand` as rule R115 gives". -/
def execUnassigned (s : State) : Host.Outcome State Fault Refusal :=
  unitCommand (fun s => .raised .badOperand s) s

end Sys2Proof.Machine
end

