-- ==== Sys2Proof/Machine/Dispatch.lean ====
section
/-! DEFINITION. One arm per constructor of Instr. -/

namespace Sys2Proof.Machine

def exec (i : Instr) (s : State) : Host.Outcome State Fault Refusal :=
  match i with
  -- host commands
  | .compress algo W pct mins => Sys2Proof.Machine.execCompress algo W pct mins s
  | .decompress => Sys2Proof.Machine.execDecompress s
  -- BitWriter and BitReader
  | .bwWrite n v => Sys2Proof.Machine.execBwWrite n v s
  | .bwFlush => Sys2Proof.Machine.execBwFlush s
  | .brRead n => Sys2Proof.Machine.execBrRead n s
  -- FrequencyTable, heap and tree
  | .ftClear => Sys2Proof.Machine.execFtClear s
  | .ftCount b => Sys2Proof.Machine.execFtCount b s
  | .hpPush n => Sys2Proof.Machine.execHpPush n s
  | .hpPop => Sys2Proof.Machine.execHpPop s
  | .htBuild => Sys2Proof.Machine.execHtBuild s
  | .htFindcode b => Sys2Proof.Machine.execHtFindcode b s
  -- Huffman codec
  | .hufEncSym b => Sys2Proof.Machine.execHufEncSym b s
  | .hufDecSym => Sys2Proof.Machine.execHufDecSym s
  | .hufCompress => Sys2Proof.Machine.execHufCompress s
  | .hufDecompress => Sys2Proof.Machine.execHufDecompress s
  -- LZW dictionary
  | .ldInit W => Sys2Proof.Machine.execLdInit W s
  | .ldHasnext c b => Sys2Proof.Machine.execLdHasnext c b s
  | .ldGetcode c => Sys2Proof.Machine.execLdGetcode c s
  | .ldAdd c b => Sys2Proof.Machine.execLdAdd c b s
  | .ldReset => Sys2Proof.Machine.execLdReset s
  -- LZW encoder
  | .lzcInit W pct mins => Sys2Proof.Machine.execLzcInit W pct mins s
  | .lzcEmit c => Sys2Proof.Machine.execLzcEmit c s
  | .lzcByte b => Sys2Proof.Machine.execLzcByte b s
  | .lzcFinish => Sys2Proof.Machine.execLzcFinish s
  | .lzwCompress => Sys2Proof.Machine.execLzwCompress s
  -- LZW decoder
  | .lzdInit => Sys2Proof.Machine.execLzdInit s
  | .lzdCode => Sys2Proof.Machine.execLzdCode s
  | .lzwDecompress => Sys2Proof.Machine.execLzwDecompress s
  -- LZW code words
  | .lzwGrow => Sys2Proof.Machine.execLzwGrow s
  | .lzwReset => Sys2Proof.Machine.execLzwReset s
  | .lzwLiteral b => Sys2Proof.Machine.execLzwLiteral b s
  | .lzwReference c => Sys2Proof.Machine.execLzwReference c s
  -- file layouts
  | .huffFile => Sys2Proof.Machine.execHuffFile s
  | .lzwFile => Sys2Proof.Machine.execLzwFile s

end Sys2Proof.Machine
end

