-- ==== Sys2Proof/Machine/Step.lean ====
section
/-! DEFINITION. One step of the machine: the next action of the host (R18, R122). -/

namespace Sys2Proof.Machine

/-- The host supplies an input (R28, R122 step 2); never while a command runs (R128, I18). -/
def hostSupplies (data : Bytes) (s : State) : Host.Outcome State Fault Refusal :=
  if s.stat.phase = .busy then .refused .inputWhileBusy else .next (s.withInput data)

/-- The host issues a command (R57, R60). -/
def hostIssues (cmd : Bits) (s : State) : Host.Outcome State Fault Refusal :=
  match decodeCommand cmd with
  | .command i _ => exec i s
  | .unassigned _ => execUnassigned s
  | .truncated => .refused .truncatedCommand
  | .unknownMagic => .refused .truncatedCommand

/-- One step: the next pending host action. With none pending the block stays as it is, for nothing outside a command
changes it (R118, R122). -/
def step (s : State) : Host.Outcome State Fault Refusal :=
  match s.host with
  | [] => .next s
  | .supply data :: rest => hostSupplies data (s.withHost rest)
  | .feedBack :: rest => hostSupplies s.out (s.withHost rest)
  | .issue cmd :: rest => hostIssues cmd (s.withHost rest)

/-- The state in which the host issues next the command whose table word is `w`. -/
def State.withFetchWord (s : State) (nbits w : Nat) : State :=
  s.withHost (.issue (bitsOfTableWord nbits w) :: s.host)

end Sys2Proof.Machine
end

