-- ==== Sys2Proof/Safety.lean ====
section
/-! DEFINITION. What counts as a safe state and a safe run, and the words the statements use: the bits written so far, the
bits still to read, the state after a command that completes or raises, and the invariant every step keeps. -/

namespace Sys2Proof.Machine

/-! ### The two streams as bits -/

/-- All bits WriteBits has put into the stream: those of OUT, then the pending ones of the BitWriter (R12, R30, R53). -/
def writtenBits (out : Bytes) (bw : BitWriter) : Bits := bitsOfBytes out ++ bitsMsb bw.nacc bw.acc

/-- The bits of IN that the BitReader has not consumed (R28, R31). -/
def bitsAhead (s : State) (u : Units) : Bits := (bitsOfBytes s.input).drop u.br.pos

/-! ### Before and after a command -/

/-- A state in which a command may start and the units are defined (R22, R61). -/
def Ready (s : State) (u : Units) : Prop := s.stat.phase ≠ .busy ∧ s.units = some u

/-- `s` after a unit command that completed and changed no stream and no status counter (R22, R23): only RES and the units
may differ. -/
def completed (s : State) (r : Result) (u : Option Units) : State :=
  { s with stat := { s.stat with phase := .done, err := .none }, res := r, units := u }

/-- `s` after a command that raised `e` before its first SinkByte (R115, R116 (a)). -/
def raisedClean (s : State) (e : ErrKind) : State :=
  { s with stat := { s.stat with phase := .failed, err := e }, res := .none, units := none, out := [] }

/-- `s` after a host command that raised `e` before its first SinkByte: START has cleared the status counters (R110, R115,
R116 (a)). -/
def raisedAfterStart (s : State) (e : ErrKind) : State :=
  { s with stat := { phase := .failed, err := e, total := 0, resets := 0 }, res := .none, units := none, out := [] }

/-! ### Commands by what they read (R59, R61) -/

/-- The 28 opcodes of R59. -/
def assignedOpcodes : List Nat :=
  [0x01, 0x02, 0x10, 0x11, 0x12, 0x20, 0x21, 0x22, 0x23, 0x24, 0x25, 0x30, 0x31, 0x32, 0x33, 0x40, 0x41, 0x42, 0x43,
   0x44, 0x50, 0x51, 0x52, 0x53, 0x54, 0x58, 0x59, 0x5A]

/-- The instructions that run START first (R59, R61). -/
def isHostCommand : Instr → Bool
  | .compress _ _ _ _ => true
  | .decompress => true
  | _ => false

/-- The instructions whose rule reads `BW`, `BR`, `FT`, `HT`, `HP`, `LD`, `LE` or `LX` whatever the configuration is, before
it does anything else that shows (R61). -/
def readsUnits : Instr → Bool
  | .bwWrite _ _ => true
  | .bwFlush => true
  | .brRead _ => true
  | .ftCount _ => true
  | .hpPush _ => true
  | .hpPop => true
  | .htBuild => true
  | .htFindcode _ => true
  | .hufEncSym _ => true
  | .hufDecSym => true
  | .hufCompress => true
  | .hufDecompress => true
  | .ldHasnext _ _ => true
  | .ldGetcode _ => true
  | .ldAdd _ _ => true
  | .lzcEmit _ => true
  | .lzcByte _ => true
  | .lzcFinish => true
  | .lzdInit => true
  | .lzdCode => true
  | .lzwDecompress => true
  | .lzwGrow => true
  | .lzwReset => true
  | .lzwLiteral _ => true
  | .lzwReference _ => true
  | .huffFile => true
  | .lzwFile => true
  | _ => false

/-! ### Huffman codes and trees -/

/-- The node that a bit sequence leads to from node `n`: "A left branch is 0 and a right branch is 1" (R63). -/
def HuffTree.walk (t : HuffTree) : Nat → Bits → Option Nat
  | n, [] => some n
  | n, b :: bs =>
    match t.node[n]? with
    | none => none
    | some nd =>
      match nd.kind with
      | .leaf _ => none
      | .internal left right => t.walk (if b then right else left) bs

/-- `code` is the code of symbol `b`: "the sequence of branch bits on the path from the root of the tree to the leaf of
`s`" (R63). -/
def HuffTree.IsCode (t : HuffTree) (b : Byte) (code : Bits) : Prop :=
  ∃ r i, t.root = some r ∧ t.leafOf b = some i ∧ t.walk r code = some i

/-- `p` is the codes of the bytes of `x` in order (R62: "the Huffman code of each input byte in input order"). -/
def HuffTree.Spells (t : HuffTree) : Bytes → Bits → Prop
  | [], p => p = []
  | b :: x, p => ∃ c rest, t.IsCode b c ∧ p = c ++ rest ∧ t.Spells x rest

/-- The tree HT_BUILD makes of a frequency table, starting from nothing (R79). -/
def treeOf (ft : FreqTable) : HuffTree :=
  match htBuild (State.reset.withUnits (some { Units.start with ft := ft })) with
  | .ok _ s => ((s.units).map fun u => u.ht).getD HuffTree.empty
  | .raised _ _ => HuffTree.empty
  | .stuck _ => HuffTree.empty

/-- The frequency table of a byte sequence (R17: "mapping from symbol to non-negative count"). -/
def countsOf (x : Bytes) : FreqTable := { count := Vector.ofFn fun i : Fin 256 => x.count (BitVec.ofFin i) }

/-- The 256 count fields of a Huffman header (R62). -/
def FreqTable.headerBits (ft : FreqTable) : Bits := allSymbols.flatMap fun b => bitsMsb 32 (ft.get b)

/-- The symbols that occur, in ascending order (R79, D9). -/
def FreqTable.occurring (ft : FreqTable) : List Byte := allSymbols.filter fun b => decide (0 < ft.get b)

/-- Node `j` is there and has no parent yet when node `i` is made: it is in the heap then (R79). -/
def HuffTree.OpenAt (t : HuffTree) (i j : Nat) (nd : Node) : Prop :=
  j < i ∧ t.node[j]? = some nd ∧ ∀ p, nd.parent = some p → i ≤ p

/-- What R79 makes of a table, with the order of R75 and the choices D9 to D11: a leaf for each symbol that occurs, in
ascending order from index 0; then each further node has the two open nodes of least key `(weight, index)` as its children,
the lesser on the left; and the last node is the root. -/
structure HuffTree.BuiltFrom (t : HuffTree) (ft : FreqTable) : Prop where
  size : t.n = 2 * ft.occurring.length - 1
  leaves : ∀ (j : Nat) (b : Byte), ft.occurring[j]? = some b → t.leafOf b = some j ∧
    ∃ nd : Node, t.node[j]? = some nd ∧ nd.kind = .leaf b ∧ nd.weight = ft.get b
  absent : ∀ b, ft.get b = 0 → t.leafOf b = none
  merges : ∀ i, ft.occurring.length ≤ i → i < t.n → ∃ (nd ln rn : Node) (l r : Nat),
    t.node[i]? = some nd ∧ nd.kind = .internal l r ∧ nd.weight = ln.weight + rn.weight ∧
    t.OpenAt i l ln ∧ ln.parent = some i ∧ t.OpenAt i r rn ∧ rn.parent = some i ∧
    (ln.weight < rn.weight ∨ (ln.weight = rn.weight ∧ l < r)) ∧
    ∀ (j : Nat) (jn : Node), t.OpenAt i j jn → j ≠ l → j ≠ r →
      rn.weight < jn.weight ∨ (rn.weight = jn.weight ∧ r < j)
  parents : ∀ (j : Nat) (nd : Node) (p : Nat), t.node[j]? = some nd → nd.parent = some p →
    ∃ (pn : Node) (l r : Nat), t.node[p]? = some pn ∧ pn.kind = .internal l r ∧ (l = j ∨ r = j)
  root : t.root = if t.n = 0 then none else some (t.n - 1)

/-- The zero bits that Flush adds after `k` bits (R62, R64, R71). -/
def padBits (k : Nat) : Bits := List.replicate ((8 - k % 8) % 8) false

/-! ### LZW code words and strings -/

/-- `w'` is the width at which the code `c` is written when the current width is `w`: the first one at which it is below
GROW (R97). -/
def WidthFor (w c w' : Nat) : Prop := w ≤ w' ∧ c < 2 ^ w' - 2 ∧ ∀ v, w ≤ v → v < w' → 2 ^ v - 2 ≤ c

/-- The bits that write the code `c` when the width goes from `w` to `w'`: each GROW at the old width, then the code
(R97). -/
def emission (w c w' : Nat) : Bits :=
  ((List.range' w (w' - w)).flatMap fun v => bitsMsb v (2 ^ v - 2)) ++ bitsMsb w' c

/-- `str(d)` (R88): the string of a code is its path from the root. -/
inductive LzwDict.IsString (d : LzwDict) : Nat → Bytes → Prop where
  | single (b : Byte) : d.IsString b.toNat [b]
  | edge (c n : Nat) (b : Byte) (str : Bytes) : d.IsString c str → edgeAt (c, b) d.child = some n →
      d.IsString n (str ++ [b])

/-- The decoder with one more entry, registered at the next code (R106). -/
def LzwDec.enter (x : LzwDec) (str : Bytes) : LzwDec :=
  { x with table := x.table ++ [(x.next, str)], reg := x.reg ++ [str], next := x.next + 1 }

/-- ReadBits for each width of a list, in order (R45). -/
def readSeq : List Nat → State → Eff (List (Option Nat))
  | [], s => .ok [] s
  | w :: ws, s => (readBits w s).bind fun v s => (readSeq ws s).bind fun vs s => .ok (v :: vs) s

/-! ### Commands one after the other (R69) -/

/-- Run commands in order, up to the first that raises. -/
def execAll : List Instr → State → Host.Outcome State Fault Refusal
  | [], s => .next s
  | i :: is, s =>
    match exec i s with
    | .next t => if t.stat.phase = .failed then .next t else execAll is t
    | .fault f => .fault f
    | .refused r => .refused r

/-- The unit commands that LZW_COMPRESS is, on the configuration `c` and the input `x` (R103). -/
def lzwCompressSteps (c : Cfg) (x : Bytes) : List Instr :=
  [.lzcInit c.maxw c.pct c.mins] ++ (magicBytes Config.lzwMagic).map (fun b => .bwWrite 8 (b.setWidth 32)) ++
    [.bwWrite 5 (c.maxw.setWidth 32)] ++ x.map .lzcByte ++ [.lzcFinish, .bwFlush]

/-! ### The invariant -/

/-- `BW` (R30): up to 7 pending bits. -/
structure BitWriter.Inv (b : BitWriter) : Prop where
  few : b.nacc < 8
  fits : b.acc < 2 ^ b.nacc

/-- `HT` (R33, R80, R81): every link stays inside the arena, a parent lies above its children and has the node as exactly
one of them, a node without a parent is the root, and the leaf array names leaves of their symbol. -/
structure HuffTree.Inv (t : HuffTree) : Prop where
  size : t.n ≤ Config.arenaCap
  parent : ∀ (i : Nat) (nd : Node) (p : Nat), t.node[i]? = some nd → nd.parent = some p →
    i < p ∧ ∃ (pn : Node) (l r : Nat), t.node[p]? = some pn ∧ pn.kind = .internal l r ∧ (l = i ∨ r = i) ∧ l ≠ r
  child : ∀ (i : Nat) (nd : Node) (l r : Nat), t.node[i]? = some nd → nd.kind = .internal l r →
    ∃ (ln rn : Node), t.node[l]? = some ln ∧ ln.parent = some i ∧ t.node[r]? = some rn ∧ rn.parent = some i
  orphan : ∀ (i : Nat) (nd : Node), t.node[i]? = some nd → nd.parent = none → t.root = some i
  root : ∀ i, t.root = some i → ∃ nd : Node, t.node[i]? = some nd ∧ nd.parent = none
  leafKind : ∀ (b : Byte) (i : Nat), t.leafOf b = some i → ∃ nd : Node, t.node[i]? = some nd ∧ nd.kind = .leaf b
  leafListed : ∀ (i : Nat) (nd : Node) (b : Byte), t.node[i]? = some nd → nd.kind = .leaf b → t.leafOf b = some i

/-- `HP` (R34, R77): distinct allocated node indices, at most `HEAP_CAP`. -/
structure Heap.Inv (h : Heap) (t : HuffTree) : Prop where
  rising : h.items.Pairwise (· < ·)
  allocated : ∀ i ∈ h.items, i < t.n
  size : h.size ≤ Config.heapCap

/-- `LD` (R36, R89, R95): the codes `256 ≤ d < LD.next` are the values of the edges, each once and in order, no edge is
there twice, and each leads to a later code. -/
structure LzwDict.Inv (d : LzwDict) : Prop where
  width : 9 ≤ d.W ∧ d.W ≤ 31
  last : d.last = 2 ^ d.W - 3
  next : Config.firstCode ≤ d.next ∧ d.next ≤ d.last + 1
  codes : d.child.map (·.2) = List.range' Config.firstCode (d.next - Config.firstCode)
  edges : (d.child.map (·.1)).Nodup
  later : ∀ e ∈ d.child, e.1.1 < e.2

/-- `LE` (R37, R97). -/
structure LzwEnc.Inv (e : LzwEnc) : Prop where
  width : 9 ≤ e.width ∧ e.width ≤ 31
  pct : e.pct.toNat ≤ 100

/-- `LX` (R38, R105, R106): the codes `256 ≤ c < LX.next` have a string, in order; the registry holds those strings, each
once, each longer than 1. -/
structure LzwDec.Inv (x : LzwDec) : Prop where
  maxWidth : 9 ≤ x.W ∧ x.W ≤ 31
  lastCode : x.lastCode = 2 ^ x.W - 3
  width : 9 ≤ x.width ∧ x.width ≤ x.W
  next : Config.firstCode ≤ x.next ∧ x.next ≤ x.lastCode + 1
  codes : x.table.map (·.1) = List.range' Config.firstCode (x.next - Config.firstCode)
  registry : x.reg = x.table.map (·.2)
  distinct : x.reg.Nodup
  long : ∀ str ∈ x.reg, 1 < str.length

/-- The units while they are defined; `STAT.TOTAL` is a copy of `BW.total`, `STAT.RESETS` of `LE.resets` (R26). -/
structure Units.Inv (u : Units) (st : Stat) : Prop where
  bw : u.bw.Inv
  total : u.bw.total = st.total
  ht : u.ht.Inv
  hp : u.hp.Inv u.ht
  ld : ∀ d, u.ld = some d → d.Inv
  le : ∀ e, u.le = some e → e.Inv ∧ e.resets = st.resets ∧ u.ld.isSome
  lx : ∀ x, u.lx = some x → x.Inv

/-- `RES` (R24): a number is below 2^32. -/
def Result.Inv (r : Result) : Prop := ∀ v, r = .num v → v < 2 ^ 32

/-- `CFG` (R25): only legal values are stored. -/
def Cfg.Inv (c : Cfg) : Prop := 9 ≤ c.maxw.toNat ∧ c.pct.toNat ≤ 100

/-- The invariant of every state between two steps. -/
structure State.Inv (s : State) : Prop where
  notBusy : s.stat.phase ≠ .busy
  failed : s.stat.phase = .failed ↔ s.stat.err ≠ .none
  res : s.res.Inv
  cfg : ∀ c, s.cfg = some c → c.Inv
  cfgReady : s.cfgReady = true → s.cfg ≠ none
  units : ∀ u, s.units = some u → u.Inv s.stat

/-- A safe step: the block goes on, or the host has issued bits that are no command (R57). -/
def SafeStep (s : State) : Prop :=
  (∃ t, step s = .next t) ∨
  (step s = .refused .truncatedCommand ∧ ∃ cmd rest, s.host = .issue cmd :: rest ∧ decodeCommand cmd = .truncated)

end Sys2Proof.Machine
end

