-- ==== Sys2Proof/Certificates/Slice0/Obligations.lean ====
section
/-! DEFINITION. The statements about the block, each after the rules of the spec its docstring names. Where a state is written
out as the next state, every field not named is unchanged: that is the command's frame. -/

open Sys2Proof Sys2Proof.Machine

/-! ### Encoding (R57 to R60, R65) -/

/-- Decoding the encoding of any well-formed instruction, at the port and the code width it comes through, gives the
instruction back and leaves the bits after it (R57, R58, R59, R65, R112). That the stream rows are instructions with a port
of their own is the model's choice (log entry 3). -/
def Obligations.DecodeOfEncodeIsTheInstruction : Prop :=
  ∀ (i : Instr) (w : Nat) (rest : Bits), i.wellFormedAt w = true →
    decodeAt (i.port w) (encode w i ++ rest) = .command i rest

/-- Every bit string the command decoder accepts begins with the encoding of the command it answers, so that no two words
spell one command and no bit is dropped (R57, R58). -/
def Obligations.EncodeOfDecodeIsTheWord : Prop :=
  ∀ (bs rest : Bits) (i : Instr), decodeCommand bs = .command i rest →
    bs = encode 9 i ++ rest ∧ i.wellFormedAt 9 = true ∧ i.port 9 = .command

/-- R60: an opcode outside the 28 of R59 spells no command, and issued to a block that is not busy it raises `BadOperand`
as R115 gives. -/
def Obligations.UnassignedOpcodeRaisesBadOperand : Prop :=
  assignedOpcodes.length = 28 ∧ assignedOpcodes.Nodup ∧
  ∀ (op : Byte) (rest : Bits), op.toNat ∉ assignedOpcodes →
    decodeCommand (bitsMsb 8 op.toNat ++ rest) = .unassigned op ∧
    ∀ (s : State) (more : List HostAction), s.host = .issue (bitsMsb 8 op.toNat ++ rest) :: more →
      s.stat.phase ≠ .busy → step s = .next (raisedClean (s.withHost more) .badOperand)

/-- Words written out from the formats of R57 and the opcodes of R59 (the command words of programs P1 to P6) decode to
their commands. -/
def Obligations.WrittenOutWordsDecode : Prop :=
  decodeCommand (bitsMsb 46 0b0001000000010100000000000000000000000000001001) = .command (.bwWrite 5 9) [] ∧
  decodeCommand (bitsMsb 14 0b00010010001000) = .command (.brRead 8) [] ∧
  decodeCommand (bitsMsb 16 0b0010010101100010) = .command (.htFindcode 0x62) [] ∧
  decodeCommand (bitsMsb 17 0b00100010000000011) = .command (.hpPush 3) [] ∧
  decodeCommand (bitsMsb 48 0x410000004142) = .command (.ldHasnext (.code 0x41) 0x42) [] ∧
  decodeCommand (bitsMsb 48 0x41FFFFFFFF41) = .command (.ldHasnext .root 0x41) [] ∧
  decodeCommand (bitsMsb 52 0x504E400000000) = .command (.lzcInit 9 100 0) [] ∧
  decodeCommand (bitsMsb 53 0b00000001101001110010000000000000000000000000000000000) = .command (.compress .lzw 9 100 0) []

/-- R65: the four classes cover every `w`-bit value exactly once, and the decoder picks the class whose condition holds. -/
def Obligations.CodeWordClassesCoverEveryValueOnce : Prop :=
  ∀ w v : Nat, 9 ≤ w → w ≤ 31 → v < 2 ^ w →
    (classifyCode w v = .grow ↔ v = 2 ^ w - 2) ∧
    (classifyCode w v = .reset ↔ v = 2 ^ w - 1) ∧
    ((∃ b : Byte, classifyCode w v = .literal b ∧ b.toNat = v) ↔ v < 256) ∧
    (classifyCode w v = .reference v ↔ 256 ≤ v ∧ v ≤ 2 ^ w - 3)

/-! ### The step (R18, R22, R55, R122) -/

/-- When the bits the host issues next decode to a command, the step is exec of that command, in the state with that host
action taken (R18, R57, R122). The list of host actions is the model's choice (log entry 4), and so is the second clause:
`withFetchWord` places a table word so that the step runs what the decoder reads from it, which no rule speaks of (log
entry 12). -/
def Obligations.StepRunsTheDecodedCommand : Prop :=
  (∀ (s : State) (cmd rest : Bits) (more : List HostAction) (i : Instr), s.host = .issue cmd :: more →
    decodeCommand cmd = .command i rest → step s = exec i (s.withHost more)) ∧
  (∀ (s : State) (nbits w : Nat) (i : Instr), decodeTableWord nbits w = some i →
    step (s.withFetchWord nbits w) = exec i s)

/-- Between commands the host supplies an input or feeds OUT back (R28, R55, R122), and nothing but a command changes the
block (R118). Three points are the model's choice: that a supply leaves `BR.pos` where it is (log entry 5), that the actions
are a list, and that with none pending a step changes nothing (log entry 4). -/
def Obligations.HostActionsChangeTheInputOnly : Prop :=
  ∀ (s : State) (more : List HostAction), s.stat.phase ≠ .busy →
    (∀ data : Bytes, s.host = .supply data :: more → step s = .next { s with host := more, input := data }) ∧
    (s.host = .feedBack :: more → step s = .next { s with host := more, input := s.out }) ∧
    (s.host = [] → step s = .next s)

/-- R122: a command issued while `STAT.PHASE = BUSY` has no effect, and the host may not change the input then (I18).
That this holds of unit commands is log entry 16, and the refusal of such a supply log entry 13: both are the model's. -/
def Obligations.BusyBlockIgnoresCommands : Prop :=
  ∀ s : State, s.stat.phase = .busy →
    (∀ i : Instr, exec i s = .next s) ∧
    (∀ (data : Bytes) (more : List HostAction), s.host = .supply data :: more → step s = .refused .inputWhileBusy)

/-! ### Codes, reset and the invariant (R22, R23, R114, R125) -/

/-- The numbers of the phases (R22) and of the error kinds (R114). -/
def Obligations.PhaseAndErrorNumbers : Prop :=
  [Phase.idle, .busy, .done, .failed].map (fun p => p.code.toNat) = [0, 1, 2, 3] ∧
  [ErrKind.none, .malformedHeader, .configurationError, .unexpectedEndOfStream, .internalInvariantViolation,
    .corruptStream, .countOverflow, .badOperand].map (fun e => e.code.toNat) = [0, 1, 2, 3, 4, 5, 6, 7]

/-- R125: the power-on state, whose unit values are those START sets. -/
def Obligations.PowerOnState : Prop :=
  State.reset.stat = { phase := .idle, err := .none, total := 0, resets := 0 } ∧ State.reset.res = .none ∧
  State.reset.cfg = none ∧ State.reset.cfgReady = false ∧ exec .lzwCompress State.reset = .next (raisedClean State.reset .badOperand) ∧
  State.reset.input = [] ∧ State.reset.out = [] ∧
  ∃ u, State.reset.units = some u ∧ u.br.pos = 0 ∧ u.bw = { acc := 0, nacc := 0, total := 0 } ∧
    (∀ b, u.ft.get b = 0) ∧ u.ht.n = 0 ∧ u.ht.root = none ∧ (∀ b, u.ht.leafOf b = none) ∧ u.hp.items = [] ∧
    u.hd = { total := 0, emitted := 0 } ∧ u.ld = none ∧ u.le = none ∧ u.lx = none ∧
    ∀ s : State, (startHost s).units = some u

/-- The power-on state meets the invariant. -/
def Obligations.PowerOnStateMeetsTheInvariant : Prop := State.reset.Inv

/-- Every step keeps the invariant: the phase is never left BUSY and is FAILED exactly when an error is recorded (R22,
R23), stored configurations are legal (R25), the status counters are copies (R26), the BitWriter holds at most 7 bits
(R30), the tree and heap stay inside the arena (R33, R34, R80, R81), and the LZW dictionaries stay in step with their
next code (R36, R38, R95). -/
def Obligations.EveryStepKeepsTheInvariant : Prop :=
  ∀ s t : State, s.Inv → step s = .next t → t.Inv

/-- From a state that meets the invariant a step never gets stuck and refuses nothing but bits that are no command: every
command of R59 runs. -/
def Obligations.EveryStepFromTheInvariantIsSafe : Prop :=
  ∀ s : State, s.Inv → SafeStep s

/-! ### Raise, undefined units and START (R40, R61, R110, R115, R116) -/

/-- Every command that does not wait ends DONE without an error, or FAILED with one: then RES is none, every unit but CFG,
STAT and OUT is undefined, and OUT is empty or the free value of R116 (b). -/
def Obligations.EveryCommandEndsDoneOrFailed : Prop :=
  ∀ (i : Instr) (s t : State), s.stat.phase ≠ .busy → exec i s = .next t →
    (t.stat.phase = .done ∧ t.stat.err = .none ∧ t.draws = s.draws) ∨
    (t.stat.phase = .failed ∧ t.stat.err ≠ .none ∧ t.res = .none ∧ t.units = none ∧
      ((t.out = [] ∧ t.draws = s.draws) ∨ (t.out = Config.unspecifiedOut s.draws ∧ t.draws = s.draws + 1)))

/-- What no command changes: IN and what the host will do next; CFG unless it is COMPRESS (R25, R28). A unit command that does
not raise only appends to OUT (R27, R42). That a command which raises keeps IN, against the letter of R115, is the model's
choice (log entry 10), and what the host will do next is its own field (log entry 4). -/
def Obligations.CommandsKeepInputAndAppendOutput : Prop :=
  ∀ (i : Instr) (s t : State), exec i s = .next t →
    t.input = s.input ∧ t.host = s.host ∧
    ((∀ a W p m, i ≠ .compress a W p m) → t.cfg = s.cfg ∧ t.cfgReady = s.cfgReady) ∧
    (isHostCommand i = false → t.stat.phase ≠ .failed → s.out <+: t.out)

/-- R61, third case: after a raise and before the next START, every command that reads a unit raises `BadOperand`. That the
stream rows are instructions too is the model's choice (log entry 3). LZW_COMPRESS with a readable CFG reads no undefined
unit before its first WriteBits (log entry 8); with an undefined one see UninitialisedUnitsRaiseBadOperand. -/
def Obligations.UndefinedUnitsRaiseBadOperand : Prop :=
  ∀ s : State, s.stat.phase ≠ .busy → s.units = none →
    (∀ i : Instr, readsUnits i = true → exec i s = .next (raisedClean s .badOperand)) ∧
    (∀ c : Cfg, s.cfg = some c → s.cfgReady = true → c.Inv →
      exec .lzwCompress s = .next (raisedClean (s.withResets 0) .badOperand))

/-- The model's reading of R61 (log entries 8 and 9): while the units are undefined, a command that only writes one completes
and leaves them undefined, for only START defines them again; and LD_RESET while `LD` alone is undefined leaves it so. -/
def Obligations.WritesLeaveUndefinedUnitsUndefined : Prop :=
  (∀ (s : State) (u : Units), Ready s u → u.ld = none → exec .ldReset s = .next (completed s .none (some u))) ∧
  ∀ s : State, s.stat.phase ≠ .busy → s.units = none →
    exec .ftClear s = .next (completed s .none none) ∧
    exec .ldReset s = .next (completed s .none none) ∧
    (∀ W : BitVec 5, 9 ≤ W.toNat → exec (.ldInit W) s = .next (completed s .none none)) ∧
    (∀ (W : BitVec 5) (p : BitVec 7) (m : BitVec 32), 9 ≤ W.toNat → p.toNat ≤ 100 →
      exec (.lzcInit W p m) s = .next (completed (s.withResets 0) .none none))

/-- R61, first two cases: `LD`, `LE`, `LX` before their initialising command, and `CFG` before the first successful COMPRESS,
whether the units are defined or not. That the code-word rows raise as LZD_CODE does is the model's choice (log entry 3). -/
def Obligations.UninitialisedUnitsRaiseBadOperand : Prop :=
  (∀ s : State, s.stat.phase ≠ .busy → s.cfgReady = false ∨ s.cfg = none →
    exec .lzwCompress s = .next (raisedClean s .badOperand)) ∧
  ∀ (s : State) (u : Units), Ready s u →
    (u.ld = none → ∀ (c : Cursor) (b : Byte),
      exec (.ldHasnext c b) s = .next (raisedClean s .badOperand) ∧
      exec (.ldGetcode c) s = .next (raisedClean s .badOperand) ∧
      exec (.ldAdd c b) s = .next (raisedClean s .badOperand)) ∧
    (u.le = none → ∀ (c : Cursor) (b : Byte),
      exec (.lzcEmit c) s = .next (raisedClean s .badOperand) ∧
      exec (.lzcByte b) s = .next (raisedClean s .badOperand) ∧
      exec .lzcFinish s = .next (raisedClean s .badOperand)) ∧
    (u.lx = none → exec .lzdCode s = .next (raisedClean s .badOperand) ∧
      ∀ k : CodeWord, exec k.instr s = .next (raisedClean s .badOperand))

/-- R40: a host command depends on no unit state, status or output that a previous command left; DECOMPRESS also neither reads
nor writes CFG (R112). -/
def Obligations.HostCommandsForgetOldUnits : Prop :=
  (∀ s r : State, s.stat.phase ≠ .busy → r.stat.phase ≠ .busy → s.input = r.input → s.cfg = r.cfg → s.cfgReady = r.cfgReady →
    s.host = r.host → s.draws = r.draws → ∀ i : Instr, isHostCommand i = true → exec i s = exec i r) ∧
  (∀ (s t : State) (c : Option Cfg) (b : Bool), s.stat.phase ≠ .busy → exec .decompress s = .next t →
    exec .decompress ((s.withCfg c).withCfgReady b) = .next ((t.withCfg c).withCfgReady b))

/-! ### BitWriter and BitReader (R45, R70 to R72) -/

/-- R70: BW_WRITE appends the low `n` bits of `v` to the written bits, most significant first, and counts them; above 32 it
raises `BadOperand` before any state changes. -/
def Obligations.BwWriteAppendsTheLowBits : Prop :=
  (∀ (s : State) (u : Units) (n : BitVec 6) (v : BitVec 32), Ready s u → u.bw.Inv → n.toNat ≤ 32 →
    ∃ (out : Bytes) (bw : BitWriter), bw.Inv ∧ bw.total = u.bw.total + n.toNat ∧
      writtenBits out bw = writtenBits s.out u.bw ++ bitsMsb n.toNat v.toNat ∧
      exec (.bwWrite n v) s = .next { completed s .none (some { u with bw := bw }) with
        out := out
        stat := { phase := .done, err := .none, total := bw.total, resets := s.stat.resets } }) ∧
  (∀ (s : State) (n : BitVec 6) (v : BitVec 32), s.stat.phase ≠ .busy → 32 < n.toNat →
    exec (.bwWrite n v) s = .next (raisedClean s .badOperand))

/-- R71: BW_FLUSH pads the pending bits with zeros to a byte and does not count them. -/
def Obligations.BwFlushPadsWithZeros : Prop :=
  ∀ (s : State) (u : Units), Ready s u → u.bw.Inv →
    ∃ out : Bytes,
      writtenBits out { u.bw with acc := 0, nacc := 0 } = writtenBits s.out u.bw ++ padBits u.bw.nacc ∧
      exec .bwFlush s = .next { completed s .none (some { u with bw := { u.bw with acc := 0, nacc := 0 } }) with
        out := out }

/-- R72: BR_READ answers the next `n` bits as a number and moves past them; if fewer remain it answers EXHAUSTED and they are
lost; above 32 it raises `BadOperand`. -/
def Obligations.BrReadReturnsTheNextBits : Prop :=
  (∀ (s : State) (u : Units) (n : BitVec 6), Ready s u → n.toNat ≤ 32 →
    u.br.pos + n.toNat ≤ 8 * s.input.length →
    exec (.brRead n) s = .next (completed s (.num (natOfBits ((bitsAhead s u).take n.toNat)))
      (some { u with br := { pos := u.br.pos + n.toNat } }))) ∧
  (∀ (s : State) (u : Units) (n : BitVec 6), Ready s u → n.toNat ≤ 32 → u.br.pos ≤ 8 * s.input.length →
    8 * s.input.length < u.br.pos + n.toNat →
    exec (.brRead n) s = .next (completed s .exhausted (some { u with br := { pos := 8 * s.input.length } }))) ∧
  (∀ (s : State) (n : BitVec 6), s.stat.phase ≠ .busy → 32 < n.toNat →
    exec (.brRead n) s = .next (raisedClean s .badOperand))

/-- R45: what WriteBits wrote, any sequence of ReadBits calls whose widths sum to `n` reads back bit for bit. -/
def Obligations.WrittenBitsReadBack : Prop :=
  ∀ (s : State) (u : Units) (n v : Nat) (ws : List Nat), s.units = some u → u.bw.Inv → n ≤ 32 → ws.sum = n →
    ∃ (s1 s2 : State) (u2 : Units), writeBits n v s = .ok () s1 ∧ flush s1 = .ok () s2 ∧ s2.units = some u2 ∧
      ∃ (vs : List Nat) (t : State),
        readSeq ws { s2 with
          input := s2.out
          units := some { u2 with br := { pos := (writtenBits s.out u.bw).length } } } = .ok (vs.map some) t ∧
        vs.length = ws.length ∧ (List.zipWith bitsMsb ws vs).flatten = bitsMsb n v ∧
        ∀ wv ∈ ws.zip vs, wv.2 < 2 ^ wv.1

/-! ### FrequencyTable, heap and tree (R73 to R82) -/

/-- R73 and R74: FT_CLEAR makes every count 0; FT_COUNT adds 1 to its symbol's count. -/
def Obligations.FtCommandsClearAndCount : Prop :=
  ∀ (s : State) (u : Units), Ready s u →
    (∃ ft : FreqTable, (∀ b, ft.get b = 0) ∧ exec .ftClear s = .next (completed s .none (some { u with ft := ft }))) ∧
    (∀ b : Byte, ∃ ft : FreqTable, ft.get b = u.ft.get b + 1 ∧ (∀ c, c ≠ b → ft.get c = u.ft.get c) ∧
      exec (.ftCount b) s = .next (completed s .none (some { u with ft := ft })))

/-- R77: HP_PUSH queues an allocated node that is not queued while there is room, and otherwise raises `BadOperand`. -/
def Obligations.HpPushQueuesANewNode : Prop :=
  ∀ (s : State) (u : Units) (i : BitVec 9), Ready s u →
    (i.toNat ≥ u.ht.n ∨ i.toNat ∈ u.hp.items ∨ u.hp.size = 256 →
      exec (.hpPush i) s = .next (raisedClean s .badOperand)) ∧
    (i.toNat < u.ht.n → i.toNat ∉ u.hp.items → u.hp.size ≠ 256 → u.hp.items.Pairwise (· < ·) →
      ∃ items : List Nat, (∀ j, j ∈ items ↔ j = i.toNat ∨ j ∈ u.hp.items) ∧ items.Pairwise (· < ·) ∧
        exec (.hpPush i) s = .next (completed s .none (some { u with hp := { items := items } })))

/-- R78, with the order of R75: HP_POP takes the item with the least weight, the lower index first among equals, and raises
`BadOperand` on an empty heap. -/
def Obligations.HpPopTakesTheLeastKey : Prop :=
  ∀ (s : State) (u : Units), Ready s u →
    (u.hp.items = [] → exec .hpPop s = .next (raisedClean s .badOperand)) ∧
    (u.hp.items ≠ [] → u.hp.Inv u.ht →
      ∃ (i : Nat) (nd : Node) (items : List Nat), i ∈ u.hp.items ∧ u.ht.node[i]? = some nd ∧
        (∀ (j : Nat) (nj : Node), j ∈ u.hp.items → u.ht.node[j]? = some nj →
          nd.weight < nj.weight ∨ (nd.weight = nj.weight ∧ i ≤ j)) ∧
        (∀ j, j ∈ items ↔ j ≠ i ∧ j ∈ u.hp.items) ∧ items.Pairwise (· < ·) ∧
        exec .hpPop s = .next (completed s (.num i) (some { u with hp := { items := items } })))

/-- HT_BUILD never fails; it makes the tree of the table, which nothing else of the state decides, and leaves the heap
empty; which tree that is, HtBuildMergesTheLeastKeys says. R80: it has `k` leaves and `max(k − 1, 0)` internal nodes, `k` being the symbols that occur. -/
def Obligations.HtBuildMakesTheTreeOfTheTable : Prop :=
  (∀ (s : State) (u : Units), Ready s u →
    exec .htBuild s = .next (completed s .none (some { u with ht := treeOf u.ft, hp := { items := [] } }))) ∧
  ∀ ft : FreqTable,
    let k := ft.occurring.length
    (treeOf ft).n = 2 * k - 1 ∧ (treeOf ft).n ≤ 511 ∧
    ((treeOf ft).node.filter fun nd => match nd.kind with | .leaf _ => true | .internal _ _ => false).length = k ∧
    ((treeOf ft).node.filter fun nd => match nd.kind with | .leaf _ => false | .internal _ _ => true).length = k - 1

/-- R79, with the order of R75 and the choices D9 to D11 that R135 lists: HT_BUILD completes, the tree has its leaves in
ascending symbol order from index 0, each further node has the two least keys among the nodes not yet merged as its children,
the lesser on the left, and their sum as its weight, the last node is the root, and the heap is left empty. -/
def Obligations.HtBuildMergesTheLeastKeys : Prop :=
  ∀ (s : State) (u : Units), Ready s u → ∃ t : HuffTree, t.BuiltFrom u.ft ∧
    exec .htBuild s = .next (completed s .none (some { u with ht := t, hp := { items := [] } }))

/-- R81: the invariants of every tree HT_BUILD makes. -/
def Obligations.BuiltTreesMeetTheTreeInvariants : Prop :=
  ∀ ft : FreqTable, (treeOf ft).Inv ∧
    ((treeOf ft).root = none ↔ ∀ b, ft.get b = 0) ∧
    (∀ (r : Nat) (nd : Node), (treeOf ft).root = some r → (treeOf ft).node[r]? = some nd → nd.weight = ft.sum) ∧
    (∀ (i : Nat) (nd : Node) (b : Byte), (treeOf ft).node[i]? = some nd → nd.kind = .leaf b →
      nd.weight = ft.get b ∧ 0 < ft.get b) ∧
    (∀ (i : Nat) (nd : Node) (l r : Nat), (treeOf ft).node[i]? = some nd → nd.kind = .internal l r →
      ∃ ln rn : Node, (treeOf ft).node[l]? = some ln ∧ (treeOf ft).node[r]? = some rn ∧
        nd.weight = ln.weight + rn.weight) ∧
    (∀ (b : Byte) (code : Bits), (treeOf ft).IsCode b code → (code = [] ↔ ∀ c, 0 < ft.get c → c = b))

/-- R82, with R63: HT_FINDCODE answers the one path of branch bits from the root to the symbol's leaf, and raises
`BadOperand` if the symbol has no leaf. -/
def Obligations.HtFindcodeReturnsThePath : Prop :=
  ∀ (s : State) (u : Units) (b : Byte), Ready s u →
    (u.ht.leafOf b = none → exec (.htFindcode b) s = .next (raisedClean s .badOperand)) ∧
    (u.ht.Inv → u.ht.leafOf b ≠ none →
      ∃ code : Bits, u.ht.IsCode b code ∧ (∀ c, u.ht.IsCode b c → c = code) ∧
        exec (.htFindcode b) s = .next (completed s (.bits code) (some u)))

/-- R63: "The codes form a prefix code: no code is a prefix of another". -/
def Obligations.HuffmanCodesFormAPrefixCode : Prop :=
  ∀ (t : HuffTree) (b c : Byte) (x y : Bits), t.Inv → t.IsCode b x → t.IsCode c y → b ≠ c → ¬ x <+: y

/-! ### Huffman codec (R83 to R87) -/

/-- R83: HUF_ENC_SYM writes the bits of the symbol's code, and raises `BadOperand` if it has no leaf. -/
def Obligations.HufEncSymWritesTheCode : Prop :=
  ∀ (s : State) (u : Units) (b : Byte), Ready s u →
    (u.ht.leafOf b = none → exec (.hufEncSym b) s = .next (raisedClean s .badOperand)) ∧
    (u.ht.Inv → u.bw.Inv → u.bw.total = s.stat.total → u.ht.leafOf b ≠ none →
      ∃ (code : Bits) (out : Bytes) (bw : BitWriter), u.ht.IsCode b code ∧ bw.Inv ∧
        bw.total = u.bw.total + code.length ∧ writtenBits out bw = writtenBits s.out u.bw ++ code ∧
        exec (.hufEncSym b) s = .next { completed s .none (some { u with bw := bw }) with
          out := out
          stat := { phase := .done, err := .none, total := u.bw.total + code.length, resets := s.stat.resets } })

/-- R84: HUF_DEC_SYM follows the next bits from the root to a leaf and emits its symbol; it raises `UnexpectedEndOfStream` when
the input ends before a leaf, and `BadOperand` with no tree. -/
def Obligations.HufDecSymFollowsTheBitsToALeaf : Prop :=
  ∀ (s : State) (u : Units), Ready s u →
    (u.ht.root = none → exec .hufDecSym s = .next (raisedClean s .badOperand)) ∧
    (u.ht.Inv → ∀ (b : Byte) (code rest : Bits), u.ht.IsCode b code → bitsAhead s u = code ++ rest →
      exec .hufDecSym s = .next { completed s (.num b.toNat) (some { u with
          br := { pos := u.br.pos + code.length }
          hd := { u.hd with emitted := u.hd.emitted + 1 } }) with
        out := s.out ++ [b] }) ∧
    (u.ht.Inv → ∀ (r n : Nat) (nd : Node) (left right : Nat), u.ht.root = some r →
      u.ht.walk r (bitsAhead s u) = some n → u.ht.node[n]? = some nd → nd.kind = .internal left right →
      exec .hufDecSym s = .next (raisedClean s .unexpectedEndOfStream))

/-- R85, with the layout of R62: HUF_COMPRESS writes the magic, the 256 counts big-endian, the code of each byte in order,
and zero bits to a byte; with a count above 2^32 − 1 it raises `CountOverflow` before any output. -/
def Obligations.HufCompressWritesTheFile : Prop :=
  (∀ (s : State) (u : Units), Ready s u → u.bw.Inv → (∀ b, s.input.count b < 2 ^ 32) →
    ∃ (p : Bits) (out : Bytes),
      let bits := writtenBits s.out u.bw ++ bitsMsb 32 Config.huffMagic.toNat ++ (countsOf s.input).headerBits ++ p
      let total := u.bw.total + 8224 + p.length
      (treeOf (countsOf s.input)).Spells s.input p ∧ bitsOfBytes out = bits ++ padBits bits.length ∧
      exec .hufCompress s = .next { completed s .none (some { u with
          bw := { acc := 0, nacc := 0, total := total }
          ft := countsOf s.input
          ht := treeOf (countsOf s.input)
          hp := { items := [] } }) with
        out := out
        stat := { phase := .done, err := .none, total := total, resets := s.stat.resets } }) ∧
  (∀ (s : State) (u : Units) (b : Byte), Ready s u → 2 ^ 32 ≤ s.input.count b →
    exec .hufCompress s = .next (raisedClean s .countOverflow))

/-- R86: HUF_DECOMPRESS, after the magic, reads 256 counts and as many code words of their tree as they sum to, whatever
symbols those spell, and emits the symbols; with one symbol it reads no payload bit. A header or a payload cut short raises
`UnexpectedEndOfStream`. Two points are the model's choice: that the file row HUFF_FILE is an instruction with this effect
(log entry 3), and that RES is none in the one-symbol case too (log entry 14). -/
def Obligations.HufDecompressReadsTheFile : Prop :=
  ∀ (s : State) (u : Units) (i : Instr), Ready s u → i = .hufDecompress ∨ i = .huffFile →
    (∀ (ft : FreqTable) (x : Bytes) (p rest : Bits), (∀ b, ft.get b < 2 ^ 32) → x.length = ft.sum →
      (treeOf ft).Spells x p → bitsAhead s u = ft.headerBits ++ p ++ rest →
      exec i s = .next { completed s .none (some { u with
          br := { pos := u.br.pos + 8192 + p.length }
          ft := ft
          hd := { total := ft.sum, emitted := ft.sum }
          ht := if ft.onlySymbol.isSome then u.ht else treeOf ft
          hp := if ft.onlySymbol.isSome then u.hp else { items := [] } }) with
        out := s.out ++ x }) ∧
    ((bitsAhead s u).length < 8192 → exec i s = .next (raisedClean s .unexpectedEndOfStream)) ∧
    (∀ (ft : FreqTable) (x : Bytes) (p q : Bits), (∀ b, ft.get b < 2 ^ 32) → x.length = ft.sum →
      (treeOf ft).Spells x (p ++ q) → q ≠ [] → bitsAhead s u = ft.headerBits ++ p →
      ∃ t, exec i s = .next t ∧ t.stat.phase = .failed ∧ t.stat.err = .unexpectedEndOfStream)

/-- R87 and R113 (c) for Huffman: DECOMPRESS of what COMPRESS wrote returns the input, for every input whose counts fit 32
bits, each command from any state in which one may start. -/
def Obligations.HuffmanFileRoundTrip : Prop :=
  ∀ (s : State) (W : BitVec 5) (p : BitVec 7) (m : BitVec 32), s.stat.phase ≠ .busy → 9 ≤ W.toNat → p.toNat ≤ 100 →
    (∀ b, s.input.count b < 2 ^ 32) →
    ∃ t : State, exec (.compress .huffman W p m) s = .next t ∧ t.stat.phase = .done ∧
      t.cfg = some { algo := .huffman, maxw := W, pct := p, mins := m } ∧ t.cfgReady = true ∧
      ∀ r : State, r.stat.phase ≠ .busy → r.input = t.out →
        ∃ q : State, exec .decompress r = .next q ∧ q.stat.phase = .done ∧ q.out = s.input ∧ q.cfg = r.cfg

/-! ### LZW dictionary (R88 to R95) -/

/-- R89: LD_INIT, and an illegal width whether the units are defined or not (R117: operands are checked first). -/
def Obligations.LdInitMakesAnEmptyDictionary : Prop :=
  (∀ (s : State) (u : Units) (W : BitVec 5), Ready s u → 9 ≤ W.toNat →
    exec (.ldInit W) s = .next (completed s .none (some { u with
      ld := some { child := [], next := 256, W := W.toNat, last := 2 ^ W.toNat - 3 } }))) ∧
  ∀ (s : State) (W : BitVec 5), s.stat.phase ≠ .busy → W.toNat < 9 →
    exec (.ldInit W) s = .next (raisedClean s .configurationError)

/-- R91 and R92: LD_HASNEXT and LD_GETCODE, of a cursor that names an entry and of one that does not. -/
def Obligations.LdLookupsAnswerFromTheTrie : Prop :=
  ∀ (s : State) (u : Units) (d : LzwDict) (b : Byte), Ready s u → u.ld = some d →
    exec (.ldHasnext .root b) s = .next (completed s (.bool true) (some u)) ∧
    exec (.ldGetcode .root) s = .next (raisedClean s .badOperand) ∧
    (∀ c : Nat, c < d.next →
      exec (.ldHasnext (.code c) b) s = .next (completed s (.bool (decide ((c, b) ∈ d.child.map (·.1)))) (some u)) ∧
      exec (.ldGetcode (.code c)) s = .next (completed s (.num c) (some u))) ∧
    (∀ c : Nat, d.next ≤ c →
      exec (.ldHasnext (.code c) b) s = .next (raisedClean s .badOperand) ∧
      exec (.ldGetcode (.code c)) s = .next (raisedClean s .badOperand))

/-- R93: LD_ADD assigns the next code to a new edge, does nothing once the dictionary is full, and raises `BadOperand` for
ROOT, an unassigned cursor or an edge that exists. -/
def Obligations.LdAddAssignsTheNextCode : Prop :=
  ∀ (s : State) (u : Units) (d : LzwDict) (b : Byte), Ready s u → u.ld = some d →
    exec (.ldAdd .root b) s = .next (raisedClean s .badOperand) ∧
    (∀ c : Nat, d.next ≤ c ∨ (∃ n, ((c, b), n) ∈ d.child) →
      exec (.ldAdd (.code c) b) s = .next (raisedClean s .badOperand)) ∧
    (∀ c : Nat, c < d.next → (∀ n, ((c, b), n) ∉ d.child) →
      (d.next > d.last → exec (.ldAdd (.code c) b) s = .next (completed s .none (some u))) ∧
      (d.next ≤ d.last → exec (.ldAdd (.code c) b) s = .next (completed s .none (some { u with
        ld := some { d with child := d.child ++ [((c, b), d.next)], next := d.next + 1 } }))))

/-- R94: LD_RESET discards every entry beyond the singletons and keeps `LD.W` and `LD.last`. -/
def Obligations.LdResetKeepsOnlyTheSingletons : Prop :=
  ∀ (s : State) (u : Units) (d : LzwDict), Ready s u → u.ld = some d →
    exec .ldReset s = .next (completed s .none (some { u with ld := some { d with child := [], next := 256 } }))

/-- R95: the dictionary invariants hold after LD_INIT and are kept by the dictionary commands, and in a dictionary that
meets them distinct codes have distinct strings and every prefix of an entry's string is an entry. -/
def Obligations.LzwDictionaryInvariants : Prop :=
  (∀ (i : Instr) (s t : State) (u v : Units) (d e : LzwDict), Ready s u → u.ld = some d → d.Inv →
    ((∃ W, i = .ldInit W) ∨ (∃ c b, i = .ldHasnext c b) ∨ (∃ c, i = .ldGetcode c) ∨ (∃ c b, i = .ldAdd c b) ∨
      i = .ldReset) →
    exec i s = .next t → t.units = some v → v.ld = some e → e.Inv) ∧
  (∀ d : LzwDict, d.Inv →
    (∀ n, 256 ≤ n → n < d.next → ∃ k, (k, n) ∈ d.child ∧ ∀ k', (k', n) ∈ d.child → k' = k) ∧
    (∀ k n, (k, n) ∈ d.child → 256 ≤ n ∧ n < d.next) ∧
    (∀ n, n < d.next → ∃ str, d.IsString n str) ∧
    (∀ n n' str, d.IsString n str → d.IsString n' str → n = n') ∧
    (∀ n str p, d.IsString n str → p <+: str → p ≠ [] → ∃ n', n' < d.next ∧ d.IsString n' p))

/-! ### LZW encoder (R96 to R103) -/

/-- R96: LZC_INIT, and illegal operands whether the units are defined or not. -/
def Obligations.LzcInitStartsTheEncoder : Prop :=
  (∀ (s : State) (u : Units) (W : BitVec 5) (p : BitVec 7) (m : BitVec 32), Ready s u → 9 ≤ W.toNat → p.toNat ≤ 100 →
    exec (.lzcInit W p m) s = .next { completed s .none (some { u with
        ld := some { child := [], next := 256, W := W.toNat, last := 2 ^ W.toNat - 3 }
        le := some { cur := .root, width := 9, hits := 0, misses := 0, resets := 0, pct := p, mins := m } }) with
      stat := { phase := .done, err := .none, total := s.stat.total, resets := 0 } }) ∧
  ∀ (s : State) (W : BitVec 5) (p : BitVec 7) (m : BitVec 32), s.stat.phase ≠ .busy → W.toNat < 9 ∨ 100 < p.toNat →
    exec (.lzcInit W p m) s = .next (raisedClean s .configurationError)

/-- R97: LZC_EMIT writes GROW at each width at which the code is not below it, then the code; a cursor that names no entry
raises `BadOperand`. -/
def Obligations.LzcEmitGrowsThenWrites : Prop :=
  ∀ (s : State) (u : Units) (d : LzwDict) (e : LzwEnc), Ready s u → u.ld = some d → u.le = some e →
    exec (.lzcEmit .root) s = .next (raisedClean s .badOperand) ∧
    (∀ c : Nat, d.next ≤ c → exec (.lzcEmit (.code c)) s = .next (raisedClean s .badOperand)) ∧
    (u.bw.Inv → d.Inv → e.Inv → ∀ c : Nat, c < d.next →
      ∃ (w : Nat) (out : Bytes) (bw : BitWriter), WidthFor e.width c w ∧ w ≤ 31 ∧ bw.Inv ∧
        bw.total = u.bw.total + (emission e.width c w).length ∧
        writtenBits out bw = writtenBits s.out u.bw ++ emission e.width c w ∧
        exec (.lzcEmit (.code c)) s = .next { completed s .none (some { u with
            bw := bw, le := some { e with width := w } }) with
          out := out
          stat := { phase := .done, err := .none, total := bw.total, resets := s.stat.resets } })

/-- R98, the extending branch, and R99: LZC_BYTE moves the cursor along an edge, writes nothing, and counts a hit while the
dictionary is full. With a cursor that names no entry, as LD_RESET between two of them can leave it, it raises `BadOperand`
(R91). -/
def Obligations.LzcByteExtendsTheMatch : Prop :=
  (∀ (s : State) (u : Units) (d : LzwDict) (e : LzwEnc) (b : Byte) (c : Nat), Ready s u → u.ld = some d → u.le = some e →
    e.cur = .code c → d.next ≤ c → exec (.lzcByte b) s = .next (raisedClean s .badOperand)) ∧
  ∀ (s : State) (u : Units) (d : LzwDict) (e : LzwEnc) (b : Byte) (n : Nat), Ready s u → u.ld = some d →
    u.le = some e → (e.cur = .root ∧ n = b.toNat) ∨ (∃ c, e.cur = .code c ∧ c < d.next ∧ edgeAt (c, b) d.child = some n) →
    exec (.lzcByte b) s = .next (completed s .none (some { u with
      le := some { e with cur := .code n, hits := if d.next > d.last then e.hits + 1 else e.hits } }))

/-- R98, the other branch, when no reset follows (R99, R100): LZC_BYTE writes the cursor's code, registers the new string
unless the dictionary is full, restarts at the byte's singleton, and counts a miss if the dictionary is now full. -/
def Obligations.LzcByteWritesAndRegisters : Prop :=
  ∀ (s : State) (u : Units) (d : LzwDict) (e : LzwEnc) (b : Byte) (c : Nat), Ready s u → u.bw.Inv → u.ld = some d →
    d.Inv → u.le = some e → e.Inv → e.cur = .code c → c < d.next → edgeAt (c, b) d.child = none →
    let d' : LzwDict := if d.next > d.last then d
      else { d with child := d.child ++ [((c, b), d.next)], next := d.next + 1 }
    let misses := if d'.next > d'.last then e.misses + 1 else e.misses
    ¬ (d'.next > d'.last ∧ e.hits + misses > e.mins.toNat ∧ 100 * misses > e.pct.toNat * (e.hits + misses)) →
    ∃ (w : Nat) (out : Bytes) (bw : BitWriter), WidthFor e.width c w ∧ w ≤ 31 ∧ bw.Inv ∧
      bw.total = u.bw.total + (emission e.width c w).length ∧
      writtenBits out bw = writtenBits s.out u.bw ++ emission e.width c w ∧
      exec (.lzcByte b) s = .next { completed s .none (some { u with
          bw := bw, ld := some d', le := some { e with width := w, cur := .code b.toNat, misses := misses } }) with
        out := out
        stat := { phase := .done, err := .none, total := bw.total, resets := s.stat.resets } }

/-- R101, under the test of R100: on a counted miss that makes the reset due, LZC_BYTE writes RESET at the current width after
the plain code, empties the dictionary, returns to width 9, clears both counters, counts the reset, and restarts at the
byte's singleton. -/
def Obligations.LzcByteResetsWhenDue : Prop :=
  ∀ (s : State) (u : Units) (d : LzwDict) (e : LzwEnc) (b : Byte) (c : Nat), Ready s u → u.bw.Inv → u.ld = some d →
    d.Inv → u.le = some e → e.Inv → e.cur = .code c → c < d.next → edgeAt (c, b) d.child = none → d.last ≤ d.next →
    e.hits + (e.misses + 1) > e.mins.toNat → 100 * (e.misses + 1) > e.pct.toNat * (e.hits + (e.misses + 1)) →
    ∃ (w : Nat) (out : Bytes) (bw : BitWriter), WidthFor e.width c w ∧ w ≤ 31 ∧ bw.Inv ∧
      bw.total = u.bw.total + (emission e.width c w).length + w ∧
      writtenBits out bw = writtenBits s.out u.bw ++ emission e.width c w ++ bitsMsb w (2 ^ w - 1) ∧
      exec (.lzcByte b) s = .next { completed s .none (some { u with
          bw := bw
          ld := some { d with child := [], next := 256 }
          le := some { e with width := 9, hits := 0, misses := 0, resets := e.resets + 1, cur := .code b.toNat } }) with
        out := out
        stat := { phase := .done, err := .none, total := bw.total, resets := e.resets + 1 } }

/-- R102: LZC_FINISH writes the cursor's code, growing first if needed, and nothing if the cursor is at the root. With a
cursor that names no entry, which no LZC_BYTE leaves, LZC_EMIT raises `BadOperand` (R97). -/
def Obligations.LzcFinishWritesTheLastCode : Prop :=
  ∀ (s : State) (u : Units) (e : LzwEnc), Ready s u → u.le = some e →
    (e.cur = .root → exec .lzcFinish s = .next (completed s .none (some u))) ∧
    (∀ (d : LzwDict) (c : Nat), u.ld = some d → e.cur = .code c → d.next ≤ c →
      exec .lzcFinish s = .next (raisedClean s .badOperand)) ∧
    (∀ (d : LzwDict) (c : Nat), u.bw.Inv → u.ld = some d → d.Inv → e.Inv → e.cur = .code c → c < d.next →
      ∃ (w : Nat) (out : Bytes) (bw : BitWriter), WidthFor e.width c w ∧ w ≤ 31 ∧ bw.Inv ∧
        bw.total = u.bw.total + (emission e.width c w).length ∧
        writtenBits out bw = writtenBits s.out u.bw ++ emission e.width c w ∧
        exec .lzcFinish s = .next { completed s .none (some { u with bw := bw, le := some { e with width := w } }) with
          out := out
          stat := { phase := .done, err := .none, total := bw.total, resets := s.stat.resets } })

/-- R103: LZW_COMPRESS is LZC_INIT, the magic, the width field, LZC_BYTE for each byte of IN in order, LZC_FINISH and a flush,
one after the other, and raises what they raise (R69). -/
def Obligations.LzwCompressRunsTheByteLoop : Prop :=
  ∀ (s : State) (u : Units) (c : Cfg), Ready s u → s.cfg = some c → s.cfgReady = true →
    exec .lzwCompress s = execAll (lzwCompressSteps c s.input) s ∧
    (c.maxw.toNat < 9 ∨ 100 < c.pct.toNat → exec .lzwCompress s = .next (raisedClean s .configurationError))

/-- R103 and R64: LZW_COMPRESS completes, and writes the magic, the 5-bit width, a code stream (none for an empty input) and
zero bits to a byte. R109 (a): LZW_DECOMPRESS, and the file row LZW_FILE, turn that width field, stream and pad back into
the input, from every decoder state. Which stream, dictionary and registers, LzwCompressRunsTheByteLoop says. That LZW_FILE
is an instruction, with the effect of LZW_DECOMPRESS on every input, is the model's choice (log entry 3). -/
def Obligations.LzwStreamRoundTrip : Prop :=
  (∀ r : State, exec .lzwFile r = exec .lzwDecompress r) ∧
  ∀ (s : State) (u : Units) (c : Cfg), Ready s u → u.bw.Inv → s.cfg = some c → s.cfgReady = true → c.Inv →
    ∃ (stream : Bits) (out : Bytes) (d : LzwDict) (e : LzwEnc),
      let bits := writtenBits s.out u.bw ++ bitsMsb 32 Config.lzwMagic.toNat ++ bitsMsb 5 c.maxw.toNat ++ stream
      let total := u.bw.total + 37 + stream.length
      exec .lzwCompress s = .next { completed s .none (some { u with
          bw := { acc := 0, nacc := 0, total := total }, ld := some d, le := some e }) with
        out := out
        stat := { phase := .done, err := .none, total := total, resets := e.resets } } ∧
      bitsOfBytes out = bits ++ padBits bits.length ∧ (s.input = [] → stream = []) ∧
      ∀ (r : State) (w : Units) (k : Nat) (i : Instr), Ready r w → i = .lzwDecompress ∨ i = .lzwFile → k < 8 →
        bitsAhead r w = bitsMsb 5 c.maxw.toNat ++ stream ++ List.replicate k false →
        ∃ x : LzwDec, x.done = true ∧ exec i r = .next { completed r .none (some { w with
            br := { pos := 8 * r.input.length }, lx := some x }) with
          out := r.out ++ s.input }

/-! ### LZW decoder (R105 to R108) -/

/-- R105: LZD_INIT reads the 5-bit width field and starts the decoder; a width below 9 raises `ConfigurationError`, fewer than
5 bits raise `UnexpectedEndOfStream`. -/
def Obligations.LzdInitReadsTheWidth : Prop :=
  ∀ (s : State) (u : Units), Ready s u →
    (∀ (W : BitVec 5) (rest : Bits), bitsAhead s u = bitsMsb 5 W.toNat ++ rest →
      (9 ≤ W.toNat → exec .lzdInit s = .next (completed s (.num W.toNat) (some { u with
        br := { pos := u.br.pos + 5 }
        lx := some { table := [], reg := [], last := [], next := 256, width := 9, W := W.toNat,
                     lastCode := 2 ^ W.toNat - 3, done := false } }))) ∧
      (W.toNat < 9 → exec .lzdInit s = .next (raisedClean s .configurationError))) ∧
    ((bitsAhead s u).length < 5 → exec .lzdInit s = .next (raisedClean s .unexpectedEndOfStream))

/-- R106 and R130: LZD_CODE fetches a code word at exactly the current width and does what that class of code word does; at the
end of the stream it sets `LX.done`, and from then on it does nothing. -/
def Obligations.LzdCodeFetchesAndActs : Prop :=
  ∀ (s : State) (u : Units) (x : LzwDec), Ready s u → u.lx = some x → x.Inv →
    (x.done = true → exec .lzdCode s = .next (completed s .exhausted (some u))) ∧
    (x.done = false → (bitsAhead s u).length < x.width →
      exec .lzdCode s = .next (completed s .exhausted (some { u with
        br := { pos := 8 * s.input.length }, lx := some { x with done := true } }))) ∧
    (x.done = false → ∀ (v : Nat) (rest : Bits), v < 2 ^ x.width → bitsAhead s u = bitsMsb x.width v ++ rest →
      exec .lzdCode s = exec (classifyCode x.width v).instr
        (s.withUnits (some { u with br := { pos := u.br.pos + x.width } })))

/-- R106, the control codes: GROW widens by one bit, or raises `CorruptStream` at the maximum width (R66); RESET returns the
table, the registry, the width and the last output to their initial values. That the rows LZW_GROW and LZW_RESET are
instructions of their own, with RES and the phase as LZD_CODE leaves them, is the model's choice (log entry 3). -/
def Obligations.LzwControlCodesChangeTheWidth : Prop :=
  ∀ (s : State) (u : Units) (x : LzwDec), Ready s u → u.lx = some x →
    (x.width < x.W → exec .lzwGrow s = .next (completed s (.num (2 ^ x.width - 2)) (some { u with
      lx := some { x with width := x.width + 1 } }))) ∧
    (x.W ≤ x.width → exec .lzwGrow s = .next (raisedClean s .corruptStream)) ∧
    exec .lzwReset s = .next (completed s (.num (2 ^ x.width - 1)) (some { u with
      lx := some { x with table := [], reg := [], next := 256, width := 9, last := [] } }))

/-- R106, LITERAL: output the byte, and register the last output with it, if there is one, it is not registered and a code is
left. That the row LZW_LITERAL is an instruction of its own is the model's choice (log entry 3). -/
def Obligations.LzwLiteralOutputsAndRegisters : Prop :=
  ∀ (s : State) (u : Units) (x : LzwDec) (b : Byte), Ready s u → u.lx = some x →
    (x.last ≠ [] ∧ x.last ++ [b] ∉ x.reg ∧ x.next ≤ x.lastCode →
      exec (.lzwLiteral b) s = .next { completed s (.num b.toNat) (some { u with
        lx := some { x.enter (x.last ++ [b]) with last := [b] } }) with out := s.out ++ [b] }) ∧
    (¬ (x.last ≠ [] ∧ x.last ++ [b] ∉ x.reg ∧ x.next ≤ x.lastCode) →
      exec (.lzwLiteral b) s = .next { completed s (.num b.toNat) (some { u with
        lx := some { x with last := [b] } }) with out := s.out ++ [b] })

/-- R106 and R107, REFERENCE: a registered code outputs its string and registers the last output with that string's first
byte; any other outputs the last output with its own first byte, registers that, and keeps it as the last output; with no
last output it raises `InternalInvariantViolation`. That the row LZW_REFERENCE is an instruction of its own is the model's
choice (log entry 3). -/
def Obligations.LzwReferenceOutputsAndRegisters : Prop :=
  ∀ (s : State) (u : Units) (x : LzwDec) (c : Nat), Ready s u → u.lx = some x →
    (∀ (y : Byte) (ys : Bytes), tableAt c x.table = some (y :: ys) →
      (x.last ≠ [] ∧ x.last ++ [y] ∉ x.reg ∧ x.next ≤ x.lastCode →
        exec (.lzwReference c) s = .next { completed s (.num c) (some { u with
          lx := some { x.enter (x.last ++ [y]) with last := y :: ys } }) with out := s.out ++ y :: ys }) ∧
      (¬ (x.last ≠ [] ∧ x.last ++ [y] ∉ x.reg ∧ x.next ≤ x.lastCode) →
        exec (.lzwReference c) s = .next { completed s (.num c) (some { u with
          lx := some { x with last := y :: ys } }) with out := s.out ++ y :: ys })) ∧
    (∀ (y : Byte) (ys : Bytes), tableAt c x.table = none → x.last = y :: ys →
      (y :: ys ++ [y] ∉ x.reg ∧ x.next ≤ x.lastCode →
        exec (.lzwReference c) s = .next { completed s (.num c) (some { u with
          lx := some { x.enter (y :: ys ++ [y]) with last := y :: ys ++ [y] } }) with out := s.out ++ (y :: ys ++ [y]) }) ∧
      (¬ (y :: ys ++ [y] ∉ x.reg ∧ x.next ≤ x.lastCode) →
        exec (.lzwReference c) s = .next { completed s (.num c) (some { u with
          lx := some { x with last := y :: ys ++ [y] } }) with out := s.out ++ (y :: ys ++ [y]) })) ∧
    (tableAt c x.table = none → x.last = [] →
      exec (.lzwReference c) s = .next (raisedClean s .internalInvariantViolation))

/-- R108: LZW_DECOMPRESS is LZD_INIT and then LZD_CODE until `LX.done`, on every input, so that trailing bytes are decoded as
more codes (R133); the first of them that raises ends it with the same error, and OUT is then empty if none had been written
and unspecified otherwise (R116). -/
def Obligations.LzwDecompressRunsTheCodeLoop : Prop :=
  ∀ (r : State) (w : Units), Ready r w → ∃ t : State, exec .lzdInit r = .next t ∧
    (t.stat.phase = .failed → exec .lzwDecompress r = .next t) ∧
    (t.stat.phase ≠ .failed → ∃ (n : Nat) (p : State),
      execAll (List.replicate n .lzdCode) t = .next p ∧ p.stat.phase = .done ∧
      ((∃ (v : Units) (x : LzwDec), p.units = some v ∧ v.lx = some x ∧ x.done = true ∧
          exec .lzwDecompress r = .next (p.withRes .none)) ∨
        ∃ q : State, exec .lzdCode p = .next q ∧ q.stat.phase = .failed ∧
          exec .lzwDecompress r = .next (if p.out = r.out then q
            else { q with out := Config.unspecifiedOut r.draws, draws := r.draws + 1 })))

/-! ### Entry points (R111 to R113) -/

/-- R111: COMPRESS starts afresh, checks both configuration fields for both algorithms before any output, stores them, and runs
the codec; a COMPRESS that succeeds makes CFG readable (R25). A refused configuration leaves CFG as it was, and a count
above 2^32 − 1 raises `CountOverflow` with the new CFG stored. -/
def Obligations.CompressChecksThenRunsTheCodec : Prop :=
  ∀ (s : State) (a : Algo) (W : BitVec 5) (p : BitVec 7) (m : BitVec 32), s.stat.phase ≠ .busy →
    (W.toNat < 9 ∨ 100 < p.toNat →
      exec (.compress a W p m) s = .next (raisedAfterStart s .configurationError)) ∧
    (9 ≤ W.toNat → p.toNat ≤ 100 →
      let c : Cfg := { algo := a, maxw := W, pct := p, mins := m }
      let s' := (((startHost s).withPhase .idle).withCfg (some c)).withCfgReady true
      (a = .lzw → exec (.compress a W p m) s = exec .lzwCompress s') ∧
      (a = .huffman → (∀ b, s.input.count b < 2 ^ 32) → exec (.compress a W p m) s = exec .hufCompress s') ∧
      (a = .huffman → (∃ b, 2 ^ 32 ≤ s.input.count b) → ∃ ready : Bool,
        exec (.compress a W p m) s =
          .next (((raisedAfterStart s .countOverflow).withCfg (some c)).withCfgReady ready)))

/-- The model's choice where R25, R61 and I5 meet R111 and R115 (log entry 17): a COMPRESS that raises `CountOverflow` stores its
configuration but is not a successful one, so that CFG is readable after it exactly if it was before, and LZW_COMPRESS still
raises `BadOperand` where no COMPRESS has succeeded. -/
def Obligations.OverflowingCompressDefinesNoCfg : Prop :=
  ∀ (s : State) (W : BitVec 5) (p : BitVec 7) (m : BitVec 32) (b : Byte), s.stat.phase ≠ .busy → 9 ≤ W.toNat →
    p.toNat ≤ 100 → 2 ^ 32 ≤ s.input.count b →
    ∃ t : State, exec (.compress .huffman W p m) s = .next t ∧ t.stat.err = .countOverflow ∧
      t.cfg = some { algo := .huffman, maxw := W, pct := p, mins := m } ∧ t.cfgReady = s.cfgReady ∧
      (s.cfgReady = false → ∀ r : State, r.stat.phase ≠ .busy → r.cfgReady = t.cfgReady →
        exec .lzwCompress r = .next (raisedClean r .badOperand))

/-- R112: DECOMPRESS starts afresh and reads four bytes; too few raise `UnexpectedEndOfStream`, an unknown magic raises
`MalformedHeader`, and a known one runs that codec on the rest of the input. -/
def Obligations.DecompressMatchesTheMagicThenRuns : Prop :=
  ∀ s : State, s.stat.phase ≠ .busy →
    (s.input.length < 4 → exec .decompress s = .next (raisedAfterStart s .unexpectedEndOfStream)) ∧
    (∀ (m : BitVec 32) (rest : Bytes), s.input = magicBytes m ++ rest →
      let s' := ((startHost s).withPhase .idle).withUnits (some { Units.start with br := { pos := 32 } })
      (m ≠ Config.huffMagic → m ≠ Config.lzwMagic →
        exec .decompress s = .next (raisedAfterStart s .malformedHeader)) ∧
      (m = Config.huffMagic → exec .decompress s = exec .huffFile s') ∧
      (m = Config.lzwMagic → exec .decompress s = exec .lzwFile s'))

/-- R113 (a) and R67: every error in the header leaves OUT empty: a magic cut short, an unknown magic, a Huffman file shorter
than 1028 bytes, an LZW file without a width field, and a width field below 9. -/
def Obligations.HeaderErrorsLeaveNoOutput : Prop :=
  ∀ (s : State) (rest : Bytes), s.stat.phase ≠ .busy →
    (s.input.length < 4 → exec .decompress s = .next (raisedAfterStart s .unexpectedEndOfStream)) ∧
    (∀ m : BitVec 32, s.input = magicBytes m ++ rest → m ≠ Config.huffMagic → m ≠ Config.lzwMagic →
      exec .decompress s = .next (raisedAfterStart s .malformedHeader)) ∧
    (s.input = magicBytes Config.huffMagic ++ rest → rest.length < 1024 →
      exec .decompress s = .next (raisedAfterStart s .unexpectedEndOfStream)) ∧
    (s.input = magicBytes Config.lzwMagic → exec .decompress s = .next (raisedAfterStart s .unexpectedEndOfStream)) ∧
    (∀ b : Byte, s.input = magicBytes Config.lzwMagic ++ b :: rest → b.toNat < 9 * 8 →
      exec .decompress s = .next (raisedAfterStart s .configurationError))

/-- R109 (a) and R113 (c) for LZW: DECOMPRESS of what COMPRESS wrote returns the input, for every input, every maximum width
from 9 to 31, every threshold from 0 to 100 and every minimum sample size, each command from any state in which one may
start. -/
def Obligations.LzwFileRoundTrip : Prop :=
  ∀ (s : State) (W : BitVec 5) (p : BitVec 7) (m : BitVec 32), s.stat.phase ≠ .busy → 9 ≤ W.toNat → p.toNat ≤ 100 →
    ∃ t : State, exec (.compress .lzw W p m) s = .next t ∧ t.stat.phase = .done ∧
      t.cfg = some { algo := .lzw, maxw := W, pct := p, mins := m } ∧ t.cfgReady = true ∧
      ∀ r : State, r.stat.phase ≠ .busy → r.input = t.out →
        ∃ q : State, exec .decompress r = .next q ∧ q.stat.phase = .done ∧ q.out = s.input ∧ q.cfg = r.cfg
end

