-- ==== Sys2Proof/Laws/State.lean ====
section
/-! SUPPORT. What each field is after each named update of State (R19): all true by definition. -/

namespace Sys2Proof.Machine

@[simp] theorem State.withStat_stat (s : State) (x : Stat) : (s.withStat x).stat = x := rfl
@[simp] theorem State.withStat_res (s : State) (x : Stat) : (s.withStat x).res = s.res := rfl
@[simp] theorem State.withStat_cfg (s : State) (x : Stat) : (s.withStat x).cfg = s.cfg := rfl
@[simp] theorem State.withStat_cfgReady (s : State) (x : Stat) : (s.withStat x).cfgReady = s.cfgReady := rfl
@[simp] theorem State.withStat_input (s : State) (x : Stat) : (s.withStat x).input = s.input := rfl
@[simp] theorem State.withStat_out (s : State) (x : Stat) : (s.withStat x).out = s.out := rfl
@[simp] theorem State.withStat_units (s : State) (x : Stat) : (s.withStat x).units = s.units := rfl
@[simp] theorem State.withStat_host (s : State) (x : Stat) : (s.withStat x).host = s.host := rfl
@[simp] theorem State.withStat_draws (s : State) (x : Stat) : (s.withStat x).draws = s.draws := rfl

@[simp] theorem State.withRes_stat (s : State) (x : Result) : (s.withRes x).stat = s.stat := rfl
@[simp] theorem State.withRes_res (s : State) (x : Result) : (s.withRes x).res = x := rfl
@[simp] theorem State.withRes_cfg (s : State) (x : Result) : (s.withRes x).cfg = s.cfg := rfl
@[simp] theorem State.withRes_cfgReady (s : State) (x : Result) : (s.withRes x).cfgReady = s.cfgReady := rfl
@[simp] theorem State.withRes_input (s : State) (x : Result) : (s.withRes x).input = s.input := rfl
@[simp] theorem State.withRes_out (s : State) (x : Result) : (s.withRes x).out = s.out := rfl
@[simp] theorem State.withRes_units (s : State) (x : Result) : (s.withRes x).units = s.units := rfl
@[simp] theorem State.withRes_host (s : State) (x : Result) : (s.withRes x).host = s.host := rfl
@[simp] theorem State.withRes_draws (s : State) (x : Result) : (s.withRes x).draws = s.draws := rfl

@[simp] theorem State.withCfg_stat (s : State) (x : Option Cfg) : (s.withCfg x).stat = s.stat := rfl
@[simp] theorem State.withCfg_res (s : State) (x : Option Cfg) : (s.withCfg x).res = s.res := rfl
@[simp] theorem State.withCfg_cfg (s : State) (x : Option Cfg) : (s.withCfg x).cfg = x := rfl
@[simp] theorem State.withCfg_cfgReady (s : State) (x : Option Cfg) : (s.withCfg x).cfgReady = s.cfgReady := rfl
@[simp] theorem State.withCfg_input (s : State) (x : Option Cfg) : (s.withCfg x).input = s.input := rfl
@[simp] theorem State.withCfg_out (s : State) (x : Option Cfg) : (s.withCfg x).out = s.out := rfl
@[simp] theorem State.withCfg_units (s : State) (x : Option Cfg) : (s.withCfg x).units = s.units := rfl
@[simp] theorem State.withCfg_host (s : State) (x : Option Cfg) : (s.withCfg x).host = s.host := rfl
@[simp] theorem State.withCfg_draws (s : State) (x : Option Cfg) : (s.withCfg x).draws = s.draws := rfl

@[simp] theorem State.withCfgReady_stat (s : State) (x : Bool) : (s.withCfgReady x).stat = s.stat := rfl
@[simp] theorem State.withCfgReady_res (s : State) (x : Bool) : (s.withCfgReady x).res = s.res := rfl
@[simp] theorem State.withCfgReady_cfg (s : State) (x : Bool) : (s.withCfgReady x).cfg = s.cfg := rfl
@[simp] theorem State.withCfgReady_cfgReady (s : State) (x : Bool) : (s.withCfgReady x).cfgReady = x := rfl
@[simp] theorem State.withCfgReady_input (s : State) (x : Bool) : (s.withCfgReady x).input = s.input := rfl
@[simp] theorem State.withCfgReady_out (s : State) (x : Bool) : (s.withCfgReady x).out = s.out := rfl
@[simp] theorem State.withCfgReady_units (s : State) (x : Bool) : (s.withCfgReady x).units = s.units := rfl
@[simp] theorem State.withCfgReady_host (s : State) (x : Bool) : (s.withCfgReady x).host = s.host := rfl
@[simp] theorem State.withCfgReady_draws (s : State) (x : Bool) : (s.withCfgReady x).draws = s.draws := rfl

@[simp] theorem State.withInput_stat (s : State) (x : Bytes) : (s.withInput x).stat = s.stat := rfl
@[simp] theorem State.withInput_res (s : State) (x : Bytes) : (s.withInput x).res = s.res := rfl
@[simp] theorem State.withInput_cfg (s : State) (x : Bytes) : (s.withInput x).cfg = s.cfg := rfl
@[simp] theorem State.withInput_cfgReady (s : State) (x : Bytes) : (s.withInput x).cfgReady = s.cfgReady := rfl
@[simp] theorem State.withInput_input (s : State) (x : Bytes) : (s.withInput x).input = x := rfl
@[simp] theorem State.withInput_out (s : State) (x : Bytes) : (s.withInput x).out = s.out := rfl
@[simp] theorem State.withInput_units (s : State) (x : Bytes) : (s.withInput x).units = s.units := rfl
@[simp] theorem State.withInput_host (s : State) (x : Bytes) : (s.withInput x).host = s.host := rfl
@[simp] theorem State.withInput_draws (s : State) (x : Bytes) : (s.withInput x).draws = s.draws := rfl

@[simp] theorem State.withOut_stat (s : State) (x : Bytes) : (s.withOut x).stat = s.stat := rfl
@[simp] theorem State.withOut_res (s : State) (x : Bytes) : (s.withOut x).res = s.res := rfl
@[simp] theorem State.withOut_cfg (s : State) (x : Bytes) : (s.withOut x).cfg = s.cfg := rfl
@[simp] theorem State.withOut_cfgReady (s : State) (x : Bytes) : (s.withOut x).cfgReady = s.cfgReady := rfl
@[simp] theorem State.withOut_input (s : State) (x : Bytes) : (s.withOut x).input = s.input := rfl
@[simp] theorem State.withOut_out (s : State) (x : Bytes) : (s.withOut x).out = x := rfl
@[simp] theorem State.withOut_units (s : State) (x : Bytes) : (s.withOut x).units = s.units := rfl
@[simp] theorem State.withOut_host (s : State) (x : Bytes) : (s.withOut x).host = s.host := rfl
@[simp] theorem State.withOut_draws (s : State) (x : Bytes) : (s.withOut x).draws = s.draws := rfl

@[simp] theorem State.withUnits_stat (s : State) (x : Option Units) : (s.withUnits x).stat = s.stat := rfl
@[simp] theorem State.withUnits_res (s : State) (x : Option Units) : (s.withUnits x).res = s.res := rfl
@[simp] theorem State.withUnits_cfg (s : State) (x : Option Units) : (s.withUnits x).cfg = s.cfg := rfl
@[simp] theorem State.withUnits_cfgReady (s : State) (x : Option Units) : (s.withUnits x).cfgReady = s.cfgReady := rfl
@[simp] theorem State.withUnits_input (s : State) (x : Option Units) : (s.withUnits x).input = s.input := rfl
@[simp] theorem State.withUnits_out (s : State) (x : Option Units) : (s.withUnits x).out = s.out := rfl
@[simp] theorem State.withUnits_units (s : State) (x : Option Units) : (s.withUnits x).units = x := rfl
@[simp] theorem State.withUnits_host (s : State) (x : Option Units) : (s.withUnits x).host = s.host := rfl
@[simp] theorem State.withUnits_draws (s : State) (x : Option Units) : (s.withUnits x).draws = s.draws := rfl

@[simp] theorem State.withHost_stat (s : State) (x : List HostAction) : (s.withHost x).stat = s.stat := rfl
@[simp] theorem State.withHost_res (s : State) (x : List HostAction) : (s.withHost x).res = s.res := rfl
@[simp] theorem State.withHost_cfg (s : State) (x : List HostAction) : (s.withHost x).cfg = s.cfg := rfl
@[simp] theorem State.withHost_cfgReady (s : State) (x : List HostAction) : (s.withHost x).cfgReady = s.cfgReady := rfl
@[simp] theorem State.withHost_input (s : State) (x : List HostAction) : (s.withHost x).input = s.input := rfl
@[simp] theorem State.withHost_out (s : State) (x : List HostAction) : (s.withHost x).out = s.out := rfl
@[simp] theorem State.withHost_units (s : State) (x : List HostAction) : (s.withHost x).units = s.units := rfl
@[simp] theorem State.withHost_host (s : State) (x : List HostAction) : (s.withHost x).host = x := rfl
@[simp] theorem State.withHost_draws (s : State) (x : List HostAction) : (s.withHost x).draws = s.draws := rfl

@[simp] theorem State.withDraws_stat (s : State) (x : Nat) : (s.withDraws x).stat = s.stat := rfl
@[simp] theorem State.withDraws_res (s : State) (x : Nat) : (s.withDraws x).res = s.res := rfl
@[simp] theorem State.withDraws_cfg (s : State) (x : Nat) : (s.withDraws x).cfg = s.cfg := rfl
@[simp] theorem State.withDraws_cfgReady (s : State) (x : Nat) : (s.withDraws x).cfgReady = s.cfgReady := rfl
@[simp] theorem State.withDraws_input (s : State) (x : Nat) : (s.withDraws x).input = s.input := rfl
@[simp] theorem State.withDraws_out (s : State) (x : Nat) : (s.withDraws x).out = s.out := rfl
@[simp] theorem State.withDraws_units (s : State) (x : Nat) : (s.withDraws x).units = s.units := rfl
@[simp] theorem State.withDraws_host (s : State) (x : Nat) : (s.withDraws x).host = s.host := rfl
@[simp] theorem State.withDraws_draws (s : State) (x : Nat) : (s.withDraws x).draws = x := rfl

@[simp] theorem State.withTotal_stat (s : State) (n : Nat) : (s.withTotal n).stat = { s.stat with total := n } := rfl
@[simp] theorem State.withTotal_res (s : State) (n : Nat) : (s.withTotal n).res = s.res := rfl
@[simp] theorem State.withTotal_cfg (s : State) (n : Nat) : (s.withTotal n).cfg = s.cfg := rfl
@[simp] theorem State.withTotal_cfgReady (s : State) (n : Nat) : (s.withTotal n).cfgReady = s.cfgReady := rfl
@[simp] theorem State.withTotal_input (s : State) (n : Nat) : (s.withTotal n).input = s.input := rfl
@[simp] theorem State.withTotal_out (s : State) (n : Nat) : (s.withTotal n).out = s.out := rfl
@[simp] theorem State.withTotal_units (s : State) (n : Nat) : (s.withTotal n).units = s.units := rfl
@[simp] theorem State.withTotal_host (s : State) (n : Nat) : (s.withTotal n).host = s.host := rfl
@[simp] theorem State.withTotal_draws (s : State) (n : Nat) : (s.withTotal n).draws = s.draws := rfl

@[simp] theorem State.withResets_stat (s : State) (n : Nat) : (s.withResets n).stat = { s.stat with resets := n } := rfl
@[simp] theorem State.withResets_res (s : State) (n : Nat) : (s.withResets n).res = s.res := rfl
@[simp] theorem State.withResets_cfg (s : State) (n : Nat) : (s.withResets n).cfg = s.cfg := rfl
@[simp] theorem State.withResets_cfgReady (s : State) (n : Nat) : (s.withResets n).cfgReady = s.cfgReady := rfl
@[simp] theorem State.withResets_input (s : State) (n : Nat) : (s.withResets n).input = s.input := rfl
@[simp] theorem State.withResets_out (s : State) (n : Nat) : (s.withResets n).out = s.out := rfl
@[simp] theorem State.withResets_units (s : State) (n : Nat) : (s.withResets n).units = s.units := rfl
@[simp] theorem State.withResets_host (s : State) (n : Nat) : (s.withResets n).host = s.host := rfl
@[simp] theorem State.withResets_draws (s : State) (n : Nat) : (s.withResets n).draws = s.draws := rfl

@[simp] theorem State.withPhase_stat (s : State) (p : Phase) : (s.withPhase p).stat = { s.stat with phase := p } := rfl
@[simp] theorem State.withPhase_res (s : State) (p : Phase) : (s.withPhase p).res = s.res := rfl
@[simp] theorem State.withPhase_cfg (s : State) (p : Phase) : (s.withPhase p).cfg = s.cfg := rfl
@[simp] theorem State.withPhase_cfgReady (s : State) (p : Phase) : (s.withPhase p).cfgReady = s.cfgReady := rfl
@[simp] theorem State.withPhase_input (s : State) (p : Phase) : (s.withPhase p).input = s.input := rfl
@[simp] theorem State.withPhase_out (s : State) (p : Phase) : (s.withPhase p).out = s.out := rfl
@[simp] theorem State.withPhase_units (s : State) (p : Phase) : (s.withPhase p).units = s.units := rfl
@[simp] theorem State.withPhase_host (s : State) (p : Phase) : (s.withPhase p).host = s.host := rfl
@[simp] theorem State.withPhase_draws (s : State) (p : Phase) : (s.withPhase p).draws = s.draws := rfl

@[simp] theorem State.mapUnits_stat (s : State) (f : Units → Units) : (s.mapUnits f).stat = s.stat := rfl
@[simp] theorem State.mapUnits_res (s : State) (f : Units → Units) : (s.mapUnits f).res = s.res := rfl
@[simp] theorem State.mapUnits_cfg (s : State) (f : Units → Units) : (s.mapUnits f).cfg = s.cfg := rfl
@[simp] theorem State.mapUnits_cfgReady (s : State) (f : Units → Units) : (s.mapUnits f).cfgReady = s.cfgReady := rfl
@[simp] theorem State.mapUnits_input (s : State) (f : Units → Units) : (s.mapUnits f).input = s.input := rfl
@[simp] theorem State.mapUnits_out (s : State) (f : Units → Units) : (s.mapUnits f).out = s.out := rfl
@[simp] theorem State.mapUnits_units (s : State) (f : Units → Units) : (s.mapUnits f).units = s.units.map f := rfl
@[simp] theorem State.mapUnits_host (s : State) (f : Units → Units) : (s.mapUnits f).host = s.host := rfl
@[simp] theorem State.mapUnits_draws (s : State) (f : Units → Units) : (s.mapUnits f).draws = s.draws := rfl

@[simp] theorem setLd_stat (s : State) (x : LzwDict) : (setLd s x).stat = s.stat := rfl
@[simp] theorem setLd_res (s : State) (x : LzwDict) : (setLd s x).res = s.res := rfl
@[simp] theorem setLd_cfg (s : State) (x : LzwDict) : (setLd s x).cfg = s.cfg := rfl
@[simp] theorem setLd_cfgReady (s : State) (x : LzwDict) : (setLd s x).cfgReady = s.cfgReady := rfl
@[simp] theorem setLd_input (s : State) (x : LzwDict) : (setLd s x).input = s.input := rfl
@[simp] theorem setLd_out (s : State) (x : LzwDict) : (setLd s x).out = s.out := rfl
@[simp] theorem setLd_units (s : State) (x : LzwDict) : (setLd s x).units = s.units.map fun u => { u with ld := some x } := rfl
@[simp] theorem setLd_host (s : State) (x : LzwDict) : (setLd s x).host = s.host := rfl
@[simp] theorem setLd_draws (s : State) (x : LzwDict) : (setLd s x).draws = s.draws := rfl

@[simp] theorem setLe_stat (s : State) (x : LzwEnc) : (setLe s x).stat = s.stat := rfl
@[simp] theorem setLe_res (s : State) (x : LzwEnc) : (setLe s x).res = s.res := rfl
@[simp] theorem setLe_cfg (s : State) (x : LzwEnc) : (setLe s x).cfg = s.cfg := rfl
@[simp] theorem setLe_cfgReady (s : State) (x : LzwEnc) : (setLe s x).cfgReady = s.cfgReady := rfl
@[simp] theorem setLe_input (s : State) (x : LzwEnc) : (setLe s x).input = s.input := rfl
@[simp] theorem setLe_out (s : State) (x : LzwEnc) : (setLe s x).out = s.out := rfl
@[simp] theorem setLe_units (s : State) (x : LzwEnc) : (setLe s x).units = s.units.map fun u => { u with le := some x } := rfl
@[simp] theorem setLe_host (s : State) (x : LzwEnc) : (setLe s x).host = s.host := rfl
@[simp] theorem setLe_draws (s : State) (x : LzwEnc) : (setLe s x).draws = s.draws := rfl

@[simp] theorem setLx_stat (s : State) (x : LzwDec) : (setLx s x).stat = s.stat := rfl
@[simp] theorem setLx_res (s : State) (x : LzwDec) : (setLx s x).res = s.res := rfl
@[simp] theorem setLx_cfg (s : State) (x : LzwDec) : (setLx s x).cfg = s.cfg := rfl
@[simp] theorem setLx_cfgReady (s : State) (x : LzwDec) : (setLx s x).cfgReady = s.cfgReady := rfl
@[simp] theorem setLx_input (s : State) (x : LzwDec) : (setLx s x).input = s.input := rfl
@[simp] theorem setLx_out (s : State) (x : LzwDec) : (setLx s x).out = s.out := rfl
@[simp] theorem setLx_units (s : State) (x : LzwDec) : (setLx s x).units = s.units.map fun u => { u with lx := some x } := rfl
@[simp] theorem setLx_host (s : State) (x : LzwDec) : (setLx s x).host = s.host := rfl
@[simp] theorem setLx_draws (s : State) (x : LzwDec) : (setLx s x).draws = s.draws := rfl

@[simp] theorem sinkByte_stat (b : Byte) (s : State) : (sinkByte b s).stat = s.stat := rfl
@[simp] theorem sinkByte_res (b : Byte) (s : State) : (sinkByte b s).res = s.res := rfl
@[simp] theorem sinkByte_cfg (b : Byte) (s : State) : (sinkByte b s).cfg = s.cfg := rfl
@[simp] theorem sinkByte_cfgReady (b : Byte) (s : State) : (sinkByte b s).cfgReady = s.cfgReady := rfl
@[simp] theorem sinkByte_input (b : Byte) (s : State) : (sinkByte b s).input = s.input := rfl
@[simp] theorem sinkByte_out (b : Byte) (s : State) : (sinkByte b s).out = s.out ++ [b] := rfl
@[simp] theorem sinkByte_units (b : Byte) (s : State) : (sinkByte b s).units = s.units := rfl
@[simp] theorem sinkByte_host (b : Byte) (s : State) : (sinkByte b s).host = s.host := rfl
@[simp] theorem sinkByte_draws (b : Byte) (s : State) : (sinkByte b s).draws = s.draws := rfl

@[simp] theorem emitBytes_stat (bs : Bytes) (s : State) : (emitBytes bs s).stat = s.stat := rfl
@[simp] theorem emitBytes_res (bs : Bytes) (s : State) : (emitBytes bs s).res = s.res := rfl
@[simp] theorem emitBytes_cfg (bs : Bytes) (s : State) : (emitBytes bs s).cfg = s.cfg := rfl
@[simp] theorem emitBytes_cfgReady (bs : Bytes) (s : State) : (emitBytes bs s).cfgReady = s.cfgReady := rfl
@[simp] theorem emitBytes_input (bs : Bytes) (s : State) : (emitBytes bs s).input = s.input := rfl
@[simp] theorem emitBytes_out (bs : Bytes) (s : State) : (emitBytes bs s).out = s.out ++ bs := rfl
@[simp] theorem emitBytes_units (bs : Bytes) (s : State) : (emitBytes bs s).units = s.units := rfl
@[simp] theorem emitBytes_host (bs : Bytes) (s : State) : (emitBytes bs s).host = s.host := rfl
@[simp] theorem emitBytes_draws (bs : Bytes) (s : State) : (emitBytes bs s).draws = s.draws := rfl

/-! START (R110) and the start of a unit command (R122). -/
@[simp] theorem startHost_stat (s : State) : (startHost s).stat = { phase := .busy, err := .none, total := 0, resets := 0 } := rfl
@[simp] theorem startHost_res (s : State) : (startHost s).res = .none := rfl
@[simp] theorem startHost_cfg (s : State) : (startHost s).cfg = s.cfg := rfl
@[simp] theorem startHost_cfgReady (s : State) : (startHost s).cfgReady = s.cfgReady := rfl
@[simp] theorem startHost_input (s : State) : (startHost s).input = s.input := rfl
@[simp] theorem startHost_out (s : State) : (startHost s).out = [] := rfl
@[simp] theorem startHost_units (s : State) : (startHost s).units = some Units.start := rfl
@[simp] theorem startHost_host (s : State) : (startHost s).host = s.host := rfl
@[simp] theorem startHost_draws (s : State) : (startHost s).draws = s.draws := rfl

@[simp] theorem startUnit_stat (s : State) : (startUnit s).stat = { s.stat with phase := .busy, err := .none } := rfl
@[simp] theorem startUnit_res (s : State) : (startUnit s).res = s.res := rfl
@[simp] theorem startUnit_cfg (s : State) : (startUnit s).cfg = s.cfg := rfl
@[simp] theorem startUnit_cfgReady (s : State) : (startUnit s).cfgReady = s.cfgReady := rfl
@[simp] theorem startUnit_input (s : State) : (startUnit s).input = s.input := rfl
@[simp] theorem startUnit_out (s : State) : (startUnit s).out = s.out := rfl
@[simp] theorem startUnit_units (s : State) : (startUnit s).units = s.units := rfl
@[simp] theorem startUnit_host (s : State) : (startUnit s).host = s.host := rfl
@[simp] theorem startUnit_draws (s : State) : (startUnit s).draws = s.draws := rfl

end Sys2Proof.Machine
end

