-- ==== Sys2Proof/Laws/Bits.lean ====
section
/-! SUPPORT. The bit order (R12): a number written most significant bit first and read back, fields of a bit sequence, the
loops of WriteBits and ReadBits as operations on bit sequences. -/

namespace Sys2Proof

/-! ### Numbers and bits -/

@[simp] theorem bitsMsb_length (n v : Nat) : (bitsMsb n v).length = n := by
  induction n with
  | zero => rfl
  | succ n ih => simp [bitsMsb, ih]

/-- Reading a bit more doubles the number read so far. -/
theorem foldl_bits (bs : Bits) (r : Nat) :
    bs.foldl (fun r b => 2 * r + b.toNat) r = r * 2 ^ bs.length + natOfBits bs := by
  induction bs generalizing r with
  | nil => simp [natOfBits]
  | cons b bs ih =>
    simp only [List.foldl_cons, List.length_cons, natOfBits]
    rw [ih, ih (2 * 0 + b.toNat)]
    ring

@[simp] theorem natOfBits_nil : natOfBits [] = 0 := rfl

theorem natOfBits_cons (b : Bool) (bs : Bits) : natOfBits (b :: bs) = b.toNat * 2 ^ bs.length + natOfBits bs := by
  have := foldl_bits bs (2 * 0 + b.toNat)
  simpa [natOfBits] using this

theorem natOfBits_append (as bs : Bits) : natOfBits (as ++ bs) = natOfBits as * 2 ^ bs.length + natOfBits bs := by
  unfold natOfBits
  rw [List.foldl_append, foldl_bits]
  rfl

theorem natOfBits_lt (bs : Bits) : natOfBits bs < 2 ^ bs.length := by
  induction bs with
  | nil => simp
  | cons b bs ih =>
    rw [natOfBits_cons, List.length_cons, pow_succ]
    cases b <;> simp <;> omega

/-- Writing the low `n` bits of a number and reading them gives its value modulo `2^n`. -/
@[simp] theorem natOfBits_bitsMsb (n v : Nat) : natOfBits (bitsMsb n v) = v % 2 ^ n := by
  induction n with
  | zero => simp [bitsMsb, Nat.mod_one]
  | succ n ih =>
    rw [bitsMsb, natOfBits_cons, ih, bitsMsb_length, Nat.toNat_testBit, Nat.mod_pow_succ]
    ring

/-- Only the low `n` bits count. -/
theorem bitsMsb_mod (n v : Nat) : bitsMsb n (v % 2 ^ n) = bitsMsb n v := by
  have key : ∀ k, k ≤ n → bitsMsb k (v % 2 ^ n) = bitsMsb k v := by
    intro k
    induction k with
    | zero => intro _; rfl
    | succ k ih =>
      intro h
      have hk : k < n := by omega
      rw [bitsMsb, bitsMsb, ih (by omega), Nat.testBit_mod_two_pow]
      simp [hk]
  exact key n (le_refl n)

/-- Reading bits and writing the number gives the bits back. -/
theorem bitsMsb_natOfBits (bs : Bits) : bitsMsb bs.length (natOfBits bs) = bs := by
  induction bs with
  | nil => rfl
  | cons b bs ih =>
    have hlt := natOfBits_lt bs
    rw [List.length_cons, bitsMsb, natOfBits_cons]
    have hb : (b.toNat * 2 ^ bs.length + natOfBits bs).testBit bs.length = b := by
      rw [Nat.testBit_eq_decide_div_mod_eq, Nat.add_comm, Nat.add_mul_div_right _ _ (Nat.two_pow_pos _),
        Nat.div_eq_of_lt hlt]
      cases b <;> simp
    have ht : bitsMsb bs.length (b.toNat * 2 ^ bs.length + natOfBits bs) = bs := by
      rw [← bitsMsb_mod, Nat.add_comm, Nat.add_mul_mod_self_right, Nat.mod_eq_of_lt hlt, ih]
    rw [hb, ht]

/-- Shifting `k` more bits into a number puts them behind it. -/
theorem bitsMsb_append (n k a b : Nat) (hb : b < 2 ^ k) :
    bitsMsb (n + k) (a * 2 ^ k + b) = bitsMsb n a ++ bitsMsb k b := by
  induction n with
  | zero =>
    simp only [Nat.zero_add, bitsMsb, List.nil_append]
    rw [← bitsMsb_mod, Nat.add_comm, Nat.add_mul_mod_self_right, Nat.mod_eq_of_lt hb]
  | succ n ih =>
    rw [show n + 1 + k = (n + k) + 1 by omega, bitsMsb, ih, bitsMsb, List.cons_append]
    congr 1
    rw [Nat.testBit_eq_decide_div_mod_eq, Nat.testBit_eq_decide_div_mod_eq, pow_add, Nat.mul_comm (2 ^ n),
      ← Nat.div_div_eq_div_mul, Nat.add_comm, Nat.add_mul_div_right _ _ (Nat.two_pow_pos _), Nat.div_eq_of_lt hb,
      Nat.zero_add]

theorem bitsMsb_one (b : Bool) : bitsMsb 1 b.toNat = [b] := by cases b <;> rfl

/-! ### Byte sequences as bits -/

@[simp] theorem bitsOfBytes_nil : bitsOfBytes [] = [] := rfl

@[simp] theorem bitsOfBytes_append (xs ys : Bytes) : bitsOfBytes (xs ++ ys) = bitsOfBytes xs ++ bitsOfBytes ys := by
  simp [bitsOfBytes]

@[simp] theorem bitsOfBytes_singleton (b : Byte) : bitsOfBytes [b] = bitsMsb 8 b.toNat := by simp [bitsOfBytes]

theorem bitsOfBytes_cons (b : Byte) (bs : Bytes) : bitsOfBytes (b :: bs) = bitsMsb 8 b.toNat ++ bitsOfBytes bs := by
  simp [bitsOfBytes]

@[simp] theorem bitsOfBytes_length (bs : Bytes) : (bitsOfBytes bs).length = 8 * bs.length := by
  induction bs with
  | nil => rfl
  | cons b bs ih => rw [bitsOfBytes_cons]; simp [ih]; ring

theorem bitsMsb_getElem (n v k : Nat) (h : k < n) : (bitsMsb n v)[k]? = some (v.testBit (n - 1 - k)) := by
  induction n generalizing k with
  | zero => omega
  | succ n ih =>
    cases k with
    | zero => simp [bitsMsb]
    | succ k => rw [bitsMsb, List.getElem?_cons_succ, ih k (by omega)]; congr 2; omega

/-- Stream bit `k` is bit `7 − (k mod 8)` of byte `floor(k/8)` (R12). -/
theorem bitsOfBytes_getElem (bs : Bytes) (k : Nat) (h : k < 8 * bs.length) :
    (bitsOfBytes bs)[k]? = some (Machine.bitAt bs k) := by
  induction bs generalizing k with
  | nil => simp at h
  | cons b bs ih =>
    rw [bitsOfBytes_cons]
    by_cases hk : k < 8
    · rw [List.getElem?_append_left (by simpa using hk), bitsMsb_getElem 8 _ k hk]
      simp [Machine.bitAt, Nat.div_eq_of_lt hk, Nat.mod_eq_of_lt hk]
    · rw [List.getElem?_append_right (by simp; omega)]
      simp only [bitsMsb_length]
      rw [ih (k - 8) (by simp at h; omega)]
      have h1 : k / 8 = (k - 8) / 8 + 1 := by omega
      have h2 : k % 8 = (k - 8) % 8 := by omega
      simp [Machine.bitAt, h1, h2]

/-! ### Fields -/

/-- A field of a bit sequence that begins with a number's bits is that number. -/
theorem field_bitsMsb (n v : Nat) (rest : Bits) : field n (bitsMsb n v ++ rest) = some (BitVec.ofNat n v, rest) := by
  unfold field
  have h1 : n ≤ (bitsMsb n v ++ rest).length := by simp
  have h2 : (bitsMsb n v ++ rest).take n = bitsMsb n v := List.take_left' (bitsMsb_length n v)
  have h3 : (bitsMsb n v ++ rest).drop n = rest := List.drop_left' (bitsMsb_length n v)
  rw [if_pos h1, h2, h3, natOfBits_bitsMsb]
  congr 2
  apply BitVec.eq_of_toNat_eq
  simp

/-- What a field is: the number of its bits, and the bits after it. -/
theorem field_eq_some {n : Nat} {bs rest : Bits} {x : BitVec n} (h : field n bs = some (x, rest)) :
    bs = bitsMsb n x.toNat ++ rest := by
  unfold field at h
  split at h
  case isTrue hn =>
    simp only [Option.some.injEq, Prod.mk.injEq] at h
    obtain ⟨rfl, rfl⟩ := h
    have hl : (bs.take n).length = n := by simp [hn]
    have hlt := natOfBits_lt (bs.take n)
    rw [hl] at hlt
    rw [BitVec.toNat_ofNat, Nat.mod_eq_of_lt hlt]
    conv_lhs => rw [← List.take_append_drop n bs]
    congr 1
    conv_lhs => rw [← bitsMsb_natOfBits (bs.take n), hl]
  case isFalse => simp at h

theorem withField_bitsMsb (n v : Nat) (rest : Bits) (k : BitVec n → Bits → Decoded) :
    withField n (bitsMsb n v ++ rest) k = k (BitVec.ofNat n v) rest := by
  unfold withField
  rw [field_bitsMsb]

/-- Inversion: a command that begins with a field. -/
theorem withField_eq_command {n : Nat} {bs rest : Bits} {k : BitVec n → Bits → Decoded} {i : Instr}
    (h : withField n bs k = .command i rest) :
    ∃ x r, bs = bitsMsb n x.toNat ++ r ∧ k x r = .command i rest := by
  unfold withField at h
  split at h
  · simp at h
  · rename_i x r hf
    exact ⟨x, r, field_eq_some hf, h⟩

end Sys2Proof

namespace Sys2Proof.Machine

/-! ### WriteBits as an operation on bit sequences (R70) -/

/-- One bit more is written, and the BitWriter stays within a byte. -/
theorem putBit_spec (b : Bool) (p : BitWriter × Bytes) (h : p.1.Inv) :
    (putBit b p).1.Inv ∧ (putBit b p).1.total = p.1.total ∧
      writtenBits (putBit b p).2 (putBit b p).1 = writtenBits p.2 p.1 ++ [b] := by
  obtain ⟨⟨acc, nacc, total⟩, out⟩ := p
  obtain ⟨hfew, hfits⟩ := h
  simp only at hfew hfits
  have hb : b.toNat < 2 ^ 1 := by cases b <;> decide
  have happ : bitsMsb (nacc + 1) (2 * acc + b.toNat) = bitsMsb nacc acc ++ [b] := by
    rw [← bitsMsb_one b, ← bitsMsb_append nacc 1 acc b.toNat hb]
    congr 1
    ring
  have hlt : 2 * acc + b.toNat < 2 ^ (nacc + 1) := by rw [pow_succ]; omega
  unfold putBit
  by_cases h8 : nacc + 1 = 8
  · simp only [h8, if_true]
    refine ⟨⟨by simp, by simp⟩, trivial, ?_⟩
    rw [h8] at happ hlt
    simp only [writtenBits, bitsOfBytes_append, bitsOfBytes_singleton, BitVec.toNat_ofNat, bitsMsb, List.append_nil,
      List.append_assoc]
    rw [Nat.mod_eq_of_lt hlt]
    simpa [bitsMsb] using happ
  · simp only [h8, if_false]
    refine ⟨⟨by simp only; omega, by simpa using hlt⟩, trivial, ?_⟩
    simp only [writtenBits, List.append_assoc]
    rw [happ]

/-- The loop of R70 appends the low `n` bits of `v`, most significant first. -/
theorem putBits_spec (v n : Nat) (p : BitWriter × Bytes) (h : p.1.Inv) :
    (putBits v n p).1.Inv ∧ (putBits v n p).1.total = p.1.total ∧
      writtenBits (putBits v n p).2 (putBits v n p).1 = writtenBits p.2 p.1 ++ bitsMsb n v := by
  induction n generalizing p with
  | zero => exact ⟨h, rfl, by simp [putBits, bitsMsb]⟩
  | succ n ih =>
    obtain ⟨h1, h2, h3⟩ := putBit_spec (v.testBit n) p h
    obtain ⟨k1, k2, k3⟩ := ih _ h1
    refine ⟨k1, by rw [putBits, k2, h2], ?_⟩
    rw [putBits, k3, h3, bitsMsb, List.append_assoc]
    rfl

/-- WriteBits only appends to OUT, whatever the BitWriter holds. -/
theorem putBits_prefix (v n : Nat) (p : BitWriter × Bytes) : p.2 <+: (putBits v n p).2 := by
  induction n generalizing p with
  | zero => exact List.prefix_refl _
  | succ n ih =>
    refine List.IsPrefix.trans ?_ (ih _)
    unfold putBit
    split
    · exact List.prefix_append _ _
    · exact List.prefix_refl _

/-- The written bits determine OUT and the BitWriter. -/
theorem writtenBits_inj {o o' : Bytes} {b b' : BitWriter} (hb : b.Inv) (hb' : b'.Inv)
    (h : writtenBits o b = writtenBits o' b') : o = o' ∧ b.acc = b'.acc ∧ b.nacc = b'.nacc := by
  have hlen : 8 * o.length + b.nacc = 8 * o'.length + b'.nacc := by
    have := congrArg List.length h
    simpa [writtenBits] using this
  have h1 := hb.few
  have h2 := hb'.few
  have hn : b.nacc = b'.nacc := by omega
  have ho : o.length = o'.length := by omega
  have hh := List.append_inj h (by simp [ho])
  refine ⟨?_, ?_, hn⟩
  · clear h hlen hn
    have hbits := hh.1
    clear hh
    induction o generalizing o' with
    | nil => cases o' with
      | nil => rfl
      | cons => simp at ho
    | cons x xs ih => cases o' with
      | nil => simp at ho
      | cons y ys =>
        rw [bitsOfBytes_cons, bitsOfBytes_cons] at hbits
        have := List.append_inj hbits (by simp)
        have hx : x = y := by
          have h3 := congrArg natOfBits this.1
          simp only [natOfBits_bitsMsb] at h3
          rw [Nat.mod_eq_of_lt x.isLt, Nat.mod_eq_of_lt y.isLt] at h3
          exact BitVec.eq_of_toNat_eq h3
        rw [hx, ih (by simpa using ho) this.2]
  · have h3 := congrArg natOfBits hh.2
    simp only [natOfBits_bitsMsb] at h3
    rwa [Nat.mod_eq_of_lt hb.fits, Nat.mod_eq_of_lt hb'.fits] at h3

/-! ### ReadBits as an operation on bit sequences (R72) -/

/-- The loop of R72 reads the number of the next `n` bits. -/
theorem getBits_spec (data : Bytes) (n pos r : Nat) (h : pos + n ≤ 8 * data.length) :
    getBits data n pos r = r * 2 ^ n + natOfBits (((bitsOfBytes data).drop pos).take n) := by
  induction n generalizing pos r with
  | zero => simp [getBits]
  | succ n ih =>
    have hpos : pos < (bitsOfBytes data).length := by simp; omega
    have hbit := bitsOfBytes_getElem data pos (by omega)
    rw [List.getElem?_eq_getElem hpos, Option.some.injEq] at hbit
    rw [getBits, ih _ _ (by omega), List.drop_eq_getElem_cons hpos, List.take_succ_cons, natOfBits_cons, hbit]
    have hl : (((bitsOfBytes data).drop (pos + 1)).take n).length = n := by simp; omega
    rw [hl]
    ring

end Sys2Proof.Machine
end

