-- ==== Sys2Proof/Laws/Ops.lean ====
section
/-! SUPPORT. One lemma per shared operation of Machine/Ops.lean that says all it can do, and what the frames around a command
give. -/

namespace Sys2Proof.Machine

/-! ### Effects -/

@[simp] theorem Eff.bind_ok {α β : Type} (a : α) (s : State) (k : α → State → Eff β) : (Eff.ok a s).bind k = k a s := rfl
@[simp] theorem Eff.bind_raised {α β : Type} (e : ErrKind) (s : State) (k : α → State → Eff β) :
    (Eff.raised e s : Eff α).bind k = .raised e s := rfl
@[simp] theorem Eff.bind_stuck {α β : Type} (f : Fault) (k : α → State → Eff β) :
    (Eff.stuck f : Eff α).bind k = .stuck f := rfl

theorem Eff.bind_assoc {α β γ : Type} (r : Eff α) (k : α → State → Eff β) (l : β → State → Eff γ) :
    (r.bind k).bind l = r.bind fun a s => (k a s).bind l := by cases r <;> rfl

/-- A sequence succeeds exactly when both parts do. -/
theorem Eff.bind_eq_ok {α β : Type} {r : Eff α} {k : α → State → Eff β} {b : β} {t : State} :
    r.bind k = .ok b t ↔ ∃ a s, r = .ok a s ∧ k a s = .ok b t := by
  cases r <;> simp [Eff.bind]

/-- A sequence raises when a part does. -/
theorem Eff.bind_eq_raised {α β : Type} {r : Eff α} {k : α → State → Eff β} {e : ErrKind} {t : State} :
    r.bind k = .raised e t ↔ r = .raised e t ∨ ∃ a s, r = .ok a s ∧ k a s = .raised e t := by
  cases r <;> simp [Eff.bind]

/-- A sequence is stuck when a part is. -/
theorem Eff.bind_eq_stuck {α β : Type} {r : Eff α} {k : α → State → Eff β} {f : Fault} :
    r.bind k = .stuck f ↔ r = .stuck f ∨ ∃ a s, r = .ok a s ∧ k a s = .stuck f := by
  cases r <;> simp [Eff.bind]

@[simp] theorem forEach_nil {α : Type} (f : α → State → Eff Unit) (s : State) : forEach f [] s = .ok () s := rfl
theorem forEach_cons {α : Type} (f : α → State → Eff Unit) (a : α) (as : List α) (s : State) :
    forEach f (a :: as) s = (f a s).bind fun _ s => forEach f as s := rfl

theorem forEach_append {α : Type} (f : α → State → Eff Unit) (as bs : List α) (s : State) :
    forEach f (as ++ bs) s = (forEach f as s).bind fun _ s => forEach f bs s := by
  induction as generalizing s with
  | nil => rfl
  | cons a as ih =>
    rw [List.cons_append, forEach_cons, forEach_cons, Eff.bind_assoc]
    congr 1
    funext _ t
    exact ih t

/-- A property each pass keeps holds after the loop. -/
theorem forEach_ok_induct {α : Type} {f : α → State → Eff Unit} (P : State → Prop)
    (hf : ∀ a s u t, P s → f a s = .ok u t → P t) (as : List α) {s t : State} {u : Unit} (hs : P s)
    (h : forEach f as s = .ok u t) : P t := by
  induction as generalizing s with
  | nil => simp only [forEach_nil, Eff.ok.injEq] at h; exact h.2 ▸ hs
  | cons a as ih =>
    rw [forEach_cons, Eff.bind_eq_ok] at h
    obtain ⟨v, r, hr, ht⟩ := h
    exact ih (hf a s v r hs hr) ht

/-! ### Reading units that may be undefined (R61) -/

theorem readUnits_some {α : Type} {s : State} {u : Units} (h : s.units = some u) (k : Units → Eff α) :
    readUnits s k = k u := by simp [readUnits, h]
theorem readUnits_none {α : Type} {s : State} (h : s.units = none) (k : Units → Eff α) :
    readUnits s k = .raised .badOperand s := by simp [readUnits, h]
theorem readLd_some {α : Type} {s : State} {u : Units} {d : LzwDict} (h : s.units = some u) (hd : u.ld = some d)
    (k : LzwDict → Eff α) : readLd s k = k d := by simp [readLd, readUnits, h, hd]
theorem readLd_none {α : Type} {s : State} {u : Units} (h : s.units = some u) (hd : u.ld = none)
    (k : LzwDict → Eff α) : readLd s k = .raised .badOperand s := by simp [readLd, readUnits, h, hd]
theorem readLe_some {α : Type} {s : State} {u : Units} {e : LzwEnc} (h : s.units = some u) (he : u.le = some e)
    (k : LzwEnc → Eff α) : readLe s k = k e := by simp [readLe, readUnits, h, he]
theorem readLe_none {α : Type} {s : State} {u : Units} (h : s.units = some u) (he : u.le = none)
    (k : LzwEnc → Eff α) : readLe s k = .raised .badOperand s := by simp [readLe, readUnits, h, he]
theorem readLx_some {α : Type} {s : State} {u : Units} {x : LzwDec} (h : s.units = some u) (hx : u.lx = some x)
    (k : LzwDec → Eff α) : readLx s k = k x := by simp [readLx, readUnits, h, hx]
theorem readLx_none {α : Type} {s : State} {u : Units} (h : s.units = some u) (hx : u.lx = none)
    (k : LzwDec → Eff α) : readLx s k = .raised .badOperand s := by simp [readLx, readUnits, h, hx]

/-- Reading `CFG` answers its value once a COMPRESS has succeeded, and `BadOperand` before. -/
theorem readCfg_ready {α : Type} {s : State} {c : Cfg} (hr : s.cfgReady = true) (h : s.cfg = some c) (k : Cfg → Eff α) :
    readCfg s k = k c := by simp [readCfg, hr, h]
theorem readCfg_undefined {α : Type} {s : State} (hr : s.cfgReady = false ∨ s.cfg = none) (k : Cfg → Eff α) :
    readCfg s k = .raised .badOperand s := by
  unfold readCfg
  rcases hr with h | h <;> rw [h]
  cases s.cfgReady <;> rfl

/-- Whatever a reader answers, it is a `BadOperand` in the same state or its body's answer. -/
theorem readUnits_cases {α : Type} (s : State) (k : Units → Eff α) :
    (s.units = none ∧ readUnits s k = .raised .badOperand s) ∨ ∃ u, s.units = some u ∧ readUnits s k = k u := by
  cases h : s.units with
  | none => exact .inl ⟨rfl, readUnits_none h k⟩
  | some u => exact .inr ⟨u, rfl, readUnits_some h k⟩

theorem readLd_cases {α : Type} (s : State) (k : LzwDict → Eff α) :
    readLd s k = .raised .badOperand s ∨ ∃ u d, s.units = some u ∧ u.ld = some d ∧ readLd s k = k d := by
  cases h : s.units with
  | none => exact .inl (by simp [readLd, readUnits, h])
  | some u => cases hd : u.ld with
    | none => exact .inl (readLd_none h hd k)
    | some d => exact .inr ⟨u, d, rfl, hd, readLd_some h hd k⟩

theorem readLe_cases {α : Type} (s : State) (k : LzwEnc → Eff α) :
    readLe s k = .raised .badOperand s ∨ ∃ u e, s.units = some u ∧ u.le = some e ∧ readLe s k = k e := by
  cases h : s.units with
  | none => exact .inl (by simp [readLe, readUnits, h])
  | some u => cases he : u.le with
    | none => exact .inl (readLe_none h he k)
    | some e => exact .inr ⟨u, e, rfl, he, readLe_some h he k⟩

theorem readLx_cases {α : Type} (s : State) (k : LzwDec → Eff α) :
    readLx s k = .raised .badOperand s ∨ ∃ u x, s.units = some u ∧ u.lx = some x ∧ readLx s k = k x := by
  cases h : s.units with
  | none => exact .inl (by simp [readLx, readUnits, h])
  | some u => cases hx : u.lx with
    | none => exact .inl (readLx_none h hx k)
    | some x => exact .inr ⟨u, x, rfl, hx, readLx_some h hx k⟩

/-! ### The streams -/

/-- Everything WriteBits can do (R70). -/
theorem writeBits_cases (n v : Nat) (s : State) :
    writeBits n v s = .raised .badOperand s ∨
    ∃ u, n ≤ 32 ∧ s.units = some u ∧
      writeBits n v s = .ok () { s with
        out := (putBits v n (u.bw, s.out)).2
        units := some { u with bw := { (putBits v n (u.bw, s.out)).1 with total := u.bw.total + n } }
        stat := { s.stat with total := u.bw.total + n } } := by
  unfold writeBits
  by_cases hn : n > Config.maxRwBits
  · left; rw [if_pos hn]
  · rw [if_neg hn]
    rcases readUnits_cases s _ with ⟨-, h⟩ | ⟨u, hu, h⟩
    · exact .inl h
    · refine .inr ⟨u, by simpa [Config.maxRwBits] using hn, hu, ?_⟩
      rw [h]
      rfl

/-- WriteBits where it completes: it appends the low `n` bits of `v`, keeps the BitWriter within a byte, counts `n`, and
changes nothing else (R70). -/
theorem writeBits_ok {n v : Nat} {s : State} {u : Units} (hn : n ≤ 32) (hu : s.units = some u) (hb : u.bw.Inv) :
    ∃ out bw, bw.Inv ∧ bw.total = u.bw.total + n ∧ writtenBits out bw = writtenBits s.out u.bw ++ bitsMsb n v ∧
      s.out <+: out ∧
      writeBits n v s = .ok () { s with
        out := out, units := some { u with bw := bw }, stat := { s.stat with total := u.bw.total + n } } := by
  obtain ⟨h1, -, h3⟩ := putBits_spec v n (u.bw, s.out) hb
  refine ⟨(putBits v n (u.bw, s.out)).2, { (putBits v n (u.bw, s.out)).1 with total := u.bw.total + n },
    ⟨h1.few, h1.fits⟩, rfl, h3, putBits_prefix v n (u.bw, s.out), ?_⟩
  unfold writeBits
  rw [if_neg (by simpa [Config.maxRwBits] using hn), readUnits_some hu]
  rfl

/-- Flush where it completes: zero bits up to the next byte, and nothing pending (R71). -/
theorem flush_ok {s : State} {u : Units} (hu : s.units = some u) (hb : u.bw.Inv) :
    ∃ out, writtenBits out { u.bw with acc := 0, nacc := 0 } =
        writtenBits s.out u.bw ++ List.replicate ((8 - u.bw.nacc) % 8) false ∧
      s.out <+: out ∧
      flush s = .ok () { s with out := out, units := some { u with bw := { u.bw with acc := 0, nacc := 0 } } } := by
  obtain ⟨hfew, hfits⟩ := hb
  unfold flush
  rw [readUnits_some hu]
  by_cases h0 : u.bw.nacc > 0
  · rw [if_pos h0]
    refine ⟨s.out ++ [BitVec.ofNat 8 (u.bw.acc * 2 ^ (8 - u.bw.nacc))], ?_, List.prefix_append _ _, rfl⟩
    have hpow : 2 ^ u.bw.nacc * 2 ^ (8 - u.bw.nacc) = 2 ^ 8 := by rw [← pow_add]; congr 1; omega
    have hlt : u.bw.acc * 2 ^ (8 - u.bw.nacc) < 2 ^ 8 := by
      rw [← hpow]; exact Nat.mul_lt_mul_of_pos_right hfits (Nat.two_pow_pos _)
    have hz : ∀ k, bitsMsb k 0 = List.replicate k false := by
      intro k; induction k with
      | zero => rfl
      | succ k ih => simp [bitsMsb, ih, List.replicate_succ]
    have happ := bitsMsb_append u.bw.nacc (8 - u.bw.nacc) u.bw.acc 0 (Nat.two_pow_pos _)
    rw [Nat.add_zero, hz, show u.bw.nacc + (8 - u.bw.nacc) = 8 by omega] at happ
    have hmod : (8 - u.bw.nacc) % 8 = 8 - u.bw.nacc := Nat.mod_eq_of_lt (by omega)
    simp only [writtenBits, bitsOfBytes_append, bitsOfBytes_singleton, BitVec.toNat_ofNat, hmod, List.append_assoc]
    rw [Nat.mod_eq_of_lt hlt, happ]
    simp [bitsMsb]
  · rw [if_neg h0]
    have hn : u.bw.nacc = 0 := by omega
    have ha : u.bw.acc = 0 := by rw [hn] at hfits; simpa using hfits
    refine ⟨s.out, by simp [writtenBits, hn, bitsMsb], List.prefix_refl _, ?_⟩
    congr 1
    obtain ⟨st, res, cfg, ready, inp, out, units, host, draws⟩ := s
    obtain ⟨⟨acc, nacc, total⟩, br, ft, ht, hp, hd, ld, le, lx⟩ := u
    simp only at hu hn ha
    subst hu hn ha
    rfl

/-- ReadBits where enough bits are left: the number they write, and the reader `n` further (R72). -/
theorem readBits_ok {n : Nat} {s : State} {u : Units} (hn : n ≤ 32) (hu : s.units = some u)
    (h : u.br.pos + n ≤ 8 * s.input.length) :
    readBits n s = .ok (some (natOfBits ((bitsAhead s u).take n)))
      { s with units := some { u with br := { pos := u.br.pos + n } } } := by
  unfold readBits
  have hl : ¬ bitsLeft s u < n := by unfold bitsLeft; omega
  rw [if_neg (by simpa [Config.maxRwBits] using hn), readUnits_some hu, if_neg hl, getBits_spec _ _ _ _ h]
  simp [bitsAhead, State.withUnits]

/-- ReadBits where fewer bits are left: they are lost (R72). -/
theorem readBits_exhausted {n : Nat} {s : State} {u : Units} (hn : n ≤ 32) (hu : s.units = some u)
    (h : 8 * s.input.length < u.br.pos + n) (hpos : 0 < n) :
    readBits n s = .ok none { s with units := some { u with br := { pos := 8 * s.input.length } } } := by
  unfold readBits
  have hl : bitsLeft s u < n := by unfold bitsLeft; omega
  rw [if_neg (by simpa [Config.maxRwBits] using hn), readUnits_some hu, if_pos hl]
  rfl

/-- Everything ReadBits can do (R72). -/
theorem readBits_cases (n : Nat) (s : State) :
    readBits n s = .raised .badOperand s ∨
    ∃ u, n ≤ 32 ∧ s.units = some u ∧
      ((bitsLeft s u < n ∧ readBits n s = .ok none
          { s with units := some { u with br := { pos := 8 * s.input.length } } }) ∨
       (n ≤ bitsLeft s u ∧ readBits n s = .ok (some (getBits s.input n u.br.pos 0))
          { s with units := some { u with br := { pos := u.br.pos + n } } })) := by
  unfold readBits
  by_cases hn : n > Config.maxRwBits
  · left; rw [if_pos hn]
  · rw [if_neg hn]
    rcases readUnits_cases s _ with ⟨-, h⟩ | ⟨u, hu, h⟩
    · exact .inl h
    · refine .inr ⟨u, by simpa [Config.maxRwBits] using hn, hu, ?_⟩
      rw [h]
      by_cases hl : bitsLeft s u < n
      · left; exact ⟨hl, by rw [if_pos hl]; rfl⟩
      · right; exact ⟨by omega, by rw [if_neg hl]; rfl⟩

/-! ### Raise, and the frames around a command (R110, R115, R116, R122) -/

@[simp] theorem raise_stat (e : ErrKind) (start s : State) :
    (raise e start s).stat = { s.stat with err := e, phase := .failed } := by unfold raise; split <;> rfl
@[simp] theorem raise_res (e : ErrKind) (start s : State) : (raise e start s).res = .none := by
  unfold raise; split <;> rfl
@[simp] theorem raise_cfg (e : ErrKind) (start s : State) : (raise e start s).cfg = s.cfg := by
  unfold raise; split <;> rfl
@[simp] theorem raise_cfgReady (e : ErrKind) (start s : State) : (raise e start s).cfgReady = s.cfgReady := by
  unfold raise; split <;> rfl
@[simp] theorem raise_input (e : ErrKind) (start s : State) : (raise e start s).input = s.input := by
  unfold raise; split <;> rfl
@[simp] theorem raise_units (e : ErrKind) (start s : State) : (raise e start s).units = none := by
  unfold raise; split <;> rfl
@[simp] theorem raise_host (e : ErrKind) (start s : State) : (raise e start s).host = s.host := by
  unfold raise; split <;> rfl

/-- OUT after a raise (R116): empty before the first SinkByte, a free value after it. -/
theorem raise_out (e : ErrKind) (start s : State) :
    (s.out.length = start.out.length ∧ (raise e start s).out = [] ∧ (raise e start s).draws = s.draws) ∨
    (s.out.length ≠ start.out.length ∧ (raise e start s).out = Config.unspecifiedOut s.draws ∧
      (raise e start s).draws = s.draws + 1) := by
  unfold raise
  by_cases h : s.out.length = start.out.length
  · left; simp [h]
  · right; simp [h]

/-- A raise before any byte was sunk. -/
theorem raise_clean (e : ErrKind) (start s : State) (h : s.out.length = start.out.length) :
    raise e start s = raisedClean s e := by
  unfold raise raisedClean
  rw [if_pos h]
  rfl

theorem unitCommand_busy {s : State} (h : s.stat.phase = .busy) (body : State → Eff Unit) :
    unitCommand body s = .next s := by simp [unitCommand, h]
theorem hostCommand_busy {s : State} (h : s.stat.phase = .busy) (body : State → Eff Unit) :
    hostCommand body s = .next s := by simp [hostCommand, h]
theorem unitCommand_ready {s : State} (h : s.stat.phase ≠ .busy) (body : State → Eff Unit) :
    unitCommand body s = finish (startUnit s) (body (startUnit s)) := by simp [unitCommand, h]
theorem hostCommand_ready {s : State} (h : s.stat.phase ≠ .busy) (body : State → Eff Unit) :
    hostCommand body s = finish (startHost s) (body (startHost s)) := by simp [hostCommand, h]

/-- A command answers a next state or a stuck one, never a refusal. -/
theorem finish_cases (start : State) (r : Eff Unit) :
    (∃ u t, r = .ok u t ∧ finish start r = .next (t.withPhase .done)) ∨
    (∃ e t, r = .raised e t ∧ finish start r = .next (raise e start t)) ∨
    (∃ f, r = .stuck f ∧ finish start r = .fault f) := by
  cases r with
  | ok u t => exact .inl ⟨u, t, rfl, rfl⟩
  | raised e t => exact .inr (.inl ⟨e, t, rfl, rfl⟩)
  | stuck f => exact .inr (.inr ⟨f, rfl, rfl⟩)

/-! ### Bodies that keep a part of the state -/

/-- What every part of a command keeps: the input, the host, the free values, the phase and the error; OUT only grows
(R27, R28, R42). -/
structure Quiet (s t : State) : Prop where
  input : t.input = s.input
  host : t.host = s.host
  draws : t.draws = s.draws
  phase : t.stat.phase = s.stat.phase
  err : t.stat.err = s.stat.err
  out : s.out <+: t.out

theorem Quiet.refl (s : State) : Quiet s s := ⟨rfl, rfl, rfl, rfl, rfl, List.prefix_refl _⟩

theorem Quiet.trans {s t r : State} (h : Quiet s t) (k : Quiet t r) : Quiet s r :=
  ⟨k.input.trans h.input, k.host.trans h.host, k.draws.trans h.draws, k.phase.trans h.phase, k.err.trans h.err,
    h.out.trans k.out⟩

/-- An effect whose states, also the one of a raise, keep those parts; a raise names an error kind. -/
def Eff.Quiet {α : Type} (s : State) (r : Eff α) : Prop :=
  match r with
  | .ok _ t => Machine.Quiet s t
  | .raised e t => Machine.Quiet s t ∧ e ≠ .none
  | .stuck _ => True

theorem Eff.Quiet.bind {α β : Type} {s : State} {r : Eff α} {k : α → State → Eff β} (h : r.Quiet s)
    (hk : ∀ a t, (k a t).Quiet t) : (r.bind k).Quiet s := by
  cases r with
  | ok a t =>
    have := hk a t
    simp only [Eff.bind_ok]
    cases hkt : k a t with
    | ok b r => rw [hkt] at this; exact Machine.Quiet.trans h this
    | raised e r => rw [hkt] at this; exact ⟨Machine.Quiet.trans h this.1, this.2⟩
    | stuck f => trivial
  | raised e t => exact h
  | stuck f => trivial

theorem Eff.Quiet.of_eq {α : Type} {s t : State} {r : Eff α} (hst : Machine.Quiet s t) (h : r.Quiet t) : r.Quiet s := by
  cases r with
  | ok a r => exact hst.trans h
  | raised e r => exact ⟨hst.trans h.1, h.2⟩
  | stuck f => trivial

theorem quiet_raised {α : Type} (s : State) {e : ErrKind} (he : e ≠ .none) : (Eff.raised e s : Eff α).Quiet s :=
  ⟨Quiet.refl s, he⟩

theorem quiet_readUnits {α : Type} (s : State) {k : Units → Eff α} (h : ∀ u, (k u).Quiet s) :
    (readUnits s k).Quiet s := by
  rcases readUnits_cases s k with ⟨-, e⟩ | ⟨u, -, e⟩ <;> rw [e]
  · exact quiet_raised s (by decide)
  · exact h u
theorem quiet_readLd {α : Type} (s : State) {k : LzwDict → Eff α} (h : ∀ d, (k d).Quiet s) : (readLd s k).Quiet s := by
  rcases readLd_cases s k with e | ⟨-, d, -, -, e⟩ <;> rw [e]
  · exact quiet_raised s (by decide)
  · exact h d
theorem quiet_readLe {α : Type} (s : State) {k : LzwEnc → Eff α} (h : ∀ d, (k d).Quiet s) : (readLe s k).Quiet s := by
  rcases readLe_cases s k with e | ⟨-, d, -, -, e⟩ <;> rw [e]
  · exact quiet_raised s (by decide)
  · exact h d
theorem quiet_readLx {α : Type} (s : State) {k : LzwDec → Eff α} (h : ∀ d, (k d).Quiet s) : (readLx s k).Quiet s := by
  rcases readLx_cases s k with e | ⟨-, d, -, -, e⟩ <;> rw [e]
  · exact quiet_raised s (by decide)
  · exact h d

theorem quiet_readCfg {α : Type} (s : State) {k : Cfg → Eff α} (h : ∀ c, (k c).Quiet s) : (readCfg s k).Quiet s := by
  unfold readCfg
  split
  · exact h _
  · exact quiet_raised s (by decide)
  · exact quiet_raised s (by decide)

theorem quiet_writeBits (n v : Nat) (s : State) : (writeBits n v s).Quiet s := by
  rcases writeBits_cases n v s with h | ⟨u, -, -, h⟩ <;> rw [h]
  · exact quiet_raised s (by decide)
  · exact ⟨rfl, rfl, rfl, rfl, rfl, putBits_prefix v n (u.bw, s.out)⟩

theorem quiet_flush (s : State) : (flush s).Quiet s := by
  unfold flush
  apply quiet_readUnits
  intro u
  split
  · exact ⟨rfl, rfl, rfl, rfl, rfl, List.prefix_append _ _⟩
  · exact Quiet.refl s

theorem quiet_readBits (n : Nat) (s : State) : (readBits n s).Quiet s := by
  rcases readBits_cases n s with h | ⟨u, -, -, ⟨-, h⟩ | ⟨-, h⟩⟩ <;> rw [h]
  · exact quiet_raised s (by decide)
  · exact ⟨rfl, rfl, rfl, rfl, rfl, List.prefix_refl _⟩
  · exact ⟨rfl, rfl, rfl, rfl, rfl, List.prefix_refl _⟩

theorem quiet_readOrEnd (n : Nat) (s : State) : (readOrEnd n s).Quiet s := by
  unfold readOrEnd
  refine Eff.Quiet.bind (quiet_readBits n s) fun r t => ?_
  cases r with
  | none => exact quiet_raised t (by decide)
  | some v => exact Quiet.refl t

theorem quiet_forEach {α : Type} {f : α → State → Eff Unit} (hf : ∀ a s, (f a s).Quiet s) (as : List α) (s : State) :
    (forEach f as s).Quiet s := by
  induction as generalizing s with
  | nil => exact Quiet.refl s
  | cons a as ih => exact Eff.Quiet.bind (hf a s) fun _ t => ih t

theorem quiet_mapUnits (s : State) (f : Units → Units) : Quiet s (s.mapUnits f) :=
  ⟨rfl, rfl, rfl, rfl, rfl, List.prefix_refl _⟩

theorem quiet_withUnits (s : State) (u : Option Units) : Quiet s (s.withUnits u) :=
  ⟨rfl, rfl, rfl, rfl, rfl, List.prefix_refl _⟩

theorem quiet_withRes (s : State) (r : Result) : Quiet s (s.withRes r) := ⟨rfl, rfl, rfl, rfl, rfl, List.prefix_refl _⟩
theorem quiet_withResets (s : State) (n : Nat) : Quiet s (s.withResets n) :=
  ⟨rfl, rfl, rfl, rfl, rfl, List.prefix_refl _⟩
theorem quiet_emitBytes (bs : Bytes) (s : State) : Quiet s (emitBytes bs s) :=
  ⟨rfl, rfl, rfl, rfl, rfl, List.prefix_append _ _⟩

theorem quiet_noResult {body : State → Eff Unit} {s : State} (h : (body s).Quiet s) : (noResult body s).Quiet s :=
  Eff.Quiet.bind h fun _ t => quiet_withRes t _
theorem quiet_withResult {α : Type} {f : α → Result} {body : State → Eff α} {s : State} (h : (body s).Quiet s) :
    (withResult f body s).Quiet s := Eff.Quiet.bind h fun _ t => quiet_withRes t _

end Sys2Proof.Machine
end

