-- ==== Sys2Proof/Laws/Bodies.lean ====
section
/-! SUPPORT. Every command body keeps the input, the host, the free values, the phase and the error, and only appends to OUT
(R27, R28, R42): the body lemmas that a frame over all instructions is assembled from. -/

namespace Sys2Proof.Machine

/-! ### FrequencyTable, heap and tree -/

theorem quiet_ftClear (s : State) : (ftClear s).Quiet s := quiet_mapUnits s _
theorem quiet_ftCount (b : Byte) (s : State) : (ftCount b s).Quiet s :=
  quiet_readUnits s fun _ => quiet_withUnits s _

theorem quiet_heapPush (i : Nat) (s : State) : (heapPush i s).Quiet s := by
  refine quiet_readUnits s fun u => ?_
  split
  · exact quiet_raised s (by decide)
  · exact quiet_withUnits s _

theorem quiet_heapPop (s : State) : (heapPop s).Quiet s := by
  refine quiet_readUnits s fun u => ?_
  split
  · exact quiet_raised s (by decide)
  · split
    · trivial
    · exact quiet_withUnits s _

theorem quiet_allocNode (nd : Node) (s : State) : (allocNode nd s).Quiet s :=
  quiet_readUnits s fun _ => quiet_withUnits s _

theorem quiet_nodeWeight (a : Nat) (s : State) : (nodeWeight a s).Quiet s := by
  refine quiet_readUnits s fun u => ?_
  split
  · trivial
  · exact Quiet.refl s

theorem quiet_buildLeaf (e : Byte × Nat) (s : State) : (buildLeaf e s).Quiet s := by
  unfold buildLeaf
  split
  · exact Eff.Quiet.bind (quiet_allocNode _ s) fun i t => (quiet_heapPush i _).of_eq (quiet_mapUnits t _)
  · exact Quiet.refl s

theorem quiet_mergeTwo (s : State) : (mergeTwo s).Quiet s :=
  Eff.Quiet.bind (quiet_heapPop s) fun a s =>
  Eff.Quiet.bind (quiet_heapPop s) fun _ s =>
  Eff.Quiet.bind (quiet_nodeWeight a s) fun _ s =>
  Eff.Quiet.bind (quiet_nodeWeight _ s) fun _ s =>
  Eff.Quiet.bind (quiet_allocNode _ s) fun i s =>
    (quiet_heapPush i _).of_eq ((quiet_mapUnits s _).trans (quiet_mapUnits _ _))

theorem quiet_mergeAll (k : Nat) (s : State) : (mergeAll k s).Quiet s := by
  induction k generalizing s with
  | zero =>
    refine quiet_readUnits s fun u => ?_
    split
    · trivial
    · exact Quiet.refl s
  | succ k ih =>
    refine quiet_readUnits s fun u => ?_
    split
    · exact Eff.Quiet.bind (quiet_mergeTwo s) fun _ t => ih t
    · exact Quiet.refl s

theorem quiet_takeRoot (s : State) : (takeRoot s).Quiet s := by
  refine quiet_readUnits s fun u => ?_
  split
  · exact Eff.Quiet.bind (quiet_heapPop s) fun i t => quiet_mapUnits t _
  · exact Quiet.refl s

theorem quiet_htBuild (s : State) : (htBuild s).Quiet s := by
  refine quiet_readUnits s fun u => ?_
  refine Eff.Quiet.bind ((quiet_forEach quiet_buildLeaf _ _).of_eq (quiet_withUnits s _)) fun _ t => ?_
  exact quiet_readUnits t fun u => Eff.Quiet.bind (quiet_mergeAll _ t) fun _ r => quiet_takeRoot r

theorem quiet_findCode (b : Byte) (s : State) : (findCode b s).Quiet s := by
  refine quiet_readUnits s fun u => ?_
  split
  · exact quiet_raised s (by decide)
  · split
    · trivial
    · exact Quiet.refl s

/-! ### Huffman codec -/

theorem quiet_hufEncSym (b : Byte) (s : State) : (hufEncSym b s).Quiet s :=
  Eff.Quiet.bind (quiet_findCode b s) fun code t => quiet_forEach (fun _ r => quiet_writeBits _ _ r) code t

theorem quiet_checkCounts (s : State) : (checkCounts s).Quiet s := by
  refine quiet_readUnits s fun u => ?_
  split
  · exact quiet_raised s (by decide)
  · exact Quiet.refl s

theorem quiet_writeMagic (m : BitVec 32) (s : State) : (writeMagic m s).Quiet s :=
  quiet_forEach (fun _ r => quiet_writeBits _ _ r) _ s

theorem quiet_writeCounts (s : State) : (writeCounts s).Quiet s :=
  quiet_readUnits s fun _ => quiet_forEach (fun _ r => quiet_writeBits _ _ r) _ s

theorem quiet_hufCompress (s : State) : (hufCompress s).Quiet s :=
  Eff.Quiet.bind (quiet_ftClear s) fun _ s =>
  Eff.Quiet.bind (quiet_forEach quiet_ftCount _ s) fun _ s =>
  Eff.Quiet.bind (quiet_checkCounts s) fun _ s =>
  Eff.Quiet.bind (quiet_htBuild s) fun _ s =>
  Eff.Quiet.bind (quiet_writeMagic _ s) fun _ s =>
  Eff.Quiet.bind (quiet_writeCounts s) fun _ s =>
  Eff.Quiet.bind (quiet_forEach quiet_hufEncSym _ s) fun _ s => quiet_flush s

theorem quiet_descend (k n : Nat) (s : State) : (descend k n s).Quiet s := by
  induction k generalizing n s with
  | zero => trivial
  | succ k ih =>
    refine quiet_readUnits s fun u => ?_
    split
    · trivial
    · split
      · exact Quiet.refl s
      · exact Eff.Quiet.bind (quiet_readOrEnd 1 s) fun t r => ih _ r

theorem quiet_hufDecSym (s : State) : (hufDecSym s).Quiet s := by
  refine quiet_readUnits s fun u => ?_
  split
  · exact quiet_raised s (by decide)
  · exact Eff.Quiet.bind (quiet_descend _ _ s) fun b t =>
      (quiet_emitBytes [b] t).trans (quiet_mapUnits _ _)

theorem quiet_readCount (b : Byte) (s : State) : (readCount b s).Quiet s :=
  Eff.Quiet.bind (quiet_readOrEnd _ s) fun _ t => quiet_mapUnits t _

theorem quiet_decodeSymbols (k : Nat) (s : State) : (decodeSymbols k s).Quiet s := by
  induction k generalizing s with
  | zero => exact Quiet.refl s
  | succ k ih => exact Eff.Quiet.bind (quiet_hufDecSym s) fun _ t => ih t

theorem quiet_hufDecompress (s : State) : (hufDecompress s).Quiet s := by
  refine Eff.Quiet.bind (quiet_forEach quiet_readCount _ s) fun _ t => ?_
  refine quiet_readUnits t fun u => ?_
  simp only
  split
  · exact (quiet_emitBytes _ t).trans (quiet_mapUnits _ _)
  · exact Eff.Quiet.bind ((quiet_htBuild _).of_eq (quiet_mapUnits t _)) fun _ r => quiet_decodeSymbols _ r

/-! ### LZW dictionary and encoder -/

theorem quiet_ldInit (W : Nat) (s : State) : (ldInit W s).Quiet s := by
  unfold ldInit
  split
  · exact quiet_raised s (by decide)
  · exact quiet_mapUnits s _

theorem quiet_ldHasnext (c : Cursor) (b : Byte) (s : State) : (ldHasnext c b s).Quiet s := by
  refine quiet_readLd s fun d => ?_
  split
  · exact quiet_raised s (by decide)
  · exact Quiet.refl s

theorem quiet_ldGetcode (c : Cursor) (s : State) : (ldGetcode c s).Quiet s := by
  refine quiet_readLd s fun d => ?_
  split
  · exact quiet_raised s (by decide)
  · exact Quiet.refl s

theorem quiet_ldAdd (c : Cursor) (b : Byte) (s : State) : (ldAdd c b s).Quiet s := by
  refine quiet_readLd s fun d => ?_
  split
  · exact quiet_raised s (by decide)
  · split
    · exact quiet_raised s (by decide)
    · split
      · exact Quiet.refl s
      · exact quiet_mapUnits s _

theorem quiet_ldReset (s : State) : (ldReset s).Quiet s := quiet_mapUnits s _

theorem quiet_lzcInit (W : BitVec 5) (p : BitVec 7) (m : BitVec 32) (s : State) : (lzcInit W p m s).Quiet s := by
  unfold lzcInit
  split
  · exact quiet_raised s (by decide)
  · exact Eff.Quiet.bind (quiet_ldInit _ s) fun _ t => (quiet_mapUnits t _).trans (quiet_withResets _ _)

theorem quiet_growAndWrite (c k : Nat) (s : State) : (growAndWrite c k s).Quiet s := by
  induction k generalizing s with
  | zero => trivial
  | succ k ih =>
    refine quiet_readLe s fun e => ?_
    split
    · exact Eff.Quiet.bind (quiet_writeBits _ _ s) fun _ t => (ih _).of_eq (quiet_mapUnits t _)
    · exact quiet_writeBits _ _ s

theorem quiet_lzcEmit (c : Cursor) (s : State) : (lzcEmit c s).Quiet s := by
  refine quiet_readLd s fun d => ?_
  split
  · exact quiet_raised s (by decide)
  · exact quiet_growAndWrite _ _ s

theorem quiet_lzcReset (b : Byte) (s : State) : (lzcReset b s).Quiet s :=
  quiet_readLe s fun _ =>
    Eff.Quiet.bind (quiet_writeBits _ _ s) fun _ t =>
    Eff.Quiet.bind (quiet_ldReset t) fun _ r => (quiet_mapUnits r _).trans (quiet_withResets _ _)

theorem quiet_lzcRestart (b : Byte) (s : State) : (lzcRestart b s).Quiet s := by
  refine quiet_readLe s fun e => quiet_readLd s fun d => ?_
  split
  · simp only
    split
    · exact (quiet_lzcReset b _).of_eq (quiet_mapUnits s _)
    · exact quiet_mapUnits s _
  · exact quiet_mapUnits s _

theorem quiet_lzcMiss (c : Cursor) (b : Byte) (s : State) : (lzcMiss c b s).Quiet s := by
  refine Eff.Quiet.bind (quiet_ldGetcode c s) fun _ t => Eff.Quiet.bind (quiet_lzcEmit _ t) fun _ r => ?_
  refine quiet_readLd r fun d => ?_
  split
  · exact Quiet.refl r
  · exact quiet_ldAdd c b r

theorem quiet_lzcByte (b : Byte) (s : State) : (lzcByte b s).Quiet s := by
  refine quiet_readLe s fun e => Eff.Quiet.bind (quiet_ldHasnext _ b s) fun _ t => quiet_readLd t fun d => ?_
  split
  · exact quiet_mapUnits t _
  · exact Eff.Quiet.bind (quiet_lzcMiss _ b t) fun _ r => quiet_lzcRestart b r

theorem quiet_lzcFinish (s : State) : (lzcFinish s).Quiet s := by
  refine quiet_readLe s fun e => ?_
  split
  · exact Quiet.refl s
  · exact quiet_lzcEmit _ s

theorem quiet_lzwCompressWith (c : Cfg) (s : State) : (lzwCompressWith c s).Quiet s :=
  Eff.Quiet.bind (quiet_lzcInit _ _ _ s) fun _ s =>
  Eff.Quiet.bind (quiet_writeMagic _ s) fun _ s =>
  Eff.Quiet.bind (quiet_writeBits _ _ s) fun _ s =>
  Eff.Quiet.bind (quiet_forEach quiet_lzcByte _ s) fun _ s =>
  Eff.Quiet.bind (quiet_lzcFinish s) fun _ s => quiet_flush s

theorem quiet_lzwCompress (s : State) : (lzwCompress s).Quiet s := quiet_readCfg s fun c => quiet_lzwCompressWith c s

/-! ### LZW decoder -/

theorem quiet_lzdInit (s : State) : (lzdInit s).Quiet s := by
  refine Eff.Quiet.bind (quiet_readOrEnd _ s) fun W t => ?_
  split
  · exact quiet_raised t (by decide)
  · exact quiet_mapUnits t _

theorem quiet_lzdOutput (x : LzwDec) (dec toDict : Bytes) (s : State) : Quiet s (lzdOutput x dec toDict s) :=
  (quiet_emitBytes dec s).trans (quiet_mapUnits _ _)

theorem quiet_actOn (k : CodeWord) (s : State) : (actOn k s).Quiet s := by
  refine quiet_readLx s fun x => ?_
  refine Eff.Quiet.of_eq (quiet_withRes s (.num (k.value x.width))) ?_
  cases k with
  | grow =>
    simp only [actGrow]
    split
    · exact quiet_raised _ (by decide)
    · exact quiet_mapUnits _ _
  | reset => exact quiet_mapUnits _ _
  | literal b => exact quiet_lzdOutput x _ _ _
  | reference c =>
    simp only [actReference]
    split
    · exact quiet_lzdOutput x _ _ _
    · split
      · exact quiet_raised _ (by decide)
      · exact quiet_lzdOutput x _ _ _

theorem quiet_lzdCode (s : State) : (lzdCode s).Quiet s := by
  refine quiet_readLx s fun x => ?_
  split
  · exact quiet_withRes s _
  · refine Eff.Quiet.bind (quiet_readBits _ s) fun r t => ?_
    cases r with
    | none => exact (quiet_mapUnits t _).trans (quiet_withRes _ _)
    | some v => exact quiet_actOn _ t

theorem quiet_decodeCodes (k : Nat) (s : State) : (decodeCodes k s).Quiet s := by
  induction k generalizing s with
  | zero =>
    refine quiet_readLx s fun x => ?_
    split
    · exact Quiet.refl s
    · trivial
  | succ k ih =>
    refine quiet_readLx s fun x => ?_
    split
    · exact Quiet.refl s
    · exact Eff.Quiet.bind (quiet_lzdCode s) fun _ t => ih t

theorem quiet_lzwDecompress (s : State) : (lzwDecompress s).Quiet s :=
  Eff.Quiet.bind (quiet_lzdInit s) fun _ t => quiet_readUnits t fun _ => quiet_decodeCodes _ t

/-! ### Entry points -/

theorem quiet_compress (a : Algo) (W : BitVec 5) (p : BitVec 7) (m : BitVec 32) (s : State) :
    (compress a W p m s).Quiet s := by
  unfold compress
  split
  · exact quiet_raised s (by decide)
  · have h : Quiet s (s.withCfg (some { algo := a, maxw := W, pct := p, mins := m })) :=
      ⟨rfl, rfl, rfl, rfl, rfl, List.prefix_refl _⟩
    refine Eff.Quiet.bind ?_ fun _ t => ⟨rfl, rfl, rfl, rfl, rfl, List.prefix_refl _⟩
    cases a with
    | huffman => exact (quiet_hufCompress _).of_eq h
    | lzw => exact (quiet_lzwCompressWith _ _).of_eq h

theorem quiet_readMagic (s : State) : (readMagic s).Quiet s :=
  Eff.Quiet.bind (quiet_readOrEnd 8 s) fun _ s =>
  Eff.Quiet.bind (quiet_readOrEnd 8 s) fun _ s =>
  Eff.Quiet.bind (quiet_readOrEnd 8 s) fun _ s =>
  Eff.Quiet.bind (quiet_readOrEnd 8 s) fun _ s => Quiet.refl s

theorem quiet_decompress (s : State) : (decompress s).Quiet s := by
  refine Eff.Quiet.bind (quiet_readMagic s) fun m t => ?_
  split
  · exact quiet_hufDecompress t
  · exact quiet_lzwDecompress t
  · exact quiet_raised t (by decide)

/-- A unit command whose body is quiet keeps the input, the host and, unless it raised, OUT as a prefix (R27, R28, R116). -/
theorem unitCommand_quiet {body : State → Eff Unit} (hb : ∀ s, (body s).Quiet s) {s t : State}
    (h : unitCommand body s = .next t) :
    t.input = s.input ∧ t.host = s.host ∧ (t.stat.phase ≠ .failed → s.out <+: t.out ∧ t.draws = s.draws) := by
  by_cases hbusy : s.stat.phase = .busy
  · rw [unitCommand_busy hbusy, Host.Outcome.next.injEq] at h
    subst h
    exact ⟨rfl, rfl, fun _ => ⟨List.prefix_refl _, rfl⟩⟩
  · rw [unitCommand_ready hbusy] at h
    have hq := hb (startUnit s)
    rcases finish_cases (startUnit s) (body (startUnit s)) with ⟨u, r, hr, he⟩ | ⟨e, r, hr, he⟩ | ⟨f, hr, he⟩
    all_goals rw [he] at h; rw [hr] at hq
    · rw [Host.Outcome.next.injEq] at h
      subst h
      exact ⟨hq.input, hq.host, fun _ => ⟨hq.out, hq.draws⟩⟩
    · rw [Host.Outcome.next.injEq] at h
      subst h
      refine ⟨by simpa using hq.1.input, by simpa using hq.1.host, fun hne => absurd (by simp) hne⟩
    · exact absurd h (by simp)

end Sys2Proof.Machine
end

