-- ==== Sys2Proof/Laws/Heap.lean ====
section
/-! SUPPORT. The heap as a set of node indices (R34, R75 to R78). -/

namespace Sys2Proof.Machine

@[simp] theorem mem_insertRising (i j : Nat) (l : List Nat) : j ∈ insertRising i l ↔ j = i ∨ j ∈ l := by
  induction l with
  | nil => simp [insertRising]
  | cons k ks ih =>
    unfold insertRising
    split
    · simp
    · simp only [List.mem_cons, ih]; tauto

@[simp] theorem insertRising_length (i : Nat) (l : List Nat) : (insertRising i l).length = l.length + 1 := by
  induction l with
  | nil => rfl
  | cons k ks ih => unfold insertRising; split <;> simp [ih]

/-- Inserting a new index keeps the list rising. -/
theorem insertRising_pairwise {i : Nat} {l : List Nat} (h : l.Pairwise (· < ·)) (hi : i ∉ l) :
    (insertRising i l).Pairwise (· < ·) := by
  induction l with
  | nil => simp [insertRising]
  | cons k ks ih =>
    rw [List.pairwise_cons] at h
    rw [List.mem_cons, not_or] at hi
    unfold insertRising
    split
    · rename_i hik
      refine List.pairwise_cons.2 ⟨fun j hj => ?_, List.pairwise_cons.2 h⟩
      rcases List.mem_cons.1 hj with rfl | hj
      · exact hik
      · exact hik.trans (h.1 j hj)
    · refine List.pairwise_cons.2 ⟨fun j hj => ?_, ih h.2 hi.2⟩
      rcases (mem_insertRising _ _ _).1 hj with rfl | hj
      · omega
      · exact h.1 j hj

/-- The order of keys is the lexicographic one. -/
theorem keyLess_iff (a b : Nat × Nat) : keyLess a b = true ↔ a.1 < b.1 ∨ (a.1 = b.1 ∧ a.2 < b.2) := by simp [keyLess]

theorem heapKey_eq_some {nodes : List Node} {i : Nat} {k : Nat × Nat} (h : heapKey nodes i = some k) :
    ∃ nd, nodes[i]? = some nd ∧ k = (nd.weight, i) := by
  unfold heapKey at h
  cases hn : nodes[i]? with
  | none => simp [hn] at h
  | some nd => simp [hn] at h; exact ⟨nd, rfl, h.symm⟩

/-- The least item is one of the items, and no item has a lesser key (R75, R78). -/
theorem leastItem_spec {nodes : List Node} {items : List Nat} {k : Nat × Nat} (h : leastItem nodes items = some k) :
    k.2 ∈ items ∧ heapKey nodes k.2 = some k ∧
      ∀ j ∈ items, ∃ kj, heapKey nodes j = some kj ∧ keyLess kj k = false := by
  induction items generalizing k with
  | nil => simp [leastItem] at h
  | cons i is ih =>
    cases is with
    | nil =>
      simp only [leastItem] at h
      obtain ⟨nd, hnd, rfl⟩ := heapKey_eq_some h
      refine ⟨by simp, h, fun j hj => ?_⟩
      rw [List.mem_singleton] at hj
      subst hj
      exact ⟨_, h, by simp [keyLess]⟩
    | cons i' is' =>
      simp only [leastItem] at h
      split at h
      · rename_i a b ha hb
        simp only [Option.some.injEq] at h
        obtain ⟨nda, -, rfl⟩ := heapKey_eq_some ha
        obtain ⟨hmem, hkey, hmin⟩ := ih hb
        unfold keyMin at h
        split at h
        · rename_i hlt
          subst h
          refine ⟨List.mem_cons_of_mem _ hmem, hkey, fun j hj => ?_⟩
          rcases List.mem_cons.1 hj with rfl | hj
          · refine ⟨_, ha, ?_⟩
            rw [keyLess_iff] at hlt
            simp only [keyLess, decide_eq_false_iff_not]
            omega
          · exact hmin j hj
        · rename_i hnot
          subst h
          refine ⟨by simp, ha, fun j hj => ?_⟩
          rcases List.mem_cons.1 hj with rfl | hj
          · exact ⟨_, ha, by simp [keyLess]⟩
          · obtain ⟨kj, hkj, hkm⟩ := hmin j hj
            refine ⟨kj, hkj, ?_⟩
            have hb' : ¬ (b.1 < nda.weight ∨ (b.1 = nda.weight ∧ b.2 < i)) := by
              intro hc; exact hnot ((keyLess_iff _ _).2 hc)
            have hkj' : ¬ (kj.1 < b.1 ∨ (kj.1 = b.1 ∧ kj.2 < b.2)) := by
              intro hc; rw [(keyLess_iff _ _).2 hc] at hkm; exact absurd hkm (by simp)
            simp only [keyLess, decide_eq_false_iff_not]
            omega
      · simp at h

/-- A heap of allocated nodes that is not empty has a least item. -/
theorem leastItem_isSome {nodes : List Node} {items : List Nat} (hne : items ≠ [])
    (hall : ∀ i ∈ items, i < nodes.length) : ∃ k, leastItem nodes items = some k := by
  induction items with
  | nil => exact absurd rfl hne
  | cons i is ih =>
    have hi : ∃ a, heapKey nodes i = some a := by
      refine ⟨(nodes[i]'(hall i (by simp)) |>.weight, i), ?_⟩
      simp [heapKey, List.getElem?_eq_getElem (hall i (by simp))]
    obtain ⟨a, ha⟩ := hi
    cases is with
    | nil => exact ⟨a, by simpa [leastItem] using ha⟩
    | cons i' is' =>
      obtain ⟨b, hb⟩ := ih (by simp) fun j hj => hall j (List.mem_cons_of_mem _ hj)
      exact ⟨keyMin a b, by simp [leastItem, ha, hb]⟩

/-- HP_POP on a heap of allocated nodes that is not empty (R78). -/
theorem heapPop_ok {s : State} {u : Units} (hu : s.units = some u) (hne : u.hp.items ≠ [])
    (hall : ∀ i ∈ u.hp.items, i < u.ht.n) :
    ∃ k, leastItem u.ht.node u.hp.items = some k ∧
      heapPop s = .ok k.2 { s with units := some { u with hp := { items := u.hp.items.erase k.2 } } } := by
  obtain ⟨k, hk⟩ := leastItem_isSome hne hall
  refine ⟨k, hk, ?_⟩
  unfold heapPop
  have h0 : ¬ u.hp.size = 0 := by
    intro hc; exact hne (List.length_eq_zero_iff.1 hc)
  rw [readUnits_some hu, if_neg h0, hk]
  rfl

/-- HP_PUSH of an allocated node that is not queued, into a heap with room (R77). -/
theorem heapPush_ok {s : State} {u : Units} {i : Nat} (hu : s.units = some u) (hi : i < u.ht.n)
    (hnew : i ∉ u.hp.items) (hroom : u.hp.size ≠ 256) :
    heapPush i s = .ok () { s with units := some { u with hp := { items := insertRising i u.hp.items } } } := by
  unfold heapPush
  rw [readUnits_some hu]
  simp [legalNode, hi, hnew, hroom, Config.heapCap, State.withUnits]

end Sys2Proof.Machine
end

