-- ==== Sys2Proof/Laws/PerInstr.lean ====
section
/-! SUPPORT. Two families of facts about every instruction as syntax, one lemma per constructor: decoding its encoding gives it
back, and its encoding has its format's length (R57, R65, R68). -/

namespace Sys2Proof.Laws

/-! ### Helpers -/

theorem ofNat_toNat_field {n : Nat} (x : BitVec n) : BitVec.ofNat n x.toNat = x := by simp

theorem cursorOfField_ofNat {c : Cursor} (h : c.wellFormed = true) :
    cursorOfField (BitVec.ofNat 32 (fieldOfCursor c)) = c := by
  cases c with
  | root => rfl
  | code c =>
    have hc : c < 2 ^ 32 - 1 := of_decide_eq_true h
    have hn : (BitVec.ofNat 32 c).toNat = c := by rw [BitVec.toNat_ofNat]; exact Nat.mod_eq_of_lt (by omega)
    unfold cursorOfField fieldOfCursor
    rw [if_neg, hn]
    intro he
    have := congrArg BitVec.toNat he
    rw [hn] at this
    simp at this
    omega

theorem algoOfField_ofNat (a : Algo) : algoOfField (BitVec.ofNat 1 (fieldOfAlgo a)) = a := by cases a <;> rfl

/-- The decoder reads an opcode and goes on with its format. -/
theorem decodeCommand_opcode (op : Nat) (rest : Bits) :
    decodeCommand (bitsMsb 8 op ++ rest) = decodeOpcode (BitVec.ofNat 8 op) rest := withField_bitsMsb 8 op rest _

theorem grow_lt {w : Nat} (h : 9 ≤ w) : 256 ≤ 2 ^ w - 3 ∧ 512 ≤ 2 ^ w := by
  have : 2 ^ 9 ≤ 2 ^ w := Nat.pow_le_pow_right (by decide) h
  omega

/-- A code word read back at its width (R65). -/
theorem classifyCode_value {w : Nat} {k : CodeWord} (h : k.wellFormed w = true) : classifyCode w (k.value w) = k := by
  cases k with
  | grow => simp [classifyCode, CodeWord.value]
  | reset =>
    have hw := of_decide_eq_true h
    have := grow_lt hw.1
    have hne : ¬ resetCode w = growCode w := by unfold resetCode growCode; omega
    simp [classifyCode, CodeWord.value, hne]
  | literal b =>
    have hw := of_decide_eq_true h
    have := grow_lt hw.1
    have hb := b.isLt
    have h1 : ¬ b.toNat = growCode w := by unfold growCode; omega
    have h2 : ¬ b.toNat = resetCode w := by unfold resetCode; omega
    simp [classifyCode, CodeWord.value, h1, h2, hb]
  | reference c =>
    have hw := of_decide_eq_true h
    have := grow_lt hw.1
    have h1 : ¬ c = growCode w := by unfold growCode; omega
    have h2 : ¬ c = resetCode w := by unfold resetCode; omega
    have h3 : ¬ c < 256 := by omega
    simp [classifyCode, CodeWord.value, h1, h2, h3]

theorem value_lt {w : Nat} {k : CodeWord} (h : k.wellFormed w = true) : k.value w < 2 ^ w := by
  cases k with
  | grow => have := grow_lt (of_decide_eq_true h).1; simp only [CodeWord.value, growCode]; omega
  | reset => have := grow_lt (of_decide_eq_true h).1; simp only [CodeWord.value, resetCode]; omega
  | literal b => have := grow_lt (of_decide_eq_true h).1; have := b.isLt; simp only [CodeWord.value]; omega
  | reference c =>
    have hw := of_decide_eq_true h
    have := grow_lt hw.1
    simp only [CodeWord.value]
    omega

theorem decodeAt_codeStream {w : Nat} {k : CodeWord} (h : k.wellFormed w = true) (rest : Bits) :
    decodeAt (.codeStream w) (bitsMsb w (k.value w) ++ rest) = .command k.instr rest := by
  simp only [decodeAt, withField_bitsMsb, BitVec.toNat_ofNat]
  rw [Nat.mod_eq_of_lt (value_lt h), classifyCode_value h]

/-- The two magics differ (R9). -/
theorem lzwMagic_ne : Config.lzwMagic ≠ Config.huffMagic := by
  unfold Config.lzwMagic
  split
  · intro h
    simp at h
  · rename_i hg
    intro h
    apply hg
    have h2 : Config.huffMagic + Config.magicGap = Config.huffMagic + 0#32 := by simpa using h
    exact (BitVec.add_right_inj _).1 h2

theorem decodeAt_fileStart (m : BitVec 32) {k : FileKind} (h : classifyMagic m = some k) (rest : Bits) :
    decodeAt .fileStart (bitsMsb 32 m.toNat ++ rest) = .command k.instr rest := by
  simp only [decodeAt, withField_bitsMsb, ofNat_toNat_field, h]

end Sys2Proof.Laws

namespace Sys2Proof.Laws.RoundTrip

/-- Decoding the encoding of a well-formed instruction gives it back, with the bits after it. -/
def Statement (i : Instr) : Prop :=
  ∀ (w : Nat) (rest : Bits), i.wellFormedAt w = true → decodeAt (i.port w) (encode w i ++ rest) = .command i rest

theorem compress (algo : Algo) (W : BitVec 5) (pct : BitVec 7) (mins : BitVec 32) : Statement (.compress algo W pct mins) := by
  intro w rest _
  simp only [encode, Instr.port, decodeAt, List.append_assoc, decodeCommand_opcode]
  show formatKCFG _ _ = _
  simp only [formatKCFG, withField_bitsMsb, ofNat_toNat_field, algoOfField_ofNat]

theorem decompress : Statement .decompress := by
  intro w rest _
  exact decodeCommand_opcode _ rest

theorem bwWrite (n : BitVec 6) (v : BitVec 32) : Statement (.bwWrite n v) := by
  intro w rest _
  simp only [encode, Instr.port, decodeAt, List.append_assoc, decodeCommand_opcode]
  show formatKNV _ _ = _
  simp only [formatKNV, withField_bitsMsb, ofNat_toNat_field]

theorem bwFlush : Statement .bwFlush := by
  intro w rest _
  exact decodeCommand_opcode _ rest

theorem brRead (n : BitVec 6) : Statement (.brRead n) := by
  intro w rest _
  simp only [encode, Instr.port, decodeAt, List.append_assoc, decodeCommand_opcode]
  show formatKN _ _ = _
  simp only [formatKN, withField_bitsMsb, ofNat_toNat_field]

theorem ftClear : Statement .ftClear := by
  intro w rest _
  exact decodeCommand_opcode _ rest

theorem ftCount (b : Byte) : Statement (.ftCount b) := by
  intro w rest _
  simp only [encode, Instr.port, decodeAt, List.append_assoc, decodeCommand_opcode]
  show formatKS _ _ = _
  simp only [formatKS, withField_bitsMsb, ofNat_toNat_field]

theorem hpPush (i : BitVec 9) : Statement (.hpPush i) := by
  intro w rest _
  simp only [encode, Instr.port, decodeAt, List.append_assoc, decodeCommand_opcode]
  show formatKI _ _ = _
  simp only [formatKI, withField_bitsMsb, ofNat_toNat_field]

theorem hpPop : Statement .hpPop := by
  intro w rest _
  exact decodeCommand_opcode _ rest

theorem htBuild : Statement .htBuild := by
  intro w rest _
  exact decodeCommand_opcode _ rest

theorem htFindcode (b : Byte) : Statement (.htFindcode b) := by
  intro w rest _
  simp only [encode, Instr.port, decodeAt, List.append_assoc, decodeCommand_opcode]
  show formatKS _ _ = _
  simp only [formatKS, withField_bitsMsb, ofNat_toNat_field]

theorem hufEncSym (b : Byte) : Statement (.hufEncSym b) := by
  intro w rest _
  simp only [encode, Instr.port, decodeAt, List.append_assoc, decodeCommand_opcode]
  show formatKS _ _ = _
  simp only [formatKS, withField_bitsMsb, ofNat_toNat_field]

theorem hufDecSym : Statement .hufDecSym := by
  intro w rest _
  exact decodeCommand_opcode _ rest

theorem hufCompress : Statement .hufCompress := by
  intro w rest _
  exact decodeCommand_opcode _ rest

theorem hufDecompress : Statement .hufDecompress := by
  intro w rest _
  exact decodeCommand_opcode _ rest

theorem ldInit (W : BitVec 5) : Statement (.ldInit W) := by
  intro w rest _
  simp only [encode, Instr.port, decodeAt, List.append_assoc, decodeCommand_opcode]
  show formatKW _ _ = _
  simp only [formatKW, withField_bitsMsb, ofNat_toNat_field]

theorem ldHasnext (c : Cursor) (b : Byte) : Statement (.ldHasnext c b) := by
  intro w rest h
  simp only [encode, Instr.port, decodeAt, List.append_assoc, decodeCommand_opcode]
  show formatKCS _ _ = _
  simp only [formatKCS, withField_bitsMsb, ofNat_toNat_field, cursorOfField_ofNat (c := c) h]

theorem ldGetcode (c : Cursor) : Statement (.ldGetcode c) := by
  intro w rest h
  simp only [encode, Instr.port, decodeAt, List.append_assoc, decodeCommand_opcode]
  show formatKC _ _ = _
  simp only [formatKC, withField_bitsMsb, cursorOfField_ofNat (c := c) h]

theorem ldAdd (c : Cursor) (b : Byte) : Statement (.ldAdd c b) := by
  intro w rest h
  simp only [encode, Instr.port, decodeAt, List.append_assoc, decodeCommand_opcode]
  show formatKCS _ _ = _
  simp only [formatKCS, withField_bitsMsb, ofNat_toNat_field, cursorOfField_ofNat (c := c) h]

theorem ldReset : Statement .ldReset := by
  intro w rest _
  exact decodeCommand_opcode _ rest

theorem lzcInit (W : BitVec 5) (pct : BitVec 7) (mins : BitVec 32) : Statement (.lzcInit W pct mins) := by
  intro w rest _
  simp only [encode, Instr.port, decodeAt, List.append_assoc, decodeCommand_opcode]
  show formatKLZ _ _ = _
  simp only [formatKLZ, withField_bitsMsb, ofNat_toNat_field]

theorem lzcEmit (c : Cursor) : Statement (.lzcEmit c) := by
  intro w rest h
  simp only [encode, Instr.port, decodeAt, List.append_assoc, decodeCommand_opcode]
  show formatKC _ _ = _
  simp only [formatKC, withField_bitsMsb, cursorOfField_ofNat (c := c) h]

theorem lzcByte (b : Byte) : Statement (.lzcByte b) := by
  intro w rest _
  simp only [encode, Instr.port, decodeAt, List.append_assoc, decodeCommand_opcode]
  show formatKS _ _ = _
  simp only [formatKS, withField_bitsMsb, ofNat_toNat_field]

theorem lzcFinish : Statement .lzcFinish := by
  intro w rest _
  exact decodeCommand_opcode _ rest

theorem lzwCompress : Statement .lzwCompress := by
  intro w rest _
  exact decodeCommand_opcode _ rest

theorem lzdInit : Statement .lzdInit := by
  intro w rest _
  exact decodeCommand_opcode _ rest

theorem lzdCode : Statement .lzdCode := by
  intro w rest _
  exact decodeCommand_opcode _ rest

theorem lzwDecompress : Statement .lzwDecompress := by
  intro w rest _
  exact decodeCommand_opcode _ rest

theorem lzwGrow : Statement .lzwGrow := fun _ rest h => decodeAt_codeStream (k := .grow) h rest

theorem lzwReset : Statement .lzwReset := fun _ rest h => decodeAt_codeStream (k := .reset) h rest

theorem lzwLiteral (b : Byte) : Statement (.lzwLiteral b) := fun _ rest h => decodeAt_codeStream (k := (.literal b)) h rest

theorem lzwReference (c : Nat) : Statement (.lzwReference c) := fun _ rest h => decodeAt_codeStream (k := (.reference c)) h rest

theorem huffFile : Statement .huffFile := fun _ rest _ =>
  decodeAt_fileStart Config.huffMagic (k := .huffman) (by simp [classifyMagic]) rest

theorem lzwFile : Statement .lzwFile := fun _ rest _ =>
  decodeAt_fileStart Config.lzwMagic (k := .lzw) (by simp [classifyMagic, lzwMagic_ne]) rest

end Sys2Proof.Laws.RoundTrip

namespace Sys2Proof.Laws.EncodedLength

/-- The encoding has the length of the instruction's format. -/
def Statement (i : Instr) : Prop := ∀ w : Nat, (encode w i).length = i.encodedLength w

theorem compress (algo : Algo) (W : BitVec 5) (pct : BitVec 7) (mins : BitVec 32) : Statement (.compress algo W pct mins) := fun w => by simp [encode, Instr.encodedLength]
theorem decompress : Statement .decompress := fun w => by simp [encode, Instr.encodedLength]
theorem bwWrite (n : BitVec 6) (v : BitVec 32) : Statement (.bwWrite n v) := fun w => by simp [encode, Instr.encodedLength]
theorem bwFlush : Statement .bwFlush := fun w => by simp [encode, Instr.encodedLength]
theorem brRead (n : BitVec 6) : Statement (.brRead n) := fun w => by simp [encode, Instr.encodedLength]
theorem ftClear : Statement .ftClear := fun w => by simp [encode, Instr.encodedLength]
theorem ftCount (b : Byte) : Statement (.ftCount b) := fun w => by simp [encode, Instr.encodedLength]
theorem hpPush (i : BitVec 9) : Statement (.hpPush i) := fun w => by simp [encode, Instr.encodedLength]
theorem hpPop : Statement .hpPop := fun w => by simp [encode, Instr.encodedLength]
theorem htBuild : Statement .htBuild := fun w => by simp [encode, Instr.encodedLength]
theorem htFindcode (b : Byte) : Statement (.htFindcode b) := fun w => by simp [encode, Instr.encodedLength]
theorem hufEncSym (b : Byte) : Statement (.hufEncSym b) := fun w => by simp [encode, Instr.encodedLength]
theorem hufDecSym : Statement .hufDecSym := fun w => by simp [encode, Instr.encodedLength]
theorem hufCompress : Statement .hufCompress := fun w => by simp [encode, Instr.encodedLength]
theorem hufDecompress : Statement .hufDecompress := fun w => by simp [encode, Instr.encodedLength]
theorem ldInit (W : BitVec 5) : Statement (.ldInit W) := fun w => by simp [encode, Instr.encodedLength]
theorem ldHasnext (c : Cursor) (b : Byte) : Statement (.ldHasnext c b) := fun w => by simp [encode, Instr.encodedLength]
theorem ldGetcode (c : Cursor) : Statement (.ldGetcode c) := fun w => by simp [encode, Instr.encodedLength]
theorem ldAdd (c : Cursor) (b : Byte) : Statement (.ldAdd c b) := fun w => by simp [encode, Instr.encodedLength]
theorem ldReset : Statement .ldReset := fun w => by simp [encode, Instr.encodedLength]
theorem lzcInit (W : BitVec 5) (pct : BitVec 7) (mins : BitVec 32) : Statement (.lzcInit W pct mins) := fun w => by simp [encode, Instr.encodedLength]
theorem lzcEmit (c : Cursor) : Statement (.lzcEmit c) := fun w => by simp [encode, Instr.encodedLength]
theorem lzcByte (b : Byte) : Statement (.lzcByte b) := fun w => by simp [encode, Instr.encodedLength]
theorem lzcFinish : Statement .lzcFinish := fun w => by simp [encode, Instr.encodedLength]
theorem lzwCompress : Statement .lzwCompress := fun w => by simp [encode, Instr.encodedLength]
theorem lzdInit : Statement .lzdInit := fun w => by simp [encode, Instr.encodedLength]
theorem lzdCode : Statement .lzdCode := fun w => by simp [encode, Instr.encodedLength]
theorem lzwDecompress : Statement .lzwDecompress := fun w => by simp [encode, Instr.encodedLength]
theorem lzwGrow : Statement .lzwGrow := fun w => by simp [encode, Instr.encodedLength]
theorem lzwReset : Statement .lzwReset := fun w => by simp [encode, Instr.encodedLength]
theorem lzwLiteral (b : Byte) : Statement (.lzwLiteral b) := fun w => by simp [encode, Instr.encodedLength]
theorem lzwReference (c : Nat) : Statement (.lzwReference c) := fun w => by simp [encode, Instr.encodedLength]
theorem huffFile : Statement .huffFile := fun w => by simp [encode, Instr.encodedLength]
theorem lzwFile : Statement .lzwFile := fun w => by simp [encode, Instr.encodedLength]

end Sys2Proof.Laws.EncodedLength
end

