-- ==== Sys2Proof/Tests/Slice0.lean ====
section
/-! SUPPORT. Tests: words written out from the spec's encodings, the vectors of 95_test_vectors.md on single steps, terms
WellFormed refuses, and for every statement with hypotheses a state and operands that meet them together. The expected
values are those of the spec's vectors and examples, named beside each test. -/

namespace Sys2Proof.Tests

open Sys2Proof Sys2Proof.Machine

/-! ### Helpers -/

/-- One field of the next state; none for a fault or a refusal. -/
def after {α : Type} (f : State → α) : Host.Outcome State Fault Refusal → Option α
  | .next s => some (f s)
  | .fault _ => none
  | .refused _ => none

/-- The power-on state with other units. -/
def with_ (u : Units) : State := { State.reset with units := some u }

/-- Number and phase of the last error. -/
def status (s : State) : Phase × ErrKind := (s.stat.phase, s.stat.err)

/-- A unit of the next state. -/
def unit {α : Type} (f : Units → α) (s : State) : Option α := s.units.map f

/-- The LZW registers, with values no test expects where they are undefined. -/
def ld (s : State) : LzwDict := (s.units.bind (·.ld)).getD { child := [], next := 0, W := 0, last := 0 }
def le (s : State) : LzwEnc :=
  (s.units.bind (·.le)).getD { cur := .root, width := 0, hits := 7, misses := 7, resets := 7, pct := 0, mins := 0 }
def lx (s : State) : LzwDec :=
  (s.units.bind (·.lx)).getD
    { table := [], reg := [], last := [], next := 0, width := 0, W := 0, lastCode := 0, done := false }

/-- Bits of a hexadecimal number of whole bytes, first byte first. -/
def hex (bytes v : Nat) : Bits := bitsMsb (8 * bytes) v

/-! ### Decoding: words written out from R57, R58, R59 (programs P1 to P6) and R65 -/

theorem test_decode_compress : decodeCommand (hex 7 0x01A72000000000) = .command (.compress .lzw 9 100 0) [false, false, false] := by decide
theorem test_decode_compress_huffman : decodeCommand (bitsMsb 53 0b00000001011111000000100000000000000000000000000000101) = .command (.compress .huffman 31 1 5) [] := by decide
theorem test_decode_decompress : decodeCommand (hex 1 0x02) = .command .decompress [] := by decide
theorem test_decode_bwWrite : decodeCommand (hex 6 0x102400000408) = .command (.bwWrite 9 258) [false, false] := by decide
theorem test_decode_bwFlush : decodeCommand (hex 1 0x11) = .command .bwFlush [] := by decide
theorem test_decode_brRead : decodeCommand (hex 2 0x1220) = .command (.brRead 8) [false, false] := by decide
theorem test_decode_ftClear : decodeCommand (hex 1 0x20) = .command .ftClear [] := by decide
theorem test_decode_ftCount : decodeCommand (hex 2 0x2161) = .command (.ftCount 0x61) [] := by decide
theorem test_decode_hpPush : decodeCommand (bitsMsb 17 0b00100010100000001) = .command (.hpPush 257) [] := by decide
theorem test_decode_hpPop : decodeCommand (hex 1 0x23) = .command .hpPop [] := by decide
theorem test_decode_htBuild : decodeCommand (hex 1 0x24) = .command .htBuild [] := by decide
theorem test_decode_htFindcode : decodeCommand (hex 2 0x2562) = .command (.htFindcode 0x62) [] := by decide
theorem test_decode_hufEncSym : decodeCommand (hex 2 0x3063) = .command (.hufEncSym 0x63) [] := by decide
theorem test_decode_hufDecSym : decodeCommand (hex 1 0x31) = .command .hufDecSym [] := by decide
theorem test_decode_hufCompress : decodeCommand (hex 1 0x32) = .command .hufCompress [] := by decide
theorem test_decode_hufDecompress : decodeCommand (hex 1 0x33) = .command .hufDecompress [] := by decide
theorem test_decode_ldInit : decodeCommand (hex 2 0x4048) = .command (.ldInit 9) [false, false, false] := by decide
theorem test_decode_ldHasnext : decodeCommand (hex 6 0x41FFFFFFFF41) = .command (.ldHasnext .root 0x41) [] := by decide
theorem test_decode_ldGetcode : decodeCommand (hex 5 0x4200000101) = .command (.ldGetcode (.code 257)) [] := by decide
theorem test_decode_ldAdd : decodeCommand (hex 6 0x430000010043) = .command (.ldAdd (.code 256) 0x43) [] := by decide
theorem test_decode_ldReset : decodeCommand (hex 1 0x44) = .command .ldReset [] := by decide
theorem test_decode_lzcInit : decodeCommand (hex 7 0x504E4000000000) = .command (.lzcInit 9 100 0) [false, false, false, false] := by decide
theorem test_decode_lzcEmit : decodeCommand (hex 5 0x51000001FE) = .command (.lzcEmit (.code 510)) [] := by decide
theorem test_decode_lzcByte : decodeCommand (hex 2 0x5201) = .command (.lzcByte 1) [] := by decide
theorem test_decode_lzcFinish : decodeCommand (hex 1 0x53) = .command .lzcFinish [] := by decide
theorem test_decode_lzwCompress : decodeCommand (hex 1 0x54) = .command .lzwCompress [] := by decide
theorem test_decode_lzdInit : decodeCommand (hex 1 0x58) = .command .lzdInit [] := by decide
theorem test_decode_lzdCode : decodeCommand (hex 1 0x59) = .command .lzdCode [] := by decide
theorem test_decode_lzwDecompress : decodeCommand (hex 1 0x5A) = .command .lzwDecompress [] := by decide
theorem test_decode_lzwGrow : decodeAt (.codeStream 9) (bitsMsb 9 0b111111110) = .command .lzwGrow [] := by decide
theorem test_decode_lzwReset : decodeAt (.codeStream 9) (bitsMsb 9 0b111111111) = .command .lzwReset [] := by decide
theorem test_decode_lzwLiteral : decodeAt (.codeStream 9) (bitsMsb 9 0b001000001) = .command (.lzwLiteral 65) [] := by decide
theorem test_decode_lzwReference : decodeAt (.codeStream 10) (bitsMsb 10 0b0111111110) = .command (.lzwReference 510) [] := by decide

/-- The magic of a Huffman file, whatever its value (R9, R112). -/
theorem test_decode_huffFile : classifyMagic Config.huffMagic = some .huffman := by simp [classifyMagic]

/-- R60: an opcode outside the map, and a command cut short. -/
theorem test_decode_unassigned : decodeCommand (hex 2 0x0012) = .unassigned 0 ∧ decodeCommand (hex 1 0xFF) = .unassigned 0xFF := by
  decide
theorem test_decode_truncated : decodeCommand (bitsMsb 12 0x404) = .truncated := by decide

/-! ### WellFormed refuses -/

theorem test_wellFormed_cursor : (Instr.ldHasnext (.code 0xFFFFFFFF) 0).wellFormedAt 9 = false ∧
    (Instr.ldGetcode (.code 0xFFFFFFFF)).wellFormedAt 9 = false ∧ (Instr.ldAdd (.code 0xFFFFFFFF) 0).wellFormedAt 9 = false ∧
    (Instr.lzcEmit (.code 0xFFFFFFFF)).wellFormedAt 9 = false ∧ (Instr.lzcEmit (.code 0xFFFFFFFE)).wellFormedAt 9 = true := by
  decide
theorem test_wellFormed_reference : (Instr.lzwReference 255).wellFormedAt 9 = false ∧
    (Instr.lzwReference 510).wellFormedAt 9 = false ∧ (Instr.lzwReference 509).wellFormedAt 9 = true := by decide
theorem test_wellFormed_width : Instr.lzwGrow.wellFormedAt 8 = false ∧ Instr.lzwReset.wellFormedAt 32 = false ∧
    (Instr.lzwLiteral 65).wellFormedAt 8 = false ∧ (Instr.lzwReference 256).wellFormedAt 32 = false := by decide

/-! ### BitWriter and BitReader (2.1) -/

theorem test_bwWrite_low_bits : -- V-BW1, V-BW6
    after (unit (·.bw)) (exec (.bwWrite 3 0b101) State.reset) = some (some { acc := 5, nacc := 3, total := 3 }) ∧
    after (unit (·.bw)) (exec (.bwWrite 4 0xF5) State.reset) = some (some { acc := 5, nacc := 4, total := 4 }) := by decide
theorem test_bwWrite_bytes : -- V-BW2, V-BW4
    after (fun s => (s.out, s.stat.total)) (exec (.bwWrite 5 0xFF) (with_ { Units.start with bw := { acc := 5, nacc := 3, total := 3 } })) =
      some ([0xBF], 8) ∧
    after (·.out) (exec (.bwWrite 32 0xDEADBEEF) State.reset) = some [0xDE, 0xAD, 0xBE, 0xEF] := by decide +kernel
theorem test_bwFlush : -- V-BW3
    after (fun s => (s.out, unit (·.bw) s)) (exec .bwFlush (with_ { Units.start with bw := { acc := 5, nacc := 3, total := 3 } })) =
      some ([0xA0], some { acc := 0, nacc := 0, total := 3 }) := by decide
theorem test_brRead : -- V-BR2, V-BR6
    after (fun s => (s.res, unit (·.br) s)) (exec (.brRead 9) { with_ { Units.start with br := { pos := 3 } } with input := [0xA5, 0x0F] }) =
      some (.num 80, some { pos := 12 }) ∧
    after (·.res) (exec (.brRead 32) { State.reset with input := [0xFF, 0xFF, 0xFF, 0xFF] }) = some (.num 4294967295) := by decide
theorem test_brRead_exhausted : -- V-BR3, V-BR4, V-BR7
    after (fun s => (s.res, unit (·.br) s)) (exec (.brRead 5) { with_ { Units.start with br := { pos := 12 } } with input := [0xA5, 0x0F] }) =
      some (.exhausted, some { pos := 16 }) ∧
    after (·.res) (exec (.brRead 0) State.reset) = some (.num 0) ∧
    after status (exec (.brRead 40) State.reset) = some (.failed, .badOperand) := by decide

/-! ### FrequencyTable, heap and tree (2.2) -/

/-- The counts of "aabc". -/
def aabc : FreqTable := ((FreqTable.zero.set 0x61 2).set 0x62 1).set 0x63 1

/-- The nodes of V-HP1: 1 (weight 2), 2 and 3 (weight 1), and a node 0. -/
def hp1 : List Node :=
  [{ kind := .leaf 0, weight := 9, parent := none }, { kind := .leaf 1, weight := 2, parent := none },
   { kind := .leaf 2, weight := 1, parent := none }, { kind := .leaf 3, weight := 1, parent := none }]

def hpUnits (items : List Nat) : Units :=
  { Units.start with ht := { HuffTree.empty with node := hp1 }, hp := { items := items } }

theorem test_ftClear : after (unit fun u => u.ft.get 0x61) (exec .ftClear (with_ { Units.start with ft := aabc })) = some (some 0) := by
  decide
theorem test_ftCount : -- V-FT1
    after (unit fun u => (u.ft.get 0x61, u.ft.get 0x62)) (exec (.ftCount 0x61) (with_ { Units.start with ft := aabc })) =
      some (some (3, 1)) := by decide
theorem test_hpPush : -- V-HP1, V-HP3, V-HP4
    after (unit (·.hp.items)) (exec (.hpPush 2) (with_ (hpUnits [1, 3]))) = some (some [1, 2, 3]) ∧
    after status (exec (.hpPush 3) (with_ (hpUnits [3]))) = some (.failed, .badOperand) ∧
    after status (exec (.hpPush 4) (with_ (hpUnits [3]))) = some (.failed, .badOperand) := by decide
theorem test_hpPop : -- V-HP1, V-HP2
    after (fun s => (s.res, unit (·.hp.items) s)) (exec .hpPop (with_ (hpUnits [1, 2, 3]))) = some (.num 2, some [1, 3]) ∧
    after (·.res) (exec .hpPop (with_ (hpUnits [1, 3]))) = some (.num 3) ∧
    after status (exec .hpPop (with_ (hpUnits []))) = some (.failed, .badOperand) := by decide
theorem test_htBuild : -- V-TR3
    (treeOf aabc).node =
      [{ kind := .leaf 0x61, weight := 2, parent := some 4 }, { kind := .leaf 0x62, weight := 1, parent := some 3 },
       { kind := .leaf 0x63, weight := 1, parent := some 3 }, { kind := .internal 1 2, weight := 2, parent := some 4 },
       { kind := .internal 0 3, weight := 4, parent := none }] ∧ (treeOf aabc).root = some 4 := by decide +kernel
theorem test_htBuild_one_symbol : -- V-TR6, V-TR7
    after (unit fun u => (u.ht.n, u.ht.root)) (exec .htBuild (with_ { Units.start with ft := FreqTable.zero.set 0x61 4 })) =
      some (some (1, some 0)) ∧
    after (unit fun u => (u.ht.n, u.ht.root)) (exec .htBuild State.reset) = some (some (0, none)) := by decide +kernel
theorem test_htFindcode : -- V-TR3
    after (·.res) (exec (.htFindcode 0x62) (with_ { Units.start with ht := treeOf aabc })) = some (.bits [true, false]) ∧
    after status (exec (.htFindcode 0x64) (with_ { Units.start with ht := treeOf aabc })) = some (.failed, .badOperand) := by
  decide +kernel

/-! ### Huffman codec (2.3, P4) -/

theorem test_hufEncSym : -- P4 step 10
    after (unit (·.bw)) (exec (.hufEncSym 0x62) (with_ { Units.start with ht := treeOf aabc })) =
      some (some { acc := 2, nacc := 2, total := 2 }) := by decide +kernel
theorem test_hufDecSym : -- R84 on the tree of V-TR3, codes a = 0, c = 11
    after (fun s => (s.out, s.res, unit (·.br.pos) s)) (exec .hufDecSym { with_ { Units.start with ht := treeOf aabc } with input := [0xC0] }) =
      some ([0x63], .num 0x63, some 2) ∧
    after status (exec .hufDecSym (with_ { Units.start with ht := treeOf aabc })) = some (.failed, .unexpectedEndOfStream) := by
  decide +kernel
theorem test_hufCompress : -- V-HC5: 32 + 8192 + 3 bits, with FF the first leaf popped
    after (fun s => (s.stat.total, unit (fun u => u.ht.root) s, unit (fun u => u.bw.nacc) s))
      (exec .hufCompress { State.reset with input := [0x00, 0xFF, 0x00] }) = some (8227, some (some 2), some 0) := by
  decide +kernel

/-- The output of a part of a command that ends normally. -/
def outOf (r : Eff Unit) : Option Bytes :=
  match r with
  | .ok _ s => some s.out
  | .raised _ _ => none
  | .stuck _ => none

theorem test_hufDecompress_payload : -- V-HC2: the payload 2C is "aabc"
    outOf (decodeSymbols 4 { with_ { Units.start with ht := treeOf aabc } with input := [0x2C] }) = some [0x61, 0x61, 0x62, 0x63] := by
  decide +kernel
theorem test_hufDecompress : -- V-HC9 after its magic
    after (fun s => (status s, s.out)) (exec .hufDecompress State.reset) = some ((.failed, .unexpectedEndOfStream), []) := by
  decide
theorem test_huffFile : -- V-HC10 after its magic: cut short in the counts
    after (fun s => (status s, s.out)) (exec .huffFile { State.reset with input := List.replicate 100 0 }) =
      some ((.failed, .unexpectedEndOfStream), []) := by decide +kernel

/-! ### LZW dictionary (2.4) -/

/-- After LD_INIT 9 and LD_ADD 0x41, 0x42. -/
def ab : LzwDict := { child := [((0x41, 0x42), 256)], next := 257, W := 9, last := 509 }

def withLd (d : LzwDict) : State := with_ { Units.start with ld := some d }

theorem test_ldInit : -- V-LD1, V-LD10
    after (unit fun u => u.ld.map fun d => (d.next, d.last)) (exec (.ldInit 12) State.reset) = some (some (some (256, 4093))) ∧
    after status (exec (.ldInit 8) State.reset) = some (.failed, .configurationError) := by decide
theorem test_ldHasnext : -- V-LD4, V-LD11
    after (·.res) (exec (.ldHasnext (.code 0x41) 0x42) (withLd ab)) = some (.bool true) ∧
    after (·.res) (exec (.ldHasnext (.code 0x42) 0x41) (withLd ab)) = some (.bool false) ∧
    after (·.res) (exec (.ldHasnext .root 0x41) (withLd ab)) = some (.bool true) := by decide
theorem test_ldGetcode : -- V-LD6
    after (·.res) (exec (.ldGetcode (.code 0x41)) (withLd ab)) = some (.num 65) ∧
    after status (exec (.ldGetcode .root) (withLd ab)) = some (.failed, .badOperand) ∧
    after status (exec (.ldGetcode (.code 257)) (withLd ab)) = some (.failed, .badOperand) := by decide
theorem test_ldAdd : -- V-LD3, V-LD5
    after (unit (·.ld)) (exec (.ldAdd (.code 0x41) 0x42) (withLd { ab with child := [], next := 256 })) = some (some (some ab)) ∧
    after status (exec (.ldAdd (.code 0x41) 0x42) (withLd ab)) = some (.failed, .badOperand) := by decide
theorem test_ldAdd_full : -- V-LD9
    after (unit fun u => u.ld.map fun d => d.next) (exec (.ldAdd (.code 0x42) 0x41) (withLd { ab with next := 510 })) =
      some (some (some 510)) := by decide
theorem test_ldReset : -- V-LD7
    after (unit (·.ld)) (exec .ldReset (withLd ab)) = some (some (some { ab with child := [], next := 256 })) := by decide

/-! ### LZW encoder (2.5, P2) -/

def enc (c : Cursor) : LzwEnc := { cur := c, width := 9, hits := 0, misses := 0, resets := 0, pct := 100, mins := 0 }

def withLe (d : LzwDict) (e : LzwEnc) : State := with_ { Units.start with ld := some d, le := some e }

theorem test_lzcInit : -- P2 step 1
    after (unit fun u => (u.le, u.ld.map fun d => d.last)) (exec (.lzcInit 9 100 0) State.reset) =
      some (some (some (enc .root), some 509)) ∧
    after status (exec (.lzcInit 9 101 0) State.reset) = some (.failed, .configurationError) := by decide
theorem test_lzcEmit_grows : -- V-LZ9: 111111110 then 0111111110
    after (fun s => (s.out, unit (·.bw) s, unit (fun u => u.le.map fun e => e.width) s))
      (exec (.lzcEmit (.code 510)) (withLe { ab with next := 511, W := 10, last := 1021 } (enc (.code 0)))) =
      some ([0xFF, 0x3F], some { acc := 6, nacc := 3, total := 19 }, some (some 10)) := by decide
theorem test_lzcEmit_unassigned : -- V-LZ10
    after status (exec (.lzcEmit (.code 300)) (withLe ab (enc (.code 0)))) = some (.failed, .badOperand) := by decide
theorem test_lzcByte : -- P2 step 3: writes 0 in 9 bits, assigns 256
    after (fun s => (s.out, (ld s).child, (le s).cur))
      (exec (.lzcByte 1) (withLe { ab with child := [], next := 256 } (enc (.code 0)))) =
      some ([0], [((0, 1), 256)], .code 1) := by decide
theorem test_lzcByte_resets : -- V-LZ6, words 253, RESET(9) = 511: the miss whose add fills the dictionary is counted
    after (fun s => (s.out, s.stat.resets, (le s).width, (le s).cur, (le s).misses))
      (exec (.lzcByte 254) (withLe { ab with next := 509 } { enc (.code 253) with pct := 0 })) =
      some ([0x7E, 0xFF], 1, 9, .code 254, 0) := by decide
theorem test_lzcFinish : -- P2 step 9: 258 in 9 bits
    after (fun s => (s.out, unit (·.bw) s)) (exec .lzcFinish (withLe { ab with next := 259 } (enc (.code 258)))) =
      some ([0x81], some { acc := 0, nacc := 1, total := 9 }) := by decide
theorem test_lzwCompress : -- V-LZ1 after the magic
    after (fun s => (s.out.drop 4, s.stat.total)) (exec .lzwCompress { State.reset with
      cfg := some { algo := .lzw, maxw := 9, pct := 100, mins := 0 }, cfgReady := true, input := [0, 1, 0, 1, 0, 1, 0] }) =
      some ([0x48, 0x00, 0x03, 0x00, 0x81, 0x00], 73) := by decide +kernel
theorem test_lzwCompress_no_cfg : -- V-EP9; R61: stored by a COMPRESS that did not succeed
    after status (exec .lzwCompress State.reset) = some (.failed, .badOperand) ∧
    after status (exec .lzwCompress { State.reset with cfg := some { algo := .lzw, maxw := 9, pct := 100, mins := 0 } }) =
      some (.failed, .badOperand) := by decide

/-! ### LZW decoder (2.6, P6) -/

def dec (last : Bytes) : LzwDec :=
  { table := [], reg := [], last := last, next := 256, width := 9, W := 9, lastCode := 509, done := false }

def withLx (x : LzwDec) : State := with_ { Units.start with lx := some x }

theorem test_lzdInit : -- R105, V-LD-9
    after (fun s => (s.res, unit (·.lx) s)) (exec .lzdInit { State.reset with input := [0x48] }) = some (.num 9, some (some (dec []))) ∧
    after status (exec .lzdInit { State.reset with input := [0x40] }) = some (.failed, .configurationError) := by decide
theorem test_lzdCode : -- P6 step 7: not found, outputs 01 01, registers 256
    after (fun s => (s.out, s.res, (lx s).table))
      (exec .lzdCode { withLx (dec [1]) with input := [0x80, 0x00] }) = some ([1, 1], .num 256, [(256, [1, 1])]) := by
  decide
theorem test_lzdCode_uninitialised : -- V-EP8
    after status (exec .lzdCode State.reset) = some (.failed, .badOperand) := by decide
theorem test_lzwDecompress : -- V-LD-2 after its magic
    after (fun s => (s.out, unit (fun u => u.lx.map fun x => x.next) s))
      (exec .lzwDecompress { State.reset with input := [0x48, 0x06, 0x01, 0x01, 0x81, 0x00] }) =
      some (List.replicate 10 1, some (some 259)) := by decide +kernel
theorem test_lzwFile : -- V-LD-7 and V-LD-11 after their magic
    after (fun s => s.out) (exec .lzwFile { State.reset with input := [0x49, 0x07, 0xFE, 0x42] }) = some [0x41, 0x42] ∧
    after (fun s => s.out) (exec .lzwFile { State.reset with input := [0x48, 0x00, 0x03, 0x00, 0x81, 0x00, 0x00] }) =
      some [0, 1, 0, 1, 0, 1, 0, 0] := by decide +kernel
theorem test_lzwGrow : -- V-LD-4, V-LD-6
    after status (exec .lzwGrow (withLx (dec []))) = some (.failed, .corruptStream) ∧
    after (unit fun u => u.lx.map fun x => x.width) (exec .lzwGrow (withLx { dec [] with W := 10, lastCode := 1021 })) =
      some (some (some 10)) := by decide
theorem test_lzwReset : -- V-LD-5
    after (unit (·.lx)) (exec .lzwReset (withLx { dec [65] with table := [(256, [65, 65])], reg := [[65, 65]], next := 257 })) =
      some (some (some (dec []))) := by decide
theorem test_lzwLiteral : -- V-LD-1, code 1: registers 256 = [0, 1]
    after (fun s => (s.out, (lx s).table, (lx s).last)) (exec (.lzwLiteral 1) (withLx (dec [0]))) =
      some ([1], [(256, [0, 1])], [1]) := by decide
theorem test_lzwReference : -- V-LD-3; R107: the last output becomes the new string
    after status (exec (.lzwReference 300) (withLx (dec []))) = some (.failed, .internalInvariantViolation) ∧
    after (unit fun u => u.lx.map fun x => x.last) (exec (.lzwReference 256) (withLx (dec [1]))) = some (some (some [1, 1])) := by decide

/-! ### Entry points, errors and the step (2.7) -/

theorem test_compress : -- V-EP4 after the magic
    after (fun s => (s.out.drop 4, status s, s.cfgReady)) (exec (.compress .lzw 31 100 0) { State.reset with input := [0x78] }) =
      some ([0xF9, 0xE0], (.done, .none), true) := by decide +kernel
theorem test_compress_configuration : -- V-LZ13: checked for Huffman too, CFG keeps its value
    after (fun s => (status s, s.out, s.cfg)) (exec (.compress .huffman 8 0 0) State.reset) =
      some ((.failed, .configurationError), [], none) := by decide
theorem test_decompress_short : -- V-EP1
    after (fun s => (status s, s.out)) (exec .decompress State.reset) = some ((.failed, .unexpectedEndOfStream), []) := by decide
theorem test_step_unassigned : -- V-EP7
    after status (step { State.reset with host := [.issue (hex 1 0x00)] }) = some (.failed, .badOperand) := by decide
theorem test_step_busy : -- V-EP6
    after (·.stat.phase) (step { State.reset with stat := { State.reset.stat with phase := .busy }, host := [.issue (hex 1 0x02)] }) =
      some .busy := by decide
theorem test_late_raise_frees_out : -- R116 (b): OUT after a raise that follows output is the free value
    after (fun s => (status s, s.draws)) (exec .lzwDecompress { State.reset with input := [0x49, 0x07, 0xFC] }) =
      some ((.failed, .corruptStream), 1) := by decide +kernel

/-! ## Witnesses: for each statement with hypotheses, a state and operands that meet them together -/

/-! ### Concrete units that meet the invariants -/

/-- The tree of two symbols `61` and `62` of weight 1 (V-TR5). -/
def tree2 : HuffTree :=
  { node := [{ kind := .leaf 0x61, weight := 1, parent := some 2 }, { kind := .leaf 0x62, weight := 1, parent := some 2 },
             { kind := .internal 0 1, weight := 2, parent := none }]
    root := some 2
    leaf := ((Vector.replicate 256 none).set 0x61 (some 0)).set 0x62 (some 1) }

theorem tree2_node {i : Nat} {nd : Node} (h : tree2.node[i]? = some nd) :
    (i = 0 ∧ nd = { kind := .leaf 0x61, weight := 1, parent := some 2 }) ∨
    (i = 1 ∧ nd = { kind := .leaf 0x62, weight := 1, parent := some 2 }) ∨
    (i = 2 ∧ nd = { kind := .internal 0 1, weight := 2, parent := none }) := by
  match i, h with
  | 0, h => exact .inl ⟨rfl, (Option.some.inj h).symm⟩
  | 1, h => exact .inr (.inl ⟨rfl, (Option.some.inj h).symm⟩)
  | 2, h => exact .inr (.inr ⟨rfl, (Option.some.inj h).symm⟩)
  | n + 3, h => simp [tree2] at h

theorem tree2_leaf : ∀ b : Byte, tree2.leafOf b = none ∨ (b = 0x61 ∧ tree2.leafOf b = some 0) ∨
    (b = 0x62 ∧ tree2.leafOf b = some 1) := by decide +kernel

theorem tree2_inv : tree2.Inv where
  size := by decide
  parent := by
    intro i nd p h hp
    rcases tree2_node h with ⟨rfl, rfl⟩ | ⟨rfl, rfl⟩ | ⟨rfl, rfl⟩
    · obtain rfl : p = 2 := (Option.some.inj hp).symm
      exact ⟨by decide, _, 0, 1, rfl, rfl, .inl rfl, by decide⟩
    · obtain rfl : p = 2 := (Option.some.inj hp).symm
      exact ⟨by decide, _, 0, 1, rfl, rfl, .inr rfl, by decide⟩
    · cases hp
  child := by
    intro i nd l r h hk
    rcases tree2_node h with ⟨rfl, rfl⟩ | ⟨rfl, rfl⟩ | ⟨rfl, rfl⟩
    · cases hk
    · cases hk
    · cases hk
      exact ⟨_, _, rfl, rfl, rfl, rfl⟩
  orphan := by
    intro i nd h hp
    rcases tree2_node h with ⟨rfl, rfl⟩ | ⟨rfl, rfl⟩ | ⟨rfl, rfl⟩
    · cases hp
    · cases hp
    · rfl
  root := by
    intro i h
    obtain rfl : i = 2 := (Option.some.inj h).symm
    exact ⟨_, rfl, rfl⟩
  leafKind := by
    intro b i h
    rcases tree2_leaf b with hb | ⟨rfl, hb⟩ | ⟨rfl, hb⟩
    · rw [hb] at h; cases h
    · rw [hb] at h; cases h; exact ⟨_, rfl, rfl⟩
    · rw [hb] at h; cases h; exact ⟨_, rfl, rfl⟩
  leafListed := by
    intro i nd b h hk
    rcases tree2_node h with ⟨rfl, rfl⟩ | ⟨rfl, rfl⟩ | ⟨rfl, rfl⟩
    · cases hk; decide
    · cases hk; decide
    · cases hk

/-- A heap with two of its nodes. -/
def heap2 : Heap := { items := [0, 2] }

theorem heap2_inv : heap2.Inv tree2 where
  rising := by decide
  allocated := by decide
  size := by decide

/-- A BitWriter with three pending bits. -/
def bw3 : BitWriter := { acc := 5, nacc := 3, total := 3 }

theorem bw3_inv : bw3.Inv := ⟨by decide, by decide⟩

theorem ab_inv : ab.Inv where
  width := by decide
  last := by decide
  next := by decide
  codes := by decide
  edges := by decide
  later := by decide

/-- A dictionary of width 9 with its first `k` edges. -/
def dictOf (k : Nat) : LzwDict :=
  { child := (List.range k).map fun c => ((c, 0), 256 + c), next := 256 + k, W := 9, last := 509 }

/-- Any such dictionary meets the invariant; `k = 254` is full and `k = 253` one short of it (V-LD8). -/
theorem dictOf_inv (k : Nat) (h : k ≤ 254) : (dictOf k).Inv where
  width := by simp [dictOf]
  last := by simp [dictOf]
  next := by simp [dictOf, Config.firstCode]; omega
  codes := by simp [dictOf, Config.firstCode, List.range'_eq_map_range]
  edges := by
    simp only [dictOf, List.map_map]
    exact List.nodup_range.map fun a b e => (Prod.mk.inj e).1
  later := by
    intro e he
    simp only [dictOf, List.mem_map, List.mem_range] at he
    obtain ⟨c, -, rfl⟩ := he
    simp

theorem enc_inv (c : Cursor) : (enc c).Inv := ⟨by simp [enc], by simp [enc]⟩

/-- A decoder that has registered `[65, 65]`. -/
def dec1 : LzwDec :=
  { table := [(256, [65, 65])], reg := [[65, 65]], last := [65, 65], next := 257, width := 9, W := 10, lastCode := 1021,
    done := false }

theorem dec1_inv : dec1.Inv where
  maxWidth := by decide
  lastCode := by decide
  width := by decide
  next := by decide
  codes := by decide
  registry := by decide
  distinct := by decide
  long := by decide

/-- Units in use: pending bits, a tree, a heap and all three LZW units. -/
def inUse : Units :=
  { Units.start with bw := bw3, ht := tree2, hp := heap2, ld := some ab, le := some (enc (.code 0x41)), lx := some dec1 }

/-- A state with those units, `STAT.TOTAL` being the copy of `BW.total`. -/
def live : State := { with_ inUse with stat := { phase := .done, err := .none, total := 3, resets := 0 } }

theorem live_ready : Ready live inUse := ⟨by decide, rfl⟩

theorem live_inv : live.Inv where
  notBusy := by decide
  failed := by decide
  res := by intro v h; cases h
  cfg := by intro c h; cases h
  cfgReady := by intro h; cases h
  units := by
    intro u h
    obtain rfl : u = inUse := (Option.some.inj h).symm
    exact { bw := bw3_inv, total := rfl, ht := tree2_inv, hp := heap2_inv
            ld := by intro d h; cases h; exact ab_inv
            le := by intro e h; cases h; exact ⟨enc_inv _, rfl, rfl⟩
            lx := by intro x h; cases h; exact dec1_inv }

theorem start_ready (s : State) (h : s.stat.phase ≠ .busy) (hu : s.units = some Units.start) : Ready s Units.start := ⟨h, hu⟩

theorem start_bw_inv : Units.start.bw.Inv := ⟨by decide, by decide⟩

theorem reset_ready : Ready State.reset Units.start := ⟨by decide, rfl⟩

/-- The state after a raise. -/
def failedState : State :=
  { State.reset with stat := { phase := .failed, err := .badOperand, total := 0, resets := 0 }, units := none }

/-- A legal configuration. -/
def cfg9 : Cfg := { algo := .lzw, maxw := 9, pct := 100, mins := 0 }

/-- After a successful COMPRESS of that configuration. -/
def configured (s : State) : State := { s with cfg := some cfg9, cfgReady := true }

theorem cfg9_inv : cfg9.Inv := ⟨by decide, by decide⟩

/-! ### Encoding and the step -/

theorem witness_DecodeOfEncode : (Instr.lzwReference 256).wellFormedAt 9 = true ∧
    (Instr.lzwReference (2 ^ 31 - 3)).wellFormedAt 31 = true ∧ (Instr.ldAdd (.code 0xFFFFFFFE) 0xFF).wellFormedAt 0 = true ∧
    (Instr.lzwLiteral 0).wellFormedAt 31 = true ∧ Instr.huffFile.wellFormedAt 0 = true := by decide
theorem witness_EncodeOfDecode : decodeCommand (hex 6 0x41FFFFFFFE41) = .command (.ldHasnext (.code 0xFFFFFFFE) 0x41) [] := by decide
theorem witness_Unassigned : (0x00 : Byte).toNat ∉ assignedOpcodes ∧ (0xFF : Byte).toNat ∉ assignedOpcodes ∧
    ({ live with host := [.issue (bitsMsb 8 (0xFF : Byte).toNat ++ [])] } : State).host =
      .issue (bitsMsb 8 (0xFF : Byte).toNat ++ []) :: [] ∧ live.stat.phase ≠ .busy := by decide
theorem witness_CodeWordClasses : 9 ≤ 9 ∧ 9 ≤ 31 ∧ 511 < 2 ^ 9 ∧ 0 < 2 ^ 9 ∧ 256 < 2 ^ 9 ∧ 255 < 2 ^ 9 ∧ 2 ^ 31 - 2 < 2 ^ 31 := by decide
theorem witness_StepRuns : decodeTableWord 16 0x6225 = some (.htFindcode 0x62) ∧ decodeTableWord 8 0x02 = some .decompress ∧
    decodeTableWord 56 0x20A701 = some (.compress .lzw 9 100 0) ∧
    decodeCommand (hex 2 0x2562) = .command (.htFindcode 0x62) [] := by decide
theorem witness_HostActions : live.stat.phase ≠ .busy ∧ ({ live with host := [.supply [1]] } : State).host = .supply [1] :: [] ∧
    ({ live with host := [.feedBack] } : State).host = .feedBack :: [] ∧ live.host = [] := by decide
theorem witness_BusyBlock : ({ live with stat := { live.stat with phase := .busy }, host := [.supply [1]] } : State).stat.phase = .busy := rfl

/-- The same state with a BW_FLUSH issued, and with the bits of a command cut short. -/
def issued (cmd : Bits) : State := { live with host := [.issue cmd] }

theorem issued_inv (cmd : Bits) : (issued cmd).Inv :=
  { notBusy := live_inv.notBusy, failed := live_inv.failed, res := live_inv.res, cfg := live_inv.cfg, cfgReady := live_inv.cfgReady,
    units := live_inv.units }

theorem witness_EveryStepKeeps : (issued (hex 1 0x11)).Inv ∧ ∃ t, step (issued (hex 1 0x11)) = .next t ∧ t.out = [0xA0] :=
  ⟨issued_inv _, _, rfl, rfl⟩
theorem witness_EveryStepSafe : (issued (bitsMsb 12 0x404)).Inv ∧ step (issued (bitsMsb 12 0x404)) = .refused .truncatedCommand :=
  ⟨issued_inv _, rfl⟩
theorem witness_EveryCommandEnds : live.stat.phase ≠ .busy ∧ (∃ t, exec .bwFlush live = .next t ∧ t.stat.phase = .done) ∧
    ∃ t, exec .hpPop State.reset = .next t ∧ t.stat.phase = .failed := ⟨by decide, ⟨_, rfl, rfl⟩, ⟨_, rfl, rfl⟩⟩
theorem witness_CommandsKeep : ∃ t, exec .bwFlush live = .next t ∧ isHostCommand .bwFlush = false ∧ t.stat.phase ≠ .failed :=
  ⟨_, rfl, rfl, by decide⟩

/-! ### Undefined units -/

theorem witness_UndefinedUnits : failedState.stat.phase ≠ .busy ∧ failedState.units = none ∧ readsUnits .lzwFile = true ∧
    (configured failedState).cfg = some cfg9 ∧ (configured failedState).cfgReady = true ∧ cfg9.Inv :=
  ⟨by decide, rfl, rfl, rfl, rfl, cfg9_inv⟩
theorem witness_WritesLeave : Ready State.reset Units.start ∧ Units.start.ld = none ∧ failedState.stat.phase ≠ .busy ∧
    failedState.units = none ∧ 9 ≤ (9 : BitVec 5).toNat ∧ 9 ≤ (31 : BitVec 5).toNat ∧ (100 : BitVec 7).toNat ≤ 100 :=
  ⟨reset_ready, rfl, by decide, rfl, by decide, by decide, by decide⟩
theorem witness_Uninitialised : Ready State.reset Units.start ∧ Units.start.ld = none ∧ Units.start.le = none ∧
    Units.start.lx = none ∧ State.reset.cfgReady = false ∧ failedState.stat.phase ≠ .busy ∧ failedState.cfg = none ∧
    failedState.units = none := ⟨reset_ready, rfl, rfl, rfl, rfl, by decide, rfl, rfl⟩
theorem witness_HostCommandsForget : live.stat.phase ≠ .busy ∧ State.reset.stat.phase ≠ .busy ∧ live.input = State.reset.input ∧
    live.cfg = State.reset.cfg ∧ live.cfgReady = State.reset.cfgReady ∧ live.host = State.reset.host ∧ live.draws = State.reset.draws ∧
    isHostCommand .decompress = true ∧ ∃ t, exec .decompress live = .next t :=
  ⟨by decide, by decide, rfl, rfl, rfl, rfl, rfl, rfl, _, rfl⟩

/-! ### Bit streams -/

theorem witness_BwWrite : Ready live inUse ∧ inUse.bw.Inv ∧ (0 : BitVec 6).toNat ≤ 32 ∧ (32 : BitVec 6).toNat ≤ 32 ∧
    32 < (33 : BitVec 6).toNat := ⟨live_ready, bw3_inv, by decide, by decide, by decide⟩
theorem witness_BwFlush : Ready live inUse ∧ inUse.bw.Inv ∧ Ready State.reset Units.start ∧ Units.start.bw.Inv :=
  ⟨live_ready, bw3_inv, reset_ready, start_bw_inv⟩
theorem witness_BrRead : Ready { live with input := [0xA5] } inUse ∧ inUse.br.pos + (8 : BitVec 6).toNat ≤ 8 * [0xA5].length ∧
    8 * [0xA5].length < inUse.br.pos + (9 : BitVec 6).toNat ∧ inUse.br.pos ≤ 8 * [0xA5].length ∧ 32 < (33 : BitVec 6).toNat :=
  ⟨⟨by decide, rfl⟩, by decide, by decide, by decide, by decide⟩
theorem witness_WrittenBitsReadBack : live.units = some inUse ∧ inUse.bw.Inv ∧ 32 ≤ 32 ∧ [8, 8, 16, 0].sum = 32 ∧
    ([] : List Nat).sum = 0 := ⟨rfl, bw3_inv, by decide, by decide, rfl⟩

/-! ### Heap, tree and Huffman codec -/

theorem witness_HpPush : Ready live inUse ∧ (3 : BitVec 9).toNat ≥ inUse.ht.n ∧ (0 : BitVec 9).toNat ∈ inUse.hp.items ∧
    (1 : BitVec 9).toNat < inUse.ht.n ∧ (1 : BitVec 9).toNat ∉ inUse.hp.items ∧ inUse.hp.size ≠ 256 ∧
    inUse.hp.items.Pairwise (· < ·) ∧ (hpUnits (List.range 256)).hp.size = 256 :=
  ⟨live_ready, by decide, by decide, by decide, by decide, by decide, by decide, by simp [hpUnits, Heap.size]⟩
theorem witness_HpPop : Ready live inUse ∧ inUse.hp.items ≠ [] ∧ inUse.hp.Inv inUse.ht ∧ Ready State.reset Units.start ∧
    Units.start.hp.items = [] := ⟨live_ready, by decide, heap2_inv, reset_ready, rfl⟩
theorem witness_HtBuild : Ready live inUse := live_ready
theorem witness_HtBuildMerges : Ready (with_ { Units.start with ft := aabc }) { Units.start with ft := aabc } := ⟨by decide, rfl⟩
theorem witness_BuiltTrees : (treeOf aabc).root = some 4 ∧ (treeOf aabc).leafOf 0x63 = some 2 ∧
    (treeOf aabc).walk 4 [true, true] = some 2 := by decide +kernel
theorem witness_BuiltTrees_nodes : ∃ nodes, (treeOf aabc).node = nodes ∧ nodes[0]? = some { kind := .leaf 0x61, weight := 2, parent := some 4 } ∧
    nodes[3]? = some { kind := .internal 1 2, weight := 2, parent := some 4 } :=
  ⟨_, test_htBuild.1, rfl, rfl⟩
theorem tree2_code_a : tree2.IsCode 0x61 [false] := ⟨2, 0, rfl, by decide, rfl⟩
theorem tree2_code_b : tree2.IsCode 0x62 [true] := ⟨2, 1, rfl, by decide, rfl⟩
theorem witness_HtFindcode : Ready live inUse ∧ inUse.ht.leafOf 0x63 = none ∧ inUse.ht.Inv ∧ inUse.ht.leafOf 0x62 ≠ none :=
  ⟨live_ready, by decide, tree2_inv, by decide⟩
theorem witness_PrefixCode : tree2.Inv ∧ tree2.IsCode 0x61 [false] ∧ tree2.IsCode 0x62 [true] ∧ (0x61 : Byte) ≠ 0x62 :=
  ⟨tree2_inv, tree2_code_a, tree2_code_b, by decide⟩
theorem witness_HufEncSym : Ready live inUse ∧ inUse.ht.leafOf 0x63 = none ∧ inUse.ht.Inv ∧ inUse.bw.Inv ∧
    inUse.bw.total = live.stat.total ∧ inUse.ht.leafOf 0x61 ≠ none :=
  ⟨live_ready, by decide, tree2_inv, bw3_inv, rfl, by decide⟩
theorem witness_HufDecSym : Ready State.reset Units.start ∧ Units.start.ht.root = none ∧
    Ready { live with input := [0x80] } inUse ∧ inUse.ht.Inv ∧ inUse.ht.IsCode 0x62 [true] ∧
    bitsAhead { live with input := [0x80] } inUse = [true] ++ List.replicate 7 false ∧
    Ready live inUse ∧ inUse.ht.root = some 2 ∧ inUse.ht.walk 2 (bitsAhead live inUse) = some 2 ∧
    ∃ nd, inUse.ht.node[2]? = some nd ∧ nd.kind = .internal 0 1 :=
  ⟨reset_ready, rfl, ⟨by decide, rfl⟩, tree2_inv, tree2_code_b, by decide, live_ready, rfl, rfl, _, rfl, rfl⟩

/-- An input in which the byte 0 occurs 2^32 times. -/
theorem witness_HufCompress : Ready { live with input := [0x61, 0x62] } inUse ∧ inUse.bw.Inv ∧
    (∀ b : Byte, [0x61, 0x62].count b < 2 ^ 32) ∧
    Ready { live with input := List.replicate (2 ^ 32) 0 } inUse ∧
    2 ^ 32 ≤ ({ live with input := List.replicate (2 ^ 32) 0 } : State).input.count 0 := by
  refine ⟨⟨by decide, rfl⟩, bw3_inv, fun b => lt_of_le_of_lt List.count_le_length (by decide), ⟨by decide, rfl⟩, ?_⟩
  show 2 ^ 32 ≤ (List.replicate (2 ^ 32) (0 : Byte)).count 0
  rw [List.count_replicate_self]

/-- A table in which `61` occurs five times and `62` four: the code of `62` is 0. -/
def nine : FreqTable := (FreqTable.zero.set 0x61 5).set 0x62 4

/-- The four bytes of a small count, and the header of a table of such counts. -/
def headerByte (ft : FreqTable) (b : Byte) : Bytes := [0, 0, 0, BitVec.ofNat 8 (ft.get b)]
def header (ft : FreqTable) : Bytes := allSymbols.flatMap (headerByte ft)

theorem header_bits (ft : FreqTable) (h : ∀ b, bitsMsb 32 (ft.get b) = bitsOfBytes (headerByte ft b)) :
    bitsOfBytes (header ft) = ft.headerBits := by
  have e : (fun b => bitsMsb 32 (ft.get b)) = fun b => (headerByte ft b).flatMap fun c => bitsMsb 8 c.toNat := funext h
  rw [FreqTable.headerBits, e, header, bitsOfBytes, List.flatMap_assoc]

theorem nine_code : (treeOf nine).IsCode 0x62 [false] := ⟨2, 1, by decide +kernel, by decide +kernel, by decide +kernel⟩

/-- A payload whose symbols have other frequencies than the header says. -/
theorem nine_spells (k : Nat) : (treeOf nine).Spells (List.replicate k 0x62) (List.replicate k false) := by
  induction k with
  | zero => rfl
  | succ k ih => exact ⟨_, _, nine_code, rfl, ih⟩

theorem nine_bits (payload : Bytes) : bitsAhead { live with input := header nine ++ payload } inUse =
    nine.headerBits ++ bitsOfBytes payload := by
  rw [← header_bits nine (by decide +kernel)]
  show (bitsOfBytes (header nine ++ payload)).drop 0 = _
  rw [List.drop_zero, bitsOfBytes, List.flatMap_append]
  rfl

/-- The first clause with nine code words and seven further bits, the third with eight code words where nine are due. -/
theorem witness_HufDecompress : Ready { live with input := header nine ++ [0, 0] } inUse ∧ (∀ b, nine.get b < 2 ^ 32) ∧
    (List.replicate 9 (0x62 : Byte)).length = nine.sum ∧ (treeOf nine).Spells (List.replicate 9 0x62) (List.replicate 9 false) ∧
    bitsAhead { live with input := header nine ++ [0, 0] } inUse =
      nine.headerBits ++ List.replicate 9 false ++ List.replicate 7 false ∧
    (bitsAhead live inUse).length < 8192 ∧
    (treeOf nine).Spells (List.replicate 9 0x62) (List.replicate 8 false ++ [false]) ∧
    bitsAhead { live with input := header nine ++ [0] } inUse = nine.headerBits ++ List.replicate 8 false := by
  refine ⟨⟨by decide, rfl⟩, by decide +kernel, by decide +kernel, nine_spells 9, ?_, by decide, nine_spells 9, nine_bits [0]⟩
  rw [nine_bits, List.append_assoc]
  rfl

theorem witness_HuffmanFileRoundTrip : live.stat.phase ≠ .busy ∧ 9 ≤ (9 : BitVec 5).toNat ∧ (100 : BitVec 7).toNat ≤ 100 ∧
    ∀ b, ({ live with input := [0x61, 0x62] } : State).input.count b < 2 ^ 32 :=
  ⟨by decide, by decide, by decide, fun b => lt_of_le_of_lt List.count_le_length (by decide)⟩

/-! ### LZW dictionary and encoder -/

theorem witness_LdInit : Ready live inUse ∧ failedState.stat.phase ≠ .busy ∧ 9 ≤ (9 : BitVec 5).toNat ∧ 9 ≤ (31 : BitVec 5).toNat ∧ (8 : BitVec 5).toNat < 9 :=
  ⟨live_ready, by decide, by decide, by decide, by decide⟩
theorem witness_LdLookups : Ready live inUse ∧ inUse.ld = some ab ∧ 256 < ab.next ∧ ab.next ≤ 257 := ⟨live_ready, rfl, by decide, by decide⟩
theorem witness_LdAdd : Ready live inUse ∧ inUse.ld = some ab ∧ ab.next ≤ 257 ∧ ((0x41, 0x42), 256) ∈ ab.child ∧ 256 < ab.next ∧
    (∀ n, ((256, 0x42), n) ∉ ab.child) ∧ ab.next ≤ ab.last ∧ (dictOf 254).next > (dictOf 254).last :=
  ⟨live_ready, rfl, by decide, by decide, by decide, by intro n h; simp [ab] at h, by decide, by decide⟩
theorem witness_LdReset : Ready live inUse ∧ inUse.ld = some ab := ⟨live_ready, rfl⟩
theorem witness_LzwDictionaryInvariants : Ready live inUse ∧ inUse.ld = some ab ∧ ab.Inv ∧ (dictOf 254).Inv ∧
    ∃ t v e, exec (.ldAdd (.code 256) 0x43) live = .next t ∧ t.units = some v ∧ v.ld = some e :=
  ⟨live_ready, rfl, ab_inv, (dictOf_inv 254 (by decide)), _, _, _, rfl, rfl, rfl⟩
theorem witness_LzcInit : Ready live inUse ∧ 9 ≤ (9 : BitVec 5).toNat ∧ (100 : BitVec 7).toNat ≤ 100 ∧ (8 : BitVec 5).toNat < 9 ∧
    100 < (101 : BitVec 7).toNat ∧ failedState.stat.phase ≠ .busy :=
  ⟨live_ready, by decide, by decide, by decide, by decide, by decide⟩
theorem witness_LzcEmit : Ready live inUse ∧ inUse.ld = some ab ∧ inUse.le = some (enc (.code 0x41)) ∧ inUse.bw.Inv ∧ ab.Inv ∧
    (enc (.code 0x41)).Inv ∧ 256 < ab.next ∧ ab.next ≤ 257 :=
  ⟨live_ready, rfl, rfl, bw3_inv, ab_inv, enc_inv _, by decide, by decide⟩
theorem witness_LzcByteExtends : Ready live inUse ∧ inUse.ld = some ab ∧ inUse.le = some (enc (.code 0x41)) ∧
    0x41 < ab.next ∧ edgeAt (0x41, 0x42) ab.child = some 256 ∧ (enc .root).cur = .root :=
  ⟨live_ready, rfl, rfl, by decide, by decide, rfl⟩

/-- Units with a dictionary and an encoder. -/
def encUnits (d : LzwDict) (e : LzwEnc) : Units := { Units.start with bw := bw3, ld := some d, le := some e }

/-- The cursor that LD_RESET leaves without an entry. -/
theorem witness_no_entry : Ready (with_ (encUnits { ab with child := [], next := 256 } (enc (.code 256))))
    (encUnits { ab with child := [], next := 256 } (enc (.code 256))) ∧ (enc (.code 256)).cur = .code 256 ∧
    ({ ab with child := [], next := 256 } : LzwDict).next ≤ 256 := ⟨⟨by decide, rfl⟩, rfl, by decide⟩

/-- The hypotheses of the two statements of LZC_BYTE off the trie, but for the reset test. -/
theorem off_trie (d : LzwDict) (e : LzwEnc) (c : Nat) (b : Byte) (hd : d.Inv) (he : e.Inv) (hc : e.cur = .code c) (hn : c < d.next)
    (hb : edgeAt (c, b) d.child = none) : Ready (with_ (encUnits d e)) (encUnits d e) ∧ (encUnits d e).bw.Inv ∧
    (encUnits d e).ld = some d ∧ d.Inv ∧ (encUnits d e).le = some e ∧ e.Inv ∧ e.cur = .code c ∧ c < d.next ∧
    edgeAt (c, b) d.child = none := ⟨⟨by simp [with_, State.reset], rfl⟩, bw3_inv, rfl, hd, rfl, he, hc, hn, hb⟩

/-- Not full; full with resets disabled; and one short of full, the boundary. -/
theorem witness_LzcByteWrites :
    (∃ s u, Ready s u ∧ u.ld = some ab ∧ u.le = some (enc (.code 256)) ∧ ¬ ab.next + 1 > ab.last) ∧
    (∃ s u, Ready s u ∧ u.ld = some (dictOf 254) ∧ (dictOf 254).Inv ∧ u.le = some (enc (.code 509)) ∧
      edgeAt (509, 1) (dictOf 254).child = none ∧ ¬ 100 * 1 > (enc (.code 509)).pct.toNat * (0 + 1)) ∧
    ∃ s u, Ready s u ∧ u.ld = some (dictOf 253) ∧ (dictOf 253).Inv ∧ u.le = some (enc (.code 508)) ∧
      edgeAt (508, 1) (dictOf 253).child = none := by
  have h1 := off_trie ab (enc (.code 256)) 256 0x43 ab_inv (enc_inv _) rfl (by decide) (by decide)
  have h2 := off_trie (dictOf 254) (enc (.code 509)) 509 1 (dictOf_inv 254 (by decide)) (enc_inv _) rfl (by decide) (by decide +kernel)
  have h3 := off_trie (dictOf 253) (enc (.code 508)) 508 1 (dictOf_inv 253 (by decide)) (enc_inv _) rfl (by decide) (by decide +kernel)
  exact ⟨⟨_, _, h1.1, rfl, rfl, by decide⟩, ⟨_, _, h2.1, rfl, (dictOf_inv 254 (by decide)), rfl, h2.2.2.2.2.2.2.2.2, by decide⟩,
    _, _, h3.1, rfl, (dictOf_inv 253 (by decide)), rfl, h3.2.2.2.2.2.2.2.2⟩

/-- An encoder with threshold 0, whose first counted miss makes the reset due (V-LZ6). -/
def encReset (c : Nat) : LzwEnc := { enc (.code c) with pct := 0 }

theorem witness_LzcByteResets : ∃ s u d e c, Ready s u ∧ u.bw.Inv ∧ u.ld = some d ∧ d.Inv ∧ u.le = some e ∧ e.Inv ∧
    e.cur = .code c ∧ c < d.next ∧ edgeAt (c, (254 : Byte)) d.child = none ∧ d.last ≤ d.next ∧ e.hits + (e.misses + 1) > e.mins.toNat ∧
    100 * (e.misses + 1) > e.pct.toNat * (e.hits + (e.misses + 1)) := by
  have he : (encReset 253).Inv := ⟨by decide, by decide⟩
  obtain ⟨h1, h2, h3, h4, h5, h6, h7, h8, h9⟩ :=
    off_trie (dictOf 253) (encReset 253) 253 254 (dictOf_inv 253 (by decide)) he rfl (by decide) (by decide +kernel)
  exact ⟨_, _, _, _, _, h1, h2, h3, h4, h5, h6, h7, h8, h9, by decide, by decide, by decide⟩

theorem witness_LzcFinish : Ready live inUse ∧ inUse.le = some (enc (.code 0x41)) ∧ inUse.bw.Inv ∧ inUse.ld = some ab ∧ ab.Inv ∧
    (enc (.code 0x41)).Inv ∧ 0x41 < ab.next ∧ (encUnits ab (enc .root)).le = some (enc .root) ∧ (enc .root).cur = .root :=
  ⟨live_ready, rfl, bw3_inv, rfl, ab_inv, enc_inv _, by decide, rfl, rfl⟩
theorem witness_LzwCompressRuns : Ready (configured live) inUse ∧ (configured live).cfg = some cfg9 ∧
    (configured live).cfgReady = true ∧ ({ cfg9 with maxw := 8 } : Cfg).maxw.toNat < 9 := ⟨⟨by decide, rfl⟩, rfl, rfl, by decide⟩
theorem witness_LzwStream : Ready (configured live) inUse ∧ inUse.bw.Inv ∧ cfg9.Inv ∧
    Ready { live with input := [0x48] } inUse ∧ 3 < 8 ∧
    bitsAhead { live with input := [0x48] } inUse = bitsMsb 5 cfg9.maxw.toNat ++ [] ++ List.replicate 3 false :=
  ⟨⟨by decide, rfl⟩, bw3_inv, cfg9_inv, ⟨by decide, rfl⟩, by decide, by decide⟩

/-! ### LZW decoder and entry points -/

/-- LZD_INIT that completes and one that raises. -/
theorem witness_LzwDecompressRuns : Ready { live with input := [0x48] } inUse ∧
    (∃ t, exec .lzdInit { live with input := [0x48] } = .next t ∧ t.stat.phase ≠ .failed) ∧
    ∃ t, exec .lzdInit live = .next t ∧ t.stat.phase = .failed :=
  ⟨⟨by decide, rfl⟩, ⟨_, rfl, by decide⟩, _, rfl, by decide⟩

theorem witness_LzdInit : Ready { live with input := [0x48] } inUse ∧
    bitsAhead { live with input := [0x48] } inUse = bitsMsb 5 (9 : BitVec 5).toNat ++ [false, false, false] ∧
    bitsAhead { live with input := [0x40] } inUse = bitsMsb 5 (8 : BitVec 5).toNat ++ [false, false, false] ∧
    (bitsAhead live inUse).length < 5 := ⟨⟨by decide, rfl⟩, by decide, by decide, by decide⟩
theorem witness_LzdCode : Ready live inUse ∧ inUse.lx = some dec1 ∧ dec1.Inv ∧ dec1.done = false ∧
    (bitsAhead live inUse).length < dec1.width ∧ 510 < 2 ^ dec1.width ∧
    bitsAhead { live with input := [0xFF, 0x00] } inUse = bitsMsb dec1.width 510 ++ List.replicate 7 false ∧
    ({ dec1 with done := true } : LzwDec).Inv :=
  ⟨live_ready, rfl, dec1_inv, rfl, by decide, by decide, by decide,
    { maxWidth := dec1_inv.maxWidth, lastCode := dec1_inv.lastCode, width := dec1_inv.width, next := dec1_inv.next,
      codes := dec1_inv.codes, registry := dec1_inv.registry, distinct := dec1_inv.distinct, long := dec1_inv.long }⟩
theorem witness_LzwControl : Ready live inUse ∧ inUse.lx = some dec1 ∧ dec1.width < dec1.W ∧ (dec []).W ≤ (dec []).width :=
  ⟨live_ready, rfl, by decide, by decide⟩
theorem witness_LzwLiteral : Ready live inUse ∧ inUse.lx = some dec1 ∧ dec1.last ≠ [] ∧ dec1.last ++ [66] ∉ dec1.reg ∧
    dec1.next ≤ dec1.lastCode ∧ (dec []).last = [] := ⟨live_ready, rfl, by decide, by decide, by decide, rfl⟩
theorem witness_LzwReference : Ready live inUse ∧ inUse.lx = some dec1 ∧ tableAt 256 dec1.table = some (65 :: [65]) ∧
    dec1.last ++ [65] ∉ dec1.reg ∧ tableAt 257 dec1.table = none ∧ dec1.last = 65 :: [65] ∧ dec1.next ≤ dec1.lastCode ∧
    tableAt 300 (dec []).table = none ∧ (dec []).last = [] :=
  ⟨live_ready, rfl, by decide, by decide, by decide, rfl, by decide, rfl, rfl⟩
theorem witness_Compress : live.stat.phase ≠ .busy ∧ (8 : BitVec 5).toNat < 9 ∧ 100 < (101 : BitVec 7).toNat ∧
    9 ≤ (9 : BitVec 5).toNat ∧ (100 : BitVec 7).toNat ≤ 100 := by decide

theorem witness_Overflow : live.stat.phase ≠ .busy ∧ 9 ≤ (9 : BitVec 5).toNat ∧ (100 : BitVec 7).toNat ≤ 100 ∧
    2 ^ 32 ≤ ({ live with input := List.replicate (2 ^ 32) 0 } : State).input.count 0 ∧ live.cfgReady = false :=
  ⟨by decide, by decide, by decide, witness_HufCompress.2.2.2.2, rfl⟩

/-- Some 4-byte value is neither magic. -/
theorem witness_unknown_magic : ∃ m : BitVec 32, m ≠ Config.huffMagic ∧ m ≠ Config.lzwMagic := by
  generalize Config.huffMagic = h
  generalize Config.lzwMagic = l
  by_cases e : h.toNat = 0 ∨ l.toNat = 0
  · by_cases e' : h.toNat = 1 ∨ l.toNat = 1
    · exact ⟨2#32, fun x => by subst x; simp at e e'; simp [e] at e', fun x => by subst x; simp at e e'; simp [e] at e'⟩
    · exact ⟨1#32, fun x => by subst x; simp at e', fun x => by subst x; simp at e'⟩
  · exact ⟨0#32, fun x => by subst x; simp at e, fun x => by subst x; simp at e⟩

theorem witness_Decompress (m : BitVec 32) : live.stat.phase ≠ .busy ∧ live.input.length < 4 ∧
    ({ live with input := magicBytes m ++ [0x48] } : State).input = magicBytes m ++ [0x48] := ⟨by decide, by decide, rfl⟩
theorem witness_HeaderErrors : live.stat.phase ≠ .busy ∧ live.input.length < 4 ∧ (List.replicate 1023 (0 : Byte)).length < 1024 ∧
    (71 : Byte).toNat < 9 * 8 := ⟨by decide, by decide, by rw [List.length_replicate]; decide, by decide⟩
theorem witness_LzwFileRoundTrip : live.stat.phase ≠ .busy ∧ 9 ≤ (31 : BitVec 5).toNat ∧ (0 : BitVec 7).toNat ≤ 100 := by decide

end Sys2Proof.Tests
end

section

/-! ## What a step and an instruction do (R18, R57, R122) -/

namespace Sys2Proof.Machine

/-! ### The step, one equation per host action -/

theorem step_idle {s : State} (h : s.host = []) : step s = .next s := by simp only [step, h]

theorem step_supply {s : State} {data : Bytes} {more : List HostAction} (h : s.host = .supply data :: more) :
    step s = hostSupplies data (s.withHost more) := by simp only [step, h]

theorem step_feedBack {s : State} {more : List HostAction} (h : s.host = .feedBack :: more) :
    step s = hostSupplies s.out (s.withHost more) := by simp only [step, h]

theorem step_issue {s : State} {cmd : Bits} {more : List HostAction} (h : s.host = .issue cmd :: more) :
    step s = hostIssues cmd (s.withHost more) := by simp only [step, h]

theorem hostSupplies_ready {s : State} (h : s.stat.phase ≠ .busy) (data : Bytes) :
    hostSupplies data s = .next (s.withInput data) := if_neg h

theorem hostSupplies_busy {s : State} (h : s.stat.phase = .busy) (data : Bytes) :
    hostSupplies data s = .refused .inputWhileBusy := if_pos h

theorem hostIssues_command {cmd rest : Bits} {i : Instr} (h : decodeCommand cmd = .command i rest) (s : State) :
    hostIssues cmd s = exec i s := by simp only [hostIssues, h]

/-- What the host's issue of bits can be: a command, an opcode R59 does not list, or bits cut short. -/
theorem hostIssues_cases (cmd : Bits) (s : State) :
    (∃ i rest, decodeCommand cmd = .command i rest ∧ hostIssues cmd s = exec i s) ∨
    hostIssues cmd s = execUnassigned s ∨ hostIssues cmd s = .refused .truncatedCommand := by
  cases h : decodeCommand cmd with
  | command i rest => exact .inl ⟨i, rest, rfl, hostIssues_command h s⟩
  | unassigned op => exact .inr (.inl (by simp only [hostIssues, h]))
  | truncated => exact .inr (.inr (by simp only [hostIssues, h]))
  | unknownMagic => exact .inr (.inr (by simp only [hostIssues, h]))

theorem decodeTableWord_eq_some {nbits w : Nat} {i : Instr} (h : decodeTableWord nbits w = some i) :
    ∃ rest, decodeCommand (bitsOfTableWord nbits w) = .command i rest := by
  unfold decodeTableWord at h
  split at h
  case h_1 j rest hd => exact ⟨rest, by rw [hd, Option.some.inj h]⟩
  all_goals cases h

/-! ### An instruction is a body in a frame -/

/-- What an instruction runs between the start of its command and its end (R110, R122). -/
def instrBody : Instr → State → Eff Unit
  | .compress algo W pct mins => noResult (compress algo W pct mins)
  | .decompress => noResult decompress
  | .bwWrite n v => noResult (writeBits n.toNat v.toNat)
  | .bwFlush => noResult flush
  | .brRead n => withResult readResult (readBits n.toNat)
  | .ftClear => noResult ftClear
  | .ftCount b => noResult (ftCount b)
  | .hpPush n => noResult (heapPush n.toNat)
  | .hpPop => withResult .num heapPop
  | .htBuild => noResult htBuild
  | .htFindcode b => withResult .bits (findCode b)
  | .hufEncSym b => noResult (hufEncSym b)
  | .hufDecSym => withResult (fun b : Byte => .num b.toNat) hufDecSym
  | .hufCompress => noResult hufCompress
  | .hufDecompress => noResult hufDecompress
  | .ldInit W => noResult (ldInit W.toNat)
  | .ldHasnext c b => withResult .bool (ldHasnext c b)
  | .ldGetcode c => withResult .num (ldGetcode c)
  | .ldAdd c b => noResult (ldAdd c b)
  | .ldReset => noResult ldReset
  | .lzcInit W pct mins => noResult (lzcInit W pct mins)
  | .lzcEmit c => noResult (lzcEmit c)
  | .lzcByte b => noResult (lzcByte b)
  | .lzcFinish => noResult lzcFinish
  | .lzwCompress => noResult lzwCompress
  | .lzdInit => withResult .num lzdInit
  | .lzdCode => lzdCode
  | .lzwDecompress => noResult lzwDecompress
  | .lzwGrow => actOn .grow
  | .lzwReset => actOn .reset
  | .lzwLiteral b => actOn (.literal b)
  | .lzwReference c => actOn (.reference c)
  | .huffFile => noResult hufDecompress
  | .lzwFile => noResult lzwDecompress

/-- The state in which an instruction's body begins: after START for a host command (R110, R122). -/
def instrStart (i : Instr) (s : State) : State := if isHostCommand i = true then startHost s else startUnit s

theorem instrStart_host {i : Instr} (h : isHostCommand i = true) (s : State) : instrStart i s = startHost s := if_pos h
theorem instrStart_unit {i : Instr} (h : isHostCommand i = false) (s : State) : instrStart i s = startUnit s := by
  simp [instrStart, h]

@[simp] theorem instrStart_input (i : Instr) (s : State) : (instrStart i s).input = s.input := by
  unfold instrStart; split <;> rfl
@[simp] theorem instrStart_host_actions (i : Instr) (s : State) : (instrStart i s).host = s.host := by
  unfold instrStart; split <;> rfl
@[simp] theorem instrStart_cfg (i : Instr) (s : State) : (instrStart i s).cfg = s.cfg := by
  unfold instrStart; split <;> rfl
@[simp] theorem instrStart_cfgReady (i : Instr) (s : State) : (instrStart i s).cfgReady = s.cfgReady := by
  unfold instrStart; split <;> rfl
@[simp] theorem instrStart_draws (i : Instr) (s : State) : (instrStart i s).draws = s.draws := by
  unfold instrStart; split <;> rfl
@[simp] theorem instrStart_err (i : Instr) (s : State) : (instrStart i s).stat.err = .none := by
  unfold instrStart; split <;> rfl

/-- Every arm of exec is its body in the frame of R110 and R122. -/
theorem exec_eq (i : Instr) (s : State) :
    exec i s = if s.stat.phase = .busy then .next s else finish (instrStart i s) (instrBody i (instrStart i s)) := by
  cases i <;> rfl

theorem exec_busy {s : State} (h : s.stat.phase = .busy) (i : Instr) : exec i s = .next s := by rw [exec_eq, if_pos h]

theorem exec_ready {s : State} (h : s.stat.phase ≠ .busy) (i : Instr) :
    exec i s = finish (instrStart i s) (instrBody i (instrStart i s)) := by rw [exec_eq, if_neg h]

/-- A command that answers a next state ended its body there, or raised there. -/
theorem finish_eq_next {start t : State} {r : Eff Unit} (h : finish start r = .next t) :
    (∃ x, r = .ok () x ∧ t = x.withPhase .done) ∨ (∃ e x, r = .raised e x ∧ t = raise e start x) := by
  rcases finish_cases start r with ⟨⟨⟩, x, hr, he⟩ | ⟨e, x, hr, he⟩ | ⟨f, -, he⟩
  · exact .inl ⟨x, hr, Host.Outcome.next.inj (h.symm.trans he)⟩
  · exact .inr ⟨e, x, hr, Host.Outcome.next.inj (h.symm.trans he)⟩
  · cases h.symm.trans he

/-- Everything an instruction that answers a next state can have done. -/
theorem exec_eq_next {i : Instr} {s t : State} (h : exec i s = .next t) :
    (s.stat.phase = .busy ∧ t = s) ∨
    (s.stat.phase ≠ .busy ∧
      ((∃ x, instrBody i (instrStart i s) = .ok () x ∧ t = x.withPhase .done) ∨
       (∃ e x, instrBody i (instrStart i s) = .raised e x ∧ t = raise e (instrStart i s) x))) := by
  by_cases hb : s.stat.phase = .busy
  · exact .inl ⟨hb, (Host.Outcome.next.inj ((exec_busy hb i).symm.trans h)).symm⟩
  · exact .inr ⟨hb, finish_eq_next ((exec_ready hb i).symm.trans h)⟩

/-- Every instruction's body keeps the input, the host, the free values, the phase and the error, and only appends to OUT
(R27, R28, R42). -/
theorem quiet_instrBody (i : Instr) (s : State) : (instrBody i s).Quiet s := by
  cases i with
  | compress a W p m => exact quiet_noResult (quiet_compress a W p m s)
  | decompress => exact quiet_noResult (quiet_decompress s)
  | bwWrite n v => exact quiet_noResult (quiet_writeBits _ _ s)
  | bwFlush => exact quiet_noResult (quiet_flush s)
  | brRead n => exact quiet_withResult (quiet_readBits _ s)
  | ftClear => exact quiet_noResult (quiet_ftClear s)
  | ftCount b => exact quiet_noResult (quiet_ftCount b s)
  | hpPush n => exact quiet_noResult (quiet_heapPush _ s)
  | hpPop => exact quiet_withResult (quiet_heapPop s)
  | htBuild => exact quiet_noResult (quiet_htBuild s)
  | htFindcode b => exact quiet_withResult (quiet_findCode b s)
  | hufEncSym b => exact quiet_noResult (quiet_hufEncSym b s)
  | hufDecSym => exact quiet_withResult (quiet_hufDecSym s)
  | hufCompress => exact quiet_noResult (quiet_hufCompress s)
  | hufDecompress => exact quiet_noResult (quiet_hufDecompress s)
  | ldInit W => exact quiet_noResult (quiet_ldInit _ s)
  | ldHasnext c b => exact quiet_withResult (quiet_ldHasnext c b s)
  | ldGetcode c => exact quiet_withResult (quiet_ldGetcode c s)
  | ldAdd c b => exact quiet_noResult (quiet_ldAdd c b s)
  | ldReset => exact quiet_noResult (quiet_ldReset s)
  | lzcInit W p m => exact quiet_noResult (quiet_lzcInit W p m s)
  | lzcEmit c => exact quiet_noResult (quiet_lzcEmit c s)
  | lzcByte b => exact quiet_noResult (quiet_lzcByte b s)
  | lzcFinish => exact quiet_noResult (quiet_lzcFinish s)
  | lzwCompress => exact quiet_noResult (quiet_lzwCompress s)
  | lzdInit => exact quiet_withResult (quiet_lzdInit s)
  | lzdCode => exact quiet_lzdCode s
  | lzwDecompress => exact quiet_noResult (quiet_lzwDecompress s)
  | lzwGrow => exact quiet_actOn .grow s
  | lzwReset => exact quiet_actOn .reset s
  | lzwLiteral b => exact quiet_actOn (.literal b) s
  | lzwReference c => exact quiet_actOn (.reference c) s
  | huffFile => exact quiet_noResult (quiet_hufDecompress s)
  | lzwFile => exact quiet_noResult (quiet_lzwDecompress s)

theorem quiet_of_instrBody_ok {i : Instr} {s x : State} (h : instrBody i s = .ok () x) : Quiet s x := by
  have hq := quiet_instrBody i s
  rwa [h] at hq

theorem quiet_of_instrBody_raised {i : Instr} {s x : State} {e : ErrKind} (h : instrBody i s = .raised e x) :
    Quiet s x ∧ e ≠ .none := by
  have hq := quiet_instrBody i s
  rwa [h] at hq

/-! ### The obligations about the step and about the end of a command -/

/-- Settles O9: the tables of R22 and R114, entry by entry. -/
theorem phaseAndErrorNumbers : Obligations.PhaseAndErrorNumbers := by
  unfold Obligations.PhaseAndErrorNumbers
  exact ⟨rfl, rfl⟩

/-- Settles O6: both clauses are the step's issue of bits that decode; `withFetchWord` issues a table word in front. -/
theorem stepRunsTheDecodedCommand : Obligations.StepRunsTheDecodedCommand := by
  unfold Obligations.StepRunsTheDecodedCommand
  refine ⟨fun s cmd rest more i hs hd => ?_, fun s nbits w i hw => ?_⟩
  · rw [step_issue hs, hostIssues_command hd]
  · obtain ⟨rest, hd⟩ := decodeTableWord_eq_some hw
    have hs : (s.withFetchWord nbits w).host = .issue (bitsOfTableWord nbits w) :: s.host := rfl
    rw [step_issue hs, hostIssues_command hd]
    rfl

/-- Settles O7, by the step's equation for each action that is no command. -/
theorem hostActionsChangeTheInputOnly : Obligations.HostActionsChangeTheInputOnly := by
  unfold Obligations.HostActionsChangeTheInputOnly
  refine fun s more hready => ⟨fun data hs => ?_, fun hs => ?_, step_idle⟩
  · rw [step_supply hs, hostSupplies_ready (s := s.withHost more) hready]
    rfl
  · rw [step_feedBack hs, hostSupplies_ready (s := s.withHost more) hready]
    rfl

/-- Settles O8, by the frame that every instruction runs in. -/
theorem busyBlockIgnoresCommands : Obligations.BusyBlockIgnoresCommands := by
  unfold Obligations.BusyBlockIgnoresCommands
  refine fun s hbusy => ⟨exec_busy hbusy, fun data more hs => ?_⟩
  rw [step_supply hs, hostSupplies_busy (s := s.withHost more) hbusy]

/-- Settles O14: a body is quiet, so the end of the command alone writes the phase, the error and the draw counter. -/
theorem everyCommandEndsDoneOrFailed : Obligations.EveryCommandEndsDoneOrFailed := by
  unfold Obligations.EveryCommandEndsDoneOrFailed
  intro i s t hready h
  rcases exec_eq_next h with ⟨hbusy, -⟩ | ⟨-, ⟨x, hx, rfl⟩ | ⟨e, x, hx, rfl⟩⟩
  · exact absurd hbusy hready
  · have hq := quiet_of_instrBody_ok hx
    exact .inl ⟨rfl, by simpa using hq.err, by simpa using hq.draws⟩
  · obtain ⟨hq, he⟩ := quiet_of_instrBody_raised hx
    have hdraws : x.draws = s.draws := by simpa using hq.draws
    refine .inr ⟨by simp, by simpa using he, raise_res _ _ _, raise_units _ _ _, ?_⟩
    rcases raise_out e (instrStart i s) x with ⟨-, ho, hd⟩ | ⟨-, ho, hd⟩
    · exact .inl ⟨ho, hd.trans hdraws⟩
    · exact .inr ⟨by rw [ho, hdraws], by rw [hd, hdraws]⟩

end Sys2Proof.Machine
end

section

/-! ## No body but COMPRESS writes CFG, and none but LZW_COMPRESS reads it (R25, R112)

A body that neither reads nor writes CFG commutes with every change of CFG. One family of lemmas says so, and both facts
follow from it: what a body leaves unchanged, and what its effect does not depend on. -/

namespace Sys2Proof.Machine

/-- Put other contents into CFG, readable or not. -/
def State.reCfg (s : State) (c : Option Cfg) (ready : Bool) : State := (s.withCfg c).withCfgReady ready

theorem State.reCfg_units (s : State) (c : Option Cfg) (b : Bool) : (s.reCfg c b).units = s.units := rfl
theorem State.reCfg_self (s : State) : s.reCfg s.cfg s.cfgReady = s := rfl
theorem startHost_reCfg (s : State) (c : Option Cfg) (b : Bool) : startHost (s.reCfg c b) = (startHost s).reCfg c b := rfl

/-- An effect with its state, also the one of a raise, changed. -/
def Eff.mapState {α : Type} (g : State → State) : Eff α → Eff α
  | .ok a s => .ok a (g s)
  | .raised e s => .raised e (g s)
  | .stuck f => .stuck f

/-- A part of a command that neither reads nor writes CFG: it commutes with every change of CFG. -/
def CfgFree {α : Type} (f : State → Eff α) : Prop :=
  ∀ (s : State) (c : Option Cfg) (b : Bool), f (s.reCfg c b) = (f s).mapState fun t => t.reCfg c b

/-! ### How parts that do not use CFG are put together -/

theorem CfgFree.raised {α : Type} (e : ErrKind) : CfgFree fun s => (Eff.raised e s : Eff α) := fun _ _ _ => rfl
theorem CfgFree.stuck {α : Type} (f : Fault) : CfgFree fun _ => (Eff.stuck f : Eff α) := fun _ _ _ => rfl

/-- A change of the state that commutes with a change of CFG. -/
theorem CfgFree.ok {α : Type} (a : α) {g : State → State}
    (h : ∀ (s : State) (c : Option Cfg) (b : Bool), g (s.reCfg c b) = (g s).reCfg c b) : CfgFree fun s => .ok a (g s) :=
  fun s c b => congrArg (Eff.ok a) (h s c b)

theorem CfgFree.mapUnits {α : Type} (a : α) (f : Units → Units) : CfgFree fun s => .ok a (s.mapUnits f) :=
  .ok a fun _ _ _ => rfl

theorem CfgFree.withUnits {α : Type} (a : α) (u : Option Units) : CfgFree fun s => .ok a (s.withUnits u) :=
  .ok a fun _ _ _ => rfl

theorem CfgFree.same {α : Type} (a : α) : CfgFree fun s => .ok a s := .ok a fun _ _ _ => rfl

theorem CfgFree.bind {α β : Type} {f : State → Eff α} {k : α → State → Eff β} (hf : CfgFree f)
    (hk : ∀ a, CfgFree (k a)) : CfgFree fun s => (f s).bind k := by
  intro s c b
  simp only [hf s c b]
  cases f s with
  | ok a t => exact hk a t c b
  | raised e t => rfl
  | stuck x => rfl

/-- Go on after a change of the state that commutes with a change of CFG. -/
theorem CfgFree.after {α : Type} {f : State → Eff α} {g : State → State} (hf : CfgFree f)
    (h : ∀ (s : State) (c : Option Cfg) (b : Bool), g (s.reCfg c b) = (g s).reCfg c b) : CfgFree fun s => f (g s) := by
  intro s c b
  simp only [h s c b]
  exact hf (g s) c b

theorem CfgFree.ite {α : Type} {p : Prop} [Decidable p] {f g : State → Eff α} (hf : CfgFree f) (hg : CfgFree g) :
    CfgFree fun s => if p then f s else g s := by
  by_cases hp : p
  · simpa only [if_pos hp] using hf
  · simpa only [if_neg hp] using hg

theorem CfgFree.readUnits {α : Type} {k : State → Units → Eff α} (h : ∀ u, CfgFree fun s => k s u) :
    CfgFree fun s => readUnits s (k s) := by
  intro s c b
  cases hu : s.units with
  | none => simp only [readUnits_none hu, readUnits_none ((s.reCfg_units c b).trans hu)]; rfl
  | some u => simp only [readUnits_some hu, readUnits_some ((s.reCfg_units c b).trans hu)]; exact h u s c b

theorem CfgFree.readLd {α : Type} {k : State → LzwDict → Eff α} (h : ∀ d, CfgFree fun s => k s d) :
    CfgFree fun s => readLd s (k s) :=
  .readUnits fun u => by
    cases u.ld with
    | none => exact .raised _
    | some d => exact h d

theorem CfgFree.readLe {α : Type} {k : State → LzwEnc → Eff α} (h : ∀ e, CfgFree fun s => k s e) :
    CfgFree fun s => readLe s (k s) :=
  .readUnits fun u => by
    cases u.le with
    | none => exact .raised _
    | some e => exact h e

theorem CfgFree.readLx {α : Type} {k : State → LzwDec → Eff α} (h : ∀ x, CfgFree fun s => k s x) :
    CfgFree fun s => readLx s (k s) :=
  .readUnits fun u => by
    cases u.lx with
    | none => exact .raised _
    | some x => exact h x

theorem CfgFree.forEach {α : Type} {f : α → State → Eff Unit} (hf : ∀ a, CfgFree (f a)) (as : List α) :
    CfgFree (forEach f as) := by
  induction as with
  | nil => exact .same ()
  | cons a as ih => exact .bind (hf a) fun _ => ih

/-- A loop over the input. -/
theorem CfgFree.overInput {α : Type} {f : Bytes → State → Eff α} (hf : ∀ x, CfgFree (f x)) :
    CfgFree fun s => f s.input s := fun s c b => hf s.input s c b

theorem CfgFree.noResult {body : State → Eff Unit} (h : CfgFree body) : CfgFree (noResult body) :=
  .bind h fun _ => .ok () fun _ _ _ => rfl

theorem CfgFree.withResult {α : Type} {f : α → Result} {body : State → Eff α} (h : CfgFree body) :
    CfgFree (withResult f body) := .bind h fun _ => .ok () fun _ _ _ => rfl

/-! ### The streams -/

theorem cfgFree_writeBits (n v : Nat) : CfgFree (writeBits n v) :=
  .ite (.raised _) (.readUnits fun _ => .ok () fun _ _ _ => rfl)

theorem cfgFree_flush : CfgFree flush :=
  .readUnits fun _ => .ite (.ok () fun _ _ _ => rfl) (.same ())

theorem cfgFree_readBits (n : Nat) : CfgFree (readBits n) := by
  refine .ite (.raised _) (.readUnits fun u s c b => ?_)
  have hleft : bitsLeft (s.reCfg c b) u = bitsLeft s u := rfl
  simp only [hleft]
  by_cases h : bitsLeft s u < n
  · simp only [if_pos h]; rfl
  · simp only [if_neg h]; rfl

theorem cfgFree_readOrEnd (n : Nat) : CfgFree (readOrEnd n) :=
  .bind (cfgFree_readBits n) fun r => by
    cases r with
    | none => exact .raised _
    | some v => exact .same v

theorem cfgFree_writeMagic (m : BitVec 32) : CfgFree (writeMagic m) := .forEach (fun _ => cfgFree_writeBits _ _) _

theorem cfgFree_readMagic : CfgFree readMagic :=
  .bind (cfgFree_readOrEnd 8) fun _ => .bind (cfgFree_readOrEnd 8) fun _ => .bind (cfgFree_readOrEnd 8) fun _ =>
    .bind (cfgFree_readOrEnd 8) fun _ => .same _

/-! ### FrequencyTable, heap and tree -/

theorem cfgFree_ftClear : CfgFree ftClear := .mapUnits () _
theorem cfgFree_ftCount (b : Byte) : CfgFree (ftCount b) := .readUnits fun _ => .withUnits () _
theorem cfgFree_heapPush (i : Nat) : CfgFree (heapPush i) :=
  .readUnits fun _ => .ite (.raised _) (.withUnits () _)

theorem cfgFree_heapPop : CfgFree heapPop :=
  .readUnits fun u => .ite (.raised _) (by
    cases leastItem u.ht.node u.hp.items with
    | none => exact .stuck _
    | some k => exact .withUnits _ _)

theorem cfgFree_allocNode (nd : Node) : CfgFree (allocNode nd) := .readUnits fun _ => .withUnits _ _

theorem cfgFree_nodeWeight (a : Nat) : CfgFree (nodeWeight a) :=
  .readUnits fun u => by
    cases u.ht.node[a]? with
    | none => exact .stuck _
    | some nd => exact .same _

theorem cfgFree_buildLeaf (e : Byte × Nat) : CfgFree (buildLeaf e) :=
  .ite (.bind (cfgFree_allocNode _) fun i => (cfgFree_heapPush i).after fun _ _ _ => rfl) (.same ())

theorem cfgFree_mergeTwo : CfgFree mergeTwo :=
  .bind cfgFree_heapPop fun a => .bind cfgFree_heapPop fun b => .bind (cfgFree_nodeWeight a) fun _ =>
    .bind (cfgFree_nodeWeight b) fun _ => .bind (cfgFree_allocNode _) fun i =>
      (cfgFree_heapPush i).after fun _ _ _ => rfl

theorem cfgFree_mergeAll (k : Nat) : CfgFree (mergeAll k) := by
  induction k with
  | zero => exact .readUnits fun _ => .ite (.stuck _) (.same ())
  | succ k ih => exact .readUnits fun _ => .ite (.bind cfgFree_mergeTwo fun _ => ih) (.same ())

theorem cfgFree_takeRoot : CfgFree takeRoot :=
  .readUnits fun _ => .ite (.bind cfgFree_heapPop fun _ => .mapUnits () _) (.same ())

theorem cfgFree_htBuild : CfgFree htBuild :=
  .readUnits fun _ => .bind ((CfgFree.forEach cfgFree_buildLeaf _).after fun _ _ _ => rfl) fun _ =>
    .readUnits fun _ => .bind (cfgFree_mergeAll _) fun _ => cfgFree_takeRoot

theorem cfgFree_findCode (b : Byte) : CfgFree (findCode b) :=
  .readUnits fun u => by
    cases u.ht.leafOf b with
    | none => exact .raised _
    | some i => cases hc : climb u.ht u.ht.n i [] with
      | error f => simp only [hc]; exact .stuck f
      | ok code => simp only [hc]; exact .same code

/-! ### Huffman codec -/

theorem cfgFree_hufEncSym (b : Byte) : CfgFree (hufEncSym b) :=
  .bind (cfgFree_findCode b) fun code => .forEach (fun _ => cfgFree_writeBits _ _) code

theorem cfgFree_checkCounts : CfgFree checkCounts := .readUnits fun _ => .ite (.raised _) (.same ())
theorem cfgFree_writeCounts : CfgFree writeCounts :=
  .readUnits fun _ => .forEach (fun _ => cfgFree_writeBits _ _) _

theorem cfgFree_hufCompress : CfgFree hufCompress :=
  .bind cfgFree_ftClear fun _ => .bind (.overInput fun x => .forEach cfgFree_ftCount x) fun _ =>
    .bind cfgFree_checkCounts fun _ => .bind cfgFree_htBuild fun _ => .bind (cfgFree_writeMagic _) fun _ =>
      .bind cfgFree_writeCounts fun _ => .bind (.overInput fun x => .forEach cfgFree_hufEncSym x) fun _ => cfgFree_flush

theorem cfgFree_descend (k n : Nat) : CfgFree (descend k n) := by
  induction k generalizing n with
  | zero => exact .stuck _
  | succ k ih =>
    refine .readUnits fun u => ?_
    rcases u.ht.node[n]? with - | ⟨sym | ⟨left, right⟩, -, -⟩
    · exact .stuck _
    · exact .same sym
    · exact .bind (cfgFree_readOrEnd 1) fun t => ih (if t = 0 then left else right)

theorem cfgFree_hufDecSym : CfgFree hufDecSym :=
  .readUnits fun u => by
    cases u.ht.root with
    | none => exact .raised _
    | some root =>
      exact .bind (fun s c b => cfgFree_descend (bitsLeft s u + 1) root s c b) fun sym => .ok sym fun _ _ _ => rfl

theorem cfgFree_readCount (b : Byte) : CfgFree (readCount b) :=
  .bind (cfgFree_readOrEnd _) fun _ => .mapUnits () _

theorem cfgFree_decodeSymbols (k : Nat) : CfgFree (decodeSymbols k) := by
  induction k with
  | zero => exact .same ()
  | succ k ih => exact .bind cfgFree_hufDecSym fun _ => ih

theorem cfgFree_hufDecompress : CfgFree hufDecompress := by
  refine .bind (.forEach cfgFree_readCount _) fun _ => .readUnits fun u => ?_
  cases u.ft.onlySymbol with
  | some b => exact .ok () fun _ _ _ => rfl
  | none => exact .bind (cfgFree_htBuild.after fun _ _ _ => rfl) fun _ => cfgFree_decodeSymbols _

/-! ### LZW dictionary and encoder -/

theorem cfgFree_ldInit (W : Nat) : CfgFree (ldInit W) := .ite (.raised _) (.mapUnits () _)
theorem cfgFree_ldHasnext (c : Cursor) (b : Byte) : CfgFree (ldHasnext c b) :=
  .readLd fun _ => .ite (.raised _) (.same _)

theorem cfgFree_ldGetcode (c : Cursor) : CfgFree (ldGetcode c) :=
  .readLd fun d => by
    cases entryCode d c with
    | none => exact .raised _
    | some c => exact .same c

theorem cfgFree_ldAdd (c : Cursor) (b : Byte) : CfgFree (ldAdd c b) :=
  .readLd fun d => by
    cases entryCode d c with
    | none => exact .raised _
    | some c => exact .ite (.raised _) (.ite (.same ()) (.mapUnits () _))

theorem cfgFree_ldReset : CfgFree ldReset := .mapUnits () _

theorem cfgFree_lzcInit (W : BitVec 5) (p : BitVec 7) (m : BitVec 32) : CfgFree (lzcInit W p m) :=
  .ite (.raised _) (.bind (cfgFree_ldInit _) fun _ => .ok () fun _ _ _ => rfl)

theorem cfgFree_growAndWrite (c k : Nat) : CfgFree (growAndWrite c k) := by
  induction k with
  | zero => exact .stuck _
  | succ k ih =>
    exact .readLe fun _ => .ite (.bind (cfgFree_writeBits _ _) fun _ => ih.after fun _ _ _ => rfl)
      (cfgFree_writeBits _ _)

theorem cfgFree_lzcEmit (c : Cursor) : CfgFree (lzcEmit c) :=
  .readLd fun d => by
    cases entryCode d c with
    | none => exact .raised _
    | some c => exact cfgFree_growAndWrite c _

theorem cfgFree_lzcReset (b : Byte) : CfgFree (lzcReset b) :=
  .readLe fun _ => .bind (cfgFree_writeBits _ _) fun _ => .bind cfgFree_ldReset fun _ => .ok () fun _ _ _ => rfl

theorem cfgFree_lzcRestart (b : Byte) : CfgFree (lzcRestart b) :=
  .readLe fun _ => .readLd fun _ =>
    .ite (.ite ((cfgFree_lzcReset b).after fun _ _ _ => rfl) (.mapUnits () _)) (.mapUnits () _)

theorem cfgFree_lzcMiss (c : Cursor) (b : Byte) : CfgFree (lzcMiss c b) :=
  .bind (cfgFree_ldGetcode c) fun _ => .bind (cfgFree_lzcEmit _) fun _ =>
    .readLd fun _ => .ite (.same ()) (cfgFree_ldAdd c b)

theorem cfgFree_lzcByte (b : Byte) : CfgFree (lzcByte b) :=
  .readLe fun e => .bind (cfgFree_ldHasnext _ b) fun _ => .readLd fun d => by
    cases d.childOf e.cur b with
    | some c => exact .ok () fun _ _ _ => rfl
    | none => exact .bind (cfgFree_lzcMiss _ b) fun _ => cfgFree_lzcRestart b

theorem cfgFree_lzcFinish : CfgFree lzcFinish :=
  .readLe fun e => by
    cases e.cur with
    | root => exact .same ()
    | code c => exact cfgFree_lzcEmit _

/-- LZW_COMPRESS on a given configuration; only the reading of CFG before it is not free of CFG. -/
theorem cfgFree_lzwCompressWith (cfg : Cfg) : CfgFree (lzwCompressWith cfg) :=
  .bind (cfgFree_lzcInit _ _ _) fun _ => .bind (cfgFree_writeMagic _) fun _ => .bind (cfgFree_writeBits _ _) fun _ =>
    .bind (.overInput fun x => .forEach cfgFree_lzcByte x) fun _ => .bind cfgFree_lzcFinish fun _ => cfgFree_flush

/-! ### LZW decoder and DECOMPRESS -/

theorem cfgFree_lzdInit : CfgFree lzdInit :=
  .bind (cfgFree_readOrEnd _) fun W => .ite (.raised _) (.mapUnits W _)

theorem cfgFree_lzdOutput (x : LzwDec) (dec toDict : Bytes) : CfgFree fun s => .ok () (lzdOutput x dec toDict s) :=
  .ok () fun _ _ _ => rfl

theorem cfgFree_actGrow (x : LzwDec) : CfgFree (actGrow x) := .ite (.raised _) (.mapUnits () _)

theorem cfgFree_actReference (c : Nat) (x : LzwDec) : CfgFree (actReference c x) := by
  unfold actReference
  cases tableAt c x.table with
  | some dec => exact cfgFree_lzdOutput x _ _
  | none => cases x.last with
    | nil => exact .raised _
    | cons b rest => exact cfgFree_lzdOutput x _ _

theorem cfgFree_actOn (k : CodeWord) : CfgFree (actOn k) := by
  cases k with
  | grow => exact .readLx fun x => (cfgFree_actGrow x).after fun _ _ _ => rfl
  | reset => exact .readLx fun x => .ok () fun _ _ _ => rfl
  | literal b => exact .readLx fun x => .ok () fun _ _ _ => rfl
  | reference c => exact .readLx fun x => (cfgFree_actReference c x).after fun _ _ _ => rfl

theorem cfgFree_lzdCode : CfgFree lzdCode :=
  .readLx fun x => .ite (.ok () fun _ _ _ => rfl) (.bind (cfgFree_readBits _) fun r => by
    cases r with
    | none => exact .ok () fun _ _ _ => rfl
    | some v => exact cfgFree_actOn _)

theorem cfgFree_decodeCodes (k : Nat) : CfgFree (decodeCodes k) := by
  induction k with
  | zero => exact .readLx fun _ => .ite (.same ()) (.stuck _)
  | succ k ih => exact .readLx fun _ => .ite (.same ()) (.bind cfgFree_lzdCode fun _ => ih)

theorem cfgFree_lzwDecompress : CfgFree lzwDecompress :=
  .bind cfgFree_lzdInit fun _ => .readUnits fun u s c b => cfgFree_decodeCodes (bitsLeft s u + 1) s c b

theorem cfgFree_decompress : CfgFree decompress :=
  .bind cfgFree_readMagic fun m => by
    cases classifyMagic m with
    | none => exact .raised _
    | some k => cases k with
      | huffman => exact cfgFree_hufDecompress
      | lzw => exact cfgFree_lzwDecompress

/-! ### What follows for an instruction -/

/-- An effect whose states, also the one of a raise, satisfy `P`. -/
def Eff.EndsIn {α : Type} (P : State → Prop) : Eff α → Prop
  | .ok _ t => P t
  | .raised _ t => P t
  | .stuck _ => True

theorem Eff.EndsIn.mono {α : Type} {P Q : State → Prop} {r : Eff α} (h : r.EndsIn P) (hPQ : ∀ t, P t → Q t) :
    r.EndsIn Q := by
  cases r with
  | ok a t => exact hPQ t h
  | raised e t => exact hPQ t h
  | stuck f => trivial

theorem Eff.EndsIn.bind {α β : Type} {P : State → Prop} {r : Eff α} {k : α → State → Eff β} (h : r.EndsIn P)
    (hk : ∀ a t, P t → (k a t).EndsIn P) : (r.bind k).EndsIn P := by
  cases r with
  | ok a t => exact hk a t h
  | raised e t => exact h
  | stuck f => trivial

/-- `t` has the CFG of `s`. -/
def SameCfg (s t : State) : Prop := t.cfg = s.cfg ∧ t.cfgReady = s.cfgReady

/-- What commutes with every change of CFG does not write it. -/
theorem CfgFree.sameCfg {α : Type} {f : State → Eff α} (hf : CfgFree f) (s : State) : (f s).EndsIn (SameCfg s) := by
  have h := hf s s.cfg s.cfgReady
  rw [State.reCfg_self] at h
  rw [h]
  cases f s with
  | ok a t => exact ⟨rfl, rfl⟩
  | raised e t => exact ⟨rfl, rfl⟩
  | stuck x => trivial

theorem sameCfg_lzwCompress (s : State) : (noResult lzwCompress s).EndsIn (SameCfg s) := by
  unfold noResult lzwCompress readCfg
  split
  · exact (CfgFree.noResult (cfgFree_lzwCompressWith _)).sameCfg s
  · exact ⟨rfl, rfl⟩
  · exact ⟨rfl, rfl⟩

/-- R25: no instruction but COMPRESS writes CFG, even where it raises. -/
theorem sameCfg_instrBody {i : Instr} (hi : ∀ a W p m, i ≠ .compress a W p m) (s : State) :
    (instrBody i s).EndsIn (SameCfg s) := by
  cases i with
  | compress a W p m => exact absurd rfl (hi a W p m)
  | decompress => exact cfgFree_decompress.noResult.sameCfg s
  | bwWrite n v => exact (cfgFree_writeBits _ _).noResult.sameCfg s
  | bwFlush => exact cfgFree_flush.noResult.sameCfg s
  | brRead n => exact (cfgFree_readBits _).withResult.sameCfg s
  | ftClear => exact cfgFree_ftClear.noResult.sameCfg s
  | ftCount b => exact (cfgFree_ftCount b).noResult.sameCfg s
  | hpPush n => exact (cfgFree_heapPush _).noResult.sameCfg s
  | hpPop => exact cfgFree_heapPop.withResult.sameCfg s
  | htBuild => exact cfgFree_htBuild.noResult.sameCfg s
  | htFindcode b => exact (cfgFree_findCode b).withResult.sameCfg s
  | hufEncSym b => exact (cfgFree_hufEncSym b).noResult.sameCfg s
  | hufDecSym => exact cfgFree_hufDecSym.withResult.sameCfg s
  | hufCompress => exact cfgFree_hufCompress.noResult.sameCfg s
  | hufDecompress => exact cfgFree_hufDecompress.noResult.sameCfg s
  | ldInit W => exact (cfgFree_ldInit _).noResult.sameCfg s
  | ldHasnext c b => exact (cfgFree_ldHasnext c b).withResult.sameCfg s
  | ldGetcode c => exact (cfgFree_ldGetcode c).withResult.sameCfg s
  | ldAdd c b => exact (cfgFree_ldAdd c b).noResult.sameCfg s
  | ldReset => exact cfgFree_ldReset.noResult.sameCfg s
  | lzcInit W p m => exact (cfgFree_lzcInit W p m).noResult.sameCfg s
  | lzcEmit c => exact (cfgFree_lzcEmit c).noResult.sameCfg s
  | lzcByte b => exact (cfgFree_lzcByte b).noResult.sameCfg s
  | lzcFinish => exact cfgFree_lzcFinish.noResult.sameCfg s
  | lzwCompress => exact sameCfg_lzwCompress s
  | lzdInit => exact cfgFree_lzdInit.withResult.sameCfg s
  | lzdCode => exact cfgFree_lzdCode.sameCfg s
  | lzwDecompress => exact cfgFree_lzwDecompress.noResult.sameCfg s
  | lzwGrow => exact (cfgFree_actOn .grow).sameCfg s
  | lzwReset => exact (cfgFree_actOn .reset).sameCfg s
  | lzwLiteral b => exact (cfgFree_actOn (.literal b)).sameCfg s
  | lzwReference c => exact (cfgFree_actOn (.reference c)).sameCfg s
  | huffFile => exact cfgFree_hufDecompress.noResult.sameCfg s
  | lzwFile => exact cfgFree_lzwDecompress.noResult.sameCfg s

theorem raise_reCfg (e : ErrKind) (start s : State) (c : Option Cfg) (b : Bool) :
    raise e (start.reCfg c b) (s.reCfg c b) = (raise e start s).reCfg c b := by
  unfold raise
  by_cases h : s.out.length = start.out.length
  · rw [if_pos h, if_pos (show (s.reCfg c b).out.length = (start.reCfg c b).out.length from h)]; rfl
  · rw [if_neg h, if_neg (show ¬(s.reCfg c b).out.length = (start.reCfg c b).out.length from h)]; rfl

/-- Nothing at the end of a command reads or writes CFG. -/
theorem finish_reCfg {start t : State} {r : Eff Unit} (h : finish start r = .next t) (c : Option Cfg) (b : Bool) :
    finish (start.reCfg c b) (r.mapState fun s => s.reCfg c b) = .next (t.reCfg c b) := by
  rcases finish_eq_next h with ⟨x, rfl, rfl⟩ | ⟨e, x, rfl, rfl⟩
  · rfl
  · exact congrArg Host.Outcome.next (raise_reCfg e start x c b)

/-- Settles O15: a body is quiet, and no body but that of COMPRESS writes CFG. -/
theorem commandsKeepInputAndAppendOutput : Obligations.CommandsKeepInputAndAppendOutput := by
  unfold Obligations.CommandsKeepInputAndAppendOutput
  intro i s t h
  rcases exec_eq_next h with ⟨-, rfl⟩ | ⟨-, ⟨x, hx, rfl⟩ | ⟨e, x, hx, rfl⟩⟩
  · exact ⟨rfl, rfl, fun _ => ⟨rfl, rfl⟩, fun _ _ => List.prefix_refl _⟩
  · have hq := quiet_of_instrBody_ok hx
    refine ⟨by simpa using hq.input, by simpa using hq.host, fun hi => ?_, fun hu _ => ?_⟩
    · have hc := sameCfg_instrBody hi (instrStart i s)
      rw [hx] at hc
      simpa [Eff.EndsIn, SameCfg] using hc
    · have ho := hq.out
      rwa [instrStart_unit hu] at ho
  · obtain ⟨hq, -⟩ := quiet_of_instrBody_raised hx
    refine ⟨by simpa using hq.input, by simpa using hq.host, fun hi => ?_, fun _ hne => absurd (by simp) hne⟩
    have hc := sameCfg_instrBody hi (instrStart i s)
    rw [hx] at hc
    simpa [Eff.EndsIn, SameCfg] using hc

/-- START sets everything but IN, CFG, the host's actions and the draw counter (R110). -/
theorem startHost_congr {s r : State} (hinput : s.input = r.input) (hcfg : s.cfg = r.cfg)
    (hready : s.cfgReady = r.cfgReady) (hhost : s.host = r.host) (hdraws : s.draws = r.draws) :
    startHost s = startHost r := by
  obtain ⟨stat, res, cfg, ready, input, out, units, host, draws⟩ := s
  simp only at hinput hcfg hready hhost hdraws
  subst hinput hcfg hready hhost hdraws
  rfl

/-- Settles O19: a host command runs from START's state, and the body of DECOMPRESS commutes with every change of CFG. -/
theorem hostCommandsForgetOldUnits : Obligations.HostCommandsForgetOldUnits := by
  unfold Obligations.HostCommandsForgetOldUnits
  refine ⟨fun s r hs hr hinput hcfg hready hhost hdraws i hi => ?_, fun s t c b hs h => ?_⟩
  · rw [exec_ready hs, exec_ready hr, instrStart_host hi, instrStart_host hi,
      startHost_congr hinput hcfg hready hhost hdraws]
  · have hbody := cfgFree_decompress.noResult (startHost s) c b
    rw [exec_ready hs] at h
    change exec .decompress (s.reCfg c b) = _
    rw [exec_ready (s := s.reCfg c b) hs]
    change finish (startHost (s.reCfg c b)) (noResult decompress (startHost (s.reCfg c b))) = _
    rw [startHost_reCfg, hbody]
    exact finish_reCfg h c b

/-! ### COMPRESS after a symbol has overflowed its count (R85, R111, log entry 17) -/

@[simp] theorem FreqTable.get_set_same (t : FreqTable) (b : Byte) (n : Nat) : (t.set b n).get b = n := by
  simp [FreqTable.get, FreqTable.set]

@[simp] theorem FreqTable.get_set_ne (t : FreqTable) {b c : Byte} (h : c ≠ b) (n : Nat) :
    (t.set b n).get c = t.get c := by
  have hne : b.toNat ≠ c.toNat := fun he => h (BitVec.eq_of_toNat_eq he).symm
  simp [FreqTable.get, FreqTable.set, Vector.getElem_set_ne, hne]

@[simp] theorem FreqTable.get_zero (b : Byte) : FreqTable.zero.get b = 0 := by simp [FreqTable.get, FreqTable.zero]

theorem FreqTable.get_mem_counts (t : FreqTable) (b : Byte) : t.get b ∈ t.counts := by
  simp [FreqTable.get, FreqTable.counts]

/-- Counting every byte of a sequence adds its number of occurrences to each symbol (R74), and changes nothing else. -/
theorem forEach_ftCount (xs : Bytes) {s : State} {u : Units} (hu : s.units = some u) :
    ∃ ft : FreqTable, (∀ c, ft.get c = u.ft.get c + xs.count c) ∧
      forEach ftCount xs s = .ok () (s.withUnits (some { u with ft := ft })) := by
  induction xs generalizing s u with
  | nil =>
    refine ⟨u.ft, fun c => by simp, ?_⟩
    have hsame : s.withUnits (some u) = s := by rw [← hu]; rfl
    exact congrArg (Eff.ok ()) hsame.symm
  | cons b xs ih =>
    have hone : ftCount b s = .ok () (s.withUnits (some { u with ft := u.ft.set b (u.ft.get b + 1) })) := readUnits_some hu _
    obtain ⟨ft, hcount, hrun⟩ := ih (s := s.withUnits (some { u with ft := u.ft.set b (u.ft.get b + 1) })) rfl
    refine ⟨ft, fun c => ?_, by rw [forEach_cons, hone, Eff.bind_ok, hrun]; rfl⟩
    rw [hcount c]
    by_cases hc : c = b
    · subst hc
      simp only [FreqTable.get_set_same, List.count_cons_self]
      omega
    · simp only [FreqTable.get_set_ne _ hc, List.count_cons_of_ne (Ne.symm hc)]

/-- R85: a symbol that occurs 2^32 times or more does not fit its count field. -/
theorem checkCounts_overflow {s : State} {u : Units} {b : Byte} (hu : s.units = some u) (hb : 2 ^ 32 ≤ u.ft.get b) :
    checkCounts s = .raised .countOverflow s := by
  unfold checkCounts
  rw [readUnits_some hu, if_pos]
  refine List.any_eq_true.2 ⟨u.ft.get b, u.ft.get_mem_counts b, ?_⟩
  simp only [Config.countBits, gt_iff_lt, decide_eq_true_eq]
  omega

/-- HUF_COMPRESS raises before it writes anything, with only the units changed (R85). -/
theorem hufCompress_overflow {s : State} {u : Units} {b : Byte} (hu : s.units = some u)
    (hb : 2 ^ 32 ≤ s.input.count b) :
    ∃ v, hufCompress s = .raised .countOverflow (s.withUnits (some v)) := by
  have hclear : ftClear s = .ok () (s.withUnits (some { u with ft := FreqTable.zero })) := by
    simp [ftClear, State.mapUnits, hu]
  obtain ⟨ft, hcount, hrun⟩ :=
    forEach_ftCount s.input (s := s.withUnits (some { u with ft := FreqTable.zero })) rfl
  refine ⟨{ u with ft := ft }, ?_⟩
  have hover : 2 ^ 32 ≤ ft.get b := by rw [hcount b, FreqTable.get_zero]; omega
  unfold hufCompress
  rw [hclear, Eff.bind_ok, State.withUnits_input, hrun, Eff.bind_ok,
    checkCounts_overflow (s := (s.withUnits (some { u with ft := FreqTable.zero })).withUnits _) (b := b) rfl hover]
  rfl

theorem legalMaxWidth_iff (W : Nat) : legalMaxWidth W = true ↔ 9 ≤ W := by simp [legalMaxWidth]
theorem legalPct_iff (p : BitVec 7) : legalPct p = true ↔ p.toNat ≤ 100 := by simp [legalPct]

/-- A COMPRESS that raises `CountOverflow` has stored its configuration and changed nothing else but units (R111). -/
theorem compress_overflow {s : State} {u : Units} {W : BitVec 5} {p : BitVec 7} (m : BitVec 32) {b : Byte}
    (hu : s.units = some u) (hW : 9 ≤ W.toNat) (hp : p.toNat ≤ 100) (hb : 2 ^ 32 ≤ s.input.count b) :
    ∃ v, compress .huffman W p m s =
      .raised .countOverflow ((s.withCfg (some { algo := .huffman, maxw := W, pct := p, mins := m })).withUnits v) := by
  obtain ⟨v, hv⟩ := hufCompress_overflow (s := s.withCfg (some { algo := .huffman, maxw := W, pct := p, mins := m })) hu hb
  refine ⟨some v, ?_⟩
  unfold compress
  rw [if_neg (by simp [(legalMaxWidth_iff _).2 hW, (legalPct_iff _).2 hp])]
  simp only [hv, Eff.bind_raised]

theorem exec_compress_overflow {s : State} {W : BitVec 5} {p : BitVec 7} (m : BitVec 32) {b : Byte}
    (hready : s.stat.phase ≠ .busy) (hW : 9 ≤ W.toNat) (hp : p.toNat ≤ 100) (hb : 2 ^ 32 ≤ s.input.count b) :
    ∃ v, exec (.compress .huffman W p m) s = .next (raise .countOverflow (startHost s)
      (((startHost s).withCfg (some { algo := .huffman, maxw := W, pct := p, mins := m })).withUnits v)) := by
  obtain ⟨v, hv⟩ := compress_overflow (s := startHost s) m rfl hW hp hb
  refine ⟨v, ?_⟩
  rw [exec_ready hready, instrStart_host rfl]
  simp only [instrBody, noResult, hv, Eff.bind_raised]
  rfl

theorem lzwCompress_undefinedCfg {r : State} (hready : r.stat.phase ≠ .busy) (hcfg : r.cfgReady = false) :
    exec .lzwCompress r = .next (raisedClean r .badOperand) := by
  rw [exec_ready hready]
  have hbody : instrBody .lzwCompress (startUnit r) = .raised .badOperand (startUnit r) := by
    simp only [instrBody, noResult, lzwCompress, readCfg_undefined (s := startUnit r) (.inl hcfg), Eff.bind_raised]
  rw [instrStart_unit rfl, hbody]
  exact congrArg Host.Outcome.next (raise_clean _ _ _ rfl)

/-- Settles O57: COMPRESS stores its configuration before the counts are checked, and the raise keeps what is stored. -/
theorem overflowingCompressDefinesNoCfg : Obligations.OverflowingCompressDefinesNoCfg := by
  unfold Obligations.OverflowingCompressDefinesNoCfg
  intro s W p m b hready hW hp hb
  obtain ⟨v, hrun⟩ := exec_compress_overflow m hready hW hp hb
  refine ⟨_, hrun, by simp, by simp, by simp, fun hcfg r hr hrcfg => lzwCompress_undefinedCfg hr ?_⟩
  simpa [hcfg] using hrcfg

end Sys2Proof.Machine
end

section

/-! ## The invariant through the parts of a command (R26, R30, R33, R34, R36 to R38, R81, R95)

`Sound` is the part of the invariant that a command body has to keep: the units, while they are defined. `Eff.Ensures` is
partial correctness, for after a raise the units are undefined and nothing is left to keep. -/

namespace Sys2Proof.Machine

/-! ### Partial correctness -/

/-- Where the effect completes, its value and its state satisfy `Q`. -/
def Eff.Ensures {α : Type} (r : Eff α) (Q : α → State → Prop) : Prop :=
  match r with
  | .ok a t => Q a t
  | .raised _ _ => True
  | .stuck _ => True

theorem Eff.Ensures.mono {α : Type} {r : Eff α} {P Q : α → State → Prop} (h : r.Ensures P)
    (hPQ : ∀ a t, P a t → Q a t) : r.Ensures Q := by
  cases r with
  | ok a t => exact hPQ a t h
  | raised e t => trivial
  | stuck f => trivial

theorem Eff.Ensures.bind {α β : Type} {r : Eff α} {k : α → State → Eff β} {P : α → State → Prop}
    {Q : β → State → Prop} (h : r.Ensures P) (hk : ∀ a t, P a t → (k a t).Ensures Q) : (r.bind k).Ensures Q := by
  cases r with
  | ok a t => exact hk a t h
  | raised e t => trivial
  | stuck f => trivial

theorem ensures_readUnits {α : Type} {s : State} {k : Units → Eff α} {Q : α → State → Prop}
    (h : ∀ u, s.units = some u → (k u).Ensures Q) : (readUnits s k).Ensures Q := by
  rcases readUnits_cases s k with ⟨-, e⟩ | ⟨u, hu, e⟩ <;> rw [e]
  · trivial
  · exact h u hu

theorem ensures_readLd {α : Type} {s : State} {k : LzwDict → Eff α} {Q : α → State → Prop}
    (h : ∀ u d, s.units = some u → u.ld = some d → (k d).Ensures Q) : (readLd s k).Ensures Q := by
  rcases readLd_cases s k with e | ⟨u, d, hu, hd, e⟩ <;> rw [e]
  · trivial
  · exact h u d hu hd

theorem ensures_readLe {α : Type} {s : State} {k : LzwEnc → Eff α} {Q : α → State → Prop}
    (h : ∀ u e, s.units = some u → u.le = some e → (k e).Ensures Q) : (readLe s k).Ensures Q := by
  rcases readLe_cases s k with e | ⟨u, x, hu, hx, e⟩ <;> rw [e]
  · trivial
  · exact h u x hu hx

theorem ensures_readLx {α : Type} {s : State} {k : LzwDec → Eff α} {Q : α → State → Prop}
    (h : ∀ u x, s.units = some u → u.lx = some x → (k x).Ensures Q) : (readLx s k).Ensures Q := by
  rcases readLx_cases s k with e | ⟨u, x, hu, hx, e⟩ <;> rw [e]
  · trivial
  · exact h u x hu hx

theorem ensures_forEach {α : Type} {f : α → State → Eff Unit} {P : State → Prop}
    (hf : ∀ a s, P s → (f a s).Ensures fun _ t => P t) (as : List α) {s : State} (hs : P s) :
    (forEach f as s).Ensures fun _ t => P t := by
  induction as generalizing s with
  | nil => exact hs
  | cons a as ih => exact Eff.Ensures.bind (hf a s hs) fun _ t ht => ih ht

/-! ### Sound units -/

/-- The units, while they are defined, meet their invariant. -/
def Sound (s : State) : Prop := ∀ u, s.units = some u → u.Inv s.stat

/-- Of the status registers only the two counters matter to the units (R26). -/
theorem Units.Inv.of_counters {u : Units} {st st' : Stat} (h : u.Inv st) (ht : st'.total = st.total)
    (hr : st'.resets = st.resets) : u.Inv st' where
  bw := h.bw
  total := h.total.trans ht.symm
  ht := h.ht
  hp := h.hp
  ld := h.ld
  le := fun e he => ⟨(h.le e he).1, (h.le e he).2.1.trans hr.symm, (h.le e he).2.2⟩
  lx := h.lx

/-- The reader, the frequency table and the Huffman decoder's counters are free. -/
theorem Units.Inv.free {u : Units} {st : Stat} (h : u.Inv st) (br : BitReader) (ft : FreqTable) (hd : HuffDec) :
    ({ u with br := br, ft := ft, hd := hd } : Units).Inv st :=
  ⟨h.bw, h.total, h.ht, h.hp, h.ld, h.le, h.lx⟩

theorem Units.Inv.setHp {u : Units} {st : Stat} (h : u.Inv st) {hp : Heap} (hh : hp.Inv u.ht) :
    ({ u with hp := hp } : Units).Inv st := ⟨h.bw, h.total, h.ht, hh, h.ld, h.le, h.lx⟩

theorem Units.Inv.setLd {u : Units} {st : Stat} (h : u.Inv st) {d : LzwDict} (hd : d.Inv) :
    ({ u with ld := some d } : Units).Inv st where
  bw := h.bw
  total := h.total
  ht := h.ht
  hp := h.hp
  ld := fun _ hx => Option.some.inj hx ▸ hd
  le := fun e he => ⟨(h.le e he).1, (h.le e he).2.1, rfl⟩
  lx := h.lx

theorem Units.Inv.setLe {u : Units} {st : Stat} (h : u.Inv st) {e : LzwEnc} (he : e.Inv)
    (hld : u.ld.isSome) : ({ u with le := some e } : Units).Inv { st with resets := e.resets } where
  bw := h.bw
  total := h.total
  ht := h.ht
  hp := h.hp
  ld := h.ld
  le := fun _ hx => Option.some.inj hx ▸ ⟨he, rfl, hld⟩
  lx := h.lx

theorem Units.Inv.setLx {u : Units} {st : Stat} (h : u.Inv st) {x : LzwDec} (hx : x.Inv) :
    ({ u with lx := some x } : Units).Inv st where
  bw := h.bw
  total := h.total
  ht := h.ht
  hp := h.hp
  ld := h.ld
  le := h.le
  lx := fun _ hy => Option.some.inj hy ▸ hx

theorem sound_withUnits {s : State} {u : Units} (h : u.Inv s.stat) : Sound (s.withUnits (some u)) :=
  fun _ hv => Option.some.inj hv ▸ h

theorem Sound.mapUnits {s : State} (h : Sound s) {f : Units → Units}
    (hf : ∀ u, s.units = some u → u.Inv s.stat → (f u).Inv s.stat) : Sound (s.mapUnits f) := by
  intro v hv
  obtain ⟨u, hu, rfl⟩ := Option.map_eq_some_iff.1 hv
  exact hf u hu (h u hu)

theorem Sound.setLd {s : State} (h : Sound s) {d : LzwDict} (hd : d.Inv) : Sound (setLd s d) :=
  h.mapUnits fun _ _ hu => hu.setLd hd

theorem Sound.setLx {s : State} (h : Sound s) {x : LzwDec} (hx : x.Inv) : Sound (setLx s x) :=
  h.mapUnits fun _ _ hu => hu.setLx hx

/-- The encoder is written together with the copy of its reset counter (R26). -/
theorem Sound.setLe_withResets {s : State} (h : Sound s) {e : LzwEnc} (he : e.Inv)
    (hld : ∀ u, s.units = some u → u.ld.isSome) : Sound ((setLe s e).withResets e.resets) := by
  intro v hv
  obtain ⟨u, hu, rfl⟩ := Option.map_eq_some_iff.1 hv
  exact (h u hu).setLe he (hld u hu)

/-! ### The encoder that is running -/

/-- The units are defined and `LE` is `e`. -/
def HasLe (s : State) (e : LzwEnc) : Prop := ∃ u, s.units = some u ∧ u.le = some e

theorem Sound.le {s : State} (h : Sound s) {e : LzwEnc} (he : HasLe s e) :
    e.Inv ∧ e.resets = s.stat.resets ∧ ∀ u, s.units = some u → u.ld.isSome := by
  obtain ⟨u, hu, hue⟩ := he
  obtain ⟨hinv, hres, hld⟩ := (h u hu).le e hue
  refine ⟨hinv, hres, fun v hv => ?_⟩
  rwa [← Option.some.inj (hu.symm.trans hv)]

/-- The encoder changes while its reset counter stays. -/
theorem Sound.setLe {s : State} (h : Sound s) {e e' : LzwEnc} (he : HasLe s e) (hinv : e'.Inv)
    (hres : e'.resets = e.resets) : Sound (setLe s e') := by
  obtain ⟨-, hcopy, hld⟩ := h.le he
  have hs := h.setLe_withResets hinv hld
  rw [hres, hcopy] at hs
  exact hs

/-! ### The streams -/

/-- What WriteBits does to the units and the status: it writes the BitWriter, which stays within a byte, and the copy of its
total (R26, R70). -/
theorem writeBits_ensures (n v : Nat) (s : State) : (writeBits n v s).Ensures fun _ t =>
    ∃ u bw, s.units = some u ∧ (u.bw.Inv → bw.Inv) ∧ t.units = some { u with bw := bw } ∧
      t.stat = { s.stat with total := bw.total } := by
  rcases writeBits_cases n v s with h | ⟨u, -, hu, h⟩ <;> rw [h]
  · trivial
  · refine ⟨u, _, hu, fun hb => ?_, rfl, rfl⟩
    obtain ⟨hinv, -, -⟩ := putBits_spec v n (u.bw, s.out) hb
    exact ⟨hinv.few, hinv.fits⟩

theorem Units.Inv.setBw {u : Units} {st : Stat} (h : u.Inv st) {bw : BitWriter} (hb : bw.Inv) :
    ({ u with bw := bw } : Units).Inv { st with total := bw.total } :=
  ⟨hb, rfl, h.ht, h.hp, h.ld, h.le, h.lx⟩

theorem sound_writeBits (n v : Nat) {s : State} (hs : Sound s) : (writeBits n v s).Ensures fun _ t => Sound t := by
  refine (writeBits_ensures n v s).mono ?_
  rintro - t ⟨u, bw, hu, hbw, ht, hstat⟩ v hv
  rw [← Option.some.inj (ht.symm.trans hv), hstat]
  exact (hs u hu).setBw (hbw (hs u hu).bw)

/-- WriteBits leaves the encoder as it is. -/
theorem writeBits_keeps_le (n v : Nat) {s : State} (hs : Sound s) {e : LzwEnc} (he : HasLe s e) :
    (writeBits n v s).Ensures fun _ t => Sound t ∧ HasLe t e := by
  have hsound := sound_writeBits n v hs
  have hunits := writeBits_ensures n v s
  cases hr : writeBits n v s with
  | ok a t =>
    rw [hr] at hsound hunits
    obtain ⟨u, bw, hu, -, ht, -⟩ := hunits
    obtain ⟨u', hu', hle⟩ := he
    rw [← Option.some.inj (hu.symm.trans hu')] at hle
    exact ⟨hsound, _, ht, hle⟩
  | raised x t => trivial
  | stuck f => trivial

theorem sound_flush {s : State} (hs : Sound s) : (flush s).Ensures fun _ t => Sound t := by
  refine ensures_readUnits fun u hu => ?_
  split
  · have hinv := (hs u hu).setBw (bw := { u.bw with acc := 0, nacc := 0 }) ⟨by simp, by simp⟩
    rw [(hs u hu).total] at hinv
    exact sound_withUnits hinv
  · exact hs

theorem getBits_lt (data : Bytes) (n pos r : Nat) : getBits data n pos r < (r + 1) * 2 ^ n := by
  induction n generalizing pos r with
  | zero => simp [getBits]
  | succ n ih =>
    refine (ih (pos + 1) (2 * r + (bitAt data pos).toNat)).trans_le ?_
    rw [Nat.pow_succ', ← Nat.mul_assoc]
    refine Nat.mul_le_mul_right _ ?_
    have hbit := Bool.toNat_le (bitAt data pos)
    omega

/-- ReadBits keeps the units sound and answers a number of `n` bits, `n` being at most 32 (R72). -/
theorem sound_readBits (n : Nat) {s : State} (hs : Sound s) :
    (readBits n s).Ensures fun r t => Sound t ∧ ∀ v, r = some v → v < 2 ^ n ∧ n ≤ 32 := by
  rcases readBits_cases n s with h | ⟨u, hn, hu, ⟨-, h⟩ | ⟨-, h⟩⟩ <;> rw [h]
  · trivial
  · exact ⟨sound_withUnits ((hs u hu).free _ u.ft u.hd), fun v hv => by cases hv⟩
  · refine ⟨sound_withUnits ((hs u hu).free _ u.ft u.hd), fun v hv => ⟨?_, hn⟩⟩
    have hlt := getBits_lt s.input n u.br.pos 0
    rw [Option.some.inj hv] at hlt
    omega

theorem sound_readOrEnd (n : Nat) {s : State} (hs : Sound s) :
    (readOrEnd n s).Ensures fun v t => Sound t ∧ v < 2 ^ n := by
  refine Eff.Ensures.bind (sound_readBits n hs) fun r t ⟨ht, hv⟩ => ?_
  cases r with
  | none => trivial
  | some v => exact ⟨ht, (hv v rfl).1⟩

theorem sound_writeMagic (m : BitVec 32) {s : State} (hs : Sound s) : (writeMagic m s).Ensures fun _ t => Sound t :=
  ensures_forEach (fun _ _ ht => sound_writeBits _ _ ht) _ hs

theorem sound_readMagic {s : State} (hs : Sound s) : (readMagic s).Ensures fun _ t => Sound t :=
  Eff.Ensures.bind (sound_readOrEnd 8 hs) fun _ _ ⟨hs, _⟩ =>
  Eff.Ensures.bind (sound_readOrEnd 8 hs) fun _ _ ⟨hs, _⟩ =>
  Eff.Ensures.bind (sound_readOrEnd 8 hs) fun _ _ ⟨hs, _⟩ =>
  Eff.Ensures.bind (sound_readOrEnd 8 hs) fun _ _ ⟨hs, _⟩ => hs

/-! ### FrequencyTable and heap -/

theorem sound_ftClear {s : State} (hs : Sound s) : (ftClear s).Ensures fun _ t => Sound t :=
  hs.mapUnits fun u _ hu => hu.free u.br _ u.hd

theorem sound_ftCount (b : Byte) {s : State} (hs : Sound s) : (ftCount b s).Ensures fun _ t => Sound t :=
  ensures_readUnits fun u hu => sound_withUnits ((hs u hu).free u.br _ u.hd)

/-- Where HP_PUSH completes, the index is allocated and new, and there is room (R77). -/
theorem heapPush_ensures (i : Nat) {s : State} {u : Units} (hu : s.units = some u) :
    (heapPush i s).Ensures fun _ t => i < u.ht.n ∧ i ∉ u.hp.items ∧ u.hp.size ≠ 256 ∧
      t = s.withUnits (some { u with hp := { items := insertRising i u.hp.items } }) := by
  unfold heapPush
  rw [readUnits_some hu]
  by_cases h : i < u.ht.n ∧ i ∉ u.hp.items ∧ u.hp.size ≠ 256
  · obtain ⟨hi, hnew, hroom⟩ := h
    rw [if_neg (by simp [legalNode, hi, hnew, hroom, Config.heapCap])]
    exact ⟨hi, hnew, hroom, rfl⟩
  · rw [if_pos]
    · trivial
    · simp only [legalNode, Config.heapCap, Bool.or_eq_true, Bool.not_eq_true', decide_eq_false_iff_not,
        List.contains_iff_mem, beq_iff_eq]
      tauto

/-- Where HP_POP completes, it takes an item of the heap (R78). -/
theorem heapPop_ensures {s : State} {u : Units} (hu : s.units = some u) :
    (heapPop s).Ensures fun i t =>
      i ∈ u.hp.items ∧ t = s.withUnits (some { u with hp := { items := u.hp.items.erase i } }) := by
  unfold heapPop
  rw [readUnits_some hu]
  split
  · trivial
  · split
    · trivial
    · rename_i k hk
      exact ⟨(leastItem_spec hk).1, rfl⟩

theorem Heap.Inv.push {h : Heap} {t : HuffTree} (hh : h.Inv t) {i : Nat} (hi : i < t.n) (hnew : i ∉ h.items)
    (hroom : h.size ≠ 256) : ({ items := insertRising i h.items } : Heap).Inv t where
  rising := insertRising_pairwise hh.rising hnew
  allocated := fun j hj => by
    rcases (mem_insertRising i j _).1 hj with rfl | hj
    · exact hi
    · exact hh.allocated j hj
  size := by
    have hsize := hh.size
    simp only [Heap.size, Config.heapCap, insertRising_length] at hsize hroom ⊢
    omega

theorem Heap.Inv.pop {h : Heap} {t : HuffTree} (hh : h.Inv t) (i : Nat) :
    ({ items := h.items.erase i } : Heap).Inv t where
  rising := hh.rising.erase i
  allocated := fun j hj => hh.allocated j (List.mem_of_mem_erase hj)
  size := List.length_erase_le.trans hh.size

theorem sound_heapPush (i : Nat) {s : State} (hs : Sound s) : (heapPush i s).Ensures fun _ t => Sound t := by
  cases hu : s.units with
  | none => unfold heapPush; rw [readUnits_none hu]; trivial
  | some u =>
    refine (heapPush_ensures i hu).mono ?_
    rintro - t ⟨hi, hnew, hroom, rfl⟩
    exact sound_withUnits ((hs u hu).setHp ((hs u hu).hp.push hi hnew hroom))

/-- HP_POP answers an allocated node (R34, R78). -/
theorem sound_heapPop {s : State} (hs : Sound s) :
    (heapPop s).Ensures fun i t => Sound t ∧ i < Config.arenaCap := by
  cases hu : s.units with
  | none => unfold heapPop; rw [readUnits_none hu]; trivial
  | some u =>
    refine (heapPop_ensures hu).mono ?_
    rintro i t ⟨hi, rfl⟩
    have hinv := hs u hu
    exact ⟨sound_withUnits (hinv.setHp (hinv.hp.pop i)), (hinv.hp.allocated i hi).trans_le hinv.ht.size⟩

end Sys2Proof.Machine
end

section

/-! ## HT_BUILD makes a tree that meets the invariant (R79 to R81)

`HuffTree.Growing` is the loop invariant of R79: what the tree and the heap meet after each pass of either loop. -/

namespace Sys2Proof.Machine

/-! ### Two list facts -/

theorem getElem?_concat_eq_some {α : Type} {l : List α} {a x : α} {j : Nat} :
    (l ++ [a])[j]? = some x ↔ l[j]? = some x ∨ (j = l.length ∧ x = a) := by
  rcases Nat.lt_trichotomy j l.length with h | h | h
  · rw [List.getElem?_append_left h]
    exact ⟨.inl, fun hx => hx.resolve_right fun hc => h.ne hc.1⟩
  · subst h
    simp [eq_comm]
  · rw [List.getElem?_eq_none (by rw [List.length_append, List.length_singleton]; omega), List.getElem?_eq_none h.le]
    simp [h.ne']

theorem nodup_of_rising {l : List Nat} (h : l.Pairwise (· < ·)) : l.Nodup := h.imp fun hab => Nat.ne_of_lt hab

/-! ### The two changes of the tree -/

/-- A new leaf, and a new parent of two nodes, as R79 allocates them. -/
def Node.newLeaf (b : Byte) (w : Nat) : Node := { kind := .leaf b, weight := w, parent := none }
def Node.newParent (a b w : Nat) : Node := { kind := .internal a b, weight := w, parent := none }

/-- The tree with one more node, a leaf for symbol `b` (first loop of R79). -/
def HuffTree.addLeaf (t : HuffTree) (b : Byte) (w : Nat) : HuffTree :=
  { node := t.node ++ [.newLeaf b w]
    root := t.root
    leaf := t.leaf.set b.toNat (some t.n) b.isLt }

/-- A node that gets a parent. -/
def Node.adopt (p : Nat) (nd : Node) : Node := { nd with parent := some p }

/-- The tree with one more node, the parent of `a` and `b` (second loop of R79). -/
def HuffTree.merge (t : HuffTree) (a b w : Nat) : HuffTree :=
  { t with
    node := ((t.node ++ [Node.newParent a b w]).modify a (Node.adopt t.n)).modify b (Node.adopt t.n) }

@[simp] theorem HuffTree.addLeaf_n (t : HuffTree) (b : Byte) (w : Nat) : (t.addLeaf b w).n = t.n + 1 := by
  simp [HuffTree.n, HuffTree.addLeaf]

@[simp] theorem HuffTree.merge_n (t : HuffTree) (a b w : Nat) : (t.merge a b w).n = t.n + 1 := by
  simp [HuffTree.n, HuffTree.merge]

theorem HuffTree.addLeaf_leafOf_same (t : HuffTree) (b : Byte) (w : Nat) : (t.addLeaf b w).leafOf b = some t.n := by
  simp [HuffTree.leafOf, HuffTree.addLeaf]

theorem HuffTree.addLeaf_leafOf_ne (t : HuffTree) {b c : Byte} (h : c ≠ b) (w : Nat) :
    (t.addLeaf b w).leafOf c = t.leafOf c := by
  have hne : b.toNat ≠ c.toNat := fun he => h (BitVec.eq_of_toNat_eq he).symm
  simp [HuffTree.leafOf, HuffTree.addLeaf, Vector.getElem_set_ne, hne]

theorem HuffTree.addLeaf_node (t : HuffTree) (b : Byte) (w : Nat) {j : Nat} {nd : Node} :
    (t.addLeaf b w).node[j]? = some nd ↔
      t.node[j]? = some nd ∨ (j = t.n ∧ nd = .newLeaf b w) :=
  getElem?_concat_eq_some

/-- A node of the tree as merging `a` and `b` leaves it. -/
def HuffTree.afterMerge (t : HuffTree) (a b j : Nat) (nd : Node) : Node :=
  if a = j ∨ b = j then nd.adopt t.n else nd

@[simp] theorem HuffTree.afterMerge_kind (t : HuffTree) (a b j : Nat) (nd : Node) :
    (t.afterMerge a b j nd).kind = nd.kind := by unfold HuffTree.afterMerge; split <;> rfl

theorem HuffTree.lt_n_of_node {t : HuffTree} {j : Nat} {nd : Node} (h : t.node[j]? = some nd) : j < t.n :=
  (List.getElem?_eq_some_iff.1 h).1

/-- The nodes after a merge: the new one, and each old one, with its parent if it was merged. -/
theorem HuffTree.merge_node {t : HuffTree} {a b : Nat} (ha : a < t.n) (hb : b < t.n) (w : Nat) {j : Nat} {nd : Node} :
    (t.merge a b w).node[j]? = some nd ↔
      (∃ old, t.node[j]? = some old ∧ nd = t.afterMerge a b j old) ∨
      (j = t.n ∧ nd = .newParent a b w) := by
  have hadopt : (t.merge a b w).node[j]? =
      (t.node ++ [Node.newParent a b w])[j]?.map (t.afterMerge a b j) := by
    simp only [HuffTree.merge, List.getElem?_modify, Option.map_eq_map, Option.map_map]
    congr 1
    funext x
    by_cases hja : a = j <;> by_cases hjb : b = j <;> simp [HuffTree.afterMerge, Node.adopt, hja, hjb]
  rw [hadopt, Option.map_eq_some_iff]
  constructor
  · rintro ⟨x, hx, rfl⟩
    rcases getElem?_concat_eq_some.1 hx with hx | ⟨rfl, rfl⟩
    · exact .inl ⟨x, hx, rfl⟩
    · refine .inr ⟨rfl, if_neg ?_⟩
      change ¬(a = t.n ∨ b = t.n)
      omega
  · rintro (⟨old, hold, rfl⟩ | ⟨rfl, rfl⟩)
    · exact ⟨old, getElem?_concat_eq_some.2 (.inl hold), rfl⟩
    · refine ⟨_, getElem?_concat_eq_some.2 (.inr ⟨rfl, rfl⟩), if_neg ?_⟩
      omega

/-! ### The loop invariant -/

/-- The tree while HT_BUILD runs: as the invariant of a finished tree says, but with no root yet; the nodes without a parent
are the items of the heap. The two sizes together stay below twice the capacity of the heap. -/
structure HuffTree.Growing (t : HuffTree) (items : List Nat) : Prop where
  noRoot : t.root = none
  size : t.n + items.length ≤ 512
  someOpen : items = [] → t.n = 0
  rising : items.Pairwise (· < ·)
  isOpen : ∀ i, i ∈ items ↔ ∃ nd : Node, t.node[i]? = some nd ∧ nd.parent = none
  parent : ∀ (i : Nat) (nd : Node) (p : Nat), t.node[i]? = some nd → nd.parent = some p →
    i < p ∧ ∃ (pn : Node) (l r : Nat), t.node[p]? = some pn ∧ pn.kind = .internal l r ∧ (l = i ∨ r = i) ∧ l ≠ r
  child : ∀ (i : Nat) (nd : Node) (l r : Nat), t.node[i]? = some nd → nd.kind = .internal l r →
    ∃ (ln rn : Node), t.node[l]? = some ln ∧ ln.parent = some i ∧ t.node[r]? = some rn ∧ rn.parent = some i
  leafKind : ∀ (b : Byte) (i : Nat), t.leafOf b = some i → ∃ nd : Node, t.node[i]? = some nd ∧ nd.kind = .leaf b
  leafListed : ∀ (i : Nat) (nd : Node) (b : Byte), t.node[i]? = some nd → nd.kind = .leaf b → t.leafOf b = some i

@[simp] theorem HuffTree.empty_leafOf (b : Byte) : HuffTree.empty.leafOf b = none := by
  simp [HuffTree.leafOf, HuffTree.empty]

theorem HuffTree.growing_empty : HuffTree.empty.Growing [] where
  noRoot := rfl
  size := by decide
  someOpen := fun _ => rfl
  rising := .nil
  isOpen := by simp [HuffTree.empty]
  parent := by simp [HuffTree.empty]
  child := by simp [HuffTree.empty]
  leafKind := by simp
  leafListed := by simp [HuffTree.empty]

theorem HuffTree.Growing.lt_n {t : HuffTree} {items : List Nat} (h : t.Growing items) {i : Nat} (hi : i ∈ items) :
    i < t.n := by
  obtain ⟨nd, hnd, -⟩ := (h.isOpen i).1 hi
  exact HuffTree.lt_n_of_node hnd

/-- One pass of the first loop: a symbol without a leaf gets one. -/
theorem HuffTree.Growing.addLeaf {t : HuffTree} {items : List Nat} (h : t.Growing items) {b : Byte} (w : Nat)
    (hb : t.leafOf b = none) (hsize : t.n + items.length + 2 ≤ 512) :
    (t.addLeaf b w).Growing (insertRising t.n items) where
  noRoot := h.noRoot
  size := by rw [HuffTree.addLeaf_n, insertRising_length]; omega
  someOpen := fun he => by simpa [he] using insertRising_length t.n items
  rising := insertRising_pairwise h.rising fun hn => (h.lt_n hn).ne rfl
  isOpen := fun i => by
    rw [mem_insertRising, h.isOpen i]
    simp only [HuffTree.addLeaf_node]
    constructor
    · rintro (rfl | ⟨nd, hnd, hp⟩)
      · exact ⟨_, .inr ⟨rfl, rfl⟩, rfl⟩
      · exact ⟨nd, .inl hnd, hp⟩
    · rintro ⟨nd, hnd | ⟨rfl, -⟩, hp⟩
      · exact .inr ⟨nd, hnd, hp⟩
      · exact .inl rfl
  parent := fun i nd p hnd hp => by
    rcases (HuffTree.addLeaf_node t b w).1 hnd with hnd | ⟨-, rfl⟩
    · obtain ⟨hlt, pn, l, r, hpn, hrest⟩ := h.parent i nd p hnd hp
      exact ⟨hlt, pn, l, r, (HuffTree.addLeaf_node t b w).2 (.inl hpn), hrest⟩
    · cases hp
  child := fun i nd l r hnd hk => by
    rcases (HuffTree.addLeaf_node t b w).1 hnd with hnd | ⟨-, rfl⟩
    · obtain ⟨ln, rn, hln, hl, hrn, hr⟩ := h.child i nd l r hnd hk
      exact ⟨ln, rn, (HuffTree.addLeaf_node t b w).2 (.inl hln), hl, (HuffTree.addLeaf_node t b w).2 (.inl hrn), hr⟩
    · cases hk
  leafKind := fun c i hc => by
    by_cases hcb : c = b
    · subst hcb
      rw [HuffTree.addLeaf_leafOf_same, Option.some.injEq] at hc
      exact ⟨_, (HuffTree.addLeaf_node t c w).2 (.inr ⟨hc.symm, rfl⟩), rfl⟩
    · rw [HuffTree.addLeaf_leafOf_ne t hcb] at hc
      obtain ⟨nd, hnd, hk⟩ := h.leafKind c i hc
      exact ⟨nd, (HuffTree.addLeaf_node t b w).2 (.inl hnd), hk⟩
  leafListed := fun i nd c hnd hk => by
    rcases (HuffTree.addLeaf_node t b w).1 hnd with hnd | ⟨rfl, rfl⟩
    · have hold := h.leafListed i nd c hnd hk
      rw [HuffTree.addLeaf_leafOf_ne t (fun hcb => by rw [hcb, hb] at hold; cases hold)]
      exact hold
    · cases hk
      exact HuffTree.addLeaf_leafOf_same t b w

theorem HuffTree.Growing.parent_eq_none {t : HuffTree} {items : List Nat} (h : t.Growing items) {i : Nat} {nd : Node}
    (hi : i ∈ items) (hnd : t.node[i]? = some nd) : nd.parent = none := by
  obtain ⟨nd', hnd', hp⟩ := (h.isOpen i).1 hi
  rwa [Option.some.inj (hnd.symm.trans hnd')]

section
variable {t : HuffTree} {items : List Nat} {a b : Nat} (h : t.Growing items) (ha : a ∈ items) (hb : b ∈ items) (w : Nat)

include h in
theorem HuffTree.Growing.mem_rest (i : Nat) : i ∈ (items.erase a).erase b ↔ i ≠ b ∧ i ≠ a ∧ i ∈ items := by
  have hnodup := nodup_of_rising h.rising
  rw [(hnodup.erase a).mem_erase_iff, hnodup.mem_erase_iff]

include h ha hb in
theorem HuffTree.Growing.merge_node {j : Nat} {nd : Node} : (t.merge a b w).node[j]? = some nd ↔
    (∃ old, t.node[j]? = some old ∧ nd = t.afterMerge a b j old) ∨ (j = t.n ∧ nd = .newParent a b w) :=
  HuffTree.merge_node (h.lt_n ha) (h.lt_n hb) w

include h ha hb in
/-- Only nodes without a parent are merged, so the others stay as they are. -/
theorem HuffTree.Growing.merge_keeps {i p : Nat} {nd : Node} (hnd : t.node[i]? = some nd) (hp : nd.parent = some p) :
    (t.merge a b w).node[i]? = some nd := by
  have hi : ¬(a = i ∨ b = i) := by
    rintro (rfl | rfl)
    · rw [h.parent_eq_none ha hnd] at hp; cases hp
    · rw [h.parent_eq_none hb hnd] at hp; cases hp
  exact (h.merge_node ha hb w).2 (.inl ⟨nd, hnd, (if_neg hi).symm⟩)

include h ha hb in
theorem HuffTree.Growing.merge_isOpen (i : Nat) : i ∈ insertRising t.n ((items.erase a).erase b) ↔
    ∃ nd : Node, (t.merge a b w).node[i]? = some nd ∧ nd.parent = none := by
  rw [mem_insertRising, h.mem_rest, h.isOpen i]
  constructor
  · rintro (rfl | ⟨hib, hia, nd, hnd, hp⟩)
    · exact ⟨_, (h.merge_node ha hb w).2 (.inr ⟨rfl, rfl⟩), rfl⟩
    · exact ⟨nd, (h.merge_node ha hb w).2 (.inl ⟨nd, hnd, (if_neg (by omega)).symm⟩), hp⟩
  · rintro ⟨nd, hnd, hp⟩
    rcases (h.merge_node ha hb w).1 hnd with ⟨old, hold, rfl⟩ | ⟨rfl, -⟩
    · unfold HuffTree.afterMerge at hp
      split at hp
      · cases hp
      · rename_i hi
        exact .inr ⟨fun he => hi (.inr he.symm), fun he => hi (.inl he.symm), old, hold, hp⟩
    · exact .inl rfl

include h ha hb in
theorem HuffTree.Growing.merge_parent (hab : a ≠ b) {i p : Nat} {nd : Node} (hnd : (t.merge a b w).node[i]? = some nd)
    (hp : nd.parent = some p) : i < p ∧ ∃ (pn : Node) (l r : Nat), (t.merge a b w).node[p]? = some pn ∧
      pn.kind = .internal l r ∧ (l = i ∨ r = i) ∧ l ≠ r := by
  rcases (h.merge_node ha hb w).1 hnd with ⟨old, hold, rfl⟩ | ⟨rfl, rfl⟩
  · unfold HuffTree.afterMerge at hp
    split at hp
    · rename_i hi
      rw [Node.adopt, Option.some.injEq] at hp
      exact ⟨hp ▸ HuffTree.lt_n_of_node hold, _, a, b, (h.merge_node ha hb w).2 (.inr ⟨hp.symm, rfl⟩), rfl, hi, hab⟩
    · obtain ⟨hlt, pn, l, r, hpn, hk, hrest⟩ := h.parent i old p hold hp
      exact ⟨hlt, _, l, r, (h.merge_node ha hb w).2 (.inl ⟨pn, hpn, rfl⟩), by rw [HuffTree.afterMerge_kind, hk], hrest⟩
  · cases hp

include h ha hb in
theorem HuffTree.Growing.merge_child {i l r : Nat} {nd : Node} (hnd : (t.merge a b w).node[i]? = some nd)
    (hk : nd.kind = .internal l r) : ∃ ln rn : Node, (t.merge a b w).node[l]? = some ln ∧ ln.parent = some i ∧
      (t.merge a b w).node[r]? = some rn ∧ rn.parent = some i := by
  rcases (h.merge_node ha hb w).1 hnd with ⟨old, hold, rfl⟩ | ⟨rfl, rfl⟩
  · rw [HuffTree.afterMerge_kind] at hk
    obtain ⟨ln, rn, hln, hl, hrn, hr⟩ := h.child i old l r hold hk
    exact ⟨ln, rn, h.merge_keeps ha hb w hln hl, hl, h.merge_keeps ha hb w hrn hr, hr⟩
  · cases hk
    obtain ⟨an, han, -⟩ := (h.isOpen a).1 ha
    obtain ⟨bn, hbn, -⟩ := (h.isOpen b).1 hb
    exact ⟨an.adopt t.n, bn.adopt t.n, (h.merge_node ha hb w).2 (.inl ⟨an, han, (if_pos (.inl rfl)).symm⟩), rfl,
      (h.merge_node ha hb w).2 (.inl ⟨bn, hbn, (if_pos (.inr rfl)).symm⟩), rfl⟩

end

/-- One pass of the second loop: two nodes without a parent get one. -/
theorem HuffTree.Growing.merge {t : HuffTree} {items : List Nat} (h : t.Growing items) {a b : Nat} (w : Nat)
    (ha : a ∈ items) (hb : b ∈ items.erase a) :
    (t.merge a b w).Growing (insertRising t.n ((items.erase a).erase b)) := by
  have hbi : b ∈ items := List.mem_of_mem_erase hb
  have hab : a ≠ b := by rintro rfl; exact (nodup_of_rising h.rising).not_mem_erase hb
  constructor
  case noRoot => exact h.noRoot
  case size =>
    have hsize := h.size
    have hpos := List.length_pos_of_mem hb
    rw [HuffTree.merge_n, insertRising_length, List.length_erase_of_mem hb]
    rw [List.length_erase_of_mem ha] at hpos ⊢
    omega
  case someOpen => exact fun he => by simpa [he] using insertRising_length t.n ((items.erase a).erase b)
  case rising =>
    refine insertRising_pairwise ((h.rising.erase a).erase b) fun hn => ?_
    exact (h.lt_n ((h.mem_rest _).1 hn).2.2).ne rfl
  case isOpen => exact h.merge_isOpen ha hbi w
  case parent => exact fun i nd p hnd hp => h.merge_parent ha hbi w hab hnd hp
  case child => exact fun i nd l r hnd hk => h.merge_child ha hbi w hnd hk
  case leafKind =>
    intro c i hc
    obtain ⟨nd, hnd, hk⟩ := h.leafKind c i hc
    exact ⟨_, (h.merge_node ha hbi w).2 (.inl ⟨nd, hnd, rfl⟩), by rw [HuffTree.afterMerge_kind, hk]⟩
  case leafListed =>
    intro i nd c hnd hk
    rcases (h.merge_node ha hbi w).1 hnd with ⟨old, hold, rfl⟩ | ⟨rfl, rfl⟩
    · rw [HuffTree.afterMerge_kind] at hk
      exact h.leafListed i old c hold hk
    · cases hk

/-- The end of HT_BUILD: with no item left there is no node. -/
theorem HuffTree.Growing.inv_of_nil {t : HuffTree} (h : t.Growing []) : t.Inv where
  size := by rw [h.someOpen rfl]; exact Nat.zero_le _
  parent := h.parent
  child := h.child
  orphan := fun i nd hnd hp => absurd ((h.isOpen i).2 ⟨nd, hnd, hp⟩) List.not_mem_nil
  root := fun i hi => by rw [h.noRoot] at hi; cases hi
  leafKind := h.leafKind
  leafListed := h.leafListed

/-- The end of HT_BUILD: the one item left becomes the root. -/
theorem HuffTree.Growing.inv_of_singleton {t : HuffTree} {i : Nat} (h : t.Growing [i]) :
    ({ t with root := some i } : HuffTree).Inv where
  size := by have hsize := h.size; simp only [List.length_singleton] at hsize; exact Nat.le_of_succ_le_succ hsize
  parent := h.parent
  child := h.child
  orphan := fun j nd hnd hp => by
    rw [List.mem_singleton.1 ((h.isOpen j).2 ⟨nd, hnd, hp⟩)]
  root := fun j hj => by
    obtain rfl := Option.some.inj hj
    exact (h.isOpen i).1 (List.mem_singleton_self i)
  leafKind := h.leafKind
  leafListed := h.leafListed

/-! ### HT_BUILD -/

/-- The units without their tree and heap. -/
def Units.bare (u : Units) : Units := { u with ht := HuffTree.empty, hp := { items := [] } }

theorem HuffTree.inv_empty : HuffTree.empty.Inv := HuffTree.growing_empty.inv_of_nil
theorem Heap.inv_empty (t : HuffTree) : ({ items := [] } : Heap).Inv t := ⟨.nil, by simp, by simp [Heap.size]⟩

theorem Units.Inv.bare {u : Units} {st : Stat} (h : u.Inv st) : u.bare.Inv st :=
  ⟨h.bw, h.total, HuffTree.inv_empty, Heap.inv_empty _, h.ld, h.le, h.lx⟩

theorem Units.Inv.of_bare {u : Units} {st : Stat} (h : u.bare.Inv st) (ht : u.ht.Inv) (hp : u.hp.Inv u.ht) :
    u.Inv st := ⟨h.bw, h.total, ht, hp, h.ld, h.le, h.lx⟩

/-- The state while HT_BUILD runs. -/
def Building (s : State) (u : Units) : Prop := s.units = some u ∧ u.bare.Inv s.stat ∧ u.ht.Growing u.hp.items

theorem buildLeaf_ensures (e : Byte × Nat) {s : State} {u : Units} (hu : s.units = some u) :
    (buildLeaf e s).Ensures fun _ t => t = s ∨ (u.hp.size ≠ 256 ∧ t = s.withUnits (some
      { u with ht := u.ht.addLeaf e.1 e.2, hp := { items := insertRising u.ht.n u.hp.items } })) := by
  unfold buildLeaf
  split
  · unfold allocNode
    rw [readUnits_some hu, Eff.bind_ok]
    refine (heapPush_ensures u.ht.n (u := { u with ht := u.ht.addLeaf e.1 e.2 }) rfl).mono ?_
    rintro - t ⟨-, -, hroom, rfl⟩
    exact .inr ⟨hroom, rfl⟩
  · exact .inl rfl

/-- The first loop of R79, over symbols that are distinct and have no leaf yet. -/
theorem buildLeaves_ensures (es : List (Byte × Nat)) (hes : (es.map (·.1)).Nodup) {s : State} {u : Units}
    (hs : Building s u) (hcount : u.ht.n = u.hp.size) (hroom : u.hp.size ≤ 256)
    (hnew : ∀ e ∈ es, u.ht.leafOf e.1 = none) :
    (forEach buildLeaf es s).Ensures fun _ t => ∃ v, Building t v := by
  induction es generalizing s u with
  | nil => exact ⟨u, hs⟩
  | cons e es ih =>
    rw [List.map_cons, List.nodup_cons] at hes
    obtain ⟨hu, hbare, hgrow⟩ := hs
    refine Eff.Ensures.bind (buildLeaf_ensures e hu) ?_
    rintro - t (rfl | ⟨hfull, rfl⟩)
    · exact ih hes.2 ⟨hu, hbare, hgrow⟩ hcount hroom fun x hx => hnew x (List.mem_cons_of_mem _ hx)
    · have hsize : u.ht.n + u.hp.items.length + 2 ≤ 512 := by
        simp only [Heap.size] at hcount hroom hfull
        omega
      have hgrow' := hgrow.addLeaf e.2 (hnew e List.mem_cons_self) hsize
      refine ih hes.2 ⟨rfl, hbare, hgrow'⟩ ?_ ?_ fun x hx => ?_
      · simpa [Heap.size] using hcount
      · simp only [Heap.size, insertRising_length] at hroom hfull ⊢
        omega
      · have hne : x.1 ≠ e.1 := fun he => hes.1 (he ▸ List.mem_map_of_mem hx)
        rw [HuffTree.addLeaf_leafOf_ne _ hne]
        exact hnew x (List.mem_cons_of_mem _ hx)

theorem nodeWeight_ensures (a : Nat) (s : State) : (nodeWeight a s).Ensures fun _ t => t = s := by
  refine ensures_readUnits fun u _ => ?_
  split
  · trivial
  · exact rfl

/-- What a pass of the second loop does: two items of the heap are merged, and their parent takes their place. -/
theorem mergeTwo_ensures {s : State} {u : Units} (hu : s.units = some u) :
    (mergeTwo s).Ensures fun _ t => ∃ a b w, a ∈ u.hp.items ∧ b ∈ u.hp.items.erase a ∧
      t = s.withUnits (some { u with
        ht := u.ht.merge a b w
        hp := { items := insertRising u.ht.n ((u.hp.items.erase a).erase b) } }) := by
  refine Eff.Ensures.bind (heapPop_ensures hu) ?_
  rintro a - ⟨ha, rfl⟩
  refine Eff.Ensures.bind (heapPop_ensures rfl) ?_
  rintro b - ⟨hb, rfl⟩
  refine Eff.Ensures.bind (nodeWeight_ensures a _) ?_
  rintro wa - rfl
  refine Eff.Ensures.bind (nodeWeight_ensures b _) ?_
  rintro wb - rfl
  refine (heapPush_ensures u.ht.n (u := { u with
    ht := u.ht.merge a b (wa + wb), hp := { items := (u.hp.items.erase a).erase b } }) rfl).mono ?_
  rintro - t ⟨-, -, -, rfl⟩
  exact ⟨a, b, wa + wb, ha, hb, rfl⟩

/-- The second loop of R79 ends with at most one item. -/
theorem mergeAll_ensures (k : Nat) {s : State} {u : Units} (hs : Building s u) :
    (mergeAll k s).Ensures fun _ t => ∃ v, Building t v ∧ v.hp.size < 2 := by
  induction k generalizing s u with
  | zero =>
    unfold mergeAll
    rw [readUnits_some hs.1]
    split
    · trivial
    · exact ⟨u, hs, by omega⟩
  | succ k ih =>
    unfold mergeAll
    rw [readUnits_some hs.1]
    split
    · obtain ⟨hu, hbare, hgrow⟩ := hs
      refine Eff.Ensures.bind (mergeTwo_ensures hu) ?_
      rintro - t ⟨a, b, w, ha, hb, rfl⟩
      exact ih ⟨rfl, hbare, hgrow.merge w ha hb⟩
    · exact ⟨u, hs, by omega⟩

theorem sound_takeRoot {s : State} {u : Units} (hs : Building s u) (hsize : u.hp.size < 2) :
    (takeRoot s).Ensures fun _ t => Sound t := by
  obtain ⟨hu, hbare, hgrow⟩ := hs
  unfold takeRoot
  rw [readUnits_some hu]
  split
  · rename_i hone
    obtain ⟨r, hr⟩ := List.length_eq_one_iff.1 hone
    refine Eff.Ensures.bind (heapPop_ensures hu) ?_
    rintro i - ⟨hi, rfl⟩
    rw [hr] at hgrow hi
    obtain rfl := List.mem_singleton.1 hi
    refine sound_withUnits (u := { u with ht := { u.ht with root := some i }, hp := { items := u.hp.items.erase i } }) ?_
    refine Units.Inv.of_bare hbare hgrow.inv_of_singleton ?_
    have hnil : u.hp.items.erase i = [] := by rw [hr]; simp
    simp only [hnil]
    exact Heap.inv_empty _
  · rename_i hne
    have hnil : u.hp.items = [] := List.length_eq_zero_iff.1 (by simp only [Heap.size] at hne hsize; omega)
    rw [hnil] at hgrow
    have hhp : u.hp = { items := [] } := by rw [← hnil]
    intro v hv
    rw [← Option.some.inj (hu.symm.trans hv)]
    exact Units.Inv.of_bare hbare hgrow.inv_of_nil (hhp ▸ Heap.inv_empty _)

theorem allSymbols_nodup : allSymbols.Nodup := by
  refine List.nodup_range.map_on fun i hi j hj h => ?_
  have hval := congrArg BitVec.toNat h
  simp only [List.mem_range, Config.nsym, BitVec.toNat_ofNat] at hi hj hval
  omega

theorem FreqTable.entries_symbols (t : FreqTable) : t.entries.map (·.1) = allSymbols :=
  List.map_fst_zip (by simp [allSymbols, Config.nsym, FreqTable.counts])

/-- HT_BUILD leaves a tree and a heap that meet their invariants (R79 to R81). -/
theorem sound_htBuild {s : State} (hs : Sound s) : (htBuild s).Ensures fun _ t => Sound t := by
  refine ensures_readUnits fun u hu => ?_
  have hstart : Building (s.withUnits (some u.bare)) u.bare := ⟨rfl, (hs u hu).bare, HuffTree.growing_empty⟩
  refine Eff.Ensures.bind (buildLeaves_ensures u.ft.entries (u.ft.entries_symbols ▸ allSymbols_nodup) hstart rfl
    (Nat.zero_le _) fun _ _ => HuffTree.empty_leafOf _) ?_
  rintro - t ⟨v, hv⟩
  rw [readUnits_some hv.1]
  refine Eff.Ensures.bind (mergeAll_ensures _ hv) ?_
  rintro - r ⟨w, hw, hsize⟩
  exact sound_takeRoot hw hsize

/-! ### Huffman codec -/

theorem sound_findCode (b : Byte) {s : State} (hs : Sound s) : (findCode b s).Ensures fun _ t => Sound t := by
  refine ensures_readUnits fun u _ => ?_
  split
  · trivial
  · split
    · trivial
    · exact hs

theorem sound_hufEncSym (b : Byte) {s : State} (hs : Sound s) : (hufEncSym b s).Ensures fun _ t => Sound t :=
  Eff.Ensures.bind (sound_findCode b hs) fun code _ ht =>
    ensures_forEach (fun _ _ hr => sound_writeBits _ _ hr) code ht

theorem sound_checkCounts {s : State} (hs : Sound s) : (checkCounts s).Ensures fun _ t => Sound t := by
  refine ensures_readUnits fun u _ => ?_
  split
  · trivial
  · exact hs

theorem sound_writeCounts {s : State} (hs : Sound s) : (writeCounts s).Ensures fun _ t => Sound t :=
  ensures_readUnits fun _ _ => ensures_forEach (fun _ _ ht => sound_writeBits _ _ ht) _ hs

theorem sound_hufCompress {s : State} (hs : Sound s) : (hufCompress s).Ensures fun _ t => Sound t :=
  Eff.Ensures.bind (sound_ftClear hs) fun _ _ hs =>
  Eff.Ensures.bind (ensures_forEach (fun b _ => sound_ftCount b) _ hs) fun _ _ hs =>
  Eff.Ensures.bind (sound_checkCounts hs) fun _ _ hs =>
  Eff.Ensures.bind (sound_htBuild hs) fun _ _ hs =>
  Eff.Ensures.bind (sound_writeMagic _ hs) fun _ _ hs =>
  Eff.Ensures.bind (sound_writeCounts hs) fun _ _ hs =>
  Eff.Ensures.bind (ensures_forEach (fun b _ => sound_hufEncSym b) _ hs) fun _ _ hs => sound_flush hs

theorem sound_descend (k n : Nat) {s : State} (hs : Sound s) : (descend k n s).Ensures fun _ t => Sound t := by
  induction k generalizing n s with
  | zero => trivial
  | succ k ih =>
    refine ensures_readUnits fun u _ => ?_
    split
    · trivial
    · split
      · exact hs
      · exact Eff.Ensures.bind (sound_readOrEnd 1 hs) fun _ _ ⟨ht, _⟩ => ih _ ht

theorem sound_hufDecSym {s : State} (hs : Sound s) : (hufDecSym s).Ensures fun _ t => Sound t := by
  refine ensures_readUnits fun u _ => ?_
  split
  · trivial
  · exact Eff.Ensures.bind (sound_descend _ _ hs) fun b t (ht : Sound t) =>
      Sound.mapUnits (s := sinkByte b t) ht fun v _ hv => hv.free v.br v.ft _

theorem sound_readCount (b : Byte) {s : State} (hs : Sound s) : (readCount b s).Ensures fun _ t => Sound t :=
  Eff.Ensures.bind (sound_readOrEnd _ hs) fun _ _ ⟨ht, _⟩ => ht.mapUnits fun v _ hv => hv.free v.br _ v.hd

theorem sound_decodeSymbols (k : Nat) {s : State} (hs : Sound s) : (decodeSymbols k s).Ensures fun _ t => Sound t := by
  induction k generalizing s with
  | zero => exact hs
  | succ k ih => exact Eff.Ensures.bind (sound_hufDecSym hs) fun _ _ ht => ih ht

theorem sound_hufDecompress {s : State} (hs : Sound s) : (hufDecompress s).Ensures fun _ t => Sound t := by
  refine Eff.Ensures.bind (ensures_forEach (fun b _ => sound_readCount b) _ hs) fun _ t ht => ?_
  refine ensures_readUnits fun u _ => ?_
  simp only
  split
  · exact Sound.mapUnits (s := emitBytes _ t) ht fun v _ hv => hv.free v.br v.ft _
  · exact Eff.Ensures.bind (sound_htBuild (ht.mapUnits fun v _ hv => hv.free v.br v.ft _)) fun _ _ hr =>
      sound_decodeSymbols _ hr

end Sys2Proof.Machine
end

section

/-! ## The LZW units keep their invariant, and so does every step (R22 to R26, R36 to R38, R95) -/

namespace Sys2Proof.Machine

/-! ### The dictionary -/

/-- A dictionary with no edges (R89, R94). -/
theorem LzwDict.inv_init {W last : Nat} (hW : 9 ≤ W ∧ W ≤ 31) (hlast : last = 2 ^ W - 3) :
    ({ child := [], next := Config.firstCode, W := W, last := last } : LzwDict).Inv where
  width := hW
  last := hlast
  next := by
    have hgrow := Laws.grow_lt hW.1
    simp only [Config.firstCode]
    omega
  codes := by simp
  edges := .nil
  later := by simp

theorem LzwDict.Inv.reset {d : LzwDict} (h : d.Inv) :
    ({ d with child := [], next := Config.firstCode } : LzwDict).Inv := LzwDict.inv_init h.width h.last

/-- Every code of a dictionary is below GROW at width 31. -/
theorem LzwDict.Inv.next_le {d : LzwDict} (h : d.Inv) : d.next ≤ growCode 31 := by
  have hnext := h.next.2
  have hpow : 2 ^ d.W ≤ 2 ^ 31 := Nat.pow_le_pow_right (by decide) h.width.2
  have hgrow := Laws.grow_lt h.width.1
  rw [h.last] at hnext
  unfold growCode
  omega

theorem entryCode_eq_some {d : LzwDict} {c : Cursor} {n : Nat} (h : entryCode d c = some n) :
    c = .code n ∧ n < d.next := by
  cases c with
  | root => cases h
  | code k =>
    by_cases hk : k < d.next
    · obtain rfl := Option.some.inj ((if_pos hk).symm.trans h)
      exact ⟨rfl, hk⟩
    · cases (if_neg hk).symm.trans h

theorem edgeAt_eq_none {k : Nat × Byte} {es : List ((Nat × Byte) × Nat)} (h : edgeAt k es = none) :
    k ∉ es.map (·.1) := by
  induction es with
  | nil => simp
  | cons e es ih =>
    unfold edgeAt at h
    split at h
    · cases h
    · rename_i hne
      simp only [List.map_cons, List.mem_cons, not_or]
      exact ⟨fun he => hne he.symm, ih h⟩

theorem range'_next {first next : Nat} (h : first ≤ next) :
    List.range' first (next + 1 - first) = List.range' first (next - first) ++ [next] := by
  rw [Nat.succ_sub h, List.range'_1_concat, Nat.add_sub_cancel' h]

/-- A new edge from an entry while the dictionary is not full (R93). -/
theorem LzwDict.Inv.add {d : LzwDict} (h : d.Inv) {c : Nat} {b : Byte} (hc : c < d.next)
    (hnew : edgeAt (c, b) d.child = none) (hroom : d.full = false) :
    ({ d with child := d.child ++ [((c, b), d.next)], next := d.next + 1 } : LzwDict).Inv where
  width := h.width
  last := h.last
  next := ⟨Nat.le_succ_of_le h.next.1, Nat.succ_le_succ (by simpa [LzwDict.full] using hroom)⟩
  codes := by simp only [List.map_append, List.map_cons, List.map_nil, h.codes, range'_next h.next.1]
  edges := by
    rw [List.map_append, List.nodup_append]
    refine ⟨h.edges, List.nodup_singleton _, ?_⟩
    rintro x hx y hy rfl
    obtain rfl : x = (c, b) := by simpa using hy
    exact edgeAt_eq_none hnew hx
  later := fun e he => by
    rcases List.mem_append.1 he with he | he
    · exact h.later e he
    · rw [List.mem_singleton] at he
      subst he
      exact hc

theorem sound_ldInit {W : Nat} (hW : W ≤ 31) {s : State} (hs : Sound s) :
    (ldInit W s).Ensures fun _ t => Sound t ∧ ∀ u, t.units = some u → u.ld.isSome := by
  unfold ldInit
  split
  · trivial
  · rename_i hlegal
    rw [Bool.not_eq_true', Bool.not_eq_false, legalMaxWidth_iff] at hlegal
    refine ⟨hs.setLd (LzwDict.inv_init ⟨hlegal, hW⟩ rfl), fun v hv => ?_⟩
    obtain ⟨u, -, rfl⟩ := Option.map_eq_some_iff.1 hv
    rfl

/-- LD_HASNEXT only answers. -/
theorem ldHasnext_ensures (c : Cursor) (b : Byte) (s : State) : (ldHasnext c b s).Ensures fun _ t => t = s := by
  refine ensures_readLd fun u d _ _ => ?_
  split
  · trivial
  · exact rfl

/-- LD_GETCODE only answers, and its code is that of an entry. -/
theorem ldGetcode_ensures (c : Cursor) {s : State} (hs : Sound s) :
    (ldGetcode c s).Ensures fun n t => t = s ∧ n < growCode 31 := by
  refine ensures_readLd fun u d hu hd => ?_
  split
  · trivial
  · rename_i n hn
    exact ⟨rfl, (entryCode_eq_some hn).2.trans_le ((hs u hu).ld d hd).next_le⟩

theorem sound_ldAdd (c : Cursor) (b : Byte) {s : State} (hs : Sound s) : (ldAdd c b s).Ensures fun _ t => Sound t := by
  refine ensures_readLd fun u d hu hd => ?_
  split
  · trivial
  · rename_i n hn
    split
    · trivial
    · rename_i hnew
      split
      · exact hs
      · rename_i hroom
        exact hs.setLd (((hs u hu).ld d hd).add (entryCode_eq_some hn).2 (by simpa using hnew) (by simpa using hroom))

theorem sound_ldReset {s : State} (hs : Sound s) : (ldReset s).Ensures fun _ t => Sound t := by
  refine hs.mapUnits fun u _ hinv => ?_
  cases hd : u.ld with
  | none => rw [Option.map_none, ← hd]; exact hinv
  | some d => exact hinv.setLd (hinv.ld d hd).reset

theorem ldReset_keeps_le {s : State} {e : LzwEnc} (he : HasLe s e) : (ldReset s).Ensures fun _ t => HasLe t e := by
  obtain ⟨u, hu, hue⟩ := he
  refine ⟨{ u with ld := u.ld.map fun d => { d with child := [], next := Config.firstCode } }, ?_, hue⟩
  rw [State.mapUnits_units, hu]
  rfl

/-! ### The encoder -/

theorem initWidth_legal : 9 ≤ Config.initWidth ∧ Config.initWidth ≤ 31 := by decide

theorem sound_lzcInit (W : BitVec 5) (p : BitVec 7) (m : BitVec 32) {s : State} (hs : Sound s) :
    (lzcInit W p m s).Ensures fun _ t => Sound t := by
  unfold lzcInit
  split
  · trivial
  · rename_i hlegal
    simp only [Bool.or_eq_true, Bool.not_eq_true', not_or, Bool.not_eq_false, legalPct_iff] at hlegal
    have hW : W.toNat ≤ 31 := Nat.le_of_lt_succ W.isLt
    refine Eff.Ensures.bind (sound_ldInit hW hs) fun _ t ⟨ht, hld⟩ => ?_
    exact ht.setLe_withResets (e := ⟨.root, Config.initWidth, 0, 0, 0, p, m⟩) ⟨initWidth_legal, hlegal.2⟩ hld

/-- The loop of R97 for a code below GROW at width 31: the encoder's width never passes 31. -/
theorem sound_growAndWrite {c : Nat} (hc : c < growCode 31) (k : Nat) {s : State} (hs : Sound s) :
    (growAndWrite c k s).Ensures fun _ t => Sound t := by
  induction k generalizing s with
  | zero => trivial
  | succ k ih =>
    refine ensures_readLe fun u e hu hue => ?_
    have he : HasLe s e := ⟨u, hu, hue⟩
    obtain ⟨hinv, -, -⟩ := hs.le he
    split
    · rename_i hgrow
      have hwidth : e.width ≠ 31 := fun hw => by rw [hw] at hgrow; omega
      refine Eff.Ensures.bind (writeBits_keeps_le _ _ hs he) fun _ t ⟨ht, hte⟩ => ?_
      exact ih (ht.setLe (e' := { e with width := e.width + 1 }) hte
        ⟨⟨Nat.le_succ_of_le hinv.width.1, Nat.lt_of_le_of_ne hinv.width.2 hwidth⟩, hinv.pct⟩ rfl)
    · exact sound_writeBits _ _ hs

theorem sound_lzcEmit (c : Cursor) {s : State} (hs : Sound s) : (lzcEmit c s).Ensures fun _ t => Sound t := by
  refine ensures_readLd fun u d hu hd => ?_
  split
  · trivial
  · rename_i n hn
    exact sound_growAndWrite ((entryCode_eq_some hn).2.trans_le ((hs u hu).ld d hd).next_le) _ hs

theorem sound_lzcReset (b : Byte) {s : State} (hs : Sound s) : (lzcReset b s).Ensures fun _ t => Sound t := by
  refine ensures_readLe fun u e hu hue => ?_
  refine Eff.Ensures.bind (writeBits_keeps_le _ _ hs ⟨u, hu, hue⟩) fun _ t ⟨ht, hte⟩ => ?_
  have hreset : (ldReset t).Ensures fun _ r => Sound r ∧ HasLe r e := ⟨sound_ldReset ht, ldReset_keeps_le hte⟩
  refine Eff.Ensures.bind hreset fun _ r ⟨hr, hre⟩ => ?_
  obtain ⟨hinv, -, hld⟩ := hr.le hre
  exact hr.setLe_withResets (e := ⟨.code b.toNat, Config.initWidth, 0, 0, e.resets + 1, e.pct, e.mins⟩)
    ⟨initWidth_legal, hinv.pct⟩ hld

theorem sound_lzcRestart (b : Byte) {s : State} (hs : Sound s) : (lzcRestart b s).Ensures fun _ t => Sound t := by
  refine ensures_readLe fun u e hu hue => ensures_readLd fun _ d _ _ => ?_
  have he : HasLe s e := ⟨u, hu, hue⟩
  obtain ⟨hinv, -, -⟩ := hs.le he
  have hmiss := hs.setLe (e' := { e with cur := .code b.toNat, misses := e.misses + 1 }) he ⟨hinv.width, hinv.pct⟩ rfl
  split
  · simp only
    split
    · exact sound_lzcReset b hmiss
    · exact hmiss
  · exact hs.setLe (e' := { e with cur := .code b.toNat }) he ⟨hinv.width, hinv.pct⟩ rfl

theorem sound_lzcMiss (c : Cursor) (b : Byte) {s : State} (hs : Sound s) : (lzcMiss c b s).Ensures fun _ t => Sound t := by
  refine Eff.Ensures.bind (ldGetcode_ensures c hs) ?_
  rintro n t ⟨rfl, -⟩
  refine Eff.Ensures.bind (sound_lzcEmit _ hs) fun _ r hr => ensures_readLd fun u d _ _ => ?_
  split
  · exact hr
  · exact sound_ldAdd c b hr

theorem sound_lzcByte (b : Byte) {s : State} (hs : Sound s) : (lzcByte b s).Ensures fun _ t => Sound t := by
  refine ensures_readLe fun u e hu hue => ?_
  have he : HasLe s e := ⟨u, hu, hue⟩
  obtain ⟨hinv, -, -⟩ := hs.le he
  refine Eff.Ensures.bind (ldHasnext_ensures e.cur b s) ?_
  rintro - t rfl
  refine ensures_readLd fun v d _ _ => ?_
  split
  · exact hs.setLe he ⟨hinv.width, hinv.pct⟩ rfl
  · exact Eff.Ensures.bind (sound_lzcMiss _ b hs) fun _ r hr => sound_lzcRestart b hr

theorem sound_lzcFinish {s : State} (hs : Sound s) : (lzcFinish s).Ensures fun _ t => Sound t := by
  refine ensures_readLe fun u e _ _ => ?_
  split
  · exact hs
  · exact sound_lzcEmit _ hs

theorem sound_lzwCompressWith (cfg : Cfg) {s : State} (hs : Sound s) :
    (lzwCompressWith cfg s).Ensures fun _ t => Sound t :=
  Eff.Ensures.bind (sound_lzcInit _ _ _ hs) fun _ _ hs =>
  Eff.Ensures.bind (sound_writeMagic _ hs) fun _ _ hs =>
  Eff.Ensures.bind (sound_writeBits _ _ hs) fun _ _ hs =>
  Eff.Ensures.bind (ensures_forEach (fun b _ => sound_lzcByte b) _ hs) fun _ _ hs =>
  Eff.Ensures.bind (sound_lzcFinish hs) fun _ _ hs => sound_flush hs

theorem sound_lzwCompress {s : State} (hs : Sound s) : (lzwCompress s).Ensures fun _ t => Sound t := by
  unfold lzwCompress readCfg
  split
  · exact sound_lzwCompressWith _ hs
  · trivial
  · trivial

/-! ### The decoder -/

/-- A decoder with no entries, as LZD_INIT and RESET leave it (R105, R106). -/
theorem LzwDec.inv_init {x : LzwDec} (hW : 9 ≤ x.W ∧ x.W ≤ 31) (hlast : x.lastCode = 2 ^ x.W - 3) :
    ({ x with table := [], reg := [], next := Config.firstCode, width := Config.initWidth, last := [] } : LzwDec).Inv where
  maxWidth := hW
  lastCode := hlast
  width := ⟨le_rfl, hW.1⟩
  next := by
    have hgrow := Laws.grow_lt hW.1
    simp only [Config.firstCode]
    omega
  codes := by simp
  registry := rfl
  distinct := .nil
  long := by simp

theorem LzwDec.Inv.setLast {x : LzwDec} (h : x.Inv) (last : Bytes) : ({ x with last := last } : LzwDec).Inv :=
  ⟨h.maxWidth, h.lastCode, h.width, h.next, h.codes, h.registry, h.distinct, h.long⟩

theorem LzwDec.Inv.setDone {x : LzwDec} (h : x.Inv) (done : Bool) : ({ x with done := done } : LzwDec).Inv :=
  ⟨h.maxWidth, h.lastCode, h.width, h.next, h.codes, h.registry, h.distinct, h.long⟩

theorem LzwDec.Inv.grow {x : LzwDec} (h : x.Inv) (hw : x.width < x.W) : ({ x with width := x.width + 1 } : LzwDec).Inv :=
  ⟨h.maxWidth, h.lastCode, ⟨Nat.le_succ_of_le h.width.1, hw⟩, h.next, h.codes, h.registry, h.distinct, h.long⟩

/-- The registration at the end of R106 checks just what the invariant asks of a new entry. -/
theorem LzwDec.Inv.register {x : LzwDec} (h : x.Inv) (str : Bytes) : (x.register str).Inv := by
  unfold LzwDec.register
  split
  · rename_i hreg
    obtain ⟨hlong, hnew, hroom⟩ := hreg
    have hlow := h.next.1
    exact
      { maxWidth := h.maxWidth
        lastCode := h.lastCode
        width := h.width
        next := ⟨Nat.le_succ_of_le hlow, Nat.succ_le_succ hroom⟩
        codes := by simp only [List.map_append, List.map_cons, List.map_nil, h.codes, range'_next hlow]
        registry := by simp [h.registry]
        distinct := List.nodup_append.2 ⟨h.distinct, List.nodup_singleton _, fun y hy z hz => by
          rw [List.mem_singleton] at hz
          rintro rfl
          exact hnew (hz ▸ hy)⟩
        long := fun y hy => by
          rcases List.mem_append.1 hy with hy | hy
          · exact h.long y hy
          · rw [List.mem_singleton] at hy
            exact hy ▸ hlong }
  · exact h

theorem sound_lzdOutput {x : LzwDec} (hx : x.Inv) (dec toDict : Bytes) {s : State} (hs : Sound s) :
    Sound (lzdOutput x dec toDict s) :=
  Sound.setLx (s := emitBytes dec s) hs ((hx.setLast dec).register toDict)

/-- LZD_INIT answers the width field (R105). -/
theorem sound_lzdInit {s : State} (hs : Sound s) : (lzdInit s).Ensures fun W t => Sound t ∧ W < 2 ^ 5 := by
  refine Eff.Ensures.bind (sound_readOrEnd _ hs) fun W t ⟨ht, hW⟩ => ?_
  split
  · trivial
  · rename_i hlegal
    rw [Bool.not_eq_true', Bool.not_eq_false, legalMaxWidth_iff] at hlegal
    refine ⟨ht.setLx ?_, hW⟩
    exact LzwDec.inv_init (x := ⟨[], [], [], 0, 0, W, lastCodeAt W, false⟩) ⟨hlegal, Nat.le_of_lt_succ hW⟩ rfl

/-- A number below 2^32, as RES holds it (R24). -/
theorem Result.inv_num {v : Nat} (h : v < 2 ^ 32) : (Result.num v).Inv := fun _ hv => by cases hv; exact h

/-- What a body leaves behind: sound units, and a result that fits RES. -/
def Finished (t : State) : Prop := Sound t ∧ t.res.Inv

/-- The value of a code word fits RES when its reference does. -/
theorem CodeWord.value_lt {w : Nat} (hw : w ≤ 32) {k : CodeWord} (hk : ∀ c, k = .reference c → c < 2 ^ 32) :
    k.value w < 2 ^ 32 := by
  have hpow : 2 ^ w ≤ 2 ^ 32 := Nat.pow_le_pow_right (by decide) hw
  cases k with
  | grow => simp only [CodeWord.value, growCode]; omega
  | reset => simp only [CodeWord.value, resetCode]; omega
  | literal b => exact b.isLt.trans (by decide)
  | reference c => exact hk c rfl

theorem finished_actGrow {x : LzwDec} (hx : x.Inv) {s : State} (hs : Finished s) :
    (actGrow x s).Ensures fun _ t => Finished t := by
  unfold actGrow
  split
  · trivial
  · exact ⟨hs.1.setLx (hx.grow (by omega)), hs.2⟩

theorem finished_actReset {x : LzwDec} (hx : x.Inv) {s : State} (hs : Finished s) :
    (actReset x s).Ensures fun _ t => Finished t := ⟨hs.1.setLx (LzwDec.inv_init hx.maxWidth hx.lastCode), hs.2⟩

theorem finished_actLiteral (b : Byte) {x : LzwDec} (hx : x.Inv) {s : State} (hs : Finished s) :
    (actLiteral b x s).Ensures fun _ t => Finished t := ⟨sound_lzdOutput hx _ _ hs.1, hs.2⟩

theorem finished_actReference (c : Nat) {x : LzwDec} (hx : x.Inv) {s : State} (hs : Finished s) :
    (actReference c x s).Ensures fun _ t => Finished t := by
  unfold actReference
  split
  · exact ⟨sound_lzdOutput hx _ _ hs.1, hs.2⟩
  · split
    · trivial
    · exact ⟨sound_lzdOutput hx _ _ hs.1, hs.2⟩

theorem finished_actOn {k : CodeWord} (hk : ∀ c, k = .reference c → c < 2 ^ 32) {s : State} (hs : Sound s) :
    (actOn k s).Ensures fun _ t => Finished t := by
  refine ensures_readLx fun u x hu hx => ?_
  have hinv := (hs u hu).lx x hx
  have hw : x.width ≤ 32 := by have hmax := hinv.maxWidth.2; have hwidth := hinv.width.2; omega
  have hres : Finished (s.withRes (.num (k.value x.width))) := ⟨hs, Result.inv_num (CodeWord.value_lt hw hk)⟩
  cases k with
  | grow => exact finished_actGrow hinv hres
  | reset => exact finished_actReset hinv hres
  | literal b => exact finished_actLiteral b hinv hres
  | reference c => exact finished_actReference c hinv hres

theorem classifyCode_eq_reference {w v c : Nat} (h : classifyCode w v = .reference c) : c = v := by
  unfold classifyCode at h
  split at h
  · cases h
  · split at h
    · cases h
    · split at h
      · cases h
      · cases h; rfl

theorem finished_lzdCode {s : State} (hs : Sound s) : (lzdCode s).Ensures fun _ t => Finished t := by
  refine ensures_readLx fun u x hu hx => ?_
  split
  · exact ⟨hs, by rintro v ⟨⟩⟩
  · refine Eff.Ensures.bind (sound_readBits _ hs) fun r t ⟨ht, hv⟩ => ?_
    cases r with
    | none => exact ⟨ht.setLx (((hs u hu).lx x hx).setDone true), by rintro v ⟨⟩⟩
    | some v =>
      refine finished_actOn (fun c hc => ?_) ht
      obtain ⟨hlt, hw⟩ := hv v rfl
      rw [classifyCode_eq_reference hc]
      exact hlt.trans_le (Nat.pow_le_pow_right (by decide) hw)

theorem sound_decodeCodes (k : Nat) {s : State} (hs : Sound s) : (decodeCodes k s).Ensures fun _ t => Sound t := by
  induction k generalizing s with
  | zero =>
    refine ensures_readLx fun u x _ _ => ?_
    split
    · exact hs
    · trivial
  | succ k ih =>
    refine ensures_readLx fun u x _ _ => ?_
    split
    · exact hs
    · exact Eff.Ensures.bind (finished_lzdCode hs) fun _ _ ht => ih ht.1

theorem sound_lzwDecompress {s : State} (hs : Sound s) : (lzwDecompress s).Ensures fun _ t => Sound t :=
  Eff.Ensures.bind (sound_lzdInit hs) fun _ _ ⟨ht, _⟩ => ensures_readUnits fun _ _ => sound_decodeCodes _ ht

/-! ### Every instruction -/

theorem sound_compress (a : Algo) (W : BitVec 5) (p : BitVec 7) (m : BitVec 32) {s : State} (hs : Sound s) :
    (compress a W p m s).Ensures fun _ t => Sound t := by
  unfold compress
  split
  · trivial
  · refine Eff.Ensures.bind (P := fun _ t => Sound t) ?_ fun _ _ ht => ht
    cases a with
    | huffman => exact sound_hufCompress (s := s.withCfg _) hs
    | lzw => exact sound_lzwCompressWith _ (s := s.withCfg _) hs

theorem sound_decompress {s : State} (hs : Sound s) : (decompress s).Ensures fun _ t => Sound t := by
  refine Eff.Ensures.bind (sound_readMagic hs) fun m t ht => ?_
  split
  · exact sound_hufDecompress ht
  · exact sound_lzwDecompress ht
  · trivial

theorem finished_noResult {body : State → Eff Unit} {s : State} (h : (body s).Ensures fun _ t => Sound t) :
    (noResult body s).Ensures fun _ t => Finished t :=
  Eff.Ensures.bind h fun _ _ ht => ⟨ht, by rintro v ⟨⟩⟩

theorem finished_withResult {α : Type} {f : α → Result} {body : State → Eff α} {s : State}
    (h : (body s).Ensures fun a t => Sound t ∧ (f a).Inv) : (withResult f body s).Ensures fun _ t => Finished t :=
  Eff.Ensures.bind h fun _ _ ht => ht

/-- The answer of ReadBits fits RES (R24, R72). -/
theorem sound_readBits_result (n : Nat) {s : State} (hs : Sound s) :
    (readBits n s).Ensures fun r t => Sound t ∧ (readResult r).Inv := by
  refine (sound_readBits n hs).mono fun r t ⟨ht, hv⟩ => ⟨ht, ?_⟩
  cases r with
  | none => rintro v ⟨⟩
  | some v =>
    obtain ⟨hlt, hn⟩ := hv v rfl
    exact Result.inv_num (hlt.trans_le (Nat.pow_le_pow_right (by decide) hn))

theorem growCode_31_lt : growCode 31 < 2 ^ 32 := by decide

/-- Every instruction's body keeps the units sound and leaves a result that fits RES; a REFERENCE code word has to fit it
(R24, R106). -/
theorem finished_instrBody {i : Instr} (hi : ∀ c, i = .lzwReference c → c < 2 ^ 32) {s : State} (hs : Sound s) :
    (instrBody i s).Ensures fun _ t => Finished t := by
  cases i with
  | compress a W p m => exact finished_noResult (sound_compress a W p m hs)
  | decompress => exact finished_noResult (sound_decompress hs)
  | bwWrite n v => exact finished_noResult (sound_writeBits _ _ hs)
  | bwFlush => exact finished_noResult (sound_flush hs)
  | brRead n => exact finished_withResult (sound_readBits_result _ hs)
  | ftClear => exact finished_noResult (sound_ftClear hs)
  | ftCount b => exact finished_noResult (sound_ftCount b hs)
  | hpPush n => exact finished_noResult (sound_heapPush _ hs)
  | hpPop =>
    exact finished_withResult ((sound_heapPop hs).mono fun _ _ ⟨ht, hlt⟩ =>
      ⟨ht, Result.inv_num (hlt.trans (by decide))⟩)
  | htBuild => exact finished_noResult (sound_htBuild hs)
  | htFindcode b => exact finished_withResult ((sound_findCode b hs).mono fun _ _ ht => ⟨ht, by rintro v ⟨⟩⟩)
  | hufEncSym b => exact finished_noResult (sound_hufEncSym b hs)
  | hufDecSym =>
    exact finished_withResult ((sound_hufDecSym hs).mono fun b _ ht => ⟨ht, Result.inv_num (b.isLt.trans (by decide))⟩)
  | hufCompress => exact finished_noResult (sound_hufCompress hs)
  | hufDecompress => exact finished_noResult (sound_hufDecompress hs)
  | ldInit W =>
    exact finished_noResult ((sound_ldInit (Nat.le_of_lt_succ W.isLt) hs).mono fun _ _ ⟨ht, _⟩ => ht)
  | ldHasnext c b =>
    exact finished_withResult ((ldHasnext_ensures c b s).mono fun _ _ ht => ⟨ht ▸ hs, by rintro v ⟨⟩⟩)
  | ldGetcode c =>
    exact finished_withResult ((ldGetcode_ensures c hs).mono fun _ _ ⟨ht, hlt⟩ =>
      ⟨ht ▸ hs, Result.inv_num (hlt.trans growCode_31_lt)⟩)
  | ldAdd c b => exact finished_noResult (sound_ldAdd c b hs)
  | ldReset => exact finished_noResult (sound_ldReset hs)
  | lzcInit W p m => exact finished_noResult (sound_lzcInit W p m hs)
  | lzcEmit c => exact finished_noResult (sound_lzcEmit c hs)
  | lzcByte b => exact finished_noResult (sound_lzcByte b hs)
  | lzcFinish => exact finished_noResult (sound_lzcFinish hs)
  | lzwCompress => exact finished_noResult (sound_lzwCompress hs)
  | lzdInit =>
    exact finished_withResult ((sound_lzdInit hs).mono fun _ _ ⟨ht, hlt⟩ =>
      ⟨ht, Result.inv_num (hlt.trans (by decide))⟩)
  | lzdCode => exact finished_lzdCode hs
  | lzwDecompress => exact finished_noResult (sound_lzwDecompress hs)
  | lzwGrow => exact finished_actOn (k := .grow) (by rintro c ⟨⟩) hs
  | lzwReset => exact finished_actOn (k := .reset) (by rintro c ⟨⟩) hs
  | lzwLiteral b => exact finished_actOn (k := .literal b) (by rintro c ⟨⟩) hs
  | lzwReference c => exact finished_actOn (k := .reference c) (fun d hd => hi d (by cases hd; rfl)) hs
  | huffFile => exact finished_noResult (sound_hufDecompress hs)
  | lzwFile => exact finished_noResult (sound_lzwDecompress hs)

/-! ### The configuration (R25) -/

/-- What the invariant says of CFG. -/
def CfgLegal (s : State) : Prop := (∀ c, s.cfg = some c → c.Inv) ∧ (s.cfgReady = true → s.cfg ≠ none)

theorem CfgLegal.of_same {s t : State} (h : CfgLegal s) (hst : SameCfg s t) : CfgLegal t := by
  obtain ⟨hcfg, hready⟩ := hst
  unfold CfgLegal
  rwa [hcfg, hready]

theorem CfgLegal.of_stored {s : State} {c : Cfg} (hc : c.Inv) (h : s.cfg = some c) : CfgLegal s :=
  ⟨fun _ hd => by rw [h] at hd; cases hd; exact hc, fun _ hn => by rw [h] at hn; cases hn⟩

/-- COMPRESS stores only a legal configuration, and makes none readable that it has not stored (R111). -/
theorem cfgLegal_compress (a : Algo) (W : BitVec 5) (p : BitVec 7) (m : BitVec 32) {s : State} (h : CfgLegal s) :
    (compress a W p m s).EndsIn CfgLegal := by
  unfold compress
  split
  · exact h
  · rename_i hlegal
    simp only [Bool.or_eq_true, Bool.not_eq_true', not_or, Bool.not_eq_false, legalMaxWidth_iff, legalPct_iff] at hlegal
    have hc : ({ algo := a, maxw := W, pct := p, mins := m } : Cfg).Inv := hlegal
    refine Eff.EndsIn.mono (Eff.EndsIn.bind (P := fun t => t.cfg = some { algo := a, maxw := W, pct := p, mins := m })
      ?_ fun _ _ ht => ht) fun _ ht => .of_stored hc ht
    cases a with
    | huffman => exact (cfgFree_hufCompress.sameCfg _).mono fun _ ht => ht.1
    | lzw => exact ((cfgFree_lzwCompressWith _).sameCfg _).mono fun _ ht => ht.1

theorem cfgLegal_instrBody (i : Instr) {s : State} (h : CfgLegal s) : (instrBody i s).EndsIn CfgLegal := by
  by_cases hi : ∃ a W p m, i = .compress a W p m
  · obtain ⟨a, W, p, m, rfl⟩ := hi
    exact Eff.EndsIn.bind (cfgLegal_compress a W p m h) fun _ _ ht => ht
  · exact (sameCfg_instrBody (fun a W p m he => hi ⟨a, W, p, m, he⟩) s).mono fun _ ht => h.of_same ht

/-! ### Every step -/

theorem units_inv_start : Units.start.Inv { phase := .busy, err := .none, total := 0, resets := 0 } where
  bw := ⟨by decide, by decide⟩
  total := rfl
  ht := HuffTree.inv_empty
  hp := Heap.inv_empty _
  ld := by rintro d ⟨⟩
  le := by rintro e ⟨⟩
  lx := by rintro x ⟨⟩

theorem sound_instrStart (i : Instr) {s : State} (hs : Sound s) : Sound (instrStart i s) := by
  cases hi : isHostCommand i with
  | true =>
    rw [instrStart_host hi]
    intro u hu
    rw [startHost_units, Option.some.injEq] at hu
    exact hu ▸ units_inv_start
  | false =>
    rw [instrStart_unit hi]
    exact fun u hu => (hs u hu).of_counters rfl rfl

/-- The end of a command that completed. -/
theorem inv_withPhase_done {x : State} (hx : Finished x) (hcfg : CfgLegal x) (herr : x.stat.err = .none) :
    (x.withPhase .done).Inv where
  notBusy := by simp
  failed := by simp [herr]
  res := hx.2
  cfg := hcfg.1
  cfgReady := hcfg.2
  units := fun u hu => (hx.1 u hu).of_counters rfl rfl

/-- The end of a command that raised. -/
theorem inv_raise {e : ErrKind} (he : e ≠ .none) {x : State} (hcfg : CfgLegal x) (start : State) :
    (raise e start x).Inv where
  notBusy := by simp
  failed := by simp [he]
  res := by rw [raise_res]; rintro v ⟨⟩
  cfg := by rw [raise_cfg]; exact hcfg.1
  cfgReady := by rw [raise_cfg, raise_cfgReady]; exact hcfg.2
  units := by rw [raise_units]; rintro u ⟨⟩

theorem State.Inv.cfgLegal {s : State} (h : s.Inv) : CfgLegal s := ⟨h.cfg, h.cfgReady⟩

/-- Every instruction keeps the invariant; a REFERENCE code word has to fit RES. -/
theorem exec_keeps_inv {i : Instr} (hi : ∀ c, i = .lzwReference c → c < 2 ^ 32) {s t : State} (hs : s.Inv)
    (h : exec i s = .next t) : t.Inv := by
  have hcfg : CfgLegal (instrStart i s) := hs.cfgLegal.of_same ⟨by simp, by simp⟩
  have hend := cfgLegal_instrBody i hcfg
  have hbody := finished_instrBody hi (sound_instrStart i hs.units)
  rcases exec_eq_next h with ⟨hbusy, -⟩ | ⟨-, ⟨x, hx, rfl⟩ | ⟨e, x, hx, rfl⟩⟩
  · exact absurd hbusy hs.notBusy
  · rw [hx] at hend hbody
    exact inv_withPhase_done hbody hend (by simpa using (quiet_of_instrBody_ok hx).err)
  · rw [hx] at hend
    exact inv_raise (quiet_of_instrBody_raised hx).2 hend _

theorem execUnassigned_keeps_inv {s t : State} (hs : s.Inv) (h : execUnassigned s = .next t) : t.Inv := by
  unfold execUnassigned at h
  rw [unitCommand_ready hs.notBusy] at h
  cases h
  exact inv_raise (by decide) hs.cfgLegal _

/-- A decoder's answer that is no REFERENCE code word: no command of R59 is one. -/
def NoReference (d : Decoded) : Prop := ∀ i rest, d = .command i rest → ∀ c, i ≠ .lzwReference c

theorem noReference_withField {n : Nat} {bs : Bits} {k : BitVec n → Bits → Decoded} (h : ∀ x r, NoReference (k x r)) :
    NoReference (withField n bs k) := by
  intro i rest hd
  obtain ⟨x, r, -, hk⟩ := withField_eq_command hd
  exact h x r i rest hk

theorem noReference_command {i : Instr} (hi : ∀ c, i ≠ .lzwReference c) (rest : Bits) : NoReference (.command i rest) :=
  fun _ _ hd => by cases hd; exact hi

theorem noReference_decodeOpcode (op : Byte) (bs : Bits) : NoReference (decodeOpcode op bs) := by
  unfold decodeOpcode
  split
  case h_29 => rintro i rest ⟨⟩
  all_goals
    repeat' refine noReference_withField fun _ _ => ?_
    exact noReference_command (by rintro c ⟨⟩) _

theorem noReference_decodeCommand (bs : Bits) : NoReference (decodeCommand bs) :=
  noReference_withField noReference_decodeOpcode

theorem hostSupplies_keeps_inv {s t : State} (hs : s.Inv) {data : Bytes} (h : hostSupplies data s = .next t) : t.Inv := by
  rw [hostSupplies_ready hs.notBusy] at h
  cases h
  exact ⟨hs.notBusy, hs.failed, hs.res, hs.cfg, hs.cfgReady, hs.units⟩

theorem hostIssues_keeps_inv {s t : State} (hs : s.Inv) {cmd : Bits} (h : hostIssues cmd s = .next t) : t.Inv := by
  rcases hostIssues_cases cmd s with ⟨i, rest, hd, he⟩ | he | he <;> rw [he] at h
  · exact exec_keeps_inv (fun c hc => absurd hc (noReference_decodeCommand cmd i rest hd c)) hs h
  · exact execUnassigned_keeps_inv hs h
  · cases h

/-- What the host will do is no part of the invariant. -/
theorem State.Inv.withHost {s : State} (h : s.Inv) (more : List HostAction) : (s.withHost more).Inv :=
  ⟨h.notBusy, h.failed, h.res, h.cfg, h.cfgReady, h.units⟩

/-- Settles O12: each host action keeps the invariant, a command because its body keeps the units sound and stores no
illegal configuration, and its end sets the phase and the error together. -/
theorem everyStepKeepsTheInvariant : Obligations.EveryStepKeepsTheInvariant := by
  unfold Obligations.EveryStepKeepsTheInvariant
  intro s t hs h
  rcases hhost : s.host with - | ⟨data | - | cmd, more⟩
  · rw [step_idle hhost] at h
    cases h
    exact hs
  · rw [step_supply hhost] at h
    exact hostSupplies_keeps_inv (hs.withHost more) h
  · rw [step_feedBack hhost] at h
    exact hostSupplies_keeps_inv (hs.withHost more) h
  · rw [step_issue hhost] at h
    exact hostIssues_keeps_inv (hs.withHost more) h

end Sys2Proof.Machine
end

section

/-! ## What was written is read back (R45)

A run of ReadBits calls reads the numbers of the fields into which its widths cut the unread bits; the fields of those numbers,
put together, are the bits again. After WriteBits and Flush the unread bits begin with the ones that were written. -/

namespace Sys2Proof.Machine

/-! ### Cutting a bit sequence into fields -/

/-- The numbers of the fields into which the widths `ws` cut a bit sequence from its front. -/
def fieldNums : List Nat → Bits → List Nat
  | [], _ => []
  | w :: ws, bs => natOfBits (bs.take w) :: fieldNums ws (bs.drop w)

@[simp] theorem fieldNums_length (ws : List Nat) (bs : Bits) : (fieldNums ws bs).length = ws.length := by
  induction ws generalizing bs with
  | nil => rfl
  | cons w ws ih => rw [fieldNums, List.length_cons, ih, List.length_cons]

/-- The fields, each written at its width, are the bits that were cut. -/
theorem flatten_bitsMsb_fieldNums (ws : List Nat) (bs : Bits) (h : ws.sum ≤ bs.length) :
    (List.zipWith bitsMsb ws (fieldNums ws bs)).flatten = bs.take ws.sum := by
  induction ws generalizing bs with
  | nil => simp
  | cons w ws ih =>
    rw [List.sum_cons] at h
    have hw : (bs.take w).length = w := List.length_take_of_le (by omega)
    have hhead : bitsMsb w (natOfBits (bs.take w)) = bs.take w := by
      simpa only [hw] using bitsMsb_natOfBits (bs.take w)
    have htail := ih (bs.drop w) (by rw [List.length_drop]; omega)
    rw [fieldNums, List.zipWith_cons_cons, List.flatten_cons, hhead, htail, List.sum_cons, List.take_add]

/-- Each number fits the width of its field. -/
theorem fieldNums_lt (ws : List Nat) (bs : Bits) : ∀ wv ∈ ws.zip (fieldNums ws bs), wv.2 < 2 ^ wv.1 := by
  induction ws generalizing bs with
  | nil => simp
  | cons w ws ih =>
    rw [fieldNums, List.zip_cons_cons, List.forall_mem_cons]
    refine ⟨?_, ih _⟩
    calc natOfBits (bs.take w) < 2 ^ (bs.take w).length := natOfBits_lt _
      _ ≤ 2 ^ w := Nat.pow_le_pow_right (by decide) (List.length_take_le w bs)

/-! ### ReadBits for each width of a list (R72) -/

/-- Where enough bits are left, the calls read the fields of the unread bits and move the reader behind them. -/
theorem readSeq_ok {ws : List Nat} {s : State} {u : Units} (hws : ∀ w ∈ ws, w ≤ 32) (hu : s.units = some u)
    (h : u.br.pos + ws.sum ≤ 8 * s.input.length) :
    readSeq ws s = .ok ((fieldNums ws (bitsAhead s u)).map some)
      { s with units := some { u with br := { pos := u.br.pos + ws.sum } } } := by
  induction ws generalizing s u with
  | nil =>
    rw [List.sum_nil, Nat.add_zero, ← hu]
    rfl
  | cons w ws ih =>
    rw [List.sum_cons] at h
    obtain ⟨hw, hws⟩ := List.forall_mem_cons.mp hws
    have hrest := ih (s := { s with units := some { u with br := { pos := u.br.pos + w } } }) hws rfl
      (show u.br.pos + w + ws.sum ≤ 8 * s.input.length by omega)
    rw [readSeq, readBits_ok hw hu (by omega), Eff.bind_ok, hrest, Eff.bind_ok, fieldNums, List.sum_cons]
    simp only [bitsAhead, List.drop_drop, List.map_cons, Nat.add_assoc]

/-! ### WriteBits and Flush (R70, R71) -/

/-- Flush after WriteBits leaves OUT whole bytes: what was written before, the low `n` bits of `v`, and a pad. -/
theorem flush_writeBits_ok {n v : Nat} {s : State} {u : Units} (hn : n ≤ 32) (hu : s.units = some u) (hb : u.bw.Inv) :
    ∃ (s1 s2 : State) (u2 : Units) (pad : Bits), writeBits n v s = .ok () s1 ∧ flush s1 = .ok () s2 ∧
      s2.units = some u2 ∧ bitsOfBytes s2.out = writtenBits s.out u.bw ++ (bitsMsb n v ++ pad) := by
  obtain ⟨out, bw, hbw, -, hout, -, hwrite⟩ := writeBits_ok (v := v) hn hu hb
  obtain ⟨out', hout', -, hflush⟩ := flush_ok (s := { s with
    out := out, units := some { u with bw := bw }, stat := { s.stat with total := u.bw.total + n } }) rfl hbw
  refine ⟨_, _, _, List.replicate ((8 - bw.nacc) % 8) false, hwrite, hflush, rfl, ?_⟩
  rwa [writtenBits, bitsMsb, List.append_nil, hout, List.append_assoc] at hout'

/-- Settles O23: behind the bits that were pending, the flushed output goes on with the written ones, and reading cuts them
into fields. -/
theorem writtenBitsReadBack : Obligations.WrittenBitsReadBack := by
  unfold Obligations.WrittenBitsReadBack
  intro s u n v ws hu hb hn hsum
  obtain ⟨s1, s2, u2, pad, hwrite, hflush, hu2, hbits⟩ := flush_writeBits_ok (v := v) hn hu hb
  have hroom : (writtenBits s.out u.bw).length + ws.sum ≤ 8 * s2.out.length := by
    rw [← bitsOfBytes_length, hbits, hsum]
    simp
  have hahead : (bitsOfBytes s2.out).drop (writtenBits s.out u.bw).length = bitsMsb n v ++ pad := by
    rw [hbits, List.drop_left]
  have hwidths : ∀ w ∈ ws, w ≤ 32 := fun w hw => (List.le_sum_of_mem hw).trans (hsum.trans_le hn)
  have hread := readSeq_ok (s := { s2 with
    input := s2.out, units := some { u2 with br := { pos := (writtenBits s.out u.bw).length } } }) hwidths rfl hroom
  rw [bitsAhead, hahead] at hread
  refine ⟨s1, s2, u2, hwrite, hflush, hu2, _, _, hread, fieldNums_length _ _, ?_, fieldNums_lt _ _⟩
  rw [flatten_bitsMsb_fieldNums _ _ (by simp [hsum]), hsum, List.take_left' (bitsMsb_length n v)]

end Sys2Proof.Machine
end

section

/-! ## Decoding and encoding are inverse (R57 to R60, R65, R112) -/

namespace Sys2Proof

open Machine

/-! ### Encoding, then decoding -/

/-- Settles O1, from the lemma of each constructor. -/
theorem decodeOfEncodeIsTheInstruction : Obligations.DecodeOfEncodeIsTheInstruction := by
  unfold Obligations.DecodeOfEncodeIsTheInstruction
  intro i
  cases i with
  | compress a W p m => exact Laws.RoundTrip.compress a W p m
  | decompress => exact Laws.RoundTrip.decompress
  | bwWrite n v => exact Laws.RoundTrip.bwWrite n v
  | bwFlush => exact Laws.RoundTrip.bwFlush
  | brRead n => exact Laws.RoundTrip.brRead n
  | ftClear => exact Laws.RoundTrip.ftClear
  | ftCount b => exact Laws.RoundTrip.ftCount b
  | hpPush n => exact Laws.RoundTrip.hpPush n
  | hpPop => exact Laws.RoundTrip.hpPop
  | htBuild => exact Laws.RoundTrip.htBuild
  | htFindcode b => exact Laws.RoundTrip.htFindcode b
  | hufEncSym b => exact Laws.RoundTrip.hufEncSym b
  | hufDecSym => exact Laws.RoundTrip.hufDecSym
  | hufCompress => exact Laws.RoundTrip.hufCompress
  | hufDecompress => exact Laws.RoundTrip.hufDecompress
  | ldInit W => exact Laws.RoundTrip.ldInit W
  | ldHasnext c b => exact Laws.RoundTrip.ldHasnext c b
  | ldGetcode c => exact Laws.RoundTrip.ldGetcode c
  | ldAdd c b => exact Laws.RoundTrip.ldAdd c b
  | ldReset => exact Laws.RoundTrip.ldReset
  | lzcInit W p m => exact Laws.RoundTrip.lzcInit W p m
  | lzcEmit c => exact Laws.RoundTrip.lzcEmit c
  | lzcByte b => exact Laws.RoundTrip.lzcByte b
  | lzcFinish => exact Laws.RoundTrip.lzcFinish
  | lzwCompress => exact Laws.RoundTrip.lzwCompress
  | lzdInit => exact Laws.RoundTrip.lzdInit
  | lzdCode => exact Laws.RoundTrip.lzdCode
  | lzwDecompress => exact Laws.RoundTrip.lzwDecompress
  | lzwGrow => exact Laws.RoundTrip.lzwGrow
  | lzwReset => exact Laws.RoundTrip.lzwReset
  | lzwLiteral b => exact Laws.RoundTrip.lzwLiteral b
  | lzwReference c => exact Laws.RoundTrip.lzwReference c
  | huffFile => exact Laws.RoundTrip.huffFile
  | lzwFile => exact Laws.RoundTrip.lzwFile

/-! ### Decoding, then encoding -/

/-- The bits `w` are the word of the command `i` (R57, R58). -/
structure IsWord (w : Bits) (i : Instr) : Prop where
  bits : w = encode 9 i
  wellFormed : i.wellFormedAt 9 = true
  port : i.port 9 = .command

/-- After the bits `pre`, a decoder that reads on in `bs` and answers a command has read that command's word. -/
def Spelled (pre bs : Bits) (d : Decoded) : Prop :=
  ∀ i rest, d = .command i rest → ∃ w, bs = w ++ rest ∧ IsWord (pre ++ w) i

theorem spelled_command {pre : Bits} {i : Instr} (h : IsWord pre i) (bs : Bits) : Spelled pre bs (.command i bs) := by
  rintro j rest ⟨⟩
  exact ⟨[], rfl, by rwa [List.append_nil]⟩

theorem spelled_withField {pre bs : Bits} {n : Nat} {k : BitVec n → Bits → Decoded}
    (h : ∀ x r, Spelled (pre ++ bitsMsb n x.toNat) r (k x r)) : Spelled pre bs (withField n bs k) := by
  intro i rest hd
  obtain ⟨x, r, rfl, hk⟩ := withField_eq_command hd
  obtain ⟨w, rfl, hw⟩ := h x r i rest hk
  exact ⟨bitsMsb n x.toNat ++ w, by rw [List.append_assoc], by rwa [← List.append_assoc]⟩

/-- A cursor field holds the number of the cursor it is read as (R58). -/
@[simp] theorem fieldOfCursor_cursorOfField (c : BitVec 32) : fieldOfCursor (cursorOfField c) = c.toNat := by
  unfold cursorOfField
  split
  · rename_i hc
    rw [hc]
    rfl
  · rfl

@[simp] theorem wellFormed_cursorOfField (c : BitVec 32) : (cursorOfField c).wellFormed = true := by
  unfold cursorOfField
  split
  · rfl
  · rename_i hc
    have hne : c.toNat ≠ 0xFFFFFFFF := fun he => hc (BitVec.eq_of_toNat_eq he)
    have hlt := c.isLt
    exact decide_eq_true (by omega)

@[simp] theorem fieldOfAlgo_algoOfField (a : BitVec 1) : fieldOfAlgo (algoOfField a) = a.toNat := by
  revert a
  decide

/-- Each row of the opcode map reads the fields that the encoder writes (R57 to R59). -/
theorem spelled_decodeOpcode (op : Byte) (bs : Bits) : Spelled (bitsMsb 8 op.toNat) bs (decodeOpcode op bs) := by
  unfold decodeOpcode
  split
  case h_29 => rintro i rest ⟨⟩
  all_goals
    rename_i hop
    rw [hop]
    repeat' refine spelled_withField fun _ _ => ?_
    exact spelled_command ⟨by simp [encode], by simp [Instr.wellFormedAt], rfl⟩ _

/-- Settles O2: the decoder goes through the fields of the word that the encoder writes. -/
theorem encodeOfDecodeIsTheWord : Obligations.EncodeOfDecodeIsTheWord := by
  unfold Obligations.EncodeOfDecodeIsTheWord
  intro bs rest i hd
  obtain ⟨w, rfl, hw⟩ := spelled_withField (pre := []) (fun op r => spelled_decodeOpcode op r) i rest hd
  obtain ⟨hbits, hwf, hport⟩ := hw
  exact ⟨by rw [← hbits, List.nil_append], hwf, hport⟩

/-! ### Opcodes outside R59 -/

theorem decodeOpcode_unassigned {op : Byte} (h : op.toNat ∉ assignedOpcodes) (bs : Bits) :
    decodeOpcode op bs = .unassigned op := by
  unfold decodeOpcode
  split
  case h_29 => rfl
  all_goals
    rename_i hop
    exact absurd (by rw [hop]; decide) h

theorem decodeCommand_unassigned {op : Byte} (h : op.toNat ∉ assignedOpcodes) (rest : Bits) :
    decodeCommand (bitsMsb 8 op.toNat ++ rest) = .unassigned op := by
  rw [Laws.decodeCommand_opcode, Laws.ofNat_toNat_field, decodeOpcode_unassigned h]

/-- Settles O3: the opcode map has no row for the opcode, and the raise comes before anything else happens. -/
theorem unassignedOpcodeRaisesBadOperand : Obligations.UnassignedOpcodeRaisesBadOperand := by
  unfold Obligations.UnassignedOpcodeRaisesBadOperand
  refine ⟨by decide, by decide, fun op rest hop => ⟨decodeCommand_unassigned hop rest, fun s more hs hready => ?_⟩⟩
  rw [step_issue hs, hostIssues, decodeCommand_unassigned hop rest]
  exact (unitCommand_ready (s := s.withHost more) hready _).trans (congrArg _ (raise_clean _ _ _ rfl))

/-! ### Words and code words -/

/-- Settles O4, by running the decoder on each word. -/
theorem writtenOutWordsDecode : Obligations.WrittenOutWordsDecode := by
  unfold Obligations.WrittenOutWordsDecode
  decide

/-- Settles O5: the class is that of the first test that holds, and at width 9 or more the tests of R65 exclude each
other. -/
theorem codeWordClassesCoverEveryValueOnce : Obligations.CodeWordClassesCoverEveryValueOnce := by
  unfold Obligations.CodeWordClassesCoverEveryValueOnce
  intro w v hw _ hv
  obtain ⟨-, hpow⟩ := Laws.grow_lt hw
  unfold classifyCode growCode resetCode
  split_ifs with hgrow hreset hlit
  · simp
    omega
  · simp
    omega
  · have hmod : v % 256 = v := Nat.mod_eq_of_lt hlit
    simp [hmod]
    omega
  · simp
    omega

end Sys2Proof
end

section

/-! ## No command gets stuck in a state that meets the invariant (R57, R59, R60, R80, R97, R108, R122)

`Eff.Safe` says that a part of a command is not stuck; what the parts before it ensure is taken from the lemmas that
keep the units sound. -/

namespace Sys2Proof.Machine

/-! ### Parts that are not stuck -/

/-- The effect has a next state or a raise. -/
def Eff.Safe {α : Type} : Eff α → Prop
  | .ok _ _ => True
  | .raised _ _ => True
  | .stuck _ => False

theorem Eff.Safe.bind {α β : Type} {r : Eff α} {k : α → State → Eff β} {P : α → State → Prop} (h : r.Safe)
    (hr : r.Ensures P) (hk : ∀ a t, P a t → (k a t).Safe) : (r.bind k).Safe := by
  cases r with
  | ok a t => exact hk a t hr
  | raised e t => trivial
  | stuck f => exact h

/-- The rest of a command is safe whatever state it begins in. -/
theorem Eff.Safe.bind_any {α β : Type} {r : Eff α} {k : α → State → Eff β} (h : r.Safe)
    (hk : ∀ a t, (k a t).Safe) : (r.bind k).Safe := by
  cases r with
  | ok a t => exact hk a t
  | raised e t => trivial
  | stuck f => exact h

theorem safe_readUnits {α : Type} {s : State} {k : Units → Eff α} (h : ∀ u, s.units = some u → (k u).Safe) :
    (readUnits s k).Safe := by
  rcases readUnits_cases s k with ⟨-, e⟩ | ⟨u, hu, e⟩ <;> rw [e]
  · trivial
  · exact h u hu

theorem safe_readLd {α : Type} {s : State} {k : LzwDict → Eff α}
    (h : ∀ u d, s.units = some u → u.ld = some d → (k d).Safe) : (readLd s k).Safe := by
  rcases readLd_cases s k with e | ⟨u, d, hu, hd, e⟩ <;> rw [e]
  · trivial
  · exact h u d hu hd

theorem safe_readLe {α : Type} {s : State} {k : LzwEnc → Eff α}
    (h : ∀ u e, s.units = some u → u.le = some e → (k e).Safe) : (readLe s k).Safe := by
  rcases readLe_cases s k with e | ⟨u, x, hu, hx, e⟩ <;> rw [e]
  · trivial
  · exact h u x hu hx

theorem safe_readLx {α : Type} {s : State} {k : LzwDec → Eff α}
    (h : ∀ u x, s.units = some u → u.lx = some x → (k x).Safe) : (readLx s k).Safe := by
  rcases readLx_cases s k with e | ⟨u, x, hu, hx, e⟩ <;> rw [e]
  · trivial
  · exact h u x hu hx

/-- A loop whose passes keep `P` and are safe where `P` holds. -/
theorem safe_forEach {α : Type} {f : α → State → Eff Unit} {P : State → Prop}
    (hP : ∀ a s, P s → (f a s).Ensures fun _ t => P t) (hf : ∀ a s, P s → (f a s).Safe) (as : List α) {s : State}
    (hs : P s) : (forEach f as s).Safe := by
  induction as generalizing s with
  | nil => trivial
  | cons a as ih => exact (hf a s hs).bind (hP a s hs) fun _ t ht => ih ht

/-- A loop whose passes are safe whatever state they begin in. -/
theorem safe_forEach_any {α : Type} {f : α → State → Eff Unit} (hf : ∀ a s, (f a s).Safe) (as : List α) (s : State) :
    (forEach f as s).Safe := by
  induction as generalizing s with
  | nil => trivial
  | cons a as ih => exact (hf a s).bind_any fun _ t => ih t

theorem Eff.Ensures.and {α : Type} {r : Eff α} {P Q : α → State → Prop} (hP : r.Ensures P) (hQ : r.Ensures Q) :
    r.Ensures fun a t => P a t ∧ Q a t := by
  cases r with
  | ok a t => exact ⟨hP, hQ⟩
  | raised e t => trivial
  | stuck f => trivial

/-! ### The streams -/

theorem safe_writeBits (n v : Nat) (s : State) : (writeBits n v s).Safe := by
  rcases writeBits_cases n v s with h | ⟨u, -, -, h⟩ <;> rw [h] <;> trivial

theorem safe_flush (s : State) : (flush s).Safe := by
  refine safe_readUnits fun u _ => ?_
  split <;> trivial

theorem safe_readBits (n : Nat) (s : State) : (readBits n s).Safe := by
  rcases readBits_cases n s with h | ⟨u, -, -, ⟨-, h⟩ | ⟨-, h⟩⟩ <;> rw [h] <;> trivial

theorem safe_readOrEnd (n : Nat) (s : State) : (readOrEnd n s).Safe := by
  refine (safe_readBits n s).bind_any fun r t => ?_
  cases r <;> trivial

/-- What ReadBits does to the reader (R72): it moves on by `n` bits, or to the end when fewer are left. -/
theorem readBits_ensures (n : Nat) {s : State} {u : Units} (hu : s.units = some u) : (readBits n s).Ensures fun r t =>
    (r = none ∧ t = s.withUnits (some { u with br := { pos := 8 * s.input.length } })) ∨
    (n ≤ bitsLeft s u ∧ t = s.withUnits (some { u with br := { pos := u.br.pos + n } })) := by
  rcases readBits_cases n s with h | ⟨v, -, hv, ⟨-, h⟩ | ⟨hn, h⟩⟩ <;> rw [h]
  · trivial
  · obtain rfl := Option.some.inj (hu.symm.trans hv)
    exact .inl ⟨rfl, rfl⟩
  · obtain rfl := Option.some.inj (hu.symm.trans hv)
    exact .inr ⟨hn, rfl⟩

theorem readOrEnd_ensures (n : Nat) {s : State} {u : Units} (hu : s.units = some u) : (readOrEnd n s).Ensures fun _ t =>
    n ≤ bitsLeft s u ∧ t = s.withUnits (some { u with br := { pos := u.br.pos + n } }) := by
  refine Eff.Ensures.bind (readBits_ensures n hu) fun r t ht => ?_
  cases r with
  | none => trivial
  | some v => exact ht.resolve_left fun h => by cases h.1

/-! ### HT_BUILD (R79, R80) -/

theorem safe_heapPush (i : Nat) (s : State) : (heapPush i s).Safe := by
  refine safe_readUnits fun u _ => ?_
  split <;> trivial

/-- HP_POP is stuck only on an item outside the arena. -/
theorem safe_heapPop {s : State} {u : Units} (hu : s.units = some u) (hall : ∀ i ∈ u.hp.items, i < u.ht.n) :
    (heapPop s).Safe := by
  by_cases hnil : u.hp.items = []
  · unfold heapPop
    rw [readUnits_some hu, if_pos (by simp [Heap.size, hnil])]
    trivial
  · obtain ⟨k, -, hpop⟩ := heapPop_ok hu hnil hall
    rw [hpop]
    trivial

theorem safe_heapPop_of_sound {s : State} (hs : Sound s) : (heapPop s).Safe := by
  cases hu : s.units with
  | none => unfold heapPop; rw [readUnits_none hu]; trivial
  | some u => exact safe_heapPop hu (hs u hu).hp.allocated

theorem safe_nodeWeight {a : Nat} {s : State} (ha : ∀ u, s.units = some u → a < u.ht.n) : (nodeWeight a s).Safe := by
  refine safe_readUnits fun u hu => ?_
  rw [List.getElem?_eq_getElem (ha u hu)]
  trivial

theorem safe_buildLeaf (e : Byte × Nat) (s : State) : (buildLeaf e s).Safe := by
  unfold buildLeaf
  split
  · exact Eff.Safe.bind_any (safe_readUnits fun _ _ => trivial) fun i t => safe_heapPush i _
  · trivial

/-- A pass of the second loop: both nodes popped from the heap are in the arena. -/
theorem safe_mergeTwo {s : State} {u : Units} (hu : s.units = some u) (hall : ∀ i ∈ u.hp.items, i < u.ht.n) :
    (mergeTwo s).Safe := by
  refine (safe_heapPop hu hall).bind (heapPop_ensures hu) ?_
  rintro a - ⟨ha, rfl⟩
  have hrest : ∀ i ∈ u.hp.items.erase a, i < u.ht.n := fun i hi => hall i (List.mem_of_mem_erase hi)
  refine (safe_heapPop rfl hrest).bind (heapPop_ensures rfl) ?_
  rintro b - ⟨hb, rfl⟩
  refine (safe_nodeWeight fun v hv => Option.some.inj hv ▸ hall a ha).bind (nodeWeight_ensures a _) ?_
  rintro wa - rfl
  refine (safe_nodeWeight fun v hv => Option.some.inj hv ▸ hrest b hb).bind_any fun wb t => ?_
  exact Eff.Safe.bind_any (safe_readUnits fun _ _ => trivial) fun i t => safe_heapPush i _

/-- The second loop of R79: each pass lowers the heap's size by 1. -/
theorem safe_mergeAll (k : Nat) {s : State} {u : Units} (hs : Building s u) (hk : u.hp.size ≤ k) :
    (mergeAll k s).Safe := by
  induction k generalizing s u with
  | zero =>
    unfold mergeAll
    rw [readUnits_some hs.1, if_neg (by omega)]
    trivial
  | succ k ih =>
    obtain ⟨hu, hbare, hgrow⟩ := hs
    unfold mergeAll
    rw [readUnits_some hu]
    split
    · refine (safe_mergeTwo hu fun i => hgrow.lt_n).bind (mergeTwo_ensures hu) ?_
      rintro - t ⟨a, b, w, ha, hb, rfl⟩
      refine ih ⟨rfl, hbare, hgrow.merge w ha hb⟩ ?_
      have hpos := List.length_pos_of_mem hb
      simp only [Heap.size, insertRising_length, List.length_erase_of_mem hb, List.length_erase_of_mem ha] at hk hpos ⊢
      omega
    · trivial

theorem safe_takeRoot {s : State} {u : Units} (hs : Building s u) : (takeRoot s).Safe := by
  obtain ⟨hu, -, hgrow⟩ := hs
  unfold takeRoot
  rw [readUnits_some hu]
  split
  · exact (safe_heapPop hu fun i => hgrow.lt_n).bind_any fun _ _ => trivial
  · trivial

theorem safe_htBuild {s : State} (hs : Sound s) : (htBuild s).Safe := by
  refine safe_readUnits fun u hu => ?_
  have hstart : Building (s.withUnits (some u.bare)) u.bare := ⟨rfl, (hs u hu).bare, HuffTree.growing_empty⟩
  have hleaves := buildLeaves_ensures u.ft.entries (u.ft.entries_symbols ▸ allSymbols_nodup) hstart rfl (Nat.zero_le _)
    fun _ _ => HuffTree.empty_leafOf _
  refine (safe_forEach_any safe_buildLeaf _ _).bind hleaves ?_
  rintro - t ⟨v, hv⟩
  rw [readUnits_some hv.1]
  refine (safe_mergeAll _ hv le_rfl).bind (mergeAll_ensures _ hv) ?_
  rintro - r ⟨w, hw, -⟩
  exact safe_takeRoot hw

/-! ### Codes and the descent (R82, R84) -/

/-- Parents lie above their children, so the links from `i` end within `HT.n − i` passes. -/
theorem climb_ok {t : HuffTree} (ht : t.Inv) (k i : Nat) (hi : i < t.n) (hk : t.n - i ≤ k) (code : Bits) :
    ∃ c, climb t k i code = .ok c := by
  induction k generalizing i code with
  | zero => omega
  | succ k ih =>
    have hnode : t.node[i]? = some (t.node[i]'hi) := List.getElem?_eq_getElem hi
    unfold climb
    simp only [hnode]
    cases hp : (t.node[i]'hi).parent with
    | none => exact ⟨code, rfl⟩
    | some p =>
      obtain ⟨hlt, pn, l, r, hpn, hkind, -⟩ := ht.parent i _ p hnode hp
      simp only [hpn, hkind]
      exact ih p (HuffTree.lt_n_of_node hpn) (by omega) _

theorem safe_findCode (b : Byte) {s : State} (hs : Sound s) : (findCode b s).Safe := by
  refine safe_readUnits fun u hu => ?_
  have ht := (hs u hu).ht
  split
  · trivial
  · rename_i i hleaf
    obtain ⟨nd, hnd, -⟩ := ht.leafKind b i hleaf
    obtain ⟨c, hc⟩ := climb_ok ht u.ht.n i (HuffTree.lt_n_of_node hnd) (Nat.sub_le _ _) []
    rw [hc]
    trivial

/-- The descent of R84: each level takes a bit, and the children of a node are in the arena. -/
theorem safe_descend (k n : Nat) {s : State} {u : Units} (hu : s.units = some u) (ht : u.ht.Inv) (hn : n < u.ht.n)
    (hk : bitsLeft s u < k) : (descend k n s).Safe := by
  induction k generalizing n s u with
  | zero => omega
  | succ k ih =>
    have hnode : u.ht.node[n]? = some (u.ht.node[n]'hn) := List.getElem?_eq_getElem hn
    unfold descend
    rw [readUnits_some hu]
    simp only [hnode]
    split
    · trivial
    · rename_i left right hkind
      obtain ⟨ln, rn, hln, -, hrn, -⟩ := ht.child n _ left right hnode hkind
      refine (safe_readOrEnd 1 s).bind (readOrEnd_ensures 1 hu) ?_
      rintro v - ⟨hleft, rfl⟩
      refine ih _ rfl ht ?_ ?_
      · split
        · exact HuffTree.lt_n_of_node hln
        · exact HuffTree.lt_n_of_node hrn
      · simp only [bitsLeft, State.withUnits_input] at hk hleft ⊢
        omega

theorem safe_hufDecSym {s : State} (hs : Sound s) : (hufDecSym s).Safe := by
  refine safe_readUnits fun u hu => ?_
  have ht := (hs u hu).ht
  split
  · trivial
  · rename_i root hroot
    obtain ⟨nd, hnd, -⟩ := ht.root root hroot
    exact (safe_descend _ root hu ht (HuffTree.lt_n_of_node hnd) (Nat.lt_succ_self _)).bind_any fun _ _ => trivial

/-! ### Huffman codec -/

theorem safe_hufEncSym (b : Byte) {s : State} (hs : Sound s) : (hufEncSym b s).Safe :=
  (safe_findCode b hs).bind_any fun code t =>
    safe_forEach_any (fun _ r => safe_writeBits _ _ r) code t

theorem safe_ftCount (b : Byte) (s : State) : (ftCount b s).Safe := safe_readUnits fun _ _ => trivial

theorem safe_checkCounts (s : State) : (checkCounts s).Safe := by
  refine safe_readUnits fun u _ => ?_
  split <;> trivial

theorem safe_writeMagic (m : BitVec 32) (s : State) : (writeMagic m s).Safe :=
  safe_forEach_any (fun _ r => safe_writeBits _ _ r) (magicBytes m) s

theorem safe_writeCounts (s : State) : (writeCounts s).Safe :=
  safe_readUnits fun _ _ => safe_forEach_any (fun _ r => safe_writeBits _ _ r) _ s

theorem safe_hufCompress {s : State} (hs : Sound s) : (hufCompress s).Safe :=
  Eff.Safe.bind (r := ftClear s) trivial (sound_ftClear hs) fun _ _ hs =>
  (safe_forEach_any safe_ftCount _ _).bind (ensures_forEach (fun b _ => sound_ftCount b) _ hs) fun _ t hs =>
  (safe_checkCounts t).bind (sound_checkCounts hs) fun _ _ hs =>
  (safe_htBuild hs).bind (sound_htBuild hs) fun _ t hs =>
  (safe_writeMagic _ t).bind (sound_writeMagic _ hs) fun _ t hs =>
  (safe_writeCounts t).bind (sound_writeCounts hs) fun _ _ hs =>
  (safe_forEach (fun b _ => sound_hufEncSym b) (fun b _ => safe_hufEncSym b) _ hs).bind_any fun _ t => safe_flush t

theorem safe_decodeSymbols (k : Nat) {s : State} (hs : Sound s) : (decodeSymbols k s).Safe := by
  induction k generalizing s with
  | zero => trivial
  | succ k ih => exact (safe_hufDecSym hs).bind (sound_hufDecSym hs) fun _ _ ht => ih ht

theorem safe_readCount (b : Byte) (s : State) : (readCount b s).Safe :=
  (safe_readOrEnd _ s).bind_any fun _ _ => trivial

theorem safe_hufDecompress {s : State} (hs : Sound s) : (hufDecompress s).Safe := by
  refine (safe_forEach_any safe_readCount _ s).bind (ensures_forEach (fun b _ => sound_readCount b) _ hs)
    fun _ t ht => ?_
  refine safe_readUnits fun u _ => ?_
  simp only
  split
  · trivial
  · have hmap : Sound (t.mapUnits fun v => { v with hd := { total := u.ft.sum, emitted := 0 } }) :=
      ht.mapUnits fun v _ hv => hv.free v.br v.ft _
    exact (safe_htBuild hmap).bind (sound_htBuild hmap) fun _ _ hr => safe_decodeSymbols _ hr

/-! ### LZW dictionary and encoder (R97) -/

theorem safe_ldInit (W : Nat) (s : State) : (ldInit W s).Safe := by
  unfold ldInit
  split <;> trivial

theorem safe_ldHasnext (c : Cursor) (b : Byte) (s : State) : (ldHasnext c b s).Safe := by
  refine safe_readLd fun u d _ _ => ?_
  split <;> trivial

theorem safe_ldGetcode (c : Cursor) (s : State) : (ldGetcode c s).Safe := by
  refine safe_readLd fun u d _ _ => ?_
  split <;> trivial

theorem safe_ldAdd (c : Cursor) (b : Byte) (s : State) : (ldAdd c b s).Safe := by
  refine safe_readLd fun u d _ _ => ?_
  split
  · trivial
  · split
    · trivial
    · split <;> trivial

theorem safe_lzcInit (W : BitVec 5) (p : BitVec 7) (m : BitVec 32) (s : State) : (lzcInit W p m s).Safe := by
  unfold lzcInit
  split
  · trivial
  · exact (safe_ldInit _ s).bind_any fun _ _ => trivial

theorem HasLe.setLe {s : State} {e : LzwEnc} (h : HasLe s e) (e' : LzwEnc) : HasLe (setLe s e') e' := by
  obtain ⟨u, hu, -⟩ := h
  exact ⟨{ u with le := some e' }, by rw [setLe_units, hu]; rfl, rfl⟩

theorem HasLe.unique {s : State} {e e' : LzwEnc} (h : HasLe s e) (h' : HasLe s e') : e = e' := by
  obtain ⟨u, hu, hue⟩ := h
  obtain ⟨v, hv, hve⟩ := h'
  obtain rfl := Option.some.inj (hu.symm.trans hv)
  exact Option.some.inj (hue.symm.trans hve)

/-- The loop of R97: a code below GROW at width 31 is written before the width passes 31. -/
theorem safe_growAndWrite {c : Nat} (hc : c < growCode 31) (k : Nat) {s : State} (hs : Sound s)
    (hk : ∀ e, HasLe s e → 32 ≤ e.width + k) : (growAndWrite c (k + 1) s).Safe := by
  induction k generalizing s with
  | zero =>
    refine safe_readLe fun u e hu hue => ?_
    have he : HasLe s e := ⟨u, hu, hue⟩
    have hwidth := (hs.le he).1.width.2
    have := hk e he
    omega
  | succ k ih =>
    refine safe_readLe fun u e hu hue => ?_
    have he : HasLe s e := ⟨u, hu, hue⟩
    obtain ⟨hinv, -, -⟩ := hs.le he
    split
    · rename_i hgrow
      have hwidth : e.width ≠ 31 := fun hw => by rw [hw] at hgrow; omega
      have hle : e.width + 1 ≤ 31 := Nat.lt_of_le_of_ne hinv.width.2 hwidth
      refine (safe_writeBits _ _ s).bind (writeBits_keeps_le _ _ hs he) fun _ t ⟨ht, hte⟩ => ?_
      refine ih (ht.setLe (e' := { e with width := e.width + 1 }) hte
        ⟨⟨Nat.le_succ_of_le hinv.width.1, hle⟩, hinv.pct⟩ rfl) fun e' he' => ?_
      have := hk e he
      rw [he'.unique (hte.setLe _)]
      simp only
      omega
    · exact safe_writeBits _ _ s

theorem safe_lzcEmit (c : Cursor) {s : State} (hs : Sound s) : (lzcEmit c s).Safe := by
  refine safe_readLd fun u d hu hd => ?_
  split
  · trivial
  · rename_i n hn
    refine safe_growAndWrite ((entryCode_eq_some hn).2.trans_le ((hs u hu).ld d hd).next_le) (Config.maxRwBits + 1) hs
      fun e he => ?_
    have hwidth := (hs.le he).1.width.1
    simp only [Config.maxRwBits]
    omega

theorem safe_lzcReset (b : Byte) (s : State) : (lzcReset b s).Safe :=
  safe_readLe fun _ _ _ _ => (safe_writeBits _ _ s).bind_any fun _ _ => trivial

theorem safe_lzcRestart (b : Byte) (s : State) : (lzcRestart b s).Safe := by
  refine safe_readLe fun u e _ _ => safe_readLd fun _ d _ _ => ?_
  split
  · simp only
    split
    · exact safe_lzcReset b _
    · trivial
  · trivial

theorem safe_lzcMiss (c : Cursor) (b : Byte) {s : State} (hs : Sound s) : (lzcMiss c b s).Safe := by
  refine (safe_ldGetcode c s).bind (ldGetcode_ensures c hs) ?_
  rintro n t ⟨rfl, -⟩
  refine (safe_lzcEmit _ hs).bind_any fun _ r => safe_readLd fun u d _ _ => ?_
  split
  · trivial
  · exact safe_ldAdd c b r

theorem safe_lzcByte (b : Byte) {s : State} (hs : Sound s) : (lzcByte b s).Safe := by
  refine safe_readLe fun u e _ _ => ?_
  refine (safe_ldHasnext e.cur b s).bind (ldHasnext_ensures e.cur b s) ?_
  rintro - t rfl
  refine safe_readLd fun v d _ _ => ?_
  split
  · trivial
  · exact (safe_lzcMiss _ b hs).bind_any fun _ r => safe_lzcRestart b r

theorem safe_lzcFinish {s : State} (hs : Sound s) : (lzcFinish s).Safe := by
  refine safe_readLe fun u e _ _ => ?_
  split
  · trivial
  · exact safe_lzcEmit _ hs

theorem safe_lzwCompressWith (cfg : Cfg) {s : State} (hs : Sound s) : (lzwCompressWith cfg s).Safe :=
  (safe_lzcInit _ _ _ s).bind (sound_lzcInit _ _ _ hs) fun _ t hs =>
  (safe_writeMagic _ t).bind (sound_writeMagic _ hs) fun _ t hs =>
  (safe_writeBits _ _ t).bind (sound_writeBits _ _ hs) fun _ _ hs =>
  (safe_forEach (fun b _ => sound_lzcByte b) (fun b _ => safe_lzcByte b) _ hs).bind
    (ensures_forEach (fun b _ => sound_lzcByte b) _ hs) fun _ _ hs =>
  (safe_lzcFinish hs).bind_any fun _ t => safe_flush t

theorem safe_lzwCompress {s : State} (hs : Sound s) : (lzwCompress s).Safe := by
  unfold lzwCompress readCfg
  split
  · exact safe_lzwCompressWith _ hs
  · trivial
  · trivial

/-! ### LZW decoder (R108) -/

theorem safe_lzdInit (s : State) : (lzdInit s).Safe := by
  refine (safe_readOrEnd _ s).bind_any fun W t => ?_
  split <;> trivial

theorem safe_actOn (k : CodeWord) (s : State) : (actOn k s).Safe := by
  refine safe_readLx fun u x _ _ => ?_
  cases k with
  | grow => simp only [actGrow]; split <;> trivial
  | reset => trivial
  | literal b => trivial
  | reference c =>
    simp only [actReference]
    split
    · trivial
    · split <;> trivial

theorem safe_lzdCode (s : State) : (lzdCode s).Safe := by
  refine safe_readLx fun u x _ _ => ?_
  split
  · trivial
  · refine (safe_readBits _ s).bind_any fun r t => ?_
    cases r with
    | none => trivial
    | some v => exact safe_actOn _ t

/-- `t` has the reader of `s`, where its units are defined. -/
def SameReader (s t : State) : Prop :=
  t.input = s.input ∧ ∀ v, t.units = some v → ∃ u, s.units = some u ∧ v.br = u.br

theorem sameReader_setLx (s : State) (x : LzwDec) : SameReader s (setLx s x) := by
  refine ⟨rfl, fun v hv => ?_⟩
  obtain ⟨u, hu, rfl⟩ := Option.map_eq_some_iff.1 hv
  exact ⟨u, hu, rfl⟩

/-- Acting on a code word that has been read leaves the reader alone (R106). -/
theorem actOn_sameReader (k : CodeWord) (s : State) : (actOn k s).Ensures fun _ t => SameReader s t := by
  refine ensures_readLx fun u x _ _ => ?_
  cases k with
  | grow =>
    simp only [actGrow]
    split
    · trivial
    · exact sameReader_setLx (s.withRes _) _
  | reset => exact sameReader_setLx (s.withRes _) _
  | literal b => exact sameReader_setLx (emitBytes _ (s.withRes _)) _
  | reference c =>
    simp only [actReference]
    split
    · exact sameReader_setLx (emitBytes _ (s.withRes _)) _
    · split
      · trivial
      · exact sameReader_setLx (emitBytes _ (s.withRes _)) _

/-- Passes of the loop of R108 that are enough: the decoder is done, or fewer bits than that are left. -/
def EnoughPasses (k : Nat) (s : State) : Prop :=
  ∀ u x, s.units = some u → u.lx = some x → x.done = false → bitsLeft s u < k

/-- A pass sets `LX.done` or consumes a code word (R106). -/
theorem lzdCode_ensures {k : Nat} {s : State} (hs : Sound s) (hk : EnoughPasses (k + 1) s) {u : Units} {x : LzwDec}
    (hu : s.units = some u) (hx : u.lx = some x) (hdone : x.done = false) :
    (lzdCode s).Ensures fun _ t => EnoughPasses k t := by
  have hleft := hk u x hu hx hdone
  have hwidth := ((hs u hu).lx x hx).width.1
  unfold lzdCode
  rw [readLx_some hu hx, hdone, if_neg (by simp)]
  refine Eff.Ensures.bind (readBits_ensures x.width hu) fun r t ht => ?_
  cases r with
  | none =>
    intro v y hv hy hny
    obtain ⟨w, -, rfl⟩ := Option.map_eq_some_iff.1 hv
    obtain rfl := Option.some.inj hy
    cases hny
  | some v =>
    obtain ⟨hn, rfl⟩ := ht.resolve_left fun h => by cases h.1
    refine (actOn_sameReader _ _).mono fun _ r ⟨hin, hr⟩ v' y hv' _ _ => ?_
    obtain ⟨w, hw, hbr⟩ := hr v' hv'
    obtain rfl := Option.some.inj hw
    simp only [bitsLeft, hin, hbr, State.withUnits_input] at hleft hn ⊢
    omega

theorem safe_decodeCodes (k : Nat) {s : State} (hs : Sound s) (hk : EnoughPasses k s) : (decodeCodes k s).Safe := by
  induction k generalizing s with
  | zero =>
    refine safe_readLx fun u x hu hx => ?_
    split
    · trivial
    · rename_i hdone
      exact absurd (hk u x hu hx (by simpa using hdone)) (Nat.not_lt_zero _)
  | succ k ih =>
    refine safe_readLx fun u x hu hx => ?_
    split
    · trivial
    · rename_i hdone
      have hpass := lzdCode_ensures hs hk hu hx (by simpa using hdone)
      exact (safe_lzdCode s).bind ((finished_lzdCode hs).and hpass) fun _ t ⟨ht, hkt⟩ => ih ht.1 hkt

theorem safe_lzwDecompress {s : State} (hs : Sound s) : (lzwDecompress s).Safe := by
  refine (safe_lzdInit s).bind (sound_lzdInit hs) fun _ t ⟨ht, _⟩ => safe_readUnits fun u hu => ?_
  refine safe_decodeCodes _ ht fun v _ hv _ _ => ?_
  rw [← Option.some.inj (hu.symm.trans hv)]
  exact Nat.lt_succ_self _

/-! ### Every instruction and every step -/

theorem safe_compress (a : Algo) (W : BitVec 5) (p : BitVec 7) (m : BitVec 32) {s : State} (hs : Sound s) :
    (compress a W p m s).Safe := by
  unfold compress
  split
  · trivial
  · refine Eff.Safe.bind_any ?_ fun _ _ => trivial
    cases a with
    | huffman => exact safe_hufCompress (s := s.withCfg _) hs
    | lzw => exact safe_lzwCompressWith _ (s := s.withCfg _) hs

theorem safe_readMagic (s : State) : (readMagic s).Safe :=
  (safe_readOrEnd 8 s).bind_any fun _ s =>
  (safe_readOrEnd 8 s).bind_any fun _ s =>
  (safe_readOrEnd 8 s).bind_any fun _ s =>
  (safe_readOrEnd 8 s).bind_any fun _ _ => trivial

theorem safe_decompress {s : State} (hs : Sound s) : (decompress s).Safe := by
  refine (safe_readMagic s).bind (sound_readMagic hs) fun m t ht => ?_
  split
  · exact safe_hufDecompress ht
  · exact safe_lzwDecompress ht
  · trivial

theorem safe_noResult {body : State → Eff Unit} {s : State} (h : (body s).Safe) : (noResult body s).Safe :=
  h.bind_any fun _ _ => trivial
theorem safe_withResult {α : Type} {f : α → Result} {body : State → Eff α} {s : State} (h : (body s).Safe) :
    (withResult f body s).Safe := h.bind_any fun _ _ => trivial

theorem safe_instrBody (i : Instr) {s : State} (hs : Sound s) : (instrBody i s).Safe := by
  cases i with
  | compress a W p m => exact safe_noResult (safe_compress a W p m hs)
  | decompress => exact safe_noResult (safe_decompress hs)
  | bwWrite n v => exact safe_noResult (safe_writeBits _ _ s)
  | bwFlush => exact safe_noResult (safe_flush s)
  | brRead n => exact safe_withResult (safe_readBits _ s)
  | ftClear => trivial
  | ftCount b => exact safe_noResult (safe_ftCount b s)
  | hpPush n => exact safe_noResult (safe_heapPush _ s)
  | hpPop => exact safe_withResult (safe_heapPop_of_sound hs)
  | htBuild => exact safe_noResult (safe_htBuild hs)
  | htFindcode b => exact safe_withResult (safe_findCode b hs)
  | hufEncSym b => exact safe_noResult (safe_hufEncSym b hs)
  | hufDecSym => exact safe_withResult (safe_hufDecSym hs)
  | hufCompress => exact safe_noResult (safe_hufCompress hs)
  | hufDecompress => exact safe_noResult (safe_hufDecompress hs)
  | ldInit W => exact safe_noResult (safe_ldInit _ s)
  | ldHasnext c b => exact safe_withResult (safe_ldHasnext c b s)
  | ldGetcode c => exact safe_withResult (safe_ldGetcode c s)
  | ldAdd c b => exact safe_noResult (safe_ldAdd c b s)
  | ldReset => trivial
  | lzcInit W p m => exact safe_noResult (safe_lzcInit W p m s)
  | lzcEmit c => exact safe_noResult (safe_lzcEmit c hs)
  | lzcByte b => exact safe_noResult (safe_lzcByte b hs)
  | lzcFinish => exact safe_noResult (safe_lzcFinish hs)
  | lzwCompress => exact safe_noResult (safe_lzwCompress hs)
  | lzdInit => exact safe_withResult (safe_lzdInit s)
  | lzdCode => exact safe_lzdCode s
  | lzwDecompress => exact safe_noResult (safe_lzwDecompress hs)
  | lzwGrow => exact safe_actOn .grow s
  | lzwReset => exact safe_actOn .reset s
  | lzwLiteral b => exact safe_actOn (.literal b) s
  | lzwReference c => exact safe_actOn (.reference c) s
  | huffFile => exact safe_noResult (safe_hufDecompress hs)
  | lzwFile => exact safe_noResult (safe_lzwDecompress hs)

/-- A command that is not stuck goes on to a next state. -/
theorem finish_of_safe (start : State) {r : Eff Unit} (h : r.Safe) : ∃ t, finish start r = .next t := by
  cases r with
  | ok a t => exact ⟨_, rfl⟩
  | raised e t => exact ⟨_, rfl⟩
  | stuck f => exact h.elim

theorem exec_goes_on (i : Instr) {s : State} (hs : s.Inv) : ∃ t, exec i s = .next t := by
  rw [exec_ready hs.notBusy]
  exact finish_of_safe _ (safe_instrBody i (sound_instrStart i hs.units))

theorem withField_ne_unknownMagic {n : Nat} {bs : Bits} {k : BitVec n → Bits → Decoded}
    (h : ∀ x r, k x r ≠ .unknownMagic) : withField n bs k ≠ .unknownMagic := by
  unfold withField
  split
  · exact Decoded.noConfusion
  · exact h _ _

/-- The magic of a file does not come through the command port (R57). -/
theorem decodeCommand_ne_unknownMagic (bs : Bits) : decodeCommand bs ≠ .unknownMagic := by
  refine withField_ne_unknownMagic fun op r => ?_
  unfold decodeOpcode
  split
  all_goals
    repeat' refine withField_ne_unknownMagic fun _ _ => ?_
    exact Decoded.noConfusion

theorem hostIssues_goes_on (cmd : Bits) {s : State} (hs : s.Inv) :
    (∃ t, hostIssues cmd s = .next t) ∨
    (hostIssues cmd s = .refused .truncatedCommand ∧ decodeCommand cmd = .truncated) := by
  unfold hostIssues
  cases hd : decodeCommand cmd with
  | command i rest => exact .inl (exec_goes_on i hs)
  | unassigned op =>
    refine .inl ?_
    unfold execUnassigned
    rw [unitCommand_ready hs.notBusy]
    exact ⟨_, rfl⟩
  | truncated => exact .inr ⟨rfl, rfl⟩
  | unknownMagic => exact absurd hd (decodeCommand_ne_unknownMagic cmd)

/-- Settles O13: a supply goes on because the block is not busy, a command because its body is not stuck on sound
units. -/
theorem everyStepFromTheInvariantIsSafe : Obligations.EveryStepFromTheInvariantIsSafe := by
  unfold Obligations.EveryStepFromTheInvariantIsSafe SafeStep
  intro s hs
  rcases hhost : s.host with - | ⟨data | - | cmd, more⟩
  · exact .inl ⟨s, step_idle hhost⟩
  · rw [step_supply hhost, hostSupplies_ready (s := s.withHost more) hs.notBusy]
    exact .inl ⟨_, rfl⟩
  · rw [step_feedBack hhost, hostSupplies_ready (s := s.withHost more) hs.notBusy]
    exact .inl ⟨_, rfl⟩
  · rw [step_issue hhost]
    exact (hostIssues_goes_on cmd (hs.withHost more)).imp_right fun ⟨hr, hd⟩ => ⟨hr, cmd, more, rfl, hd⟩

end Sys2Proof.Machine
end

section

/-! ## Commands that raise before they change anything (R60, R61, R67, R106, R112, R113, R115) -/

namespace Sys2Proof.Machine

/-! ### The end of a unit command, and of a host command -/

/-- A unit command whose body completes. -/
theorem exec_unit_ok {i : Instr} {s t : State} (hi : isHostCommand i = false) (hs : s.stat.phase ≠ .busy)
    (h : instrBody i (startUnit s) = .ok () t) : exec i s = .next (t.withPhase .done) := by
  rw [exec_ready hs, instrStart_unit hi, h]
  rfl

/-- A unit command whose body raises before it sinks a byte. -/
theorem exec_unit_raised {i : Instr} {s t : State} {e : ErrKind} (hi : isHostCommand i = false)
    (hs : s.stat.phase ≠ .busy) (h : instrBody i (startUnit s) = .raised e t) (hout : t.out = s.out) :
    exec i s = .next (raisedClean t e) := by
  rw [exec_ready hs, instrStart_unit hi, h]
  exact congrArg _ (raise_clean e (startUnit s) t (congrArg List.length hout))

/-- A unit command whose body raises before it changes anything. -/
theorem exec_unit_raises {i : Instr} {s : State} {e : ErrKind} (hi : isHostCommand i = false)
    (hs : s.stat.phase ≠ .busy) (h : instrBody i (startUnit s) = .raised e (startUnit s)) :
    exec i s = .next (raisedClean s e) := exec_unit_raised (t := startUnit s) hi hs h rfl

theorem noResult_ok {body : State → Eff Unit} {s t : State} (h : body s = .ok () t) :
    noResult body s = .ok () (t.withRes .none) := by rw [noResult, h, Eff.bind_ok]

theorem noResult_raised {body : State → Eff Unit} {s t : State} {e : ErrKind} (h : body s = .raised e t) :
    noResult body s = .raised e t := by rw [noResult, h, Eff.bind_raised]

theorem withResult_raised {α : Type} {f : α → Result} {body : State → Eff α} {s t : State} {e : ErrKind}
    (h : body s = .raised e t) : withResult f body s = .raised e t := by rw [withResult, h, Eff.bind_raised]

/-! ### Undefined units (R61) -/

section
variable {s : State} (hu : s.units = none)
include hu

theorem readLd_undefined {α : Type} (k : LzwDict → Eff α) : readLd s k = .raised .badOperand s := readUnits_none hu _
theorem readLe_undefined {α : Type} (k : LzwEnc → Eff α) : readLe s k = .raised .badOperand s := readUnits_none hu _
theorem readLx_undefined {α : Type} (k : LzwDec → Eff α) : readLx s k = .raised .badOperand s := readUnits_none hu _

/-- A write leaves undefined units undefined (log entry 8). -/
theorem mapUnits_undefined (f : Units → Units) : s.mapUnits f = s := by
  rw [State.mapUnits, hu, Option.map_none, ← hu]
  rfl

theorem writeBits_undefined (n v : Nat) : writeBits n v s = .raised .badOperand s := by
  rcases writeBits_cases n v s with h | ⟨u, -, hsome, -⟩
  · exact h
  · cases hu.symm.trans hsome

theorem readBits_undefined (n : Nat) : readBits n s = .raised .badOperand s := by
  rcases readBits_cases n s with h | ⟨u, -, hsome, -⟩
  · exact h
  · cases hu.symm.trans hsome

theorem readOrEnd_undefined (n : Nat) : readOrEnd n s = .raised .badOperand s := by
  rw [readOrEnd, readBits_undefined hu, Eff.bind_raised]

/-- The counts are cleared without a read; the first symbol counted, or else the check of the counts, reads them (R85).
-/
theorem hufCompress_undefined : hufCompress s = .raised .badOperand s := by
  unfold hufCompress ftClear
  rw [mapUnits_undefined hu, Eff.bind_ok]
  cases s.input with
  | nil => rw [forEach_nil, Eff.bind_ok, checkCounts, readUnits_none hu, Eff.bind_raised]
  | cons b x => rw [forEach_cons, ftCount, readUnits_none hu, Eff.bind_raised, Eff.bind_raised]

theorem hufDecompress_undefined : hufDecompress s = .raised .badOperand s := by
  have hsymbols : allSymbols = 0 :: allSymbols.tail := rfl
  rw [hufDecompress, hsymbols, forEach_cons, readCount, readOrEnd_undefined hu]
  rfl

theorem lzdInit_undefined : lzdInit s = .raised .badOperand s := by
  rw [lzdInit, readOrEnd_undefined hu, Eff.bind_raised]

theorem lzwDecompress_undefined : lzwDecompress s = .raised .badOperand s := by
  rw [lzwDecompress, lzdInit_undefined hu, Eff.bind_raised]

/-- R61, third case: the first thing these bodies do that shows is to read a unit. -/
theorem instrBody_undefined {i : Instr} (hi : readsUnits i = true) : instrBody i s = .raised .badOperand s := by
  cases i with
  | bwWrite n v => exact noResult_raised (writeBits_undefined hu _ _)
  | bwFlush => exact noResult_raised (readUnits_none hu _)
  | brRead n => exact withResult_raised (readBits_undefined hu _)
  | ftCount b => exact noResult_raised (readUnits_none hu _)
  | hpPush n => exact noResult_raised (readUnits_none hu _)
  | hpPop => exact withResult_raised (readUnits_none hu _)
  | htBuild => exact noResult_raised (readUnits_none hu _)
  | htFindcode b => exact withResult_raised (readUnits_none hu _)
  | hufEncSym b => exact noResult_raised (by rw [hufEncSym, findCode, readUnits_none hu, Eff.bind_raised])
  | hufDecSym => exact withResult_raised (readUnits_none hu _)
  | hufCompress => exact noResult_raised (hufCompress_undefined hu)
  | hufDecompress => exact noResult_raised (hufDecompress_undefined hu)
  | ldHasnext c b => exact withResult_raised (readLd_undefined hu _)
  | ldGetcode c => exact withResult_raised (readLd_undefined hu _)
  | ldAdd c b => exact noResult_raised (readLd_undefined hu _)
  | lzcEmit c => exact noResult_raised (readLd_undefined hu _)
  | lzcByte b => exact noResult_raised (readLe_undefined hu _)
  | lzcFinish => exact noResult_raised (readLe_undefined hu _)
  | lzdInit => exact withResult_raised (lzdInit_undefined hu)
  | lzdCode => exact readLx_undefined hu _
  | lzwDecompress => exact noResult_raised (lzwDecompress_undefined hu)
  | lzwGrow => exact readLx_undefined hu _
  | lzwReset => exact readLx_undefined hu _
  | lzwLiteral b => exact readLx_undefined hu _
  | lzwReference c => exact readLx_undefined hu _
  | huffFile => exact noResult_raised (hufDecompress_undefined hu)
  | lzwFile => exact noResult_raised (lzwDecompress_undefined hu)
  | compress | decompress | ftClear | ldInit | ldReset | lzcInit | lzwCompress => cases hi

end

theorem not_host_of_readsUnits {i : Instr} (h : readsUnits i = true) : isHostCommand i = false := by
  cases i with
  | compress | decompress => cases h
  | _ => rfl

/-- LD_INIT of a legal width only writes (R89). -/
theorem ldInit_legal {W : Nat} (hW : 9 ≤ W) (s : State) :
    ldInit W s = .ok () (setLd s { child := [], next := Config.firstCode, W := W, last := lastCodeAt W }) := by
  rw [ldInit, (legalMaxWidth_iff W).2 hW]
  rfl

/-- LZC_INIT with legal operands only writes (R96). -/
theorem lzcInit_legal {W : BitVec 5} {p : BitVec 7} (hW : 9 ≤ W.toNat) (hp : p.toNat ≤ 100) (m : BitVec 32)
    (s : State) :
    lzcInit W p m s = .ok ()
      ((setLe (setLd s { child := [], next := Config.firstCode, W := W.toNat, last := lastCodeAt W.toNat })
        { cur := .root, width := Config.initWidth, hits := 0, misses := 0, resets := 0, pct := p,
          mins := m }).withResets 0) := by
  rw [lzcInit, (legalMaxWidth_iff W.toNat).2 hW, (legalPct_iff p).2 hp, ldInit_legal hW]
  rfl

theorem lzcInit_undefined {s : State} (hu : s.units = none) {W : BitVec 5} {p : BitVec 7} (hW : 9 ≤ W.toNat)
    (hp : p.toNat ≤ 100) (m : BitVec 32) : lzcInit W p m s = .ok () (s.withResets 0) := by
  rw [lzcInit_legal hW hp, setLd, mapUnits_undefined hu, setLe, mapUnits_undefined hu]

/-- The encoder is initialised without a read; the first magic byte reads the BitWriter (R103). -/
theorem lzwCompressWith_undefined {s : State} (hu : s.units = none) {c : Cfg} (hc : c.Inv) :
    lzwCompressWith c s = .raised .badOperand (s.withResets 0) := by
  obtain ⟨hW, hp⟩ := hc
  have hmagic : magicBytes Config.lzwMagic =
      magicByte Config.lzwMagic 0 :: [1, 2, 3].map (magicByte Config.lzwMagic) := rfl
  rw [lzwCompressWith, lzcInit_undefined hu hW hp, Eff.bind_ok, writeMagic, hmagic, forEach_cons,
    writeBits_undefined (s := s.withResets 0) hu]
  rfl

/-- Settles O16: the first thing such a body does that shows is to read an undefined unit. -/
theorem undefinedUnitsRaiseBadOperand : Obligations.UndefinedUnitsRaiseBadOperand := by
  unfold Obligations.UndefinedUnitsRaiseBadOperand
  refine fun s hs hu => ⟨fun i hi => ?_, fun c hcfg hready hc => ?_⟩
  · exact exec_unit_raises (not_host_of_readsUnits hi) hs (instrBody_undefined (s := startUnit s) hu hi)
  · refine exec_unit_raised (t := (startUnit s).withResets 0) rfl hs (noResult_raised ?_) rfl
    rw [lzwCompress, readCfg_ready (s := startUnit s) hready hcfg, lzwCompressWith_undefined (s := startUnit s) hu hc]

/-! ### Writes while the units are undefined (log entries 8 and 9) -/

theorem mapUnits_some {s : State} {u : Units} (hu : s.units = some u) (f : Units → Units) :
    s.mapUnits f = s.withUnits (some (f u)) := by rw [State.mapUnits, hu, Option.map_some]

/-- LD_RESET where `LD` alone is undefined changes nothing. -/
theorem ldReset_no_ld {s : State} {u : Units} (hu : s.units = some u) (hld : u.ld = none) : ldReset s = .ok () s := by
  rw [ldReset, mapUnits_some hu, hld, Option.map_none, ← hld, ← hu]
  rfl

theorem ldReset_undefined {s : State} (hu : s.units = none) : ldReset s = .ok () s := by
  rw [ldReset, mapUnits_undefined hu]

/-- A unit command whose body changes nothing but, it may be, `STAT.RESETS`. -/
theorem exec_noResult_idle {i : Instr} {body : State → Eff Unit} {s t : State} (hi : isHostCommand i = false)
    (hbody : instrBody i = noResult body) (hs : s.stat.phase ≠ .busy) (h : body (startUnit s) = .ok () (startUnit t)) :
    exec i s = .next (completed t .none t.units) :=
  exec_unit_ok (t := (startUnit t).withRes .none) hi hs (by rw [hbody, noResult_ok h])

/-- Settles O17: none of these bodies reads a unit, and their writes leave undefined units undefined. -/
theorem writesLeaveUndefinedUnitsUndefined : Obligations.WritesLeaveUndefinedUnitsUndefined := by
  unfold Obligations.WritesLeaveUndefinedUnitsUndefined
  refine ⟨fun s u ⟨hs, hu⟩ hld => ?_, fun s hs hu => ?_⟩
  · rw [← hu]
    exact exec_noResult_idle rfl rfl hs (ldReset_no_ld (s := startUnit s) hu hld)
  · have hstart : (startUnit s).units = none := hu
    rw [← hu]
    refine ⟨?_, ?_, fun W hW => ?_, fun W p m hW hp => ?_⟩
    · exact exec_noResult_idle rfl rfl hs (congrArg _ (mapUnits_undefined hstart _))
    · exact exec_noResult_idle rfl rfl hs (ldReset_undefined hstart)
    · refine exec_noResult_idle rfl rfl hs ((ldInit_legal hW _).trans ?_)
      rw [setLd, mapUnits_undefined hstart]
    · exact exec_noResult_idle (t := s.withResets 0) rfl rfl hs (lzcInit_undefined hstart hW hp m)

/-! ### LD, LE, LX and CFG before their initialising command (R25, R61, R126) -/

/-- LZC_EMIT raises `BadOperand` without `LE`, whether it gets as far as reading it or not (R97). -/
theorem lzcEmit_no_le {s : State} {u : Units} (hu : s.units = some u) (hle : u.le = none) (c : Cursor) :
    lzcEmit c s = .raised .badOperand s := by
  unfold lzcEmit
  rcases readLd_cases s _ with h | ⟨v, d, -, -, h⟩ <;> rw [h]
  split
  · rfl
  · exact readLe_none hu hle _

/-- Settles O18: reading the undefined register is the first thing each body does. -/
theorem uninitialisedUnitsRaiseBadOperand : Obligations.UninitialisedUnitsRaiseBadOperand := by
  unfold Obligations.UninitialisedUnitsRaiseBadOperand
  refine ⟨fun s hs hcfg => exec_unit_raises rfl hs (noResult_raised (readCfg_undefined (s := startUnit s) hcfg _)), ?_⟩
  rintro s u ⟨hs, hu⟩
  have hstart : (startUnit s).units = some u := hu
  refine ⟨fun hld c b => ⟨?_, ?_, ?_⟩, fun hle c b => ⟨?_, ?_, ?_⟩, fun hlx => ⟨?_, fun k => ?_⟩⟩
  · exact exec_unit_raises rfl hs (withResult_raised (readLd_none hstart hld _))
  · exact exec_unit_raises rfl hs (withResult_raised (readLd_none hstart hld _))
  · exact exec_unit_raises rfl hs (noResult_raised (readLd_none hstart hld _))
  · exact exec_unit_raises rfl hs (noResult_raised (lzcEmit_no_le hstart hle c))
  · exact exec_unit_raises rfl hs (noResult_raised (readLe_none hstart hle _))
  · exact exec_unit_raises rfl hs (noResult_raised (readLe_none hstart hle _))
  · exact exec_unit_raises (i := .lzdCode) rfl hs (readLx_none hstart hlx _)
  · cases k <;> exact exec_unit_raises rfl hs (readLx_none hstart hlx _)

/-! ### The control codes (R66, R106) -/

theorem actOn_grow {s : State} {u : Units} {x : LzwDec} (hu : s.units = some u) (hx : u.lx = some x) :
    actOn .grow s = actGrow x (s.withRes (.num (growCode x.width))) := by rw [actOn, readLx_some hu hx]; rfl

theorem actOn_reset {s : State} {u : Units} {x : LzwDec} (hu : s.units = some u) (hx : u.lx = some x) :
    actOn .reset s = actReset x (s.withRes (.num (resetCode x.width))) := by rw [actOn, readLx_some hu hx]; rfl

theorem setLx_some {s : State} {u : Units} (hu : s.units = some u) (x : LzwDec) :
    setLx s x = s.withUnits (some { u with lx := some x }) := mapUnits_some hu _

/-- Settles O52: the body sets RES to the value of the code word and then changes `LX` alone, or raises. -/
theorem lzwControlCodesChangeTheWidth : Obligations.LzwControlCodesChangeTheWidth := by
  unfold Obligations.LzwControlCodesChangeTheWidth
  rintro s u x ⟨hs, hu⟩ hx
  have hstart : ∀ r, ((startUnit s).withRes r).units = some u := fun _ => hu
  have hgrow := actOn_grow (s := startUnit s) hu hx
  refine ⟨fun hw => ?_, fun hw => ?_, ?_⟩
  · rw [actGrow, if_neg (by omega), setLx_some (hstart _)] at hgrow
    exact exec_unit_ok (i := .lzwGrow) rfl hs hgrow
  · rw [actGrow, if_pos hw] at hgrow
    exact exec_unit_raised (t := (startUnit s).withRes (.num (growCode x.width))) rfl hs hgrow rfl
  · have hreset := actOn_reset (s := startUnit s) hu hx
    rw [actReset, setLx_some (hstart _)] at hreset
    exact exec_unit_ok (i := .lzwReset) rfl hs hreset

end Sys2Proof.Machine
end

section

/-! ## No Huffman code is the beginning of another (R63) -/

namespace Sys2Proof.Machine

/-- Following `x` and then `y` from a node. -/
theorem HuffTree.walk_append (t : HuffTree) (n : Nat) (x y : Bits) :
    t.walk n (x ++ y) = (t.walk n x).bind fun m => t.walk m y := by
  induction x generalizing n with
  | nil => rfl
  | cons b x ih =>
    rw [List.cons_append, HuffTree.walk, HuffTree.walk]
    cases t.node[n]? with
    | none => rfl
    | some nd =>
      simp only
      cases nd.kind with
      | leaf c => rfl
      | internal l r => exact ih _

/-- No branch leads on from a leaf. -/
theorem HuffTree.walk_from_leaf {t : HuffTree} {n m : Nat} {nd : Node} {b : Byte} (hnd : t.node[n]? = some nd)
    (hk : nd.kind = .leaf b) {x : Bits} (h : t.walk n x = some m) : x = [] ∧ m = n := by
  cases x with
  | nil => exact ⟨rfl, (Option.some.inj h).symm⟩
  | cons c x =>
    rw [HuffTree.walk, hnd] at h
    simp only [hk] at h
    cases h

/-- Settles O31: the shorter code ends at a leaf, where the longer one would have to go on. -/
theorem huffmanCodesFormAPrefixCode : Obligations.HuffmanCodesFormAPrefixCode := by
  unfold Obligations.HuffmanCodesFormAPrefixCode
  rintro t b c x y ht ⟨r, i, hr, hleaf, hx⟩ ⟨r', j, hr', hleaf', hy⟩ hbc ⟨z, rfl⟩
  obtain rfl := Option.some.inj (hr.symm.trans hr')
  obtain ⟨nd, hnd, hk⟩ := ht.leafKind b i hleaf
  obtain ⟨nd', hnd', hk'⟩ := ht.leafKind c j hleaf'
  rw [HuffTree.walk_append, hx] at hy
  obtain ⟨-, rfl⟩ := HuffTree.walk_from_leaf hnd hk hy
  obtain rfl := Option.some.inj (hnd.symm.trans hnd')
  exact hbc (NodeKind.leaf.inj (hk.symm.trans hk'))

end Sys2Proof.Machine
end

section

/-! ## Reading the bits ahead (R44, R72, R112)

What ReadBits does, in terms of the bits that are left: it takes them from the front. -/

namespace Sys2Proof

/-- A number's bits are those of its upper part and then those of its lower part. -/
theorem bitsMsb_split (n k v : Nat) : bitsMsb (n + k) v = bitsMsb n (v / 2 ^ k) ++ bitsMsb k v := by
  rw [← bitsMsb_mod k v, ← bitsMsb_append n k _ _ (Nat.mod_lt _ (Nat.two_pow_pos k)), Nat.div_add_mod']

/-- The four bytes of a number, the most significant first. -/
theorem bitsMsb_four_bytes (v : Nat) : bitsMsb 32 v =
    bitsMsb 8 (v / 2 ^ 24) ++ (bitsMsb 8 (v / 2 ^ 16) ++ (bitsMsb 8 (v / 2 ^ 8) ++ bitsMsb 8 v)) := by
  rw [bitsMsb_split 8 24, bitsMsb_split 8 16, bitsMsb_split 8 8]

end Sys2Proof

namespace Sys2Proof.Machine

@[simp] theorem State.withUnits_withUnits (s : State) (x y : Option Units) :
    (s.withUnits x).withUnits y = s.withUnits y := rfl

/-- The units after `n` more bits have been read. -/
def Units.skip (u : Units) (n : Nat) : Units := { u with br := { pos := u.br.pos + n } }

theorem Units.skip_skip (u : Units) (m n : Nat) : (u.skip m).skip n = u.skip (m + n) := by
  simp only [Units.skip, Nat.add_assoc]

theorem bitsAhead_length (s : State) (u : Units) : (bitsAhead s u).length = bitsLeft s u := by
  simp [bitsAhead, bitsLeft]

theorem bitsAhead_skip (s : State) (u : Units) (n : Nat) : bitsAhead s (u.skip n) = (bitsAhead s u).drop n := by
  simp [bitsAhead, Units.skip, List.drop_drop]

/-- The bits ahead begin with an `n`-bit number: it is read. -/
theorem readBits_next {n v : Nat} {s : State} {u : Units} {rest : Bits} (hpos : 0 < n) (hn : n ≤ 32)
    (hu : s.units = some u) (h : bitsAhead s u = bitsMsb n v ++ rest) :
    readBits n s = .ok (some (v % 2 ^ n)) (s.withUnits (some (u.skip n))) := by
  have hlen := bitsAhead_length s u
  rw [h, List.length_append, bitsMsb_length, bitsLeft] at hlen
  rw [readBits_ok hn hu (by omega), h, List.take_left' (bitsMsb_length n v), natOfBits_bitsMsb]
  rfl

/-- Fewer than `n` bits are ahead: they are lost. -/
theorem readBits_short {n : Nat} {s : State} {u : Units} (hn : n ≤ 32) (hu : s.units = some u)
    (h : bitsLeft s u < n) :
    readBits n s = .ok none (s.withUnits (some { u with br := { pos := 8 * s.input.length } })) := by
  unfold bitsLeft at h
  exact readBits_exhausted hn hu (by omega) (by omega)

theorem readOrEnd_next {n v : Nat} {s : State} {u : Units} {rest : Bits} (hpos : 0 < n) (hn : n ≤ 32)
    (hu : s.units = some u) (h : bitsAhead s u = bitsMsb n v ++ rest) :
    readOrEnd n s = .ok (v % 2 ^ n) (s.withUnits (some (u.skip n))) := by
  rw [readOrEnd, readBits_next hpos hn hu h, Eff.bind_ok]

/-- After a number has been read, what followed it is ahead. -/
theorem bitsAhead_skip_bitsMsb {s : State} {u : Units} {n v : Nat} {rest : Bits}
    (h : bitsAhead s u = bitsMsb n v ++ rest) : bitsAhead s (u.skip n) = rest := by
  rw [bitsAhead_skip, h, List.drop_left' (bitsMsb_length n v)]

/-! ### Magics (R44, R112) -/

theorem bitsOfBytes_magicBytes (m : BitVec 32) : bitsOfBytes (magicBytes m) = bitsMsb 32 m.toNat := by
  have hbyte : ∀ k, bitsMsb 8 (magicByte m k).toNat = bitsMsb 8 (m.toNat / 2 ^ (24 - 8 * k)) := fun k => by
    rw [magicByte, BitVec.toNat_setWidth, bitsMsb_mod, BitVec.toNat_ushiftRight, Nat.shiftRight_eq_div_pow]
  have hbytes : magicBytes m = [magicByte m 0, magicByte m 1, magicByte m 2, magicByte m 3] := rfl
  rw [hbytes, bitsMsb_four_bytes]
  simp [bitsOfBytes_cons, hbyte]

/-- The bits ahead begin with a magic: it is read. -/
theorem readMagic_next {m : BitVec 32} {s : State} {u : Units} {rest : Bits} (hu : s.units = some u)
    (h : bitsAhead s u = bitsMsb 32 m.toNat ++ rest) : readMagic s = .ok m (s.withUnits (some (u.skip 32))) := by
  rw [bitsMsb_four_bytes] at h
  simp only [List.append_assoc] at h
  have h1 := bitsAhead_skip_bitsMsb h
  have h2 := bitsAhead_skip_bitsMsb h1
  have h3 := bitsAhead_skip_bitsMsb h2
  rw [readMagic, readOrEnd_next (by decide) (by decide) hu h, Eff.bind_ok,
    readOrEnd_next (s := s.withUnits (some (u.skip 8))) (by decide) (by decide) rfl h1, Eff.bind_ok,
    State.withUnits_withUnits,
    readOrEnd_next (s := s.withUnits (some ((u.skip 8).skip 8))) (by decide) (by decide) rfl h2, Eff.bind_ok,
    State.withUnits_withUnits,
    readOrEnd_next (s := s.withUnits (some (((u.skip 8).skip 8).skip 8))) (by decide) (by decide) rfl h3, Eff.bind_ok]
  simp only [State.withUnits_withUnits, Units.skip_skip]
  have hm := m.isLt
  refine congrArg (fun x => Eff.ok x (s.withUnits (some (u.skip 32)))) (BitVec.eq_of_toNat_eq ?_)
  rw [BitVec.toNat_ofNat]
  omega

/-! ### An input that ends too soon -/

/-- The effect raises `UnexpectedEndOfStream` after it has changed the units alone. -/
def EndsShort {α : Type} (s : State) (r : Eff α) : Prop :=
  ∃ v, r = .raised .unexpectedEndOfStream (s.withUnits v)

theorem EndsShort.bind {α β : Type} {s : State} {r : Eff α} (h : EndsShort s r) (k : α → State → Eff β) :
    EndsShort s (r.bind k) := by
  obtain ⟨v, rfl⟩ := h
  exact ⟨v, rfl⟩

/-- A read comes to the end of the input, or what follows it does with the bits that are left then. -/
theorem endsShort_readOrEnd {α : Type} {n : Nat} (hpos : 0 < n) (hn : n ≤ 32) {s : State} {u : Units}
    (hu : s.units = some u) {k : Nat → State → Eff α}
    (hk : ∀ v, n ≤ bitsLeft s u → EndsShort s (k v (s.withUnits (some (u.skip n))))) :
    EndsShort s ((readOrEnd n s).bind k) := by
  by_cases hleft : bitsLeft s u < n
  · exact ⟨_, by rw [readOrEnd, readBits_short hn hu hleft]; rfl⟩
  · have hroom : u.br.pos + n ≤ 8 * s.input.length := by unfold bitsLeft at hleft; omega
    rw [readOrEnd, readBits_ok hn hu hroom]
    exact hk _ (by omega)

@[simp] theorem bitsLeft_withUnits (s : State) (x : Option Units) (u : Units) :
    bitsLeft (s.withUnits x) u = bitsLeft s u := rfl

theorem bitsLeft_skip (s : State) (u : Units) (n : Nat) : bitsLeft s (u.skip n) = bitsLeft s u - n := by
  simp only [bitsLeft, Units.skip]
  omega

/-- What ends short after another change of the units ends short. -/
theorem EndsShort.of_withUnits {α : Type} {s : State} {v : Option Units} {r : Eff α} (h : EndsShort (s.withUnits v) r) :
    EndsShort s r := h

/-- Four bytes cannot be read from fewer than 32 bits (R112). -/
theorem endsShort_readMagic {s : State} {u : Units} (hu : s.units = some u) (h : bitsLeft s u < 32) :
    EndsShort s (readMagic s) := by
  refine endsShort_readOrEnd (by decide) (by decide) hu fun _ h1 => ?_
  refine EndsShort.of_withUnits (endsShort_readOrEnd (by decide) (by decide) rfl fun _ h2 => ?_)
  refine EndsShort.of_withUnits (endsShort_readOrEnd (by decide) (by decide) rfl fun _ h3 => ?_)
  refine EndsShort.of_withUnits (endsShort_readOrEnd (by decide) (by decide) rfl fun _ h4 => ?_)
  simp only [bitsLeft_withUnits, bitsLeft_skip] at h2 h3 h4
  omega

/-- A count is 32 bits, so `k` counts cannot be read from fewer than `32 k` bits (R86). -/
theorem endsShort_readCounts (bs : List Byte) {s : State} {u : Units} (hu : s.units = some u)
    (h : bitsLeft s u < 32 * bs.length) : EndsShort s (forEach readCount bs s) := by
  induction bs generalizing s u with
  | nil => exact absurd h (Nat.not_lt_zero _)
  | cons b bs ih =>
    rw [forEach_cons, readCount, Eff.bind_assoc]
    refine endsShort_readOrEnd (by decide) (by decide) hu fun v hv => ?_
    refine EndsShort.of_withUnits (ih (u := { u.skip 32 with ft := u.ft.set b v }) rfl ?_)
    change bitsLeft s (u.skip 32) < _
    rw [bitsLeft_skip]
    rw [List.length_cons] at h
    simp only [Config.countBits] at hv
    omega

theorem endsShort_hufDecompress {s : State} {u : Units} (hu : s.units = some u) (h : bitsLeft s u < 8192) :
    EndsShort s (hufDecompress s) :=
  (endsShort_readCounts allSymbols hu (by simpa [allSymbols, Config.nsym] using h)).bind _

theorem endsShort_lzwDecompress {s : State} {u : Units} (hu : s.units = some u) (h : bitsLeft s u < 5) :
    EndsShort s (lzwDecompress s) := by
  refine EndsShort.bind (endsShort_readOrEnd (by decide) (by decide) hu fun v hv => ?_) _
  exact absurd h (Nat.not_lt.2 hv)

/-! ### DECOMPRESS (R112, R113) -/

/-- A host command that raises after it has changed the units alone. -/
theorem exec_host_raised {i : Instr} {s : State} {e : ErrKind} {v : Option Units} (hi : isHostCommand i = true)
    (hs : s.stat.phase ≠ .busy) (h : instrBody i (startHost s) = .raised e ((startHost s).withUnits v)) :
    exec i s = .next (raisedAfterStart s e) := by
  rw [exec_ready hs, instrStart_host hi, h]
  exact congrArg _ (raise_clean e _ _ rfl)

theorem exec_decompress_endsShort {s : State} (hs : s.stat.phase ≠ .busy)
    (h : EndsShort (startHost s) (decompress (startHost s))) :
    exec .decompress s = .next (raisedAfterStart s .unexpectedEndOfStream) := by
  obtain ⟨v, hv⟩ := h
  exact exec_host_raised rfl hs (noResult_raised hv)

/-- After START the whole input is ahead. -/
theorem bitsAhead_start (s : State) : bitsAhead (startHost s) Units.start = bitsOfBytes s.input := List.drop_zero

/-- The state of DECOMPRESS after it has read the magic. -/
def pastMagic (s : State) : State := (startHost s).withUnits (some (Units.start.skip 32))

section
variable {s : State} {m : BitVec 32} {rest : Bytes} (h : s.input = magicBytes m ++ rest)
include h

theorem bitsAhead_magic : bitsAhead (startHost s) Units.start = bitsMsb 32 m.toNat ++ bitsOfBytes rest := by
  rw [bitsAhead_start, h, bitsOfBytes_append, bitsOfBytes_magicBytes]

theorem readMagic_start : readMagic (startHost s) = .ok m (pastMagic s) :=
  readMagic_next (startHost_units s) (bitsAhead_magic h)

theorem bitsAhead_pastMagic : bitsAhead (pastMagic s) (Units.start.skip 32) = bitsOfBytes rest :=
  bitsAhead_skip_bitsMsb (s := startHost s) (bitsAhead_magic h)

theorem bitsLeft_pastMagic : bitsLeft (pastMagic s) (Units.start.skip 32) = 8 * rest.length := by
  rw [← bitsAhead_length, bitsAhead_pastMagic h, bitsOfBytes_length]

end

theorem classifyMagic_huff : classifyMagic Config.huffMagic = some .huffman := if_pos rfl
theorem classifyMagic_lzw : classifyMagic Config.lzwMagic = some .lzw := by
  rw [classifyMagic, if_neg Laws.lzwMagic_ne, if_pos rfl]
theorem classifyMagic_unknown {m : BitVec 32} (hh : m ≠ Config.huffMagic) (hl : m ≠ Config.lzwMagic) :
    classifyMagic m = none := by rw [classifyMagic, if_neg hh, if_neg hl]

/-! DECOMPRESS of a file that begins with a magic: the codec's file, or an unknown one. -/

theorem decompress_huff {s : State} {rest : Bytes} (h : s.input = magicBytes Config.huffMagic ++ rest) :
    decompress (startHost s) = hufDecompress (pastMagic s) := by
  simp only [decompress, readMagic_start h, Eff.bind_ok, classifyMagic_huff]

theorem decompress_lzw {s : State} {rest : Bytes} (h : s.input = magicBytes Config.lzwMagic ++ rest) :
    decompress (startHost s) = lzwDecompress (pastMagic s) := by
  simp only [decompress, readMagic_start h, Eff.bind_ok, classifyMagic_lzw]

theorem decompress_unknown {s : State} {m : BitVec 32} {rest : Bytes} (h : s.input = magicBytes m ++ rest)
    (hh : m ≠ Config.huffMagic) (hl : m ≠ Config.lzwMagic) :
    decompress (startHost s) = .raised .malformedHeader (pastMagic s) := by
  simp only [decompress, readMagic_start h, Eff.bind_ok, classifyMagic_unknown hh hl]

/-- A width field below 9 (R66, R105). -/
theorem lzwDecompress_illegal_width {s : State} {u : Units} {W : Nat} {rest : Bits} (hu : s.units = some u)
    (h : bitsAhead s u = bitsMsb 5 W ++ rest) (hW : W < 9) :
    lzwDecompress s = .raised .configurationError (s.withUnits (some (u.skip 5))) := by
  have hlegal : legalMaxWidth (W % 2 ^ Config.widthFieldBits) = false :=
    decide_eq_false (by simp only [Config.widthFieldBits]; omega)
  rw [lzwDecompress, lzdInit, readOrEnd_next (n := Config.widthFieldBits) (by decide) (by decide) hu h, Eff.bind_ok,
    hlegal]
  rfl

/-- Settles O59: no header is read to its end, or its magic or width field is illegal, before a byte is sunk. -/
theorem headerErrorsLeaveNoOutput : Obligations.HeaderErrorsLeaveNoOutput := by
  unfold Obligations.HeaderErrorsLeaveNoOutput
  intro s rest hs
  refine ⟨fun hlen => ?_, fun m hm hh hl => ?_, fun hm hlen => ?_, fun hm => ?_, fun b hm hb => ?_⟩
  · refine exec_decompress_endsShort hs (EndsShort.bind (endsShort_readMagic (startHost_units s) ?_) _)
    rw [← bitsAhead_length, bitsAhead_start, bitsOfBytes_length]
    omega
  · exact exec_host_raised rfl hs (noResult_raised (decompress_unknown hm hh hl))
  · refine exec_decompress_endsShort hs ?_
    rw [decompress_huff hm]
    refine EndsShort.of_withUnits (endsShort_hufDecompress (s := pastMagic s) rfl ?_)
    rw [bitsLeft_pastMagic hm]
    omega
  · refine exec_decompress_endsShort hs ?_
    have hm' : s.input = magicBytes Config.lzwMagic ++ [] := by rw [hm, List.append_nil]
    rw [decompress_lzw hm']
    refine EndsShort.of_withUnits (endsShort_lzwDecompress (s := pastMagic s) rfl ?_)
    rw [bitsLeft_pastMagic hm']
    decide
  · have hahead := bitsAhead_pastMagic hm
    rw [bitsOfBytes_cons, bitsMsb_split 5 3, List.append_assoc] at hahead
    have hbody := lzwDecompress_illegal_width (s := pastMagic s) rfl hahead (by omega)
    exact exec_host_raised rfl hs (noResult_raised ((decompress_lzw hm).trans hbody))

end Sys2Proof.Machine
end

section

/-! ## Writing bits as an effect on OUT and the BitWriter (R27, R30, R44, R70, R97) -/

namespace Sys2Proof.Machine

/-! ### WriteBits -/

/-- From `out` and `bw`, the bits `bits` have been written, and `out'` and `bw'` are what they leave. -/
structure Appends (out : Bytes) (bw : BitWriter) (bits : Bits) (out' : Bytes) (bw' : BitWriter) : Prop where
  inv : bw'.Inv
  total : bw'.total = bw.total + bits.length
  written : writtenBits out' bw' = writtenBits out bw ++ bits

theorem Appends.nil {bw : BitWriter} (h : bw.Inv) (out : Bytes) : Appends out bw [] out bw :=
  ⟨h, rfl, (List.append_nil _).symm⟩

theorem Appends.trans {o o' o'' : Bytes} {b b' b'' : BitWriter} {x y : Bits} (h : Appends o b x o' b')
    (k : Appends o' b' y o'' b'') : Appends o b (x ++ y) o'' b'' where
  inv := k.inv
  total := by rw [k.total, h.total, List.length_append, Nat.add_assoc]
  written := by rw [k.written, h.written, List.append_assoc]

/-- The state after WriteBits has left `out` and `bw`, and the units `u` beside them (R26, R70). -/
def State.wrote (s : State) (u : Units) (out : Bytes) (bw : BitWriter) : State :=
  { s with out := out, units := some { u with bw := bw }, stat := { s.stat with total := bw.total } }

theorem writeBits_wrote {n : Nat} (hn : n ≤ 32) (v : Nat) {s : State} {u : Units} (hu : s.units = some u)
    (hb : u.bw.Inv) :
    ∃ out bw, Appends s.out u.bw (bitsMsb n v) out bw ∧ writeBits n v s = .ok () (s.wrote u out bw) := by
  obtain ⟨out, bw, hinv, htotal, hbits, -, hw⟩ := writeBits_ok (v := v) hn hu hb
  refine ⟨out, bw, ⟨hinv, by rw [htotal, bitsMsb_length], hbits⟩, ?_⟩
  rw [hw, ← htotal]
  rfl

/-- Bytes written one after the other (R44). -/
theorem writeBytes_wrote (b : Byte) (bs : Bytes) {s : State} {u : Units} (hu : s.units = some u) (hb : u.bw.Inv) :
    ∃ out bw, Appends s.out u.bw (bitsOfBytes (b :: bs)) out bw ∧
      forEach (fun (b : Byte) s => writeBits 8 b.toNat s) (b :: bs) s = .ok () (s.wrote u out bw) := by
  obtain ⟨out, bw, happ, hw⟩ := writeBits_wrote (n := 8) (by decide) b.toNat hu hb
  rw [forEach_cons, hw, Eff.bind_ok, bitsOfBytes_cons]
  cases bs with
  | nil => exact ⟨out, bw, by rwa [bitsOfBytes_nil, List.append_nil], rfl⟩
  | cons c bs =>
    obtain ⟨out', bw', happ', hw'⟩ := writeBytes_wrote c bs (s := s.wrote u out bw) rfl happ.inv
    exact ⟨out', bw', happ.trans happ', hw'⟩

theorem writeMagic_wrote (m : BitVec 32) {s : State} {u : Units} (hu : s.units = some u) (hb : u.bw.Inv) :
    ∃ out bw, Appends s.out u.bw (bitsMsb 32 m.toNat) out bw ∧ writeMagic m s = .ok () (s.wrote u out bw) := by
  rw [← bitsOfBytes_magicBytes]
  exact writeBytes_wrote (magicByte m 0) ([1, 2, 3].map (magicByte m)) hu hb

/-! ### The loop of R97 -/

theorem emission_self (w c : Nat) : emission w c w = bitsMsb w c := by simp [emission]

/-- One GROW first. -/
theorem emission_grow {w w' : Nat} (h : w < w') (c : Nat) :
    emission w c w' = bitsMsb w (growCode w) ++ emission (w + 1) c w' := by
  obtain ⟨n, rfl⟩ := Nat.exists_eq_add_of_lt h
  have hn : w + n + 1 - w = n + 1 := by omega
  have hn' : w + n + 1 - (w + 1) = n := by omega
  rw [emission, emission, hn, hn', List.range'_succ, List.flatMap_cons, List.append_assoc]
  rfl

theorem WidthFor.self {w c : Nat} (h : c < growCode w) : WidthFor w c w :=
  ⟨le_rfl, h, fun _ h1 h2 => absurd h2 (Nat.not_lt.2 h1)⟩

theorem WidthFor.grow {w c w' : Nat} (hc : growCode w ≤ c) (h : WidthFor (w + 1) c w') : WidthFor w c w' := by
  obtain ⟨hle, hlt, hall⟩ := h
  refine ⟨Nat.le_of_succ_le hle, hlt, fun v hv hv' => ?_⟩
  rcases Nat.eq_or_lt_of_le hv with rfl | hv
  · exact hc
  · exact hall v hv hv'

/-- The loop of R97 for a code below GROW at width 31, with a pass for each width up to 31. -/
theorem growAndWrite_wrote {c : Nat} (hc : c < growCode 31) (k : Nat) {s : State} {u : Units} {e : LzwEnc}
    (hu : s.units = some u) (hb : u.bw.Inv) (he : u.le = some e) (hw : e.width ≤ 31) (hk : 32 ≤ e.width + k) :
    ∃ w out bw, WidthFor e.width c w ∧ w ≤ 31 ∧ Appends s.out u.bw (emission e.width c w) out bw ∧
      growAndWrite c k s = .ok () (s.wrote { u with le := some { e with width := w } } out bw) := by
  induction k generalizing s u e with
  | zero => omega
  | succ k ih =>
    unfold growAndWrite
    rw [readLe_some hu he]
    split
    · rename_i hgrow
      have hne : e.width ≠ 31 := fun h => by rw [h] at hgrow; omega
      obtain ⟨out, bw, happ, hwrite⟩ := writeBits_wrote (n := e.width) (by omega) (growCode e.width) hu hb
      obtain ⟨w, out', bw', hfor, hle, happ', hrest⟩ :=
        ih (s := setLe (s.wrote u out bw) { e with width := e.width + 1 })
          (u := { u with bw := bw, le := some { e with width := e.width + 1 } }) (e := { e with width := e.width + 1 })
          rfl happ.inv rfl (by simp only; omega) (by simp only; omega)
      refine ⟨w, out', bw', hfor.grow hgrow, hle, ?_, ?_⟩
      · rw [emission_grow hfor.1]
        exact happ.trans happ'
      · rw [hwrite, Eff.bind_ok, hrest]
        rfl
    · rename_i hgrow
      obtain ⟨out, bw, happ, hwrite⟩ := writeBits_wrote (n := e.width) (by omega) c hu hb
      refine ⟨e.width, out, bw, .self (by omega), hw, by rwa [emission_self], ?_⟩
      rw [hwrite, ← he]

theorem entryCode_code {d : LzwDict} {c : Nat} (h : c < d.next) : entryCode d (.code c) = some c := if_pos h

/-- LZC_EMIT of the code of an entry (R97). -/
theorem lzcEmit_wrote {s : State} {u : Units} {d : LzwDict} {e : LzwEnc} {c : Nat} (hu : s.units = some u)
    (hb : u.bw.Inv) (hd : u.ld = some d) (hdi : d.Inv) (he : u.le = some e) (hei : e.Inv) (hc : c < d.next) :
    ∃ w out bw, WidthFor e.width c w ∧ w ≤ 31 ∧ Appends s.out u.bw (emission e.width c w) out bw ∧
      lzcEmit (.code c) s = .ok () (s.wrote { u with le := some { e with width := w } } out bw) := by
  obtain ⟨hlow, hhigh⟩ := hei.width
  unfold lzcEmit
  rw [readLd_some hu hd, entryCode_code hc]
  exact growAndWrite_wrote (hc.trans_le hdi.next_le) _ hu hb he hhigh (by simp only [Config.maxRwBits]; omega)

end Sys2Proof.Machine
end

section

/-! ## The decoder on a sequence of code words (R65, R105, R106, R108)

`Acts` is what a code word does to the decoder and to OUT, `Decodes` the same of a bit sequence that is cut into code
words at the decoder's current width. The loop of R108 follows `Decodes` to the end of the input. -/

namespace Sys2Proof.Machine

/-! ### One code word -/

/-- The code word `k`, fetched by the decoder `x`, outputs `o` and leaves the decoder `y`. -/
def Acts (k : CodeWord) (x : LzwDec) (o : Bytes) (y : LzwDec) : Prop :=
  ∀ (s : State) (u : Units), s.units = some u → u.lx = some x →
    actOn k s = .ok () (setLx (emitBytes o (s.withRes (.num (k.value x.width)))) y)

theorem emitBytes_nil (s : State) : emitBytes [] s = s := by
  rw [emitBytes, List.append_nil]
  rfl

theorem acts_grow {x : LzwDec} (h : x.width < x.W) : Acts .grow x [] { x with width := x.width + 1 } := by
  intro s u hu hx
  rw [actOn_grow hu hx, actGrow, if_neg (Nat.not_le.2 h), emitBytes_nil]
  rfl

theorem acts_reset (x : LzwDec) : Acts .reset x []
    { x with table := [], reg := [], next := Config.firstCode, width := Config.initWidth, last := [] } := by
  intro s u hu hx
  rw [actOn_reset hu hx, actReset, emitBytes_nil]
  rfl

theorem acts_literal (b : Byte) (x : LzwDec) :
    Acts (.literal b) x [b] ({ x with last := [b] }.register (x.last ++ [b])) := by
  intro s u hu hx
  rw [actOn, readLx_some hu hx]
  rfl

/-- A reference to an entry of the table. -/
theorem acts_reference_found {c : Nat} {x : LzwDec} {dec : Bytes} (h : tableAt c x.table = some dec) :
    Acts (.reference c) x dec ({ x with last := dec }.register (x.last ++ dec.take 1)) := by
  intro s u hu hx
  rw [actOn, readLx_some hu hx]
  simp only [actReference, h]
  rfl

/-- A reference to the entry that is being formed (R107). -/
theorem acts_reference_formed {c : Nat} {x : LzwDec} {b : Byte} {str : Bytes} (h : tableAt c x.table = none)
    (hlast : x.last = b :: str) :
    Acts (.reference c) x (x.last ++ [b]) ({ x with last := x.last ++ [b] }.register (x.last ++ [b])) := by
  intro s u hu hx
  rw [actOn, readLx_some hu hx]
  simp only [actReference, h, hlast]
  rfl

/-! ### A sequence of code words -/

/-- The decoder `x` reads all of a bit sequence as code words, outputs a byte sequence and is then `z`. -/
inductive Decodes : LzwDec → Bits → Bytes → LzwDec → Prop where
  | none (x : LzwDec) : Decodes x [] [] x
  | word {x y z : LzwDec} {k : CodeWord} {bits : Bits} {o o' : Bytes} (hdone : x.done = false)
      (hk : k.wellFormed x.width = true) (hact : Acts k x o y) (hrest : Decodes y bits o' z) :
      Decodes x (bitsMsb x.width (k.value x.width) ++ bits) (o ++ o') z

theorem Decodes.trans {x y z : LzwDec} {bits bits' : Bits} {o o' : Bytes} (h : Decodes x bits o y)
    (h' : Decodes y bits' o' z) : Decodes x (bits ++ bits') (o ++ o') z := by
  induction h with
  | none x => exact h'
  | word hdone hk hact _ ih =>
    rw [List.append_assoc, List.append_assoc]
    exact .word hdone hk hact (ih h')

theorem Decodes.single {x y : LzwDec} {k : CodeWord} {o : Bytes} (hdone : x.done = false)
    (hk : k.wellFormed x.width = true) (hact : Acts k x o y) :
    Decodes x (bitsMsb x.width (k.value x.width)) o y := by
  simpa using Decodes.word hdone hk hact (.none y)

theorem CodeWord.wellFormed_width {w : Nat} {k : CodeWord} (h : k.wellFormed w = true) : 9 ≤ w ∧ w ≤ 31 := by
  cases k with
  | grow | reset | literal b => exact of_decide_eq_true h
  | reference c =>
    obtain ⟨h9, h31, -, -⟩ := of_decide_eq_true h
    exact ⟨h9, h31⟩

/-! ### The loop of R108 -/

/-- LZD_CODE with a code word ahead fetches it and acts on it (R106). -/
theorem lzdCode_word {s : State} {u : Units} {x y : LzwDec} {k : CodeWord} {o : Bytes} {rest : Bits}
    (hu : s.units = some u) (hx : u.lx = some x) (hdone : x.done = false) (hk : k.wellFormed x.width = true)
    (hact : Acts k x o y) (hahead : bitsAhead s u = bitsMsb x.width (k.value x.width) ++ rest) :
    lzdCode s = .ok () (setLx (emitBytes o ((s.withUnits (some (u.skip x.width))).withRes
      (.num (k.value x.width)))) y) := by
  obtain ⟨h9, h31⟩ := CodeWord.wellFormed_width hk
  rw [lzdCode, readLx_some hu hx, hdone, if_neg (by simp), readBits_next (by omega) (by omega) hu hahead, Eff.bind_ok]
  simp only
  rw [Nat.mod_eq_of_lt (Laws.value_lt hk), Laws.classifyCode_value hk]
  exact hact (s.withUnits (some (u.skip x.width))) (u.skip x.width) rfl hx

/-- LZD_CODE with too few bits ahead for a code word ends the stream (R106). -/
theorem lzdCode_short {s : State} {u : Units} {x : LzwDec} (hu : s.units = some u) (hx : u.lx = some x)
    (hdone : x.done = false) (hw : x.width ≤ 32) (hleft : bitsLeft s u < x.width) :
    lzdCode s = .ok () ((s.withUnits (some { u with
      br := { pos := 8 * s.input.length }, lx := some { x with done := true } })).withRes .exhausted) := by
  rw [lzdCode, readLx_some hu hx, hdone, if_neg (by simp), readBits_short hw hu hleft, Eff.bind_ok]
  rfl

theorem decodeCodes_done {s : State} {u : Units} {x : LzwDec} (hu : s.units = some u) (hx : u.lx = some x)
    (hdone : x.done = true) (k : Nat) : decodeCodes k s = .ok () s := by
  cases k <;> rw [decodeCodes, readLx_some hu hx, if_pos hdone]

theorem decodeCodes_pass {s : State} {u : Units} {x : LzwDec} (hu : s.units = some u) (hx : u.lx = some x)
    (hdone : x.done = false) (k : Nat) :
    decodeCodes (k + 1) s = (lzdCode s).bind fun _ s => decodeCodes k s := by
  rw [decodeCodes, readLx_some hu hx, hdone, if_neg (by simp)]

/-- The state of the decoder's command at the end of the input, with `out` and the decoder `z`; RES is still free. -/
def State.decoded (s : State) (u : Units) (out : Bytes) (z : LzwDec) (res : Result) : State :=
  { s with out := out, units := some { u with br := { pos := 8 * s.input.length }, lx := some z }, res := res }

/-- The loop of R108 on code words and fewer bits after them than make another one. -/
theorem decodeCodes_ok {x y : LzwDec} {bits : Bits} {o : Bytes} (h : Decodes x bits o y) (hdone : y.done = false)
    (hw : y.width ≤ 32) {pad : Bits} (hpad : pad.length < y.width) (fuel : Nat) {s : State} {u : Units}
    (hu : s.units = some u) (hx : u.lx = some x) (hahead : bitsAhead s u = bits ++ pad) (hfuel : bitsLeft s u < fuel) :
    ∃ res z, z.done = true ∧ decodeCodes fuel s = .ok () (s.decoded u (s.out ++ o) z res) := by
  induction h generalizing fuel s u with
  | none x =>
    obtain ⟨k, rfl⟩ := Nat.exists_eq_succ_of_ne_zero (Nat.ne_zero_of_lt hfuel)
    have hleft : bitsLeft s u < x.width := by rwa [← bitsAhead_length, hahead, List.nil_append]
    rw [decodeCodes_pass hu hx hdone, lzdCode_short hu hx hdone hw hleft, Eff.bind_ok,
      decodeCodes_done (u := { u with br := { pos := 8 * s.input.length }, lx := some { x with done := true } })
        rfl rfl rfl]
    exact ⟨_, _, rfl, by rw [List.append_nil]; rfl⟩
  | @word x x' y k bits o o' hxdone hk hact _ ih =>
    obtain ⟨n, rfl⟩ := Nat.exists_eq_succ_of_ne_zero (Nat.ne_zero_of_lt hfuel)
    rw [List.append_assoc] at hahead
    have hskip := bitsAhead_skip_bitsMsb hahead
    have hwidth := CodeWord.wellFormed_width hk
    have hlen := bitsAhead_length s u
    rw [hahead, List.length_append, bitsMsb_length] at hlen
    have hfuel' : bitsLeft s (u.skip x.width) < n := by rw [bitsLeft_skip]; omega
    rw [decodeCodes_pass hu hx hxdone, lzdCode_word hu hx hxdone hk hact hahead, Eff.bind_ok]
    obtain ⟨res, z, hz, hrest⟩ := ih hdone hw hpad n
      (s := setLx (emitBytes o ((s.withUnits (some (u.skip x.width))).withRes (.num (k.value x.width)))) x')
      (u := { u.skip x.width with lx := some x' }) rfl rfl hskip
      hfuel'
    refine ⟨res, z, hz, ?_⟩
    rw [hrest, ← List.append_assoc]
    rfl

/-! ### LZW_DECOMPRESS (R108) -/

/-- The decoder that LZD_INIT starts (R105). -/
def LzwDec.initial (W : Nat) : LzwDec :=
  { table := [], reg := [], last := [], next := Config.firstCode, width := Config.initWidth, W := W,
    lastCode := lastCodeAt W, done := false }

theorem lzdInit_next {s : State} {u : Units} {W : Nat} {rest : Bits} (hu : s.units = some u) (hW : 9 ≤ W ∧ W ≤ 31)
    (hahead : bitsAhead s u = bitsMsb 5 W ++ rest) :
    lzdInit s = .ok W (s.withUnits (some { u.skip 5 with lx := some (LzwDec.initial W) })) := by
  have hmod : W % 2 ^ Config.widthFieldBits = W := Nat.mod_eq_of_lt (by simp only [Config.widthFieldBits]; omega)
  rw [lzdInit, readOrEnd_next (n := Config.widthFieldBits) (by decide) (by decide) hu hahead, Eff.bind_ok, hmod,
    (legalMaxWidth_iff W).2 hW.1]
  rfl

/-- LZW_DECOMPRESS of a width field, a code stream and fewer bits than make another code word. -/
theorem lzwDecompress_ok {W : Nat} (hW : 9 ≤ W ∧ W ≤ 31) {y : LzwDec} {bits pad : Bits} {o : Bytes}
    (h : Decodes (.initial W) bits o y) (hdone : y.done = false) (hw : y.width ≤ 32) (hpad : pad.length < y.width)
    {s : State} {u : Units} (hu : s.units = some u) (hahead : bitsAhead s u = bitsMsb 5 W ++ bits ++ pad) :
    ∃ res z, z.done = true ∧ lzwDecompress s = .ok () (s.decoded u (s.out ++ o) z res) := by
  rw [List.append_assoc] at hahead
  have hskip := bitsAhead_skip_bitsMsb hahead
  rw [lzwDecompress, lzdInit_next hu hW hahead, Eff.bind_ok]
  exact decodeCodes_ok h hdone hw hpad _ (s := s.withUnits (some { u.skip 5 with lx := some (LzwDec.initial W) }))
    (u := { u.skip 5 with lx := some (LzwDec.initial W) }) rfl rfl hskip (Nat.lt_succ_self _)

end Sys2Proof.Machine
end

section

/-! ## The strings of the dictionary's codes, and the decoder that lags behind (R88, R95, R106, R107, R109)

The encoder's dictionary is described by the list of its strings, in the order of their codes from 256 on. The
decoder's table and registry hold the same list, or all of it but the newest string. -/

namespace Sys2Proof.Machine

/-! ### Strings of codes -/

/-- The string of a code, when the codes from 256 on have the strings `strs` (R88). -/
def strOf (strs : List Bytes) (c : Nat) : Option Bytes :=
  if c < 256 then some [BitVec.ofNat 8 c] else strs[c - 256]?

theorem strOf_single {c : Nat} (h : c < 256) (strs : List Bytes) : strOf strs c = some [BitVec.ofNat 8 c] := if_pos h

theorem strOf_byte (b : Byte) (strs : List Bytes) : strOf strs b.toNat = some [b] := by
  rw [strOf_single b.isLt, BitVec.ofNat_toNat, BitVec.setWidth_eq]

theorem strOf_entry {c : Nat} (h : ¬ c < 256) (strs : List Bytes) : strOf strs c = strs[c - 256]? := if_neg h

theorem strOf_lt {strs : List Bytes} {c : Nat} {str : Bytes} (h : strOf strs c = some str) : c < 256 + strs.length := by
  by_cases hc : c < 256
  · omega
  · rw [strOf_entry hc] at h
    have := (List.getElem?_eq_some_iff.1 h).1
    omega

/-- Strings that follow do not matter. -/
theorem strOf_append {strs : List Bytes} {c : Nat} {str : Bytes} (h : strOf strs c = some str) (more : List Bytes) :
    strOf (strs ++ more) c = some str := by
  by_cases hc : c < 256
  · rwa [strOf_single hc] at h ⊢
  · rw [strOf_entry hc] at h ⊢
    rw [List.getElem?_append_left (List.getElem?_eq_some_iff.1 h).1, h]

theorem strOf_new (strs : List Bytes) (str : Bytes) : strOf (strs ++ [str]) (256 + strs.length) = some str := by
  rw [strOf_entry (by omega), Nat.add_sub_cancel_left, List.getElem?_append_right le_rfl, Nat.sub_self]
  rfl

/-- Codes with the same string are the same, where no string stands twice and none is that of a single byte. -/
theorem strOf_inj {strs : List Bytes} (hnodup : strs.Nodup) (hlong : ∀ str ∈ strs, 1 < str.length) {c c' : Nat}
    {str : Bytes} (h : strOf strs c = some str) (h' : strOf strs c' = some str) : c = c' := by
  have hentry : ∀ {k}, ¬ k < 256 → strOf strs k = some str → 1 < str.length := fun hk hs =>
    hlong str (List.mem_of_getElem? ((strOf_entry hk strs).symm.trans hs))
  have hbyte : ∀ {k}, k < 256 → strOf strs k = some str → str = [BitVec.ofNat 8 k] := fun hk hs =>
    (Option.some.inj ((strOf_single hk strs).symm.trans hs)).symm
  by_cases hc : c < 256 <;> by_cases hc' : c' < 256
  · have heq := List.singleton_inj.1 ((hbyte hc h).symm.trans (hbyte hc' h'))
    have hnat := congrArg BitVec.toNat heq
    rwa [BitVec.toNat_ofNat, BitVec.toNat_ofNat, Nat.mod_eq_of_lt hc, Nat.mod_eq_of_lt hc'] at hnat
  · have hlen := hentry hc' h'
    rw [hbyte hc h] at hlen
    exact absurd hlen (by simp)
  · have hlen := hentry hc h
    rw [hbyte hc' h'] at hlen
    exact absurd hlen (by simp)
  · rw [strOf_entry hc] at h
    rw [strOf_entry hc'] at h'
    have heq := (List.getElem?_inj (List.getElem?_eq_some_iff.1 h).1 hnodup).1 (h.trans h'.symm)
    omega

/-! ### The encoder's dictionary -/

/-- The codes of the dictionary have the strings `strs`: each edge leads from the code of a string to the code of that
string with the edge's symbol behind it (R88), and each string is made by an edge. -/
structure LzwDict.HasStrings (d : LzwDict) (strs : List Bytes) : Prop where
  next : d.next = 256 + strs.length
  edge : ∀ (c n : Nat) (b : Byte), edgeAt (c, b) d.child = some n →
    ∃ p, strOf strs c = some p ∧ strOf strs n = some (p ++ [b])
  entry : ∀ str ∈ strs, ∃ (c n : Nat) (b : Byte) (p : Bytes), p ≠ [] ∧ str = p ++ [b] ∧ strOf strs c = some p ∧
    edgeAt (c, b) d.child = some n
  distinct : strs.Nodup

/-- The dictionary with an edge for `b` at the code `c`, unless it is full (R93, R98). -/
def LzwDict.extend (d : LzwDict) (c : Nat) (b : Byte) : LzwDict :=
  if d.full then d else { d with child := d.child ++ [((c, b), d.next)], next := d.next + 1 }

theorem edgeAt_append (k : Nat × Byte) (es es' : List ((Nat × Byte) × Nat)) :
    edgeAt k (es ++ es') = (edgeAt k es).or (edgeAt k es') := by
  induction es with
  | nil => rfl
  | cons e es ih =>
    rw [List.cons_append, edgeAt, edgeAt]
    split
    · rfl
    · exact ih

theorem LzwDict.HasStrings.long {d : LzwDict} {strs : List Bytes} (h : d.HasStrings strs) :
    ∀ str ∈ strs, 1 < str.length := by
  intro str hstr
  obtain ⟨c, n, b, p, hp, rfl, -⟩ := h.entry str hstr
  have := List.length_pos_of_ne_nil hp
  rw [List.length_append, List.length_singleton]
  omega

theorem LzwDict.HasStrings.lt_next {d : LzwDict} {strs : List Bytes} (h : d.HasStrings strs) {c : Nat} {str : Bytes}
    (hc : strOf strs c = some str) : c < d.next := by
  rw [h.next]
  exact strOf_lt hc

theorem hasStrings_nil {d : LzwDict} (hchild : d.child = []) (hnext : d.next = Config.firstCode) : d.HasStrings [] where
  next := hnext
  edge := fun c n b h => by rw [hchild] at h; cases h
  entry := fun _ h => by cases h
  distinct := .nil

theorem strOf_ne_nil {d : LzwDict} {strs : List Bytes} (h : d.HasStrings strs) {c : Nat} {str : Bytes}
    (hc : strOf strs c = some str) : str ≠ [] := by
  rintro rfl
  by_cases hb : c < 256
  · rw [strOf_single hb] at hc
    cases hc
  · rw [strOf_entry hb] at hc
    exact absurd (h.long _ (List.mem_of_getElem? hc)) (by simp)

/-- A string that no edge makes is new. -/
theorem LzwDict.HasStrings.not_mem {d : LzwDict} {strs : List Bytes} (h : d.HasStrings strs) {c : Nat} {b : Byte}
    {p : Bytes} (hc : strOf strs c = some p) (hnew : edgeAt (c, b) d.child = none) : p ++ [b] ∉ strs := by
  intro hmem
  obtain ⟨c', n, b', p', -, heq, hc', hedge⟩ := h.entry _ hmem
  obtain ⟨rfl, hb⟩ := List.append_inj' heq rfl
  obtain rfl := List.singleton_inj.1 hb
  obtain rfl := strOf_inj h.distinct h.long hc hc'
  cases hnew.symm.trans hedge

theorem LzwDict.HasStrings.add {d : LzwDict} {strs : List Bytes} (h : d.HasStrings strs) {c : Nat} {b : Byte}
    {p : Bytes} (hc : strOf strs c = some p) (hnew : edgeAt (c, b) d.child = none) :
    ({ d with child := d.child ++ [((c, b), d.next)], next := d.next + 1 } : LzwDict).HasStrings
      (strs ++ [p ++ [b]]) where
  next := by simp only [h.next, List.length_append, List.length_singleton, Nat.add_assoc]
  edge := fun c' n b' hedge => by
    simp only [edgeAt_append, Option.or_eq_some_iff] at hedge
    rcases hedge with hold | ⟨-, hadded⟩
    · obtain ⟨q, hq, hn⟩ := h.edge c' n b' hold
      exact ⟨q, strOf_append hq _, strOf_append hn _⟩
    · rw [edgeAt] at hadded
      split at hadded
      · rename_i heq
        cases heq
        obtain rfl := Option.some.inj hadded
        exact ⟨p, strOf_append hc _, by rw [h.next, strOf_new]⟩
      · cases hadded
  entry := fun str hstr => by
    simp only [edgeAt_append]
    rcases List.mem_append.1 hstr with hold | hadded
    · obtain ⟨c', n, b', q, hq, heq, hc', hedge⟩ := h.entry str hold
      exact ⟨c', n, b', q, hq, heq, strOf_append hc' _, by rw [hedge]; rfl⟩
    · refine ⟨c, d.next, b, p, strOf_ne_nil h hc, List.mem_singleton.1 hadded, strOf_append hc _, ?_⟩
      rw [hnew, edgeAt, if_pos rfl]
      rfl
  distinct := by
    refine List.nodup_append.2 ⟨h.distinct, List.nodup_singleton _, fun y hy z hz => ?_⟩
    rintro rfl
    exact h.not_mem hc hnew (List.mem_singleton.1 hz ▸ hy)

/-! ### The decoder with a list of strings -/

/-- The decoder with maximum width `W` and width `w` whose entries are `strs`, after the output `last`. -/
def LzwDec.holding (W w : Nat) (strs : List Bytes) (last : Bytes) : LzwDec :=
  { table := (List.range' Config.firstCode strs.length).zip strs, reg := strs, last := last,
    next := Config.firstCode + strs.length, width := w, W := W, lastCode := lastCodeAt W, done := false }

theorem tableAt_zip (f k : Nat) (strs : List Bytes) :
    tableAt (f + k) ((List.range' f strs.length).zip strs) = strs[k]? := by
  induction strs generalizing f k with
  | nil => rfl
  | cons str strs ih =>
    rw [List.length_cons, List.range'_succ, List.zip_cons_cons, tableAt]
    cases k with
    | zero => simp
    | succ k =>
      rw [if_neg (by simp only; omega), List.getElem?_cons_succ, ← ih (f + 1) k]
      congr 1
      omega

/-- The decoder's table answers as the list of its strings does. -/
theorem tableAt_holding {c : Nat} (h : ¬ c < 256) (W w : Nat) (strs : List Bytes) (last : Bytes) :
    tableAt c (LzwDec.holding W w strs last).table = strs[c - 256]? := by
  have hc : c = Config.firstCode + (c - 256) := by simp only [Config.firstCode]; omega
  conv_lhs => rw [hc]
  exact tableAt_zip _ _ strs

/-- One more string is registered (R106). -/
theorem register_holding {W w : Nat} {strs : List Bytes} {str : Bytes} (last : Bytes) (hlong : 1 < str.length)
    (hnew : str ∉ strs) (hroom : Config.firstCode + strs.length ≤ lastCodeAt W) :
    (LzwDec.holding W w strs last).register str = .holding W w (strs ++ [str]) last := by
  have hzip : (List.range' Config.firstCode (strs ++ [str]).length).zip (strs ++ [str]) =
      (List.range' Config.firstCode strs.length).zip strs ++ [(Config.firstCode + strs.length, str)] := by
    rw [List.length_append, List.length_singleton, List.range'_1_concat, List.zip_append (by simp)]
    rfl
  rw [LzwDec.register, if_pos ⟨hlong, hnew, hroom⟩, LzwDec.holding, LzwDec.holding, hzip, List.length_append]
  rfl

/-- A string that is too short, or for which no code is left, is not registered (R106). -/
theorem register_holding_none {W w : Nat} {strs : List Bytes} {str : Bytes} (last : Bytes)
    (h : str.length ≤ 1 ∨ lastCodeAt W < Config.firstCode + strs.length) :
    (LzwDec.holding W w strs last).register str = .holding W w strs last := by
  refine if_neg ?_
  rintro ⟨hlong, -, hroom⟩
  change Config.firstCode + strs.length ≤ lastCodeAt W at hroom
  omega

end Sys2Proof.Machine
end

section

/-! ## The encoder and the decoder in step (R97 to R103, R106 to R109)

A `Coder` is the encoder's registers beside what the decoder has made of the bits written so far. Each byte that the
encoder takes appends bits that the decoder turns into the bytes that the cursor has left behind. -/

namespace Sys2Proof.Machine

/-! ### The encoder beside its decoder -/

/-- The dictionary and the encoder; the strings of the dictionary; the entries and the last output of the decoder that
has read the bits written so far; and the cursor's string, which it has not read. -/
structure Coder where
  d : LzwDict
  e : LzwEnc
  strs : List Bytes
  entries : List Bytes
  last : Bytes
  cs : Bytes

/-- The decoder that has read the bits written so far. -/
def Coder.dec (g : Coder) : LzwDec := .holding g.d.W g.e.width g.entries g.last

/-- What the decoder lacks of the dictionary: nothing after a reset, nothing once the dictionary is full, and otherwise
the newest string, which is the last output with the first byte of the cursor's string behind it. -/
def Coder.Lag (g : Coder) : Prop :=
  (g.last = [] ∧ g.strs = [] ∧ g.entries = []) ∨ (g.d.full = true ∧ g.entries = g.strs) ∨
  (g.last ≠ [] ∧ g.strs = g.entries ++ [g.last ++ g.cs.take 1])

/-- The encoder and the decoder agree. -/
structure Coder.Synced (g : Coder) : Prop where
  dict : g.d.Inv
  enc : g.e.Inv
  strings : g.d.HasStrings g.strs
  lag : g.Lag

/-- They agree, and the cursor stands at its string: at the root before the first byte, at a code from then on. -/
structure Coder.Linked (g : Coder) : Prop extends g.Synced where
  cursor : (g.e.cur = .root ∧ g.cs = [] ∧ g.last = [] ∧ g.strs = [] ∧ g.entries = []) ∨
    ∃ c, g.e.cur = .code c ∧ strOf g.strs c = some g.cs

theorem LzwDict.Inv.last_eq {d : LzwDict} (h : d.Inv) : d.last = lastCodeAt d.W := h.last

/-- What the decoder registers at the code of the cursor's string brings it up to the dictionary. -/
theorem Coder.Synced.catchUp {g : Coder} (h : g.Synced) (w : Nat) :
    (LzwDec.holding g.d.W w g.entries g.cs).register (g.last ++ g.cs.take 1) = .holding g.d.W w g.strs g.cs := by
  have hnext := h.strings.next
  have hroom := h.dict.next.2
  rcases h.lag with ⟨hlast, hstrs, hentries⟩ | ⟨hfull, hentries⟩ | ⟨-, hstrs⟩
  · rw [hlast, hstrs, hentries, List.nil_append]
    exact register_holding_none _ (.inl (List.length_take_le 1 _))
  · have hgt : g.d.next > g.d.last := of_decide_eq_true hfull
    rw [hentries]
    refine register_holding_none _ (.inr ?_)
    rw [← h.dict.last_eq, Config.firstCode, ← hnext]
    exact hgt
  · have hdistinct := h.strings.distinct
    have hlong := h.strings.long
    rw [hstrs] at hnext hdistinct hlong ⊢
    refine register_holding _ (hlong _ (by simp)) ?_ ?_
    · exact fun hmem => (List.nodup_append.1 hdistinct).2.2 _ hmem _ (List.mem_singleton_self _) rfl
    · rw [← h.dict.last_eq, Config.firstCode]
      rw [List.length_append, List.length_singleton] at hnext
      omega

/-- An entry with the cursor's string is one of the decoder's, or the one it is about to form (R107). -/
theorem Coder.Lag.lookup {g : Coder} (h : g.Lag) {k : Nat} (hk : g.strs[k]? = some g.cs) :
    g.entries[k]? = some g.cs ∨ (g.entries[k]? = none ∧ g.last ≠ [] ∧ g.cs = g.last ++ g.cs.take 1) := by
  rcases h with ⟨-, hstrs, -⟩ | ⟨-, hentries⟩ | ⟨hlast, hstrs⟩
  · rw [hstrs] at hk
    cases hk
  · exact .inl (hentries ▸ hk)
  · rw [hstrs] at hk
    rcases getElem?_concat_eq_some.1 hk with hold | ⟨rfl, hcs⟩
    · exact .inl hold
    · exact .inr ⟨List.getElem?_eq_none le_rfl, hlast, hcs⟩

/-- The code of the cursor's string, read at a width at which it is no control code: the decoder outputs the string. -/
theorem Coder.Synced.acts_code {g : Coder} (h : g.Synced) {c w : Nat} (hc : strOf g.strs c = some g.cs) (h9 : 9 ≤ w)
    (h31 : w ≤ 31) (hlt : c < 2 ^ w - 2) :
    ∃ k : CodeWord, k.value w = c ∧ k.wellFormed w = true ∧
      Acts k (.holding g.d.W w g.entries g.last) g.cs (.holding g.d.W w g.strs g.cs) := by
  rw [← h.catchUp w]
  by_cases hb : c < 256
  · refine ⟨.literal (BitVec.ofNat 8 c), Nat.mod_eq_of_lt hb, decide_eq_true ⟨h9, h31⟩, ?_⟩
    rw [← Option.some.inj ((strOf_single hb _).symm.trans hc)]
    exact acts_literal _ _
  · refine ⟨.reference c, rfl, decide_eq_true ⟨h9, h31, by omega, by omega⟩, ?_⟩
    have htable := tableAt_holding hb g.d.W w g.entries g.last
    rw [strOf_entry hb] at hc
    rcases h.lag.lookup hc with hfound | ⟨hformed, hne, hcs⟩
    · exact acts_reference_found (htable.trans hfound)
    · obtain ⟨b, str, hlast⟩ := List.exists_cons_of_ne_nil hne
      have hfirst : g.cs.take 1 = [b] := by rw [hcs, hlast]; rfl
      rw [hfirst] at hcs ⊢
      rw [hcs]
      exact acts_reference_formed (htable.trans hformed) hlast

/-- The code of the cursor's string is below every control code at the maximum width. -/
theorem Coder.Synced.code_lt {g : Coder} (h : g.Synced) {c : Nat} (hc : strOf g.strs c = some g.cs) :
    c < 2 ^ g.d.W - 2 := by
  have hlt := h.strings.lt_next hc
  have hnext := h.dict.next.2
  have hpow := Laws.grow_lt h.dict.width.1
  rw [h.dict.last] at hnext
  omega

/-- The bits that write the code of the cursor's string (R97): the decoder widens as the encoder does, and then outputs
the string. -/
theorem Coder.Synced.decodes_emission {g : Coder} (h : g.Synced) {c w : Nat} (hc : strOf g.strs c = some g.cs)
    (n : Nat) {v : Nat} (hv : v + n = w) (h9 : 9 ≤ v) (h31 : w ≤ 31) (hfor : WidthFor v c w) :
    Decodes (.holding g.d.W v g.entries g.last) (emission v c w) g.cs (.holding g.d.W w g.strs g.cs) := by
  induction n generalizing v with
  | zero =>
    obtain rfl : v = w := hv
    obtain ⟨k, hval, hk, hact⟩ := h.acts_code hc h9 h31 hfor.2.1
    rw [emission_self, ← hval]
    exact .single (x := .holding g.d.W v g.entries g.last) rfl hk hact
  | succ n ih =>
    obtain ⟨-, hlt, hgrow⟩ := hfor
    have hvw : v < w := by omega
    have hge : 2 ^ v - 2 ≤ c := hgrow v le_rfl hvw
    have hv31 : v ≤ 31 := by omega
    have hvW : v < g.d.W := by
      by_contra hle
      have hpow := Nat.pow_le_pow_right (n := 2) (by decide) (Nat.le_of_not_lt hle)
      have := h.code_lt hc
      omega
    have hrest := ih (v := v + 1) (by omega) (by omega) ⟨hvw, hlt, fun x hx => hgrow x (by omega)⟩
    rw [emission_grow hvw, ← List.nil_append g.cs]
    exact .word (x := .holding g.d.W v g.entries g.last) (k := .grow) rfl (decide_eq_true ⟨h9, hv31⟩) (acts_grow hvW)
      hrest

/-! ### A byte that ends the match (R93, R98, R101) -/

/-- After the cursor's code has been written, the byte `b` registers a string unless the dictionary is full, and the
cursor's string is `b` alone. -/
theorem Coder.Synced.extend {g : Coder} (h : g.Synced) {c w : Nat} {b : Byte} (hc : strOf g.strs c = some g.cs)
    (hnew : edgeAt (c, b) g.d.child = none) (hw : 9 ≤ w ∧ w ≤ 31) :
    ∃ strs, Coder.Synced ⟨g.d.extend c b, { g.e with width := w }, strs, g.strs, g.cs, [b]⟩ := by
  unfold LzwDict.extend
  split
  · rename_i hfull
    exact ⟨g.strs, h.dict, ⟨hw, h.enc.pct⟩, h.strings, .inr (.inl ⟨hfull, rfl⟩)⟩
  · rename_i hroom
    exact ⟨g.strs ++ [g.cs ++ [b]], h.dict.add (h.strings.lt_next hc) hnew (by simpa using hroom), ⟨hw, h.enc.pct⟩,
      h.strings.add hc hnew, .inr (.inr ⟨strOf_ne_nil h.strings hc, rfl⟩)⟩

theorem LzwDict.extend_W (d : LzwDict) (c : Nat) (b : Byte) : (d.extend c b).W = d.W := by
  unfold LzwDict.extend
  split <;> rfl

/-- The encoder as a reset leaves it at the byte `b` (R101). -/
def LzwEnc.afterReset (e : LzwEnc) (b : Byte) : LzwEnc :=
  { e with width := Config.initWidth, hits := 0, misses := 0, resets := e.resets + 1, cur := .code b.toNat }

/-- The coder after a reset. -/
def Coder.afterReset (g : Coder) (b : Byte) : Coder where
  d := { g.d with child := [], next := Config.firstCode }
  e := g.e.afterReset b
  strs := []
  entries := []
  last := []
  cs := [b]

theorem Coder.Synced.afterReset {g : Coder} (h : g.Synced) (b : Byte) : (g.afterReset b).Linked where
  dict := h.dict.reset
  enc := ⟨initWidth_legal, h.enc.pct⟩
  strings := hasStrings_nil rfl rfl
  lag := .inl ⟨rfl, rfl, rfl⟩
  cursor := .inr ⟨b.toNat, rfl, strOf_byte b []⟩

/-- The RESET code word takes the decoder along (R106). -/
theorem Coder.Synced.decodes_reset {g : Coder} (h : g.Synced) (b : Byte) :
    Decodes g.dec (bitsMsb g.e.width (resetCode g.e.width)) [] (g.afterReset b).dec :=
  .single (x := g.dec) (k := .reset) rfl (decide_eq_true h.enc.width) (acts_reset _)

/-- The encoder that restarts at the byte `b`, with its misses counted (R98, R99). -/
def LzwEnc.restartAt (e : LzwEnc) (b : Byte) (misses : Nat) : LzwEnc :=
  { e with cur := .code b.toNat, misses := misses }

/-- With the cursor at the byte `b`, which is all that is left of the bytes taken. -/
theorem Coder.Synced.restart {g : Coder} (h : g.Synced) {b : Byte} (hb : g.cs = [b]) (misses : Nat) :
    Coder.Linked { g with e := g.e.restartAt b misses } where
  dict := h.dict
  enc := ⟨h.enc.width, h.enc.pct⟩
  strings := h.strings
  lag := h.lag
  cursor := .inr ⟨b.toNat, rfl, by rw [hb]; exact strOf_byte b _⟩

/-! ### A byte that extends the match (R98) -/

/-- The encoder whose cursor moves to the code `n`, with its hits counted (R98, R99). -/
def LzwEnc.moveTo (e : LzwEnc) (n hits : Nat) : LzwEnc := { e with cur := .code n, hits := hits }

/-- The coder whose cursor moves to the code `n` of the string `cs`. -/
def Coder.moveTo (g : Coder) (n hits : Nat) (cs : Bytes) : Coder := { g with e := g.e.moveTo n hits, cs := cs }

theorem Coder.Synced.moveTo {g : Coder} (h : g.Synced) {n hits : Nat} {cs : Bytes} (hn : strOf g.strs n = some cs)
    (hlag : (g.moveTo n hits cs).Lag) : (g.moveTo n hits cs).Linked where
  dict := h.dict
  enc := ⟨h.enc.width, h.enc.pct⟩
  strings := h.strings
  lag := hlag
  cursor := .inr ⟨n, rfl, hn⟩

/-- Of the cursor's string only the first byte matters to the decoder. -/
theorem Coder.Lag.moveTo {g : Coder} (h : g.Lag) {cs : Bytes} (hcs : cs.take 1 = g.cs.take 1) (n hits : Nat) :
    (g.moveTo n hits cs).Lag := by
  unfold Coder.Lag Coder.moveTo
  simp only [hcs]
  exact h

/-! ### The state of the running encoder -/

/-- The state `s`, whose units were `u`, while the encoder runs (R26, R37). -/
def encState (s : State) (u : Units) (out : Bytes) (bw : BitWriter) (d : LzwDict) (e : LzwEnc) : State :=
  { s with
    out := out
    units := some { u with bw := bw, ld := some d, le := some e }
    stat := { s.stat with total := bw.total, resets := e.resets } }

section
variable (s : State) (u : Units) {out : Bytes} {bw : BitWriter} {d : LzwDict} {e : LzwEnc}

theorem readLd_encState {α : Type} (k : LzwDict → Eff α) : readLd (encState s u out bw d e) k = k d := rfl
theorem readLe_encState {α : Type} (k : LzwEnc → Eff α) : readLe (encState s u out bw d e) k = k e := rfl

theorem writeBits_encState {n : Nat} (hn : n ≤ 32) (v : Nat) (hb : bw.Inv) :
    ∃ out' bw', Appends out bw (bitsMsb n v) out' bw' ∧
      writeBits n v (encState s u out bw d e) = .ok () (encState s u out' bw' d e) :=
  writeBits_wrote hn v (s := encState s u out bw d e) rfl hb

theorem lzcEmit_encState (hb : bw.Inv) (hd : d.Inv) (he : e.Inv) {c : Nat} (hc : c < d.next) :
    ∃ w out' bw', WidthFor e.width c w ∧ w ≤ 31 ∧ Appends out bw (emission e.width c w) out' bw' ∧
      lzcEmit (.code c) (encState s u out bw d e) = .ok () (encState s u out' bw' d { e with width := w }) :=
  lzcEmit_wrote (s := encState s u out bw d e) rfl hb rfl hd rfl he hc

theorem ldAdd_encState {c : Nat} {b : Byte} (hc : c < d.next) (hnew : edgeAt (c, b) d.child = none) :
    ldAdd (.code c) b (encState s u out bw d e) = .ok () (encState s u out bw (d.extend c b) e) := by
  rw [ldAdd, readLd_encState, entryCode_code hc, LzwDict.extend]
  simp only [hnew, Option.isSome_none, Bool.false_eq_true, if_false]
  split <;> rfl

/-- The else branch of R98 up to the restart: the cursor's code is written, and the new string registered unless the
dictionary is full. -/
theorem lzcMiss_encState (hb : bw.Inv) (hd : d.Inv) (he : e.Inv) {c : Nat} {b : Byte} (hc : c < d.next)
    (hnew : edgeAt (c, b) d.child = none) :
    ∃ w out' bw', WidthFor e.width c w ∧ w ≤ 31 ∧ Appends out bw (emission e.width c w) out' bw' ∧
      lzcMiss (.code c) b (encState s u out bw d e) =
        .ok () (encState s u out' bw' (d.extend c b) { e with width := w }) := by
  obtain ⟨w, out', bw', hfor, hw, happ, hemit⟩ := lzcEmit_encState s u (out := out) hb hd he hc
  refine ⟨w, out', bw', hfor, hw, happ, ?_⟩
  have hget : ldGetcode (.code c) (encState s u out bw d e) = .ok c (encState s u out bw d e) := by
    rw [ldGetcode, readLd_encState, entryCode_code hc]
  rw [lzcMiss, hget, Eff.bind_ok, hemit, Eff.bind_ok, readLd_encState]
  split
  · rename_i hfull
    rw [LzwDict.extend, if_pos hfull]
  · exact ldAdd_encState s u hc hnew

/-- The end of the else branch of R98: the byte's singleton, a miss while full, and a reset if it is due (R99, R100). -/
theorem lzcRestart_encState (b : Byte) : lzcRestart b (encState s u out bw d e) =
    if d.full then
      if (e.restartAt b (e.misses + 1)).resetDue then
        lzcReset b (encState s u out bw d (e.restartAt b (e.misses + 1)))
      else .ok () (encState s u out bw d (e.restartAt b (e.misses + 1)))
    else .ok () (encState s u out bw d (e.restartAt b e.misses)) := rfl

/-- A reset (R101). -/
theorem lzcReset_encState (hb : bw.Inv) (he : e.width ≤ 32) (b : Byte) :
    ∃ out' bw', Appends out bw (bitsMsb e.width (resetCode e.width)) out' bw' ∧
      lzcReset b (encState s u out bw d e) =
        .ok () (encState s u out' bw' { d with child := [], next := Config.firstCode } (e.afterReset b)) := by
  obtain ⟨out', bw', happ, hwrite⟩ := writeBits_encState s u (out := out) (d := d) (e := e) he (resetCode e.width) hb
  refine ⟨out', bw', happ, ?_⟩
  rw [lzcReset, readLe_encState, hwrite]
  rfl

/-- LZC_BYTE where an edge leads on from the cursor (R98). -/
theorem lzcByte_extend {d : LzwDict} {e : LzwEnc} {b : Byte} {n : Nat} (hcur : legalCursor d e.cur = true)
    (hedge : d.childOf e.cur b = some n) : lzcByte b (encState s u out bw d e) =
      .ok () (encState s u out bw d (e.moveTo n (if d.full then e.hits + 1 else e.hits))) := by
  rw [lzcByte, readLe_encState, ldHasnext, readLd_encState, hcur]
  simp only [Bool.not_true, Bool.false_eq_true, if_false, Eff.bind_ok, readLd_encState, hedge]
  rfl

/-- LZC_BYTE where none does. -/
theorem lzcByte_miss {d : LzwDict} {e : LzwEnc} {b : Byte} (hcur : legalCursor d e.cur = true)
    (hedge : d.childOf e.cur b = none) : lzcByte b (encState s u out bw d e) =
      (lzcMiss e.cur b (encState s u out bw d e)).bind fun _ s => lzcRestart b s := by
  rw [lzcByte, readLe_encState, ldHasnext, readLd_encState, hcur]
  simp only [Bool.not_true, Bool.false_eq_true, if_false, Eff.bind_ok, readLd_encState, hedge]

end

/-! ### The bytes, one after the other (R98, R102, R103) -/

/-- From the coder `g`, an effect takes the bytes `x`: it writes bits that the decoder turns into what was taken, but
for the string at which the cursor then stands. -/
def Coder.Takes (s : State) (u : Units) (g : Coder) (out : Bytes) (bw : BitWriter) (x : Bytes) (r : Eff Unit) : Prop :=
  ∃ (g' : Coder) (bits : Bits) (o out' : Bytes) (bw' : BitWriter), g'.Linked ∧ Decodes g.dec bits o g'.dec ∧
    g.cs ++ x = o ++ g'.cs ∧ Appends out bw bits out' bw' ∧ r = .ok () (encState s u out' bw' g'.d g'.e)

section
variable (s : State) (u : Units) {g : Coder} {out : Bytes} {bw : BitWriter} (hb : bw.Inv)
include hb

/-- An effect that writes nothing. -/
theorem Coder.takes_silently {g' : Coder} (h : g'.Linked) (hdec : g'.dec = g.dec) {x : Bytes}
    (hcs : g'.cs = g.cs ++ x) :
    g.Takes s u out bw x (.ok () (encState s u out bw g'.d g'.e)) :=
  ⟨g', [], [], out, bw, h, hdec ▸ .none _, hcs.symm, .nil hb out, rfl⟩

/-- The end of the else branch of R98. -/
theorem Coder.Synced.takes_restart (h : g.Synced) {b : Byte} (hcs : g.cs = [b]) :
    g.Takes s u out bw [] (lzcRestart b (encState s u out bw g.d g.e)) := by
  have hsilent : ∀ misses, g.Takes s u out bw [] (.ok () (encState s u out bw g.d (g.e.restartAt b misses))) :=
    fun misses => Coder.takes_silently s u hb (h.restart hcs misses) rfl (List.append_nil _).symm
  rw [lzcRestart_encState]
  split_ifs
  · obtain ⟨out', bw', happ, hreset⟩ := lzcReset_encState s u (out := out) (d := g.d)
      (e := g.e.restartAt b (g.e.misses + 1)) hb (h.enc.width.2.trans (by decide)) b
    exact ⟨g.afterReset b, _, [], out', bw', h.afterReset b, h.decodes_reset b, by rw [hcs]; rfl, happ, hreset⟩
  · exact hsilent _
  · exact hsilent _

/-- The else branch of R98: no edge leads on from the cursor. -/
theorem Coder.Synced.takes_miss (h : g.Synced) {c : Nat} (hc : strOf g.strs c = some g.cs) {b : Byte}
    (hnew : edgeAt (c, b) g.d.child = none) :
    g.Takes s u out bw [b] ((lzcMiss (.code c) b (encState s u out bw g.d g.e)).bind fun _ s => lzcRestart b s) := by
  obtain ⟨w, out', bw', hfor, h31, happ, hmiss⟩ :=
    lzcMiss_encState s u (out := out) hb h.dict h.enc (h.strings.lt_next hc) hnew
  have h9 : 9 ≤ w := h.enc.width.1.trans hfor.1
  have hdec := h.decodes_emission hc (w - g.e.width) (Nat.add_sub_of_le hfor.1) h.enc.width.1 h31 hfor
  obtain ⟨strs, hext⟩ := h.extend hc hnew ⟨h9, h31⟩
  obtain ⟨g', bits, o, out'', bw'', hlinked, hdec', hcs, happ', hrestart⟩ :=
    Coder.Synced.takes_restart s u (out := out') happ.inv hext rfl
  refine ⟨g', _, g.cs ++ o, out'', bw'', hlinked, hdec.trans ?_, ?_, happ.trans happ', ?_⟩
  · rw [← g.d.extend_W c b]
    exact hdec'
  · rw [List.append_assoc, ← hcs]
    rfl
  · rw [hmiss, Eff.bind_ok]
    exact hrestart

/-- LZC_BYTE takes its byte (R98). -/
theorem Coder.Linked.takes_byte (h : g.Linked) (b : Byte) :
    g.Takes s u out bw [b] (lzcByte b (encState s u out bw g.d g.e)) := by
  rcases h.cursor with ⟨hcur, hcs, hlast, hstrs, hentries⟩ | ⟨c, hcur, hc⟩
  · rw [lzcByte_extend s u (n := b.toNat) (by rw [hcur]; rfl) (by rw [hcur]; rfl)]
    exact Coder.takes_silently s u (g := g) hb (h.moveTo (strOf_byte b _) (.inl ⟨hlast, hstrs, hentries⟩)) rfl
      (by rw [hcs]; rfl)
  · have hlegal : legalCursor g.d g.e.cur = true := by
      rw [hcur]
      exact decide_eq_true (h.strings.lt_next hc)
    cases hedge : edgeAt (c, b) g.d.child with
    | none =>
      rw [lzcByte_miss s u hlegal (by rw [hcur]; exact hedge), hcur]
      exact Coder.Synced.takes_miss s u hb h.toSynced hc hedge
    | some n =>
      obtain ⟨p, hp, hn⟩ := h.strings.edge c n b hedge
      obtain rfl := Option.some.inj (hc.symm.trans hp)
      have hfirst : (g.cs ++ [b]).take 1 = g.cs.take 1 :=
        List.take_append_of_le_length (List.length_pos_of_ne_nil (strOf_ne_nil h.strings hc))
      rw [lzcByte_extend s u (n := n) hlegal (by rw [hcur]; exact hedge)]
      exact Coder.takes_silently s u (g := g) hb (h.moveTo hn (h.lag.moveTo hfirst n _)) rfl rfl

/-- The loop of R103 takes the bytes of the input. -/
theorem Coder.Linked.takes_bytes (h : g.Linked) (x : Bytes) :
    g.Takes s u out bw x (forEach lzcByte x (encState s u out bw g.d g.e)) := by
  induction x generalizing g out bw with
  | nil => exact Coder.takes_silently s u hb h rfl (List.append_nil _).symm
  | cons b x ih =>
    obtain ⟨g', bits, o, out', bw', h', hdec, hcs, happ, hbyte⟩ := h.takes_byte s u (out := out) hb b
    obtain ⟨g'', bits', o', out'', bw'', h'', hdec', hcs', happ', hrest⟩ := ih happ.inv h'
    refine ⟨g'', bits ++ bits', o ++ o', out'', bw'', h'', hdec.trans hdec', ?_, happ.trans happ', ?_⟩
    · rw [List.append_assoc, ← hcs', ← List.append_assoc, ← hcs, List.append_assoc]
      rfl
    · rw [forEach_cons, hbyte, Eff.bind_ok, hrest]

/-- LZC_FINISH writes the code at which the cursor stands; the decoder has then output all that was taken (R102). -/
theorem Coder.Linked.finish (h : g.Linked) :
    ∃ (bits : Bits) (out' : Bytes) (bw' : BitWriter) (e' : LzwEnc) (y : LzwDec), Decodes g.dec bits g.cs y ∧
      y.done = false ∧ 9 ≤ y.width ∧ y.width ≤ 31 ∧ Appends out bw bits out' bw' ∧
      lzcFinish (encState s u out bw g.d g.e) = .ok () (encState s u out' bw' g.d e') := by
  rcases h.cursor with ⟨hcur, hcs, -⟩ | ⟨c, hcur, hc⟩
  · refine ⟨[], out, bw, g.e, g.dec, hcs ▸ .none _, rfl, h.enc.width.1, h.enc.width.2, .nil hb out, ?_⟩
    rw [lzcFinish, readLe_encState, hcur]
  · obtain ⟨w, out', bw', hfor, h31, happ, hemit⟩ :=
      lzcEmit_encState s u (out := out) hb h.dict h.enc (h.strings.lt_next hc)
    have h9 : 9 ≤ w := h.enc.width.1.trans hfor.1
    have hdec := h.decodes_emission hc (w - g.e.width) (Nat.add_sub_of_le hfor.1) h.enc.width.1 h31 hfor
    refine ⟨_, out', bw', { g.e with width := w }, _, hdec, rfl, h9, h31, happ, ?_⟩
    rw [lzcFinish, readLe_encState, hcur]
    exact hemit

end

end Sys2Proof.Machine
end

section

/-! ## LZW_COMPRESS writes a file that LZW_DECOMPRESS reads back (R64, R103, R108, R109) -/

namespace Sys2Proof.Machine

/-! ### The code stream (R103) -/

/-- The coder after LZC_INIT (R96). -/
def Coder.initial (c : Cfg) : Coder where
  d := { child := [], next := Config.firstCode, W := c.maxw.toNat, last := lastCodeAt c.maxw.toNat }
  e := { cur := .root, width := Config.initWidth, hits := 0, misses := 0, resets := 0, pct := c.pct, mins := c.mins }
  strs := []
  entries := []
  last := []
  cs := []

theorem Cfg.Inv.maxw {c : Cfg} (h : c.Inv) : 9 ≤ c.maxw.toNat ∧ c.maxw.toNat ≤ 31 :=
  ⟨h.1, Nat.le_of_lt_succ c.maxw.isLt⟩

theorem Coder.linked_initial {c : Cfg} (h : c.Inv) : (Coder.initial c).Linked where
  dict := LzwDict.inv_init h.maxw rfl
  enc := ⟨initWidth_legal, h.2⟩
  strings := hasStrings_nil rfl rfl
  lag := .inl ⟨rfl, rfl, rfl⟩
  cursor := .inl ⟨rfl, rfl, rfl, rfl, rfl⟩

/-- The bits are a code stream for the bytes `x` at the maximum width `W`, which leaves the decoder waiting for a code
word. -/
def IsStream (W : Nat) (bits : Bits) (x : Bytes) : Prop :=
  ∃ y : LzwDec, Decodes (.initial W) bits x y ∧ y.done = false ∧ 9 ≤ y.width ∧ y.width ≤ 31

/-- LZC_BYTE for each byte and LZC_FINISH write a code stream of the bytes, and nothing where there are none. -/
theorem encode_stream (s : State) (u : Units) (out : Bytes) {bw : BitWriter} (hb : bw.Inv) {c : Cfg} (hc : c.Inv)
    (x : Bytes) : ∃ (bits : Bits) (out' : Bytes) (bw' : BitWriter) (d : LzwDict) (e : LzwEnc),
      IsStream c.maxw.toNat bits x ∧ (x = [] → bits = []) ∧ Appends out bw bits out' bw' ∧
      ((forEach lzcByte x (encState s u out bw (Coder.initial c).d (Coder.initial c).e)).bind fun _ s => lzcFinish s) =
        .ok () (encState s u out' bw' d e) := by
  cases x with
  | nil =>
    exact ⟨[], out, bw, _, _, ⟨_, .none _, rfl, initWidth_legal⟩, fun _ => rfl, .nil hb out, rfl⟩
  | cons b x =>
    obtain ⟨g, bits, o, out', bw', hlinked, hdec, hcs, happ, hbytes⟩ :=
      (Coder.linked_initial hc).takes_bytes s u (out := out) hb (b :: x)
    obtain ⟨bits', out'', bw'', e', y, hdec', hdone, h9, h31, happ', hfinish⟩ :=
      hlinked.finish s u (out := out') happ.inv
    refine ⟨bits ++ bits', out'', bw'', g.d, e', ⟨y, ?_, hdone, h9, h31⟩, fun h => absurd h (List.cons_ne_nil b x),
      happ.trans happ', ?_⟩
    · have hall : b :: x = o ++ g.cs := hcs
      rw [hall]
      exact hdec.trans hdec'
    · rw [hbytes, Eff.bind_ok, hfinish]

/-! ### The file (R64, R103) -/

/-- Flush pads the written bits to whole bytes (R71). -/
theorem flush_pads {s : State} {u : Units} (hu : s.units = some u) (hb : u.bw.Inv) :
    ∃ out, bitsOfBytes out = writtenBits s.out u.bw ++ padBits (writtenBits s.out u.bw).length ∧
      flush s = .ok () { s with out := out, units := some { u with bw := { u.bw with acc := 0, nacc := 0 } } } := by
  obtain ⟨out, hout, -, hflush⟩ := flush_ok hu hb
  refine ⟨out, ?_, hflush⟩
  have hlen : (writtenBits s.out u.bw).length % 8 = u.bw.nacc := by
    have hfew := hb.few
    rw [writtenBits, List.length_append, bitsOfBytes_length, bitsMsb_length]
    omega
  rw [padBits, hlen, ← hout, writtenBits, bitsMsb, List.append_nil]

/-- The bits of LZW_COMPRESS's file, before the pad, behind the bits `before` (R64). -/
def lzwFileBits (before : Bits) (W : Nat) (stream : Bits) : Bits :=
  before ++ bitsMsb 32 Config.lzwMagic.toNat ++ bitsMsb 5 W ++ stream

theorem encState_input (s : State) (u : Units) (out : Bytes) (bw : BitWriter) (d : LzwDict) (e : LzwEnc) :
    (encState s u out bw d e).input = s.input := rfl

/-- The first two steps of R103: the encoder starts, and the magic is written. -/
theorem lzcInit_writeMagic {c : Cfg} (hc : c.Inv) {s : State} {u : Units} (hu : s.units = some u) (hb : u.bw.Inv) :
    ∃ t, lzcInit c.maxw c.pct c.mins s = .ok () t ∧ ∃ out bw,
      Appends s.out u.bw (bitsMsb 32 Config.lzwMagic.toNat) out bw ∧
      writeMagic Config.lzwMagic t = .ok () (encState s u out bw (Coder.initial c).d (Coder.initial c).e) := by
  refine ⟨_, lzcInit_legal hc.1 hc.2 c.mins s, ?_⟩
  exact writeMagic_wrote Config.lzwMagic (s := (setLe (setLd s (Coder.initial c).d) (Coder.initial c).e).withResets 0)
    (u := { u with ld := some (Coder.initial c).d, le := some (Coder.initial c).e }) (by simp [hu]) hb

/-- The steps of R103, from a state whose BitWriter is within a byte. -/
theorem lzwCompressWith_ok {c : Cfg} (hc : c.Inv) {s : State} {u : Units} (hu : s.units = some u) (hb : u.bw.Inv) :
    ∃ (stream : Bits) (out : Bytes) (d : LzwDict) (e : LzwEnc),
      IsStream c.maxw.toNat stream s.input ∧ (s.input = [] → stream = []) ∧
      bitsOfBytes out = lzwFileBits (writtenBits s.out u.bw) c.maxw.toNat stream ++
        padBits (lzwFileBits (writtenBits s.out u.bw) c.maxw.toNat stream).length ∧
      lzwCompressWith c s =
        .ok () (encState s u out { acc := 0, nacc := 0, total := u.bw.total + 37 + stream.length } d e) := by
  obtain ⟨start, hinit, out1, bw1, happ1, hmagic⟩ := lzcInit_writeMagic hc hu hb
  obtain ⟨out2, bw2, happ2, hwidth⟩ := writeBits_encState s u (out := out1) (d := (Coder.initial c).d)
    (e := (Coder.initial c).e) (n := Config.widthFieldBits) (by decide) c.maxw.toNat happ1.inv
  obtain ⟨stream, out3, bw3, d, e, hstream, hempty, happ3, hencode⟩ := encode_stream s u out2 happ2.inv hc s.input
  obtain ⟨out4, hpad, hflush⟩ := flush_pads (s := encState s u out3 bw3 d e) rfl happ3.inv
  have happ := (happ1.trans happ2).trans happ3
  have hwritten : writtenBits out3 bw3 = lzwFileBits (writtenBits s.out u.bw) c.maxw.toNat stream := by
    rw [happ.written, lzwFileBits, ← List.append_assoc, ← List.append_assoc]
    rfl
  refine ⟨stream, out4, d, e, hstream, hempty, ?_, ?_⟩
  · rw [← hwritten]
    exact hpad
  · obtain ⟨⟨⟩, t, hbytes, hfinish⟩ := Eff.bind_eq_ok.1 hencode
    have htotal : bw3.total = u.bw.total + 37 + stream.length := by
      rw [happ.total, List.length_append, List.length_append, bitsMsb_length, bitsMsb_length, ← Nat.add_assoc]
      rfl
    rw [lzwCompressWith, hinit, Eff.bind_ok, hmagic, Eff.bind_ok, hwidth, Eff.bind_ok, encState_input, hbytes,
      Eff.bind_ok, hfinish, Eff.bind_ok, hflush, ← htotal]
    rfl

/-! ### The round trip (R109) -/

/-- R109 (a): LZW_DECOMPRESS of the width field, a code stream and fewer than 8 zero bits. -/
theorem exec_lzwDecompress_stream {W : Nat} (hW : 9 ≤ W ∧ W ≤ 31) {stream : Bits} {x : Bytes} (h : IsStream W stream x)
    {r : State} {w : Units} (hr : Ready r w) {k : Nat} (hk : k < 8)
    (hahead : bitsAhead r w = bitsMsb 5 W ++ stream ++ List.replicate k false) :
    ∃ y : LzwDec, y.done = true ∧ exec .lzwDecompress r = .next { completed r .none (some { w with
        br := { pos := 8 * r.input.length }, lx := some y }) with
      out := r.out ++ x } := by
  obtain ⟨z, hdec, hdone, h9, h31⟩ := h
  have hpad : (List.replicate k false).length < z.width := by rw [List.length_replicate]; omega
  obtain ⟨res, y, hy, hbody⟩ := lzwDecompress_ok hW hdec hdone (by omega) hpad (s := startUnit r) hr.2 hahead
  exact ⟨y, hy, exec_unit_ok (i := .lzwDecompress) rfl hr.1 (noResult_ok hbody)⟩

/-- Settles O49: the bits that the encoder appends for each byte take the decoder along, one string behind the
dictionary. -/
theorem lzwStreamRoundTrip : Obligations.LzwStreamRoundTrip := by
  unfold Obligations.LzwStreamRoundTrip
  refine ⟨fun _ => rfl, fun s u c hready hb hcfg hcfgReady hc => ?_⟩
  obtain ⟨stream, out, d, e, hstream, hempty, hout, hbody⟩ := lzwCompressWith_ok hc (s := startUnit s) hready.2 hb
  have hcompress : lzwCompress (startUnit s) = _ := (readCfg_ready (s := startUnit s) hcfgReady hcfg _).trans hbody
  refine ⟨stream, out, d, e, exec_unit_ok (i := .lzwCompress) rfl hready.1 (noResult_ok hcompress), hout, hempty, ?_⟩
  rintro r w k i hr (rfl | rfl) hk hahead <;> exact exec_lzwDecompress_stream hc.maxw hstream hr hk hahead

end Sys2Proof.Machine
end

section

/-! ## BW_WRITE, BW_FLUSH and BR_READ (R70 to R72)

Each command is one stream operation in the frame of a unit command, so what the operation does is what the command does. -/

namespace Sys2Proof.Machine

theorem withResult_ok {α : Type} {f : α → Result} {body : State → Eff α} {s t : State} {a : α} (h : body s = .ok a t) :
    withResult f body s = .ok () (t.withRes (f a)) := by rw [withResult, h, Eff.bind_ok]

/-! ### Widths above 32 (R70, R72) -/

theorem writeBits_too_wide {n : Nat} (hn : 32 < n) (v : Nat) (s : State) : writeBits n v s = .raised .badOperand s :=
  if_pos hn

theorem readBits_too_wide {n : Nat} (hn : 32 < n) (s : State) : readBits n s = .raised .badOperand s := if_pos hn

/-! ### The commands -/

/-- Settles O20: WriteBits appends and counts the bits, and checks the width before it reads a unit. -/
theorem bwWriteAppendsTheLowBits : Obligations.BwWriteAppendsTheLowBits := by
  unfold Obligations.BwWriteAppendsTheLowBits
  refine ⟨fun s u n v hready hb hn => ?_, fun s n v hs hn => ?_⟩
  · obtain ⟨out, bw, happ, hwrite⟩ := writeBits_wrote hn v.toNat (s := startUnit s) hready.2 hb
    have htotal : bw.total = u.bw.total + n.toNat := by rw [happ.total, bitsMsb_length]
    exact ⟨out, bw, happ.inv, htotal, happ.written,
      exec_unit_ok (i := .bwWrite n v) rfl hready.1 (noResult_ok hwrite)⟩
  · exact exec_unit_raises rfl hs (noResult_raised (writeBits_too_wide hn v.toNat (startUnit s)))

/-- Settles O21: Flush adds the zero bits up to the next byte, and the BitWriter keeps its total. -/
theorem bwFlushPadsWithZeros : Obligations.BwFlushPadsWithZeros := by
  unfold Obligations.BwFlushPadsWithZeros
  intro s u hready hb
  obtain ⟨out, hout, -, hflush⟩ := flush_ok (s := startUnit s) hready.2 hb
  refine ⟨out, ?_, exec_unit_ok (i := .bwFlush) rfl hready.1 (noResult_ok hflush)⟩
  rw [padBits, Nat.mod_eq_of_lt hb.few]
  exact hout

/-- Settles O22: ReadBits reads the bits ahead, loses them where there are too few, and checks the width before it reads a
unit. -/
theorem brReadReturnsTheNextBits : Obligations.BrReadReturnsTheNextBits := by
  unfold Obligations.BrReadReturnsTheNextBits
  refine ⟨fun s u n hready hn hroom => ?_, fun s u n hready hn hpos hshort => ?_, fun s n hs hn => ?_⟩
  · have hread := readBits_ok (s := startUnit s) hn hready.2 hroom
    exact exec_unit_ok (i := .brRead n) rfl hready.1 (withResult_ok hread)
  · have hread := readBits_exhausted (s := startUnit s) hn hready.2 hshort (by omega)
    exact exec_unit_ok (i := .brRead n) rfl hready.1 (withResult_ok hread)
  · exact exec_unit_raises rfl hs (withResult_raised (readBits_too_wide hn (startUnit s)))

end Sys2Proof.Machine
end

section

/-! ## The FrequencyTable and heap commands (R73 to R78) -/

namespace Sys2Proof.Machine

/-! ### FrequencyTable (R73, R74) -/

/-- Settles O24: FT_CLEAR writes the table of zeros, FT_COUNT one entry of the table. -/
theorem ftCommandsClearAndCount : Obligations.FtCommandsClearAndCount := by
  unfold Obligations.FtCommandsClearAndCount
  refine fun s u ⟨hs, hu⟩ => ⟨⟨.zero, FreqTable.get_zero, ?_⟩, fun b => ⟨u.ft.set b (u.ft.get b + 1), ?_, ?_, ?_⟩⟩
  · have hclear : ftClear (startUnit s) = .ok () ((startUnit s).withUnits (some { u with ft := .zero })) :=
      congrArg (Eff.ok ()) (mapUnits_some (s := startUnit s) hu _)
    exact exec_unit_ok (i := .ftClear) rfl hs (noResult_ok hclear)
  · exact u.ft.get_set_same b _
  · exact fun c hc => u.ft.get_set_ne hc _
  · exact exec_unit_ok (i := .ftCount b) rfl hs (noResult_ok (readUnits_some (s := startUnit s) hu _))

/-! ### What a command does to the tree and the heap -/

/-- The two units that HT_BUILD works on: the arena, and the items of the heap. -/
structure Forest where
  tree : HuffTree
  items : List Nat

/-- The units with this tree and this heap. -/
def Units.holding (u : Units) (f : Forest) : Units := { u with ht := f.tree, hp := { items := f.items } }

/-- Whatever the rest of the state holds, `body` completes with the value `a`, takes the tree and the heap from `f` to
`g`, and changes nothing else. -/
def Turns {α : Type} (body : State → Eff α) (f : Forest) (a : α) (g : Forest) : Prop :=
  ∀ (s : State) (u : Units), body (s.withUnits (some (u.holding f))) = .ok a (s.withUnits (some (u.holding g)))

theorem Turns.bind {α β : Type} {body : State → Eff α} {k : α → State → Eff β} {f g h : Forest} {a : α} {b : β}
    (hbody : Turns body f a g) (hk : Turns (k a) g b h) : Turns (fun s => (body s).bind k) f b h := fun s u => by
  simp only [hbody s u, Eff.bind_ok, hk s u]

/-- What a body does in a state whose units are defined. -/
theorem Turns.run {α : Type} {body : State → Eff α} {s : State} {u : Units} {a : α} {g : Forest}
    (hu : s.units = some u) (h : Turns body ⟨u.ht, u.hp.items⟩ a g) :
    body s = .ok a (s.withUnits (some (u.holding g))) := by
  have hs : s.withUnits (some (u.holding ⟨u.ht, u.hp.items⟩)) = s := congrArg s.withUnits hu.symm
  have hrun := h s u
  rwa [hs] at hrun

/-! ### HP_PUSH (R77) -/

theorem heapPush_turns {f : Forest} {i : Nat} (hi : i < f.tree.n) (hnew : i ∉ f.items) (hroom : f.items.length ≠ 256) :
    Turns (heapPush i) f () ⟨f.tree, insertRising i f.items⟩ := fun _ u =>
  heapPush_ok (u := u.holding f) rfl hi hnew hroom

/-- HP_PUSH of a node that is not allocated or already queued, or into a full heap. -/
theorem heapPush_raises {s : State} {u : Units} {i : Nat} (hu : s.units = some u)
    (h : i ≥ u.ht.n ∨ i ∈ u.hp.items ∨ u.hp.size = 256) : heapPush i s = .raised .badOperand s := by
  have hrefused : (!legalNode u.ht i || u.hp.items.contains i || u.hp.size == Config.heapCap) = true := by
    simpa [legalNode, Config.heapCap, or_assoc] using h
  rw [heapPush, readUnits_some hu, if_pos hrefused]

/-- Settles O25: HP_PUSH inserts into the rising list of items, or its test fails. -/
theorem hpPushQueuesANewNode : Obligations.HpPushQueuesANewNode := by
  unfold Obligations.HpPushQueuesANewNode
  refine fun s u i ⟨hs, hu⟩ => ⟨fun hbad => ?_, fun hi hnew hroom hrising => ?_⟩
  · exact exec_unit_raises rfl hs (noResult_raised (heapPush_raises (s := startUnit s) hu hbad))
  · refine ⟨insertRising i.toNat u.hp.items, fun j => mem_insertRising _ _ _, insertRising_pairwise hrising hnew, ?_⟩
    have hpush : heapPush i.toNat (startUnit s) = .ok () _ := Turns.run hu (heapPush_turns hi hnew hroom)
    exact exec_unit_ok (i := .hpPush i) rfl hs (noResult_ok hpush)

/-! ### HP_POP (R75, R78) -/

/-- `a` is the item of the least key, the node `an` (R75). -/
structure HuffTree.Least (t : HuffTree) (items : List Nat) (a : Nat) (an : Node) : Prop where
  mem : a ∈ items
  node : t.node[a]? = some an
  le : ∀ (j : Nat) (nj : Node), j ∈ items → t.node[j]? = some nj →
    an.weight < nj.weight ∨ (an.weight = nj.weight ∧ a ≤ j)

theorem HuffTree.least_of_leastItem {t : HuffTree} {items : List Nat} {k : Nat × Nat}
    (h : leastItem t.node items = some k) : ∃ an, t.Least items k.2 an := by
  obtain ⟨hmem, hkey, hmin⟩ := leastItem_spec h
  obtain ⟨an, han, hk⟩ := heapKey_eq_some hkey
  refine ⟨an, hmem, han, fun j nj hj hnj => ?_⟩
  obtain ⟨kj, hkj, hle⟩ := hmin j hj
  obtain ⟨nj', hnj', rfl⟩ := heapKey_eq_some hkj
  obtain rfl := Option.some.inj (hnj.symm.trans hnj')
  have hweight : k.1 = an.weight := congrArg Prod.fst hk
  simp only [keyLess, decide_eq_false_iff_not] at hle
  omega

/-- Two different items: the least one has the strictly lesser key. -/
theorem HuffTree.Least.lt {t : HuffTree} {items : List Nat} {a : Nat} {an : Node} (h : t.Least items a an) {j : Nat}
    {nj : Node} (hj : j ∈ items) (hnj : t.node[j]? = some nj) (hne : j ≠ a) :
    an.weight < nj.weight ∨ (an.weight = nj.weight ∧ a < j) := by
  have hle := h.le j nj hj hnj
  omega

theorem heapPop_turns {t : HuffTree} {items : List Nat} (hne : items ≠ []) (hall : ∀ i ∈ items, i < t.n) :
    ∃ a an, t.Least items a an ∧ Turns heapPop ⟨t, items⟩ a ⟨t, items.erase a⟩ := by
  obtain ⟨k, hk⟩ := leastItem_isSome hne hall
  obtain ⟨an, han⟩ := HuffTree.least_of_leastItem hk
  refine ⟨k.2, an, han, fun s u => ?_⟩
  obtain ⟨k', hk', hpop⟩ := heapPop_ok (s := s.withUnits (some (u.holding ⟨t, items⟩))) rfl hne hall
  obtain rfl := Option.some.inj (hk.symm.trans hk')
  exact hpop

/-- Settles O26: the item of the least key leaves the heap. -/
theorem hpPopTakesTheLeastKey : Obligations.HpPopTakesTheLeastKey := by
  unfold Obligations.HpPopTakesTheLeastKey
  refine fun s u ⟨hs, hu⟩ => ⟨fun hnil => ?_, fun hne hinv => ?_⟩
  · have hsize : u.hp.size = 0 := congrArg List.length hnil
    have hpop : heapPop (startUnit s) = .raised .badOperand (startUnit s) := by
      rw [heapPop, readUnits_some (s := startUnit s) hu, if_pos hsize]
    exact exec_unit_raises rfl hs (withResult_raised hpop)
  · obtain ⟨a, an, hleast, hturns⟩ := heapPop_turns hne hinv.allocated
    have hpop := Turns.run (s := startUnit s) hu hturns
    refine ⟨a, an, u.hp.items.erase a, hleast.mem, hleast.node, hleast.le, fun j => ?_, hinv.rising.erase a, ?_⟩
    · exact (nodup_of_rising hinv.rising).mem_erase_iff
    · exact exec_unit_ok (i := .hpPop) rfl hs (withResult_ok hpop)

end Sys2Proof.Machine
end

section

/-! ## HT_BUILD merges the least keys (R75, R79 to R81, R135)

`Forest.Stage` is the loop invariant of R79 beside `HuffTree.Growing`: what the nodes made so far are. Each pass is
stated as `Turns`, so that the tree depends on the frequency table alone. -/

namespace Sys2Proof.Machine

/-! ### The table as a list of symbols -/

theorem allSymbols_length : allSymbols.length = 256 := by simp [allSymbols, Config.nsym]

theorem mem_allSymbols (b : Byte) : b ∈ allSymbols :=
  List.mem_map.2 ⟨b.toNat, List.mem_range.2 b.isLt, by simp⟩

theorem FreqTable.entries_eq (ft : FreqTable) : ft.entries = allSymbols.map fun b => (b, ft.get b) := by
  refine List.ext_getElem (by simp [FreqTable.entries, allSymbols_length, FreqTable.counts]) fun i hi hi' => ?_
  rw [List.length_map, allSymbols_length] at hi'
  simp [FreqTable.entries, FreqTable.counts, FreqTable.get, allSymbols, Nat.mod_eq_of_lt hi']

theorem FreqTable.counts_eq (ft : FreqTable) : ft.counts = allSymbols.map ft.get := by
  have hsnd : ft.entries.map (·.2) = ft.counts :=
    List.map_snd_zip (by simp [allSymbols_length, FreqTable.counts])
  rw [← hsnd, ft.entries_eq, List.map_map]
  rfl

theorem FreqTable.mem_occurring {ft : FreqTable} {b : Byte} : b ∈ ft.occurring ↔ 0 < ft.get b := by
  simp [FreqTable.occurring, mem_allSymbols]

theorem FreqTable.occurring_nodup (ft : FreqTable) : ft.occurring.Nodup := allSymbols_nodup.filter _

/-- What is zero adds nothing to a sum. -/
theorem sum_map_filter_pos {α : Type} (f : α → Nat) (l : List α) :
    ((l.filter fun a => decide (0 < f a)).map f).sum = (l.map f).sum := by
  induction l with
  | nil => rfl
  | cons a l ih =>
    by_cases ha : 0 < f a
    · rw [List.filter_cons_of_pos (by simpa using ha), List.map_cons, List.map_cons, List.sum_cons, List.sum_cons, ih]
    · rw [List.filter_cons_of_neg (by simpa using ha), ih, List.map_cons, List.sum_cons]
      omega

theorem FreqTable.sum_eq (ft : FreqTable) : ft.sum = (ft.occurring.map ft.get).sum := by
  rw [FreqTable.sum, ft.counts_eq, FreqTable.occurring, sum_map_filter_pos]

/-! ### The weight of the heap -/

/-- The weight of a node, 0 outside the arena. -/
def HuffTree.weightOf (t : HuffTree) (i : Nat) : Nat := ((t.node[i]?).map Node.weight).getD 0

theorem HuffTree.weightOf_node {t : HuffTree} {i : Nat} {nd : Node} (h : t.node[i]? = some nd) :
    t.weightOf i = nd.weight := by simp [HuffTree.weightOf, h]

/-- The sum of the weights of the items. -/
def Forest.weight (f : Forest) : Nat := (f.items.map f.tree.weightOf).sum

theorem insertRising_perm (i : Nat) (l : List Nat) : (insertRising i l).Perm (i :: l) := by
  induction l with
  | nil => exact .refl _
  | cons j l ih =>
    unfold insertRising
    split
    · exact .refl _
    · exact (ih.cons j).trans (.swap i j l)

theorem sum_map_insertRising (w : Nat → Nat) (i : Nat) (l : List Nat) :
    ((insertRising i l).map w).sum = w i + (l.map w).sum := by
  rw [((insertRising_perm i l).map w).sum_eq, List.map_cons, List.sum_cons]

theorem sum_map_erase (w : Nat → Nat) {i : Nat} {l : List Nat} (h : i ∈ l) :
    (l.map w).sum = w i + ((l.erase i).map w).sum := by
  rw [((List.perm_cons_erase h).map w).sum_eq, List.map_cons, List.sum_cons]

/-! ### The two changes of the forest -/

/-- A new leaf is queued; two items are merged and their parent is queued (R79). -/
def Forest.addLeaf (f : Forest) (b : Byte) (w : Nat) : Forest := ⟨f.tree.addLeaf b w, insertRising f.tree.n f.items⟩
def Forest.merge (f : Forest) (a b w : Nat) : Forest :=
  ⟨f.tree.merge a b w, insertRising f.tree.n ((f.items.erase a).erase b)⟩

theorem HuffTree.Growing.new {t : HuffTree} {items : List Nat} (h : t.Growing items) : t.n ∉ items :=
  fun hn => (h.lt_n hn).ne rfl

theorem HuffTree.Growing.node_of_mem {t : HuffTree} {items : List Nat} (h : t.Growing items) {i : Nat}
    (hi : i ∈ items) : ∃ nd : Node, t.node[i]? = some nd := by
  obtain ⟨nd, hnd, -⟩ := (h.isOpen i).1 hi
  exact ⟨nd, hnd⟩

/-- The nodes after the two least items have been merged. -/
theorem HuffTree.Growing.merge_least_node {t : HuffTree} {items : List Nat} (h : t.Growing items) {a b : Nat}
    {an bn : Node} (ha : t.Least items a an) (hb : t.Least (items.erase a) b bn) {j : Nat} {nd : Node} :
    (t.merge a b (an.weight + bn.weight)).node[j]? = some nd ↔
      (∃ old, t.node[j]? = some old ∧ nd = t.afterMerge a b j old) ∨
      (j = t.n ∧ nd = .newParent a b (an.weight + bn.weight)) :=
  h.merge_node ha.mem (List.mem_of_mem_erase hb.mem) _

@[simp] theorem HuffTree.afterMerge_weight (t : HuffTree) (a b j : Nat) (nd : Node) :
    (t.afterMerge a b j nd).weight = nd.weight := by unfold HuffTree.afterMerge; split <;> rfl

theorem Forest.weight_addLeaf {f : Forest} (h : f.tree.Growing f.items) (b : Byte) (w : Nat) :
    (f.addLeaf b w).weight = w + f.weight := by
  have hnew : (f.tree.addLeaf b w).weightOf f.tree.n = w :=
    HuffTree.weightOf_node ((HuffTree.addLeaf_node _ b w).2 (.inr ⟨rfl, rfl⟩))
  have hold : ∀ i ∈ f.items, (f.tree.addLeaf b w).weightOf i = f.tree.weightOf i := fun i hi => by
    obtain ⟨nd, hnd⟩ := h.node_of_mem hi
    rw [HuffTree.weightOf_node hnd, HuffTree.weightOf_node ((HuffTree.addLeaf_node _ b w).2 (.inl hnd))]
  rw [Forest.weight, Forest.addLeaf, sum_map_insertRising, hnew, List.map_congr_left hold, Forest.weight]

theorem Forest.weight_merge {f : Forest} (h : f.tree.Growing f.items) {a b : Nat} {an bn : Node}
    (ha : f.tree.Least f.items a an) (hb : f.tree.Least (f.items.erase a) b bn) :
    (f.merge a b (an.weight + bn.weight)).weight = f.weight := by
  have hnew : (f.tree.merge a b (an.weight + bn.weight)).weightOf f.tree.n = an.weight + bn.weight :=
    HuffTree.weightOf_node ((h.merge_least_node ha hb).2 (.inr ⟨rfl, rfl⟩))
  have hold : ∀ i ∈ (f.items.erase a).erase b,
      (f.tree.merge a b (an.weight + bn.weight)).weightOf i = f.tree.weightOf i := fun i hi => by
    obtain ⟨nd, hnd⟩ := h.node_of_mem ((h.mem_rest i).1 hi).2.2
    rw [HuffTree.weightOf_node hnd, HuffTree.weightOf_node ((h.merge_least_node ha hb).2 (.inl ⟨nd, hnd, rfl⟩)),
      HuffTree.afterMerge_weight]
  rw [Forest.weight, Forest.merge, sum_map_insertRising, hnew, List.map_congr_left hold, Forest.weight,
    sum_map_erase _ ha.mem, sum_map_erase _ hb.mem, HuffTree.weightOf_node ha.node, HuffTree.weightOf_node hb.node,
    Nat.add_assoc]

/-! ### The loop invariant -/

/-- Node `i` is the parent of the two open nodes of the least keys at the time it is made (R79). -/
def HuffTree.MergedAt (t : HuffTree) (i : Nat) : Prop := ∃ (nd ln rn : Node) (l r : Nat),
  t.node[i]? = some nd ∧ nd.kind = .internal l r ∧ nd.weight = ln.weight + rn.weight ∧
  t.OpenAt i l ln ∧ ln.parent = some i ∧ t.OpenAt i r rn ∧ rn.parent = some i ∧
  (ln.weight < rn.weight ∨ (ln.weight = rn.weight ∧ l < r)) ∧
  ∀ (j : Nat) (jn : Node), t.OpenAt i j jn → j ≠ l → j ≠ r →
    rn.weight < jn.weight ∨ (rn.weight = jn.weight ∧ r < j)

/-- The forest while HT_BUILD runs on the table `ft`: the symbols `done` have their leaves, in order, and each node
after the leaves merges the two open nodes of least key. -/
structure Forest.Stage (ft : FreqTable) (done : List Byte) (f : Forest) : Prop where
  grows : f.tree.Growing f.items
  count : f.tree.n + f.items.length = 2 * done.length
  few : done.length ≤ f.tree.n
  leaves : ∀ (j : Nat) (b : Byte), done[j]? = some b → f.tree.leafOf b = some j ∧
    ∃ nd : Node, f.tree.node[j]? = some nd ∧ nd.kind = .leaf b ∧ nd.weight = ft.get b
  absent : ∀ b, b ∉ done → f.tree.leafOf b = none
  merged : ∀ i, done.length ≤ i → i < f.tree.n → f.tree.MergedAt i
  weight : f.weight = (done.map ft.get).sum

theorem Forest.stage_empty (ft : FreqTable) : Forest.Stage ft [] ⟨.empty, []⟩ where
  grows := HuffTree.growing_empty
  count := rfl
  few := le_rfl
  leaves := by simp
  absent := fun b _ => HuffTree.empty_leafOf b
  merged := fun i _ hi => absurd hi (Nat.not_lt_zero i)
  weight := rfl

/-- The heap never holds more than its capacity. -/
theorem Forest.Stage.room {ft : FreqTable} {done : List Byte} {f : Forest} (h : f.Stage ft done) :
    f.items.length ≤ 256 := by
  have hcount := h.count
  have hfew := h.few
  have hsize := h.grows.size
  omega

/-! ### The first loop -/

/-- A further symbol gets its leaf. -/
theorem Forest.Stage.addLeaf {ft : FreqTable} {done : List Byte} {f : Forest} (h : f.Stage ft done)
    (hn : f.tree.n = done.length) {b : Byte} (hb : b ∉ done) (hroom : done.length < 256) :
    (f.addLeaf b (ft.get b)).Stage ft (done ++ [b]) where
  grows := h.grows.addLeaf _ (h.absent b hb) (by have hcount := h.count; omega)
  count := by
    have hcount := h.count
    simp only [Forest.addLeaf, HuffTree.addLeaf_n, insertRising_length, List.length_append, List.length_singleton]
    omega
  few := by simp [Forest.addLeaf, hn]
  leaves := fun j c hj => by
    rcases getElem?_concat_eq_some.1 hj with hj | ⟨rfl, rfl⟩
    · obtain ⟨hleaf, nd, hnd, hrest⟩ := h.leaves j c hj
      have hcb : c ≠ b := fun hcb => hb (hcb ▸ List.mem_of_getElem? hj)
      exact ⟨(HuffTree.addLeaf_leafOf_ne _ hcb _).trans hleaf, nd, (HuffTree.addLeaf_node _ b _).2 (.inl hnd), hrest⟩
    · exact ⟨hn ▸ HuffTree.addLeaf_leafOf_same _ c _, _, (HuffTree.addLeaf_node _ c _).2 (.inr ⟨hn.symm, rfl⟩),
        rfl, rfl⟩
  absent := fun c hc => by
    rw [List.mem_append, List.mem_singleton, not_or] at hc
    exact (HuffTree.addLeaf_leafOf_ne _ hc.2 _).trans (h.absent c hc.1)
  merged := fun i hi hin => by
    simp only [Forest.addLeaf, HuffTree.addLeaf_n, List.length_append, List.length_singleton] at hi hin
    omega
  weight := by
    rw [Forest.weight_addLeaf h.grows, h.weight, List.map_append, List.sum_append, List.map_singleton,
      List.sum_singleton, Nat.add_comm]

theorem allocNode_turns (f : Forest) (nd : Node) :
    Turns (allocNode nd) f f.tree.n ⟨{ f.tree with node := f.tree.node ++ [nd] }, f.items⟩ := fun _ _ => rfl

theorem buildLeaf_absent (b : Byte) (f : Forest) : Turns (buildLeaf (b, 0)) f () f := fun _ _ => rfl

theorem buildLeaf_turns {f : Forest} (b : Byte) {w : Nat} (hw : 0 < w) (hnew : f.tree.n ∉ f.items)
    (hroom : f.items.length ≠ 256) : Turns (buildLeaf (b, w)) f () (f.addLeaf b w) := fun s u => by
  have hpush := heapPush_turns (f := ⟨f.tree.addLeaf b w, f.items⟩) (i := f.tree.n) (by simp) hnew hroom
  rw [buildLeaf, if_pos hw, allocNode_turns f _ s u, Eff.bind_ok]
  exact hpush s u

/-- The first loop of R79: the symbols that occur get their leaves. -/
theorem buildLeaves_turns {ft : FreqTable} (bs done : List Byte) {f : Forest} (h : f.Stage ft done)
    (hn : f.tree.n = done.length) (hsub : (done ++ bs).Sublist allSymbols) :
    ∃ g : Forest, g.Stage ft (done ++ bs.filter fun b => decide (0 < ft.get b)) ∧
      Turns (forEach buildLeaf (bs.map fun b => (b, ft.get b))) f () g := by
  induction bs generalizing done f with
  | nil => exact ⟨f, by simpa using h, fun _ _ => rfl⟩
  | cons b bs ih =>
    rcases Nat.eq_zero_or_pos (ft.get b) with hzero | hpos
    · obtain ⟨g, hg, hturns⟩ := ih done h hn
        (((List.Sublist.refl done).append (List.sublist_cons_self b bs)).trans hsub)
      refine ⟨g, by rwa [List.filter_cons_of_neg (by simp [hzero])], ?_⟩
      rw [List.map_cons, hzero]
      exact (buildLeaf_absent b f).bind hturns
    · rw [List.append_cons] at hsub
      have hdone := (List.sublist_append_left (done ++ [b]) bs).trans hsub
      have hb : b ∉ done := fun hmem =>
        (List.nodup_append.1 (hdone.nodup allSymbols_nodup)).2.2 b hmem b List.mem_cons_self rfl
      have hroom : done.length < 256 := by
        simpa [allSymbols_length, Nat.succ_le_iff] using hdone.length_le
      have hcount := h.count
      obtain ⟨g, hg, hturns⟩ := ih (done ++ [b]) (h.addLeaf hn hb hroom) (by simp [Forest.addLeaf, hn]) hsub
      refine ⟨g, by rwa [List.filter_cons_of_pos (by simpa using hpos), List.append_cons], ?_⟩
      exact (buildLeaf_turns b hpos h.grows.new (by omega)).bind hturns

/-! ### The second loop -/

theorem nodeWeight_turns {t : HuffTree} {a : Nat} {an : Node} (h : t.node[a]? = some an) (items : List Nat) :
    Turns (nodeWeight a) ⟨t, items⟩ an.weight ⟨t, items⟩ := fun s u => by
  have hnode : (u.holding ⟨t, items⟩).ht.node[a]? = some an := h
  rw [nodeWeight, readUnits_some rfl, hnode]

/-- A pass of the second loop: the two least items are merged. -/
theorem mergeTwo_turns {f : Forest} (h : f.tree.Growing f.items) (htwo : 2 ≤ f.items.length)
    (hroom : f.items.length ≤ 256) : ∃ (a b : Nat) (an bn : Node), f.tree.Least f.items a an ∧
      f.tree.Least (f.items.erase a) b bn ∧ Turns mergeTwo f () (f.merge a b (an.weight + bn.weight)) := by
  obtain ⟨a, an, ha, hpopa⟩ := heapPop_turns (List.length_pos_iff.1 (by omega)) fun _ => h.lt_n
  have hlen := List.length_erase_of_mem ha.mem
  obtain ⟨b, bn, hb, hpopb⟩ := heapPop_turns (t := f.tree) (items := f.items.erase a)
    (List.length_pos_iff.1 (by omega)) fun i hi => h.lt_n (List.mem_of_mem_erase hi)
  have hnew : f.tree.n ∉ (f.items.erase a).erase b :=
    fun hn => h.new (List.mem_of_mem_erase (List.mem_of_mem_erase hn))
  have hsize : ((f.items.erase a).erase b).length ≠ 256 := by rw [List.length_erase_of_mem hb.mem]; omega
  have hpush := heapPush_turns (f := ⟨f.tree.merge a b (an.weight + bn.weight), (f.items.erase a).erase b⟩)
    (i := f.tree.n) (by simp) hnew hsize
  refine ⟨a, b, an, bn, ha, hb, hpopa.bind (hpopb.bind ?_)⟩
  exact (nodeWeight_turns ha.node _).bind ((nodeWeight_turns hb.node _).bind
    ((allocNode_turns _ _).bind fun s u => hpush s u))

/-- Nodes that are merged now were open at every time before. -/
theorem HuffTree.OpenAt.of_merge {t : HuffTree} {items : List Nat} (h : t.Growing items) {a b : Nat} (ha : a ∈ items)
    (hb : b ∈ items) (w : Nat) {i j : Nat} {nd : Node} (hi : i ≤ t.n) (ho : (t.merge a b w).OpenAt i j nd) :
    ∃ old, t.OpenAt i j old ∧ nd = t.afterMerge a b j old := by
  obtain ⟨hj, hnd, hp⟩ := ho
  rcases (h.merge_node ha hb w).1 hnd with ⟨old, hold, rfl⟩ | ⟨rfl, -⟩
  · refine ⟨old, ⟨hj, hold, fun p hpar => ?_⟩, rfl⟩
    have hkeep := h.merge_keeps ha hb w hold hpar
    rw [hnd] at hkeep
    exact hp p (by rw [Option.some.inj hkeep, hpar])
  · omega

theorem HuffTree.Growing.merge_openAt {t : HuffTree} {items : List Nat} (h : t.Growing items) {a b : Nat}
    (ha : a ∈ items) (hb : b ∈ items) (w : Nat) {i j p : Nat} {nd : Node} (ho : t.OpenAt i j nd)
    (hp : nd.parent = some p) : (t.merge a b w).OpenAt i j nd :=
  ⟨ho.1, h.merge_keeps ha hb w ho.2.1 hp, ho.2.2⟩

/-- A merge leaves the merges before it as they were. -/
theorem HuffTree.MergedAt.merge {t : HuffTree} {items : List Nat} (h : t.Growing items) {a b : Nat} (ha : a ∈ items)
    (hb : b ∈ items) (w : Nat) {i : Nat} (hi : i < t.n) (hm : t.MergedAt i) : (t.merge a b w).MergedAt i := by
  obtain ⟨nd, ln, rn, l, r, hnd, hk, hw, hlo, hlp, hro, hrp, hlr, hmin⟩ := hm
  refine ⟨_, ln, rn, l, r, (h.merge_node ha hb w).2 (.inl ⟨nd, hnd, rfl⟩), ?_, ?_, h.merge_openAt ha hb w hlo hlp, hlp,
    h.merge_openAt ha hb w hro hrp, hrp, hlr, fun j jn ho hjl hjr => ?_⟩
  · rw [HuffTree.afterMerge_kind, hk]
  · rw [HuffTree.afterMerge_weight, hw]
  · obtain ⟨old, hold, rfl⟩ := ho.of_merge h ha hb w hi.le
    rw [HuffTree.afterMerge_weight]
    exact hmin j old hold hjl hjr

/-- The nodes that are open when the next one is made are the items of the heap. -/
theorem HuffTree.Growing.mem_of_openAt {t : HuffTree} {items : List Nat} (h : t.Growing items) {j : Nat} {nd : Node}
    (ho : t.OpenAt t.n j nd) : j ∈ items := by
  obtain ⟨-, hnd, hp⟩ := ho
  refine (h.isOpen j).2 ⟨nd, hnd, ?_⟩
  cases hpar : nd.parent with
  | none => rfl
  | some p =>
    obtain ⟨-, pn, -, -, hpn, -⟩ := h.parent j nd p hnd hpar
    exact absurd (hp p hpar) (Nat.not_le.2 (HuffTree.lt_n_of_node hpn))

/-- The new node of a merge of the two least items. -/
theorem HuffTree.Growing.mergedAt_new {t : HuffTree} {items : List Nat} (h : t.Growing items) {a b : Nat}
    {an bn : Node} (ha : t.Least items a an) (hb : t.Least (items.erase a) b bn) :
    (t.merge a b (an.weight + bn.weight)).MergedAt t.n := by
  have hnodup := nodup_of_rising h.rising
  obtain ⟨hba, hbi⟩ := hnodup.mem_erase_iff.1 hb.mem
  have hopen : ∀ {j : Nat} {old : Node}, t.node[j]? = some old → a = j ∨ b = j →
      (t.merge a b (an.weight + bn.weight)).OpenAt t.n j (old.adopt t.n) := fun hold hj =>
    ⟨HuffTree.lt_n_of_node hold, (h.merge_least_node ha hb).2 (.inl ⟨_, hold, (if_pos hj).symm⟩),
      fun p hp => (Option.some.inj hp).le⟩
  have hlt := ha.lt hbi hb.node hba
  refine ⟨_, an.adopt t.n, bn.adopt t.n, a, b, (h.merge_least_node ha hb).2 (.inr ⟨rfl, rfl⟩), rfl, rfl,
    hopen ha.node (.inl rfl), rfl, hopen hb.node (.inr rfl), rfl, hlt, fun j jn ho hja hjb => ?_⟩
  obtain ⟨old, hold, rfl⟩ := ho.of_merge h ha.mem hbi _ le_rfl
  rw [HuffTree.afterMerge_weight]
  exact hb.lt (hnodup.mem_erase_iff.2 ⟨hja, h.mem_of_openAt hold⟩) hold.2.1 hjb

theorem Forest.Stage.merge {ft : FreqTable} {done : List Byte} {f : Forest} (h : f.Stage ft done) {a b : Nat}
    {an bn : Node} (ha : f.tree.Least f.items a an) (hb : f.tree.Least (f.items.erase a) b bn) :
    (f.merge a b (an.weight + bn.weight)).Stage ft done := by
  have hbi := List.mem_of_mem_erase hb.mem
  constructor
  case grows => exact h.grows.merge _ ha.mem hb.mem
  case count =>
    have hcount := h.count
    have hpos := List.length_pos_of_mem hb.mem
    have hlen := List.length_erase_of_mem ha.mem
    simp only [Forest.merge, HuffTree.merge_n, insertRising_length, List.length_erase_of_mem hb.mem]
    omega
  case few => exact h.few.trans (by simp [Forest.merge])
  case leaves =>
    intro j c hj
    obtain ⟨hleaf, nd, hnd, hk, hw⟩ := h.leaves j c hj
    refine ⟨hleaf, _, (h.grows.merge_node ha.mem hbi _).2 (.inl ⟨nd, hnd, rfl⟩), ?_, ?_⟩
    · rw [HuffTree.afterMerge_kind, hk]
    · rw [HuffTree.afterMerge_weight, hw]
  case absent => exact h.absent
  case merged =>
    intro i hi hin
    rw [Forest.merge, HuffTree.merge_n, Nat.lt_succ_iff] at hin
    rcases hin.eq_or_lt with rfl | hlt
    · exact h.grows.mergedAt_new ha hb
    · exact (h.merged i hi hlt).merge h.grows ha.mem hbi _ hlt
  case weight => rw [Forest.weight_merge h.grows ha hb, h.weight]

theorem mergeAll_done (k : Nat) {f : Forest} (h : ¬ 2 ≤ f.items.length) : Turns (mergeAll k) f () f := fun s u => by
  cases k <;> rw [mergeAll, readUnits_some rfl] <;> exact if_neg h

theorem mergeAll_pass {k : Nat} {f g h : Forest} (htwo : 2 ≤ f.items.length) (hpass : Turns mergeTwo f () g)
    (hrest : Turns (mergeAll k) g () h) : Turns (mergeAll (k + 1)) f () h := fun s u => by
  rw [mergeAll, readUnits_some rfl]
  exact (if_pos htwo).trans ((hpass.bind hrest) s u)

/-- The second loop of R79 merges until at most one item is left. -/
theorem mergeAll_turns {ft : FreqTable} {done : List Byte} (k : Nat) {f : Forest} (h : f.Stage ft done)
    (hk : f.items.length ≤ k) : ∃ g : Forest, g.Stage ft done ∧ g.items.length < 2 ∧ Turns (mergeAll k) f () g := by
  induction k generalizing f with
  | zero => exact ⟨f, h, by omega, mergeAll_done 0 (by omega)⟩
  | succ k ih =>
    by_cases htwo : 2 ≤ f.items.length
    · obtain ⟨a, b, an, bn, ha, hb, hpass⟩ := mergeTwo_turns h.grows htwo h.room
      have hnext := h.merge ha hb
      have hlen : (f.merge a b (an.weight + bn.weight)).items.length ≤ k := by
        have hcount := h.count
        have hcount' := hnext.count
        simp only [Forest.merge, HuffTree.merge_n] at hcount' ⊢
        omega
      obtain ⟨g, hg, hsmall, hrest⟩ := ih hnext hlen
      exact ⟨g, hg, hsmall, mergeAll_pass htwo hpass hrest⟩
    · exact ⟨f, h, by omega, mergeAll_done _ htwo⟩

/-! ### The end of HT_BUILD -/

/-- The tree once the item that is left, if any, is its root. -/
def Forest.rooted (f : Forest) : HuffTree := { f.tree with root := f.items.head? }

/-- What HT_BUILD makes of the table `ft`. -/
structure HuffTree.Finished (t : HuffTree) (ft : FreqTable) : Prop where
  built : t.BuiltFrom ft
  inv : t.Inv
  weight : ∀ (r : Nat) (nd : Node), t.root = some r → t.node[r]? = some nd → nd.weight = ft.sum

/-- Fewer than two items: none, or one. -/
theorem items_cases {l : List Nat} (h : l.length < 2) : l = [] ∨ ∃ i, l = [i] := by
  rcases Nat.lt_succ_iff_lt_or_eq.1 h with hnil | hone
  · exact .inl (List.length_eq_zero_iff.1 (Nat.lt_one_iff.1 hnil))
  · exact .inr (List.length_eq_one_iff.1 hone)

theorem Forest.rooted_nil {t : HuffTree} (h : t.Growing []) : (⟨t, []⟩ : Forest).rooted = t := by
  rw [Forest.rooted, List.head?_nil, ← h.noRoot]

theorem takeRoot_turns {f : Forest} (h : f.tree.Growing f.items) (hsmall : f.items.length < 2) :
    Turns takeRoot f () ⟨f.rooted, []⟩ := fun s u => by
  obtain ⟨t, items⟩ := f
  rw [takeRoot, readUnits_some rfl]
  rcases items_cases hsmall with rfl | ⟨i, rfl⟩
  · rw [Forest.rooted_nil h]
    rfl
  · obtain ⟨a, an, hleast, hpop⟩ := heapPop_turns (List.cons_ne_nil i []) fun _ => h.lt_n
    obtain rfl := List.mem_singleton.1 hleast.mem
    refine (if_pos rfl).trans ?_
    rw [hpop s u, List.erase_cons_head]
    rfl

theorem Forest.rooted_inv {f : Forest} (h : f.tree.Growing f.items) (hsmall : f.items.length < 2) : f.rooted.Inv := by
  obtain ⟨t, items⟩ := f
  rcases items_cases hsmall with rfl | ⟨i, rfl⟩
  · rw [Forest.rooted_nil h]
    exact h.inv_of_nil
  · exact h.inv_of_singleton

/-- The node made last has no parent, for a parent would come after it. -/
theorem HuffTree.Growing.last_mem {t : HuffTree} {items : List Nat} (h : t.Growing items) (hpos : 0 < t.n) :
    t.n - 1 ∈ items := by
  have hlast : t.n - 1 < t.n := Nat.sub_one_lt hpos.ne'
  refine h.mem_of_openAt ⟨hlast, List.getElem?_eq_getElem hlast, fun p hp => ?_⟩
  obtain ⟨hlt, -⟩ := h.parent _ _ p (List.getElem?_eq_getElem hlast) hp
  omega

theorem Forest.rooted_root {f : Forest} (h : f.tree.Growing f.items) (hsmall : f.items.length < 2) :
    f.rooted.root = if f.rooted.n = 0 then none else some (f.rooted.n - 1) := by
  obtain ⟨t, items⟩ := f
  change items.head? = if t.n = 0 then none else some (t.n - 1)
  rcases items_cases hsmall with rfl | ⟨i, rfl⟩
  · rw [if_pos (h.someOpen rfl), List.head?_nil]
  · have hpos : 0 < t.n := Nat.zero_lt_of_lt (h.lt_n List.mem_cons_self)
    rw [if_neg hpos.ne', List.mem_singleton.1 (h.last_mem hpos), List.head?_cons]

/-- At most one item is left, and it is there if a symbol occurs; so the sizes are those of R80. -/
theorem Forest.Stage.n_eq {ft : FreqTable} {done : List Byte} {f : Forest} (h : f.Stage ft done)
    (hsmall : f.items.length < 2) : f.tree.n = 2 * done.length - 1 := by
  have hcount := h.count
  rcases items_cases hsmall with hnil | ⟨i, hone⟩
  · have hn := h.grows.someOpen hnil
    omega
  · rw [hone, List.length_singleton] at hcount
    omega

theorem Forest.Stage.rooted_builtFrom {ft : FreqTable} {f : Forest} (h : f.Stage ft ft.occurring)
    (hsmall : f.items.length < 2) : f.rooted.BuiltFrom ft where
  size := h.n_eq hsmall
  leaves := h.leaves
  absent := fun b hb => h.absent b fun hmem => (FreqTable.mem_occurring.1 hmem).ne' hb
  merges := h.merged
  parents := fun j nd p hnd hp => by
    obtain ⟨-, pn, l, r, hpn, hk, hlr, -⟩ := h.grows.parent j nd p hnd hp
    exact ⟨pn, l, r, hpn, hk, hlr⟩
  root := Forest.rooted_root h.grows hsmall

theorem Forest.Stage.finished {ft : FreqTable} {f : Forest} (h : f.Stage ft ft.occurring)
    (hsmall : f.items.length < 2) : f.rooted.Finished ft where
  built := h.rooted_builtFrom hsmall
  inv := Forest.rooted_inv h.grows hsmall
  weight := fun r nd hr hnd => by
    rcases items_cases hsmall with hnil | ⟨i, hone⟩
    · rw [Forest.rooted, hnil] at hr
      cases hr
    · obtain rfl : i = r := by rw [Forest.rooted, hone] at hr; exact Option.some.inj hr
      have hw := h.weight
      rw [Forest.weight, hone, List.map_singleton, List.sum_singleton, HuffTree.weightOf_node (t := f.tree) hnd] at hw
      rw [hw, ft.sum_eq]

/-- HT_BUILD completes, and the table alone decides the tree (R79). -/
theorem htBuild_turns (ft : FreqTable) : ∃ t : HuffTree, t.Finished ft ∧
    ∀ (s : State) (u : Units), s.units = some u → u.ft = ft →
      htBuild s = .ok () (s.withUnits (some { u with ht := t, hp := { items := [] } })) := by
  obtain ⟨f, hf, hleaves⟩ := buildLeaves_turns allSymbols [] (Forest.stage_empty ft) rfl (List.Sublist.refl _)
  obtain ⟨g, hg, hsmall, hmerges⟩ := mergeAll_turns f.items.length hf le_rfl
  refine ⟨g.rooted, Forest.Stage.finished hg hsmall, ?_⟩
  rintro s u hu rfl
  have hstart := hleaves s u
  have hrest := Turns.bind (k := fun _ => takeRoot) hmerges (takeRoot_turns hg.grows hsmall) s u
  rw [← FreqTable.entries_eq] at hstart
  rw [htBuild, readUnits_some hu]
  refine (congrArg (Eff.bind · _) hstart).trans ?_
  rw [Eff.bind_ok, readUnits_some rfl]
  exact hrest

/-- The tree of a table is what HT_BUILD makes of it in every state, not only in the one that `treeOf` runs it in. -/
theorem treeOf_spec (ft : FreqTable) : (treeOf ft).Finished ft ∧
    ∀ (s : State) (u : Units), s.units = some u → u.ft = ft →
      htBuild s = .ok () (s.withUnits (some { u with ht := treeOf ft, hp := { items := [] } })) := by
  obtain ⟨t, ht, hrun⟩ := htBuild_turns ft
  have htree : treeOf ft = t := by
    rw [treeOf, hrun _ { Units.start with ft := ft } rfl rfl]
    rfl
  exact htree ▸ ⟨ht, hrun⟩

theorem treeOf_finished (ft : FreqTable) : (treeOf ft).Finished ft := (treeOf_spec ft).1

theorem htBuild_ok {s : State} {u : Units} (hu : s.units = some u) :
    htBuild s = .ok () (s.withUnits (some { u with ht := treeOf u.ft, hp := { items := [] } })) :=
  (treeOf_spec u.ft).2 s u hu rfl

theorem exec_htBuild {s : State} {u : Units} (h : Ready s u) :
    exec .htBuild s = .next (completed s .none (some { u with ht := treeOf u.ft, hp := { items := [] } })) :=
  exec_unit_ok (i := .htBuild) rfl h.1 (noResult_ok (htBuild_ok (s := startUnit s) h.2))

/-- Settles O28: the loop invariant of R79, with at most one item left. -/
theorem htBuildMergesTheLeastKeys : Obligations.HtBuildMergesTheLeastKeys := by
  unfold Obligations.HtBuildMergesTheLeastKeys
  exact fun s u h => ⟨treeOf u.ft, (treeOf_finished u.ft).built, exec_htBuild h⟩

end Sys2Proof.Machine
end

section

/-! ## What the tree of a table is like (R63, R80, R81) -/

namespace Sys2Proof.Machine

/-! ### Leaves and internal nodes (R79, R80) -/

section
variable {t : HuffTree} {ft : FreqTable} (h : t.BuiltFrom ft)
include h

theorem HuffTree.BuiltFrom.occurring_le : ft.occurring.length ≤ t.n := by
  have hsize := h.size
  omega

theorem HuffTree.BuiltFrom.leaf_of_lt {i : Nat} {nd : Node} (hnd : t.node[i]? = some nd)
    (hi : i < ft.occurring.length) : ∃ b, nd.kind = .leaf b := by
  obtain ⟨-, nd', hnd', hk, -⟩ := h.leaves i _ (List.getElem?_eq_getElem hi)
  exact ⟨_, Option.some.inj (hnd.symm.trans hnd') ▸ hk⟩

theorem HuffTree.BuiltFrom.internal_of_le {i : Nat} {nd : Node} (hnd : t.node[i]? = some nd)
    (hi : ft.occurring.length ≤ i) : ∃ (l r : Nat) (ln rn : Node), nd.kind = .internal l r ∧
      t.node[l]? = some ln ∧ t.node[r]? = some rn ∧ nd.weight = ln.weight + rn.weight := by
  obtain ⟨nd', ln, rn, l, r, hnd', hk, hw, hl, -, hr, -⟩ := h.merges i hi (HuffTree.lt_n_of_node hnd)
  obtain rfl := Option.some.inj (hnd.symm.trans hnd')
  exact ⟨l, r, ln, rn, hk, hl.2.1, hr.2.1, hw⟩

theorem HuffTree.BuiltFrom.leaf_lt {i : Nat} {nd : Node} {b : Byte} (hnd : t.node[i]? = some nd)
    (hk : nd.kind = .leaf b) : i < ft.occurring.length := by
  by_contra hi
  obtain ⟨l, r, -, -, hk', -⟩ := h.internal_of_le hnd (Nat.not_lt.1 hi)
  cases hk.symm.trans hk'

theorem HuffTree.BuiltFrom.leaf_weight {i : Nat} {nd : Node} {b : Byte} (hnd : t.node[i]? = some nd)
    (hk : nd.kind = .leaf b) : nd.weight = ft.get b ∧ 0 < ft.get b := by
  have hi := h.leaf_lt hnd hk
  obtain ⟨-, nd', hnd', hk', hw⟩ := h.leaves i _ (List.getElem?_eq_getElem hi)
  obtain rfl := Option.some.inj (hnd.symm.trans hnd')
  obtain rfl := NodeKind.leaf.inj (hk.symm.trans hk')
  exact ⟨hw, FreqTable.mem_occurring.1 (List.getElem_mem hi)⟩

theorem HuffTree.BuiltFrom.internal_weight {i l r : Nat} {nd : Node} (hnd : t.node[i]? = some nd)
    (hk : nd.kind = .internal l r) : ∃ ln rn : Node, t.node[l]? = some ln ∧ t.node[r]? = some rn ∧
      nd.weight = ln.weight + rn.weight := by
  rcases Nat.lt_or_ge i ft.occurring.length with hi | hi
  · obtain ⟨b, hk'⟩ := h.leaf_of_lt hnd hi
    cases hk.symm.trans hk'
  · obtain ⟨l', r', ln, rn, hk', hrest⟩ := h.internal_of_le hnd hi
    obtain ⟨rfl, rfl⟩ := NodeKind.internal.inj (hk.symm.trans hk')
    exact ⟨ln, rn, hrest⟩

end

/-- Where a test holds of the first `k` elements and of no other, it holds of `k` elements. -/
theorem length_filter_of_first {α : Type} {p : α → Bool} {l : List α} {k : Nat} (hk : k ≤ l.length)
    (hp : ∀ (i : Nat) (x : α), l[i]? = some x → (p x = true ↔ i < k)) : (l.filter p).length = k := by
  have hfirst : (l.take k).filter p = l.take k := List.filter_eq_self.2 fun x hx => by
    obtain ⟨i, hi⟩ := List.mem_iff_getElem?.1 hx
    rw [List.getElem?_take, Option.ite_none_right_eq_some] at hi
    exact (hp i x hi.2).2 hi.1
  have hrest : (l.drop k).filter p = [] := List.filter_eq_nil_iff.2 fun x hx => by
    obtain ⟨i, hi⟩ := List.mem_iff_getElem?.1 hx
    rw [List.getElem?_drop] at hi
    exact fun hpx => absurd ((hp _ x hi).1 hpx) (by omega)
  rw [← List.take_append_drop k l, List.filter_append, hfirst, hrest, List.append_nil, List.length_take_of_le hk]

theorem HuffTree.BuiltFrom.length_filter_leaf {t : HuffTree} {ft : FreqTable} (h : t.BuiltFrom ft) {p : Node → Bool}
    (hp : ∀ nd, p nd = true ↔ ∃ b, nd.kind = .leaf b) : (t.node.filter p).length = ft.occurring.length := by
  refine length_filter_of_first h.occurring_le fun i nd hnd => (hp nd).trans ⟨?_, h.leaf_of_lt hnd⟩
  rintro ⟨b, hk⟩
  exact h.leaf_lt hnd hk

theorem HuffTree.BuiltFrom.length_filter_internal {t : HuffTree} {ft : FreqTable} (h : t.BuiltFrom ft) {p : Node → Bool}
    (hp : ∀ nd, p nd = false ↔ ∃ b, nd.kind = .leaf b) : (t.node.filter p).length = ft.occurring.length - 1 := by
  have hleaves := h.length_filter_leaf (p := fun nd => !p nd) fun nd => by rw [← hp nd, Bool.not_eq_true']
  have hsplit := List.length_eq_length_filter_add (l := t.node) p
  have hsize := h.size
  rw [hleaves] at hsplit
  simp only [HuffTree.n] at hsize
  omega

/-- Settles O27: the sizes follow from the order in which the nodes are made, the leaves first. -/
theorem htBuildMakesTheTreeOfTheTable : Obligations.HtBuildMakesTheTreeOfTheTable := by
  unfold Obligations.HtBuildMakesTheTreeOfTheTable
  refine ⟨fun s u h => exec_htBuild h, fun ft => ?_⟩
  obtain ⟨hbuilt, hinv, -⟩ := treeOf_finished ft
  refine ⟨hbuilt.size, hinv.size, hbuilt.length_filter_leaf fun nd => ?_, hbuilt.length_filter_internal fun nd => ?_⟩
  · cases nd.kind <;> simp
  · cases nd.kind <;> simp

/-! ### The invariants (R63, R81) -/

theorem HuffTree.BuiltFrom.n_eq_zero_iff {t : HuffTree} {ft : FreqTable} (h : t.BuiltFrom ft) :
    t.n = 0 ↔ ∀ b, ft.get b = 0 := by
  have hsize := h.size
  rw [show t.n = 0 ↔ ft.occurring.length = 0 by omega, List.length_eq_zero_iff, List.eq_nil_iff_forall_not_mem]
  simp only [FreqTable.mem_occurring, Nat.not_lt, Nat.le_zero]

theorem HuffTree.BuiltFrom.root_eq_none_iff {t : HuffTree} {ft : FreqTable} (h : t.BuiltFrom ft) :
    t.root = none ↔ ∀ b, ft.get b = 0 := by
  rw [← h.n_eq_zero_iff, h.root]
  by_cases hn : t.n = 0 <;> simp [hn]

/-- The root is a leaf exactly where one symbol occurs, and only then a code has no bit. -/
theorem HuffTree.BuiltFrom.code_eq_nil_iff {t : HuffTree} {ft : FreqTable} (h : t.BuiltFrom ft) (hinv : t.Inv)
    {b : Byte} {code : Bits} (hcode : t.IsCode b code) : code = [] ↔ ∀ c, 0 < ft.get c → c = b := by
  obtain ⟨r, i, hr, hleaf, hwalk⟩ := hcode
  obtain ⟨nd, hnd, hk⟩ := hinv.leafKind b i hleaf
  have hi := h.leaf_lt hnd hk
  have hsize := h.size
  have hroot : r = t.n - 1 := by
    have hlast := h.root
    rw [hr, if_neg (by omega)] at hlast
    exact Option.some.inj hlast
  have hb : b ∈ ft.occurring := FreqTable.mem_occurring.2 (h.leaf_weight hnd hk).2
  constructor
  · rintro rfl c hc
    obtain rfl := Option.some.inj hwalk
    have hone : ft.occurring.length = 1 := by omega
    obtain ⟨x, hx⟩ := List.length_eq_one_iff.1 hone
    have hmem := FreqTable.mem_occurring.2 hc
    rw [hx, List.mem_singleton] at hb hmem
    rw [hmem, hb]
  · intro honly
    have hone : ft.occurring.length ≤ 1 := by
      refine (ft.occurring_nodup.subperm fun c hc => ?_).length_le.trans_eq (List.length_singleton (a := b))
      exact List.mem_singleton.2 (honly c (FreqTable.mem_occurring.1 hc))
    obtain rfl : r = i := by omega
    exact (HuffTree.walk_from_leaf hnd hk hwalk).1

/-- Settles O29: the order of the nodes gives the weights and the kinds, the loop invariant the sum at the root. -/
theorem builtTreesMeetTheTreeInvariants : Obligations.BuiltTreesMeetTheTreeInvariants := by
  unfold Obligations.BuiltTreesMeetTheTreeInvariants
  intro ft
  obtain ⟨hbuilt, hinv, hweight⟩ := treeOf_finished ft
  exact ⟨hinv, hbuilt.root_eq_none_iff, hweight, fun i nd b => hbuilt.leaf_weight,
    fun i nd l r => hbuilt.internal_weight, fun b code => hbuilt.code_eq_nil_iff hinv⟩

end Sys2Proof.Machine
end

section

/-! ## HT_FINDCODE walks the path of the code backwards (R63, R82) -/

namespace Sys2Proof.Machine

theorem HuffTree.walk_step {t : HuffTree} {p l r : Nat} {pn : Node} (hpn : t.node[p]? = some pn)
    (hk : pn.kind = .internal l r) (d : Bool) : t.walk p [d] = some (if d then r else l) := by
  simp only [HuffTree.walk, hpn, hk]

/-- A single branch leads from an internal node to one of its children. -/
theorem HuffTree.walk_step_eq_some {t : HuffTree} {p i : Nat} {d : Bool} (h : t.walk p [d] = some i) :
    ∃ (pn : Node) (l r : Nat), t.node[p]? = some pn ∧ pn.kind = .internal l r ∧ (if d then r else l) = i := by
  cases hpn : t.node[p]? with
  | none => simp [HuffTree.walk, hpn] at h
  | some pn =>
    cases hk : pn.kind with
    | leaf c => simp [HuffTree.walk, hpn, hk] at h
    | internal l r =>
      rw [HuffTree.walk_step hpn hk] at h
      exact ⟨pn, l, r, rfl, hk, Option.some.inj h⟩

section
variable {t : HuffTree} (ht : t.Inv)
include ht

/-- The links of a finished tree agree: the child on the branch `d` has the parent, and is its right child exactly if
`d`. -/
theorem HuffTree.Inv.child_of_branch {p l r : Nat} {pn : Node} (hpn : t.node[p]? = some pn)
    (hk : pn.kind = .internal l r) {d : Bool} {i : Nat} (hi : (if d then r else l) = i) :
    ∃ nd : Node, t.node[i]? = some nd ∧ nd.parent = some p ∧ decide (r = i) = d := by
  obtain ⟨ln, rn, hln, hl, hrn, hr⟩ := ht.child p pn l r hpn hk
  obtain ⟨-, pn', l', r', hpn', hk', -, hne⟩ := ht.parent l ln p hln hl
  obtain rfl := Option.some.inj (hpn.symm.trans hpn')
  obtain ⟨rfl, rfl⟩ := NodeKind.internal.inj (hk.symm.trans hk')
  cases d with
  | false => exact ⟨ln, hi ▸ hln, hl, decide_eq_false fun he => hne (hi.trans he.symm)⟩
  | true => exact ⟨rn, hi ▸ hrn, hr, decide_eq_true hi⟩

/-- Every node is on a path from the root: its parent is. -/
theorem HuffTree.Inv.exists_walk (k : Nat) {i : Nat} (hi : i < t.n) (hk : t.n - i ≤ k) :
    ∃ r c, t.root = some r ∧ t.walk r c = some i := by
  induction k generalizing i with
  | zero => omega
  | succ k ih =>
    have hnd := List.getElem?_eq_getElem (l := t.node) hi
    cases hp : t.node[i].parent with
    | none => exact ⟨i, [], ht.orphan i _ hnd hp, rfl⟩
    | some p =>
      obtain ⟨hlt, pn, l, r, hpn, hkind, hlr, -⟩ := ht.parent i _ p hnd hp
      obtain ⟨root, c, hroot, hwalk⟩ := ih (HuffTree.lt_n_of_node hpn) (by omega)
      refine ⟨root, c ++ [decide (r = i)], hroot, ?_⟩
      rw [HuffTree.walk_append, hwalk, Option.bind_some, HuffTree.walk_step hpn hkind, Option.some.injEq]
      by_cases hr : r = i
      · simp [hr]
      · simpa [hr] using hlr

/-- Climbing from the end of a path from the root gives the path back (R82). -/
theorem HuffTree.Inv.climb_walk {root : Nat} (hroot : t.root = some root) (c : Bits) {i : Nat}
    (hwalk : t.walk root c = some i) {k : Nat} (hi : i < t.n) (hk : t.n - i ≤ k) (code : Bits) :
    climb t k i code = .ok (c ++ code) := by
  induction c using List.reverseRecOn generalizing i k code with
  | nil =>
    obtain ⟨m, rfl⟩ := Nat.exists_eq_add_one_of_ne_zero (show k ≠ 0 by omega)
    obtain rfl := Option.some.inj hwalk
    obtain ⟨nd, hnd, hp⟩ := ht.root _ hroot
    simp [climb, hnd, hp]
  | append_singleton c d ih =>
    rw [HuffTree.walk_append, Option.bind_eq_some_iff] at hwalk
    obtain ⟨p, hc, hd⟩ := hwalk
    obtain ⟨pn, l, r, hpn, hkind, hchild⟩ := HuffTree.walk_step_eq_some hd
    obtain ⟨nd, hnd, hp, hdec⟩ := ht.child_of_branch hpn hkind hchild
    obtain ⟨hlt, -⟩ := ht.parent i nd p hnd hp
    have hpn' := HuffTree.lt_n_of_node hpn
    obtain ⟨m, rfl⟩ := Nat.exists_eq_add_one_of_ne_zero (show k ≠ 0 by omega)
    rw [climb]
    simp only [hnd, hp, hpn, hkind, hdec]
    rw [ih hc hpn' (by omega), List.append_assoc, List.singleton_append]

end

/-- HT_FINDCODE on a finished tree, for a symbol that has a leaf: it finds the one path (R82). -/
theorem findCode_ok {s : State} {u : Units} {b : Byte} (hu : s.units = some u) (ht : u.ht.Inv)
    (hleaf : u.ht.leafOf b ≠ none) : ∃ code : Bits, u.ht.IsCode b code ∧ (∀ c, u.ht.IsCode b c → c = code) ∧
      findCode b s = .ok code s := by
  obtain ⟨i, hi⟩ := Option.ne_none_iff_exists'.1 hleaf
  obtain ⟨nd, hnd, -⟩ := ht.leafKind b i hi
  have hlt := HuffTree.lt_n_of_node hnd
  obtain ⟨root, code, hroot, hwalk⟩ := ht.exists_walk u.ht.n hlt (Nat.sub_le _ _)
  have hclimb : ∀ c, u.ht.walk root c = some i → climb u.ht u.ht.n i [] = .ok c := fun c hc =>
    (ht.climb_walk hroot c hc hlt (Nat.sub_le _ _) []).trans (congrArg Except.ok (List.append_nil c))
  refine ⟨code, ⟨root, i, hroot, hi, hwalk⟩, ?_, ?_⟩
  · rintro c ⟨root', i', hroot', hi', hc⟩
    obtain rfl := Option.some.inj (hroot.symm.trans hroot')
    obtain rfl := Option.some.inj (hi.symm.trans hi')
    exact Except.ok.inj ((hclimb c hc).symm.trans (hclimb code hwalk))
  · rw [findCode, readUnits_some hu, hi]
    simp only [hclimb code hwalk]

theorem findCode_absent {s : State} {u : Units} {b : Byte} (hu : s.units = some u) (h : u.ht.leafOf b = none) :
    findCode b s = .raised .badOperand s := by rw [findCode, readUnits_some hu, h]

/-- Settles O30: every path from the root to the leaf is the one that climbing from the leaf gives. -/
theorem htFindcodeReturnsThePath : Obligations.HtFindcodeReturnsThePath := by
  unfold Obligations.HtFindcodeReturnsThePath
  refine fun s u b ⟨hs, hu⟩ => ⟨fun hnone => ?_, fun ht hleaf => ?_⟩
  · exact exec_unit_raises rfl hs (withResult_raised (findCode_absent (s := startUnit s) hu hnone))
  · obtain ⟨code, hcode, huniq, hfind⟩ := findCode_ok (s := startUnit s) hu ht hleaf
    have hexec := exec_unit_ok (i := .htFindcode b) rfl hs (withResult_ok hfind)
    refine ⟨code, hcode, huniq, hexec.trans (congrArg Host.Outcome.next ?_)⟩
    rw [completed, ← hu]
    rfl

end Sys2Proof.Machine
end

section

/-! ## The Huffman encoder writes codes (R62, R83, R85)

Everything the encoder writes is `Writes`: bits that are appended, whatever has been written before. -/

namespace Sys2Proof.Machine

/-! ### Parts of a command that only write -/

/-- In the state `s` with the units `u`, whatever OUT and the BitWriter hold there, `body` appends `bits` and changes
nothing else. -/
def Writes (s : State) (u : Units) (body : State → Eff Unit) (bits : Bits) : Prop :=
  ∀ (out : Bytes) (bw : BitWriter), bw.Inv → ∃ out' bw', Appends out bw bits out' bw' ∧
    body (s.wrote u out bw) = .ok () (s.wrote u out' bw')

/-- A state whose `STAT.TOTAL` is the copy of `BW.total` (R26) is one of those that `Writes` speaks of. -/
theorem State.wrote_self {s : State} {u : Units} (hu : s.units = some u) (htotal : u.bw.total = s.stat.total) :
    s.wrote u s.out u.bw = s := by
  rw [State.wrote, htotal, ← hu]

section
variable {s : State} {u : Units}

theorem Writes.nil : Writes s u (.ok ()) [] := fun out _ hb => ⟨out, _, .nil hb out, rfl⟩

theorem Writes.append {f g : State → Eff Unit} {x y : Bits} (hf : Writes s u f x) (hg : Writes s u g y) :
    Writes s u (fun s => (f s).bind fun _ s => g s) (x ++ y) := fun out bw hb => by
  obtain ⟨out', bw', happ, hrun⟩ := hf out bw hb
  obtain ⟨out'', bw'', happ', hrun'⟩ := hg out' bw' happ.inv
  exact ⟨out'', bw'', happ.trans happ', by simp only [hrun, Eff.bind_ok, hrun']⟩

theorem Writes.forEach {α : Type} {f : α → State → Eff Unit} {bits : α → Bits} (hf : ∀ a, Writes s u (f a) (bits a))
    (as : List α) : Writes s u (forEach f as) (as.flatMap bits) := by
  induction as with
  | nil => exact .nil
  | cons a as ih => exact (hf a).append ih

theorem writes_writeBits {n : Nat} (hn : n ≤ 32) (v : Nat) : Writes s u (writeBits n v) (bitsMsb n v) :=
  fun out bw hb => writeBits_wrote hn v (s := s.wrote u out bw) (u := { u with bw := bw }) rfl hb

/-! ### HUF_ENC_SYM (R83) -/

theorem HuffTree.IsCode.leafOf_ne_none {t : HuffTree} {b : Byte} {code : Bits} (h : t.IsCode b code) :
    t.leafOf b ≠ none := by
  obtain ⟨-, i, -, hleaf, -⟩ := h
  exact Option.ne_none_iff_exists'.2 ⟨i, hleaf⟩

theorem HuffTree.Inv.exists_code {t : HuffTree} (ht : t.Inv) {b : Byte} (hleaf : t.leafOf b ≠ none) :
    ∃ code, t.IsCode b code := by
  obtain ⟨i, hi⟩ := Option.ne_none_iff_exists'.1 hleaf
  obtain ⟨nd, hnd, -⟩ := ht.leafKind b i hi
  obtain ⟨root, code, hroot, hwalk⟩ := ht.exists_walk t.n (HuffTree.lt_n_of_node hnd) (Nat.sub_le _ _)
  exact ⟨code, root, i, hroot, hi, hwalk⟩

theorem flatMap_bitsMsb_one (bits : Bits) : bits.flatMap (fun d => bitsMsb 1 d.toNat) = bits := by
  simp only [bitsMsb_one, List.flatMap_singleton']

/-- The code is written one bit at a time. -/
theorem writes_hufEncSym (ht : u.ht.Inv) {b : Byte} {code : Bits} (hcode : u.ht.IsCode b code) :
    Writes s u (hufEncSym b) code := fun out bw hb => by
  obtain ⟨found, -, huniq, hfind⟩ :=
    findCode_ok (s := s.wrote u out bw) (u := { u with bw := bw }) rfl ht hcode.leafOf_ne_none
  have hbits := Writes.forEach (s := s) (u := u) (fun d : Bool => writes_writeBits (n := 1) (by decide) d.toNat) code
  rw [flatMap_bitsMsb_one] at hbits
  rw [hufEncSym, hfind, Eff.bind_ok, ← huniq code hcode]
  exact hbits out bw hb

end

/-- Settles O32: climbing finds the symbol's one code, and each of its bits is appended. -/
theorem hufEncSymWritesTheCode : Obligations.HufEncSymWritesTheCode := by
  unfold Obligations.HufEncSymWritesTheCode
  refine fun s u b ⟨hs, hu⟩ => ⟨fun hnone => ?_, fun ht hb htotal hleaf => ?_⟩
  · refine exec_unit_raises rfl hs (noResult_raised ?_)
    rw [hufEncSym, findCode_absent (s := startUnit s) hu hnone, Eff.bind_raised]
  · obtain ⟨code, hcode⟩ := ht.exists_code hleaf
    obtain ⟨out, bw, happ, hrun⟩ := writes_hufEncSym (s := startUnit s) ht hcode s.out u.bw hb
    have hstart : (startUnit s).wrote u s.out u.bw = startUnit s := State.wrote_self (s := startUnit s) hu htotal
    rw [hstart] at hrun
    refine ⟨code, out, bw, hcode, happ.inv, happ.total, happ.written, ?_⟩
    rw [← happ.total]
    exact exec_unit_ok (i := .hufEncSym b) rfl hs (noResult_ok hrun)

/-! ### The table of the input (R73, R74, R85) -/

theorem FreqTable.eq_of_get {ft ft' : FreqTable} (h : ∀ b, ft.get b = ft'.get b) : ft = ft' := by
  obtain ⟨count⟩ := ft
  obtain ⟨count'⟩ := ft'
  refine congrArg FreqTable.mk (Vector.ext fun i hi => ?_)
  simpa [FreqTable.get, Nat.mod_eq_of_lt hi] using h (BitVec.ofNat 8 i)

@[simp] theorem countsOf_get (x : Bytes) (b : Byte) : (countsOf x).get b = x.count b := by
  simp [countsOf, FreqTable.get]

/-- Every byte is counted once. -/
theorem countsOf_sum (x : Bytes) : (countsOf x).sum = x.length := by
  rw [FreqTable.sum, FreqTable.counts_eq, ← List.sum_toFinset _ allSymbols_nodup]
  have hcard := Multiset.sum_count_eq_card (s := allSymbols.toFinset) (m := (x : Multiset Byte)) fun b _ =>
    List.mem_toFinset.2 (mem_allSymbols b)
  simpa only [countsOf_get, Multiset.coe_count, Multiset.coe_card] using hcard

/-- The two steps that count the input (R85). -/
theorem countInput_ok {s : State} {u : Units} (hu : s.units = some u) :
    ((ftClear s).bind fun _ s => forEach ftCount s.input s) =
      .ok () (s.withUnits (some { u with ft := countsOf s.input })) := by
  obtain ⟨ft, hcount, hrun⟩ := forEach_ftCount s.input (s := s.withUnits (some { u with ft := FreqTable.zero })) rfl
  obtain rfl : ft = countsOf s.input := FreqTable.eq_of_get fun b => by
    rw [hcount b, FreqTable.get_zero, countsOf_get, Nat.zero_add]
  rw [ftClear, mapUnits_some hu, Eff.bind_ok]
  exact hrun

theorem checkCounts_ok {s : State} {u : Units} (hu : s.units = some u) (h : ∀ b, u.ft.get b < 2 ^ 32) :
    checkCounts s = .ok () s := by
  rw [checkCounts, readUnits_some hu, if_neg]
  simp only [u.ft.counts_eq, List.any_eq_true, List.mem_map, decide_eq_true_eq]
  rintro ⟨-, ⟨b, -, rfl⟩, hb⟩
  exact absurd (h b) (by simp only [Config.countBits] at hb; omega)

/-! ### The file (R62, R85) -/

theorem FreqTable.headerBits_length (ft : FreqTable) : ft.headerBits.length = 8192 := by
  simp only [FreqTable.headerBits, List.length_flatMap, bitsMsb_length]
  rw [List.map_const', List.sum_replicate, allSymbols_length, smul_eq_mul]

theorem FreqTable.headerBits_eq (ft : FreqTable) : ft.headerBits = ft.counts.flatMap (bitsMsb 32) := by
  rw [ft.counts_eq, List.flatMap_map, FreqTable.headerBits]

theorem writes_writeCounts {s : State} {u : Units} : Writes s u writeCounts u.ft.headerBits := by
  rw [u.ft.headerBits_eq]
  exact Writes.forEach (writes_writeBits le_rfl) u.ft.counts

/-- The codes of a byte sequence, one after the other, are what the encoder writes for it. -/
theorem writes_spelled {s : State} {u : Units} (ht : u.ht.Inv) {x : Bytes} {p : Bits} (h : u.ht.Spells x p) :
    Writes s u (forEach hufEncSym x) p := by
  induction x generalizing p with
  | nil =>
    obtain rfl : p = [] := h
    exact .nil
  | cons b x ih =>
    obtain ⟨c, rest, hc, rfl, hrest⟩ := h
    exact (writes_hufEncSym ht hc).append (ih hrest)

theorem HuffTree.Inv.exists_spelling {t : HuffTree} (ht : t.Inv) {x : Bytes} (h : ∀ b ∈ x, t.leafOf b ≠ none) :
    ∃ p, t.Spells x p := by
  induction x with
  | nil => exact ⟨[], rfl⟩
  | cons b x ih =>
    obtain ⟨hb, hx⟩ := List.forall_mem_cons.1 h
    obtain ⟨c, hc⟩ := ht.exists_code hb
    obtain ⟨p, hp⟩ := ih hx
    exact ⟨c ++ p, c, p, hc, rfl, hp⟩

/-- A symbol has a leaf in the tree of a table exactly if it occurs. -/
theorem treeOf_leafOf_ne_none_iff {ft : FreqTable} {b : Byte} : (treeOf ft).leafOf b ≠ none ↔ 0 < ft.get b := by
  have hbuilt := (treeOf_finished ft).built
  constructor
  · exact fun h => Nat.pos_of_ne_zero fun hzero => h (hbuilt.absent b hzero)
  · intro h
    obtain ⟨j, hj⟩ := List.mem_iff_getElem?.1 (FreqTable.mem_occurring.2 h)
    exact Option.ne_none_iff_exists'.2 ⟨j, (hbuilt.leaves j b hj).1⟩

theorem exists_spelling_countsOf (x : Bytes) : ∃ p, (treeOf (countsOf x)).Spells x p :=
  (treeOf_finished _).inv.exists_spelling fun b hb =>
    treeOf_leafOf_ne_none_iff.2 (by rw [countsOf_get]; exact List.count_pos_iff.2 hb)

/-- The bits of the file of the table `ft` and the payload `p`, before the pad, behind the bits `before` (R62). -/
def huffFileBits (before : Bits) (ft : FreqTable) (p : Bits) : Bits :=
  before ++ bitsMsb 32 Config.huffMagic.toNat ++ ft.headerBits ++ p

/-- The steps of R85 that write. -/
def writeHuffFile (s : State) : Eff Unit :=
  (writeMagic Config.huffMagic s).bind fun _ s => (writeCounts s).bind fun _ s =>
    (forEach hufEncSym s.input s).bind fun _ s => flush s

theorem writeHuffFile_wrote (s : State) {u : Units} (hb : u.bw.Inv) (ht : u.ht.Inv) {p : Bits}
    (hp : u.ht.Spells s.input p) : ∃ out, bitsOfBytes out = huffFileBits (writtenBits s.out u.bw) u.ft p ++
        padBits (huffFileBits (writtenBits s.out u.bw) u.ft p).length ∧
      writeHuffFile (s.withUnits (some u)) =
        .ok () (s.wrote u out { acc := 0, nacc := 0, total := u.bw.total + 8224 + p.length }) := by
  obtain ⟨out1, bw1, happ1, hmagic⟩ := writeMagic_wrote Config.huffMagic (s := s.withUnits (some u)) rfl hb
  have hcodes : Writes s u (fun r => forEach hufEncSym r.input r) p := writes_spelled ht hp
  obtain ⟨out2, bw2, happ2, hbody⟩ := writes_writeCounts.append hcodes out1 bw1 happ1.inv
  obtain ⟨out, hpad, hflush⟩ := flush_pads (s := s.wrote u out2 bw2) rfl happ2.inv
  have happ := happ1.trans happ2
  have hwritten : writtenBits out2 bw2 = huffFileBits (writtenBits s.out u.bw) u.ft p := by
    rw [happ.written, huffFileBits, ← List.append_assoc, ← List.append_assoc, State.withUnits_out]
  have htotal : bw2.total = u.bw.total + 8224 + p.length := by
    rw [happ.total, List.length_append, List.length_append, bitsMsb_length, FreqTable.headerBits_length]
    omega
  refine ⟨out, hwritten ▸ hpad, ?_⟩
  rw [writeHuffFile, hmagic, Eff.bind_ok, ← Eff.bind_assoc]
  refine (congrArg (Eff.bind · _) hbody).trans ?_
  rw [Eff.bind_ok, hflush, ← htotal]
  rfl

/-- HUF_COMPRESS where every count fits its field. The table has a name of its own, so that no check of this statement
computes it. -/
theorem hufCompress_ok {s : State} {u : Units} {ft : FreqTable} (hft : countsOf s.input = ft) (hu : s.units = some u)
    (hb : u.bw.Inv) (h : ∀ b, s.input.count b < 2 ^ 32) : ∃ (p : Bits) (out : Bytes), (treeOf ft).Spells s.input p ∧
      bitsOfBytes out = huffFileBits (writtenBits s.out u.bw) ft p ++
        padBits (huffFileBits (writtenBits s.out u.bw) ft p).length ∧
      hufCompress s = .ok () (s.wrote { u with ft := ft, ht := treeOf ft, hp := { items := [] } } out
        { acc := 0, nacc := 0, total := u.bw.total + 8224 + p.length }) := by
  obtain ⟨p, hp⟩ := exists_spelling_countsOf s.input
  have hcount := countInput_ok hu
  have hcheck : checkCounts (s.withUnits (some { u with ft := ft })) = .ok () _ :=
    checkCounts_ok rfl fun b => by rw [← hft, countsOf_get]; exact h b
  rw [hft] at hp hcount
  obtain ⟨out, hout, hwrite⟩ := writeHuffFile_wrote s (u := { u with ft := ft, ht := treeOf ft, hp := { items := [] } })
    hb (treeOf_finished ft).inv hp
  refine ⟨p, out, hp, hout, ?_⟩
  rw [hufCompress, ← Eff.bind_assoc, hcount, Eff.bind_ok, hcheck, Eff.bind_ok, htBuild_ok rfl, Eff.bind_ok]
  exact hwrite

/-- Settles O34: the magic, the counts and the codes are appended in turn; or a count is refused before that. -/
theorem hufCompressWritesTheFile : Obligations.HufCompressWritesTheFile := by
  unfold Obligations.HufCompressWritesTheFile
  refine ⟨fun s u ⟨hs, hu⟩ hb h => ?_, fun s u b ⟨hs, hu⟩ hover => ?_⟩
  · generalize hft : countsOf s.input = ft
    obtain ⟨p, out, hp, hout, hrun⟩ := hufCompress_ok (s := startUnit s) hft hu hb h
    exact ⟨p, out, hp, hout, exec_unit_ok (i := .hufCompress) rfl hs (noResult_ok hrun)⟩
  · obtain ⟨v, hrun⟩ := hufCompress_overflow (s := startUnit s) hu hover
    exact exec_unit_raised (t := (startUnit s).withUnits (some v)) rfl hs (noResult_raised hrun) rfl

end Sys2Proof.Machine
end

section

/-! ## The Huffman decoder follows the codes (R62, R84, R86)

`descend_walk` follows a path bit by bit; where the path ends at a leaf the symbol is emitted, and where the input ends
on the way the command raises. -/

namespace Sys2Proof.Machine

/-! ### The descent along a path (R84) -/

theorem State.withUnits_self {s : State} {u : Units} (hu : s.units = some u) : s.withUnits (some u) = s := by
  rw [← hu]
  rfl

theorem HuffTree.walk_cons_eq_some {t : HuffTree} {n i : Nat} {d : Bool} {c : Bits} (h : t.walk n (d :: c) = some i) :
    ∃ (nd : Node) (l r : Nat), t.node[n]? = some nd ∧ nd.kind = .internal l r ∧
      t.walk (if d then r else l) c = some i := by
  rw [← List.singleton_append, HuffTree.walk_append, Option.bind_eq_some_iff] at h
  obtain ⟨m, hstep, hrest⟩ := h
  obtain ⟨nd, l, r, hnd, hk, rfl⟩ := HuffTree.walk_step_eq_some hstep
  exact ⟨nd, l, r, hnd, hk, hrest⟩

section
variable {s : State} {u : Units} (hu : s.units = some u)
include hu

theorem descend_leaf {n : Nat} {nd : Node} {b : Byte} (hnd : u.ht.node[n]? = some nd) (hk : nd.kind = .leaf b)
    (k : Nat) : descend (k + 1) n s = .ok b s := by
  rw [descend, readUnits_some hu]
  simp only [hnd, hk]

theorem descend_internal {n l r : Nat} {nd : Node} (hnd : u.ht.node[n]? = some nd) (hk : nd.kind = .internal l r)
    (k : Nat) : descend (k + 1) n s = (readOrEnd 1 s).bind fun t s => descend k (if t = 0 then l else r) s := by
  rw [descend, readUnits_some hu]
  simp only [hnd, hk]

/-- One bit is read at each node that the bits ahead lead through. -/
theorem descend_walk {n m : Nat} {c rest : Bits} (hwalk : u.ht.walk n c = some m) (hahead : bitsAhead s u = c ++ rest)
    (k : Nat) : descend (k + c.length) n s = descend k m (s.withUnits (some (u.skip c.length))) := by
  induction c generalizing s u n with
  | nil =>
    obtain rfl := Option.some.inj hwalk
    exact congrArg (descend k n) (State.withUnits_self hu).symm
  | cons d c ih =>
    obtain ⟨nd, l, r, hnd, hk, hrest⟩ := HuffTree.walk_cons_eq_some hwalk
    have hbit : bitsAhead s u = bitsMsb 1 d.toNat ++ (c ++ rest) := by rw [hahead, bitsMsb_one]; rfl
    have hchild : (if d.toNat % 2 ^ 1 = 0 then l else r) = if d then r else l := by cases d <;> rfl
    rw [List.length_cons, ← Nat.add_assoc, descend_internal hu hnd hk, readOrEnd_next (by decide) (by decide) hu hbit,
      Eff.bind_ok, hchild, ih (s := s.withUnits (some (u.skip 1))) rfl hrest (bitsAhead_skip_bitsMsb hbit),
      State.withUnits_withUnits, Units.skip_skip, Nat.add_comm 1]

theorem endsShort_descend {n m l r : Nat} {nd : Node} (hwalk : u.ht.walk n (bitsAhead s u) = some m)
    (hnd : u.ht.node[m]? = some nd) (hk : nd.kind = .internal l r) : EndsShort s (descend (bitsLeft s u + 1) n s) := by
  have hdescend := descend_walk hu hwalk (List.append_nil _).symm 1
  rw [bitsAhead_length, Nat.add_comm] at hdescend
  rw [hdescend, descend_internal (u := u.skip (bitsLeft s u)) rfl hnd hk]
  refine EndsShort.of_withUnits (endsShort_readOrEnd (by decide) (by decide) rfl fun _ hleft => ?_)
  rw [bitsLeft_withUnits, bitsLeft_skip] at hleft
  omega

/-! ### HUF_DEC_SYM (R84) -/

/-- The units after the decoder has read `k` bits and emitted `n` symbols. -/
def Units.decoded (u : Units) (n k : Nat) : Units :=
  { u with br := { pos := u.br.pos + k }, hd := { u.hd with emitted := u.hd.emitted + n } }

/-- The state after the decoder has read `k` bits and emitted `x`. -/
def State.emitted (s : State) (u : Units) (x : Bytes) (k : Nat) : State :=
  { s with out := s.out ++ x, units := some (u.decoded x.length k) }

theorem hufDecSym_code (ht : u.ht.Inv) {b : Byte} {code rest : Bits} (hcode : u.ht.IsCode b code)
    (hahead : bitsAhead s u = code ++ rest) : hufDecSym s = .ok b (s.emitted u [b] code.length) := by
  obtain ⟨root, i, hroot, hleaf, hwalk⟩ := hcode
  obtain ⟨nd, hnd, hk⟩ := ht.leafKind b i hleaf
  have hfuel : bitsLeft s u + 1 = rest.length + 1 + code.length := by
    rw [← bitsAhead_length, hahead, List.length_append]
    omega
  rw [hufDecSym, readUnits_some hu, hroot]
  simp only
  rw [hfuel, descend_walk hu hwalk hahead, descend_leaf (u := u.skip code.length) rfl hnd hk, Eff.bind_ok]
  rfl

theorem endsShort_hufDecSym {root n l r : Nat} {nd : Node} (hroot : u.ht.root = some root)
    (hwalk : u.ht.walk root (bitsAhead s u) = some n) (hnd : u.ht.node[n]? = some nd) (hk : nd.kind = .internal l r) :
    EndsShort s (hufDecSym s) := by
  rw [hufDecSym, readUnits_some hu, hroot]
  exact (endsShort_descend hu hwalk hnd hk).bind _

theorem hufDecSym_no_tree (hroot : u.ht.root = none) : hufDecSym s = .raised .badOperand s := by
  rw [hufDecSym, readUnits_some hu, hroot]

end

/-- A unit command whose body comes to the end of the input before it sinks a byte. -/
theorem exec_unit_endsShort {i : Instr} {s : State} (hi : isHostCommand i = false) (hs : s.stat.phase ≠ .busy)
    (h : EndsShort (startUnit s) (instrBody i (startUnit s))) :
    exec i s = .next (raisedClean s .unexpectedEndOfStream) := by
  obtain ⟨v, hv⟩ := h
  exact exec_unit_raised (t := (startUnit s).withUnits v) hi hs hv rfl

/-- Settles O33: the bits ahead lead along a path, to a leaf, or to an internal node where they end. -/
theorem hufDecSymFollowsTheBitsToALeaf : Obligations.HufDecSymFollowsTheBitsToALeaf := by
  unfold Obligations.HufDecSymFollowsTheBitsToALeaf
  refine fun s u ⟨hs, hu⟩ => ⟨fun hroot => ?_, fun ht b code rest hcode hahead => ?_,
    fun _ root n nd l r hroot hwalk hnd hk => ?_⟩
  · exact exec_unit_raises rfl hs (withResult_raised (hufDecSym_no_tree (s := startUnit s) hu hroot))
  · have hsym := hufDecSym_code (s := startUnit s) hu ht hcode hahead
    exact exec_unit_ok (i := .hufDecSym) rfl hs (withResult_ok hsym)
  · exact exec_unit_endsShort rfl hs ((endsShort_hufDecSym (s := startUnit s) hu hroot hwalk hnd hk).bind _)

/-! ### The payload (R86) -/

theorem State.emitted_emitted (s : State) (u : Units) (x y : Bytes) (j k : Nat) :
    (s.emitted u x j).emitted (u.decoded x.length j) y k = s.emitted u (x ++ y) (j + k) := by
  simp only [State.emitted, Units.decoded, List.append_assoc, List.length_append, Nat.add_assoc]

/-- A path that goes on after `c` comes through an internal node there. -/
theorem HuffTree.internal_of_walk {t : HuffTree} {n i : Nat} {c z : Bits} {d : Bool}
    (h : t.walk n (c ++ d :: z) = some i) : ∃ (m : Nat) (nd : Node) (l r : Nat), t.walk n c = some m ∧
      t.node[m]? = some nd ∧ nd.kind = .internal l r := by
  rw [HuffTree.walk_append, Option.bind_eq_some_iff] at h
  obtain ⟨m, hc, hrest⟩ := h
  obtain ⟨nd, l, r, hnd, hk, -⟩ := HuffTree.walk_cons_eq_some hrest
  exact ⟨m, nd, l, r, hc, hnd, hk⟩

/-- Of two beginnings of one list, the second is part of the first, or goes on after it. -/
theorem append_eq_append_cases {α : Type} {as bs cs ds : List α} (h : as ++ bs = cs ++ ds) :
    (∃ zs, as = cs ++ zs ∧ ds = zs ++ bs) ∨ ∃ z zs, cs = as ++ z :: zs := by
  rcases List.append_eq_append_iff.1 h with ⟨zs, hcs, hbs⟩ | hfirst
  · cases zs with
    | nil => exact .inl ⟨[], by simpa using hcs.symm, hbs.symm⟩
    | cons z zs => exact .inr ⟨z, zs, hcs⟩
  · exact .inl hfirst

section
variable {s : State} {u : Units} (hu : s.units = some u)
include hu

/-- A symbol for each code of the payload. -/
theorem decodeSymbols_ok (ht : u.ht.Inv) {x : Bytes} {p rest : Bits} (hp : u.ht.Spells x p)
    (hahead : bitsAhead s u = p ++ rest) : decodeSymbols x.length s = .ok () (s.emitted u x p.length) := by
  induction x generalizing s u p with
  | nil =>
    obtain rfl : p = [] := hp
    refine congrArg (Eff.ok ()) ?_
    rw [State.emitted, List.append_nil]
    exact (State.withUnits_self hu).symm
  | cons b x ih =>
    obtain ⟨c, p, hc, rfl, hp⟩ := hp
    rw [List.append_assoc] at hahead
    have hnext : bitsAhead s (u.skip c.length) = p ++ rest := by rw [bitsAhead_skip, hahead, List.drop_left]
    rw [List.length_cons, decodeSymbols, hufDecSym_code hu ht hc hahead, Eff.bind_ok,
      ih (s := s.emitted u [b] c.length) rfl ht hp hnext, State.emitted_emitted, List.length_append]
    rfl

/-- A payload that ends before its last code does. -/
theorem decodeSymbols_short (ht : u.ht.Inv) {x : Bytes} {q : Bits} (hp : u.ht.Spells x (bitsAhead s u ++ q))
    (hq : q ≠ []) : ∃ t, decodeSymbols x.length s = .raised .unexpectedEndOfStream t := by
  induction x generalizing s u with
  | nil => exact absurd (List.append_eq_nil_iff.1 hp).2 hq
  | cons b x ih =>
    obtain ⟨c, rest, hc, hsplit, hrest⟩ := hp
    rw [List.length_cons, decodeSymbols]
    rcases append_eq_append_cases hsplit with ⟨z, hahead, rfl⟩ | ⟨d, z, rfl⟩
    · have hnext : bitsAhead s (u.skip c.length) = z := by rw [bitsAhead_skip, hahead, List.drop_left]
      rw [← hnext] at hrest
      rw [hufDecSym_code hu ht hc hahead, Eff.bind_ok]
      exact ih (s := s.emitted u [b] c.length) (u := u.decoded 1 c.length) rfl ht hrest
    · obtain ⟨root, i, hroot, -, hwalk⟩ := hc
      obtain ⟨m, nd, l, r, hm, hnd, hk⟩ := HuffTree.internal_of_walk hwalk
      obtain ⟨v, hv⟩ := endsShort_hufDecSym hu hroot hm hnd hk
      exact ⟨_, by rw [hv, Eff.bind_raised]⟩

end

/-! ### The header (R62, R86) -/

/-- The units after `n` bits of the header have been read and the table is `ft`. -/
def Units.header (u : Units) (ft : FreqTable) (n : Nat) : Units := { u.skip n with ft := ft }

theorem Units.header_header (u : Units) (ft ft' : FreqTable) (m n : Nat) :
    (u.header ft m).header ft' n = u.header ft' (m + n) := by
  simp only [Units.header, Units.skip, Nat.add_assoc]

theorem readCount_next {s : State} {u : Units} (hu : s.units = some u) {v : Nat} (hv : v < 2 ^ 32) (b : Byte)
    {rest : Bits} (hahead : bitsAhead s u = bitsMsb 32 v ++ rest) :
    readCount b s = .ok () (s.withUnits (some (u.header (u.ft.set b v) 32))) := by
  have hmod : v % 2 ^ Config.countBits = v := Nat.mod_eq_of_lt hv
  rw [readCount, readOrEnd_next (n := Config.countBits) (by decide) (by decide) hu hahead, Eff.bind_ok, hmod]
  rfl

/-- Each of the symbols `bs` gets the count that the header holds for it. -/
theorem forEach_readCount {ft : FreqTable} (hft : ∀ b, ft.get b < 2 ^ 32) (bs : List Byte) {s : State} {u : Units}
    (hu : s.units = some u) {rest : Bits}
    (hahead : bitsAhead s u = (bs.flatMap fun b => bitsMsb 32 (ft.get b)) ++ rest) :
    ∃ ft' : FreqTable, (∀ b, ft'.get b = if b ∈ bs then ft.get b else u.ft.get b) ∧
      forEach readCount bs s = .ok () (s.withUnits (some (u.header ft' (32 * bs.length)))) := by
  induction bs generalizing s u with
  | nil => exact ⟨u.ft, fun b => by simp, congrArg (Eff.ok ()) (State.withUnits_self hu).symm⟩
  | cons b bs ih =>
    rw [List.flatMap_cons, List.append_assoc] at hahead
    obtain ⟨ft', hget, hrun⟩ := ih (s := s.withUnits (some (u.header (u.ft.set b (ft.get b)) 32))) rfl
      (bitsAhead_skip_bitsMsb hahead)
    refine ⟨ft', fun c => ?_, ?_⟩
    · rw [hget c]
      by_cases hc : c = b <;> simp [Units.header, hc]
    · rw [forEach_cons, readCount_next hu (hft b) b hahead, Eff.bind_ok, hrun, State.withUnits_withUnits,
        Units.header_header, List.length_cons, Nat.mul_add, Nat.add_comm 32]

/-- The 256 counts of the header are the table that is read. -/
theorem readHeader_ok {ft : FreqTable} (hft : ∀ b, ft.get b < 2 ^ 32) {s : State} {u : Units} (hu : s.units = some u)
    {rest : Bits} (hahead : bitsAhead s u = ft.headerBits ++ rest) :
    forEach readCount allSymbols s = .ok () (s.withUnits (some (u.header ft 8192))) := by
  obtain ⟨ft', hget, hrun⟩ := forEach_readCount hft allSymbols hu hahead
  obtain rfl : ft' = ft := FreqTable.eq_of_get fun b => by rw [hget b, if_pos (mem_allSymbols b)]
  rw [hrun, allSymbols_length]

theorem bitsAhead_header {s : State} {u : Units} {ft : FreqTable} {rest : Bits}
    (hahead : bitsAhead s u = ft.headerBits ++ rest) : bitsAhead s (u.skip 8192) = rest := by
  rw [bitsAhead_skip, hahead, List.drop_left' ft.headerBits_length]

/-! ### HUF_DECOMPRESS (R86) -/

theorem FreqTable.onlySymbol_eq_some_iff {ft : FreqTable} {b : Byte} :
    ft.onlySymbol = some b ↔ ft.occurring = [b] := by
  have hfilter : ft.entries.filter (fun e => decide (e.2 > 0)) = ft.occurring.map fun b => (b, ft.get b) := by
    rw [ft.entries_eq, List.filter_map]
    rfl
  rw [FreqTable.onlySymbol, hfilter]
  match ft.occurring with
  | [] => simp
  | [c] => simp
  | c :: d :: l => simp

/-- Where one symbol occurs, every code is empty. -/
theorem spells_of_onlySymbol {ft : FreqTable} {b : Byte} (hb : ft.onlySymbol = some b) {x : Bytes} {p : Bits}
    (h : (treeOf ft).Spells x p) : x = List.replicate x.length b ∧ p = [] := by
  have hocc : ∀ c, 0 < ft.get c → c = b := fun c hc => by
    have hmem := FreqTable.mem_occurring.2 hc
    rwa [FreqTable.onlySymbol_eq_some_iff.1 hb, List.mem_singleton] at hmem
  induction x generalizing p with
  | nil => exact ⟨rfl, h⟩
  | cons c x ih =>
    obtain ⟨code, rest, hcode, rfl, hrest⟩ := h
    obtain rfl := hocc c (treeOf_leafOf_ne_none_iff.1 hcode.leafOf_ne_none)
    obtain ⟨hbuilt, hinv, -⟩ := treeOf_finished ft
    obtain rfl := (hbuilt.code_eq_nil_iff hinv hcode).2 hocc
    obtain ⟨hx, rfl⟩ := ih hrest
    exact ⟨by rw [List.length_cons, List.replicate_succ, ← hx], rfl⟩

/-- The units where the payload begins. -/
def Units.atPayload (u : Units) (ft : FreqTable) : Units :=
  { u.header ft 8192 with ht := treeOf ft, hp := { items := [] }, hd := { total := ft.sum, emitted := 0 } }

section
variable {s : State} {u : Units} {ft : FreqTable} (hu : s.units = some u) (hft : ∀ b, ft.get b < 2 ^ 32) {rest : Bits}
  (hahead : bitsAhead s u = ft.headerBits ++ rest)
include hu hft hahead

/-- Where one symbol occurs, HUF_DECOMPRESS reads the header alone. -/
theorem hufDecompress_one {b : Byte} (hb : ft.onlySymbol = some b) :
    hufDecompress s = .ok () { s with
      out := s.out ++ List.replicate ft.sum b
      units := some { u.header ft 8192 with hd := { total := ft.sum, emitted := ft.sum } } } := by
  rw [hufDecompress, readHeader_ok hft hu hahead, Eff.bind_ok, readUnits_some rfl]
  simp only [Units.header, hb]
  rfl

/-- Where no or several symbols occur, HUF_DECOMPRESS goes on to the payload with the tree of the table. -/
theorem hufDecompress_payload (hnone : ft.onlySymbol = none) :
    hufDecompress s = decodeSymbols ft.sum (s.withUnits (some (u.atPayload ft))) := by
  rw [hufDecompress, readHeader_ok hft hu hahead, Eff.bind_ok, readUnits_some rfl]
  simp only [Units.header, hnone]
  rw [mapUnits_some rfl, htBuild_ok rfl, Eff.bind_ok]
  rfl

end

/-- HUF_DECOMPRESS of a header and the codes of as many symbols as its counts sum to. -/
theorem hufDecompress_ok {s : State} {u : Units} {ft : FreqTable} (hu : s.units = some u)
    (hft : ∀ b, ft.get b < 2 ^ 32) {x : Bytes} {p rest : Bits} (hx : x.length = ft.sum)
    (hp : (treeOf ft).Spells x p) (hahead : bitsAhead s u = ft.headerBits ++ (p ++ rest)) :
    hufDecompress s = .ok () { s with
      out := s.out ++ x
      units := some { u with
        br := { pos := u.br.pos + 8192 + p.length }
        ft := ft
        hd := { total := ft.sum, emitted := ft.sum }
        ht := if ft.onlySymbol.isSome then u.ht else treeOf ft
        hp := if ft.onlySymbol.isSome then u.hp else { items := [] } } } := by
  cases honly : ft.onlySymbol with
  | some b =>
    obtain ⟨hrep, rfl⟩ := spells_of_onlySymbol honly hp
    rw [hufDecompress_one hu hft hahead honly, ← hx, ← hrep]
    rfl
  | none =>
    rw [hufDecompress_payload hu hft hahead honly, ← hx,
      decodeSymbols_ok (s := s.withUnits (some (u.atPayload ft))) rfl (treeOf_finished ft).inv hp
        (bitsAhead_header hahead)]
    simp only [State.emitted, Units.decoded, Units.atPayload, Nat.zero_add, hx]
    rfl

/-- HUF_DECOMPRESS of a payload that is cut short. -/
theorem hufDecompress_short {s : State} {u : Units} {ft : FreqTable} (hu : s.units = some u)
    (hft : ∀ b, ft.get b < 2 ^ 32) {x : Bytes} {p q : Bits} (hx : x.length = ft.sum)
    (hp : (treeOf ft).Spells x (p ++ q)) (hq : q ≠ []) (hahead : bitsAhead s u = ft.headerBits ++ p) :
    ∃ r, hufDecompress s = .raised .unexpectedEndOfStream r := by
  have hnone : ft.onlySymbol = none := Option.eq_none_iff_forall_ne_some.2 fun b hb =>
    hq (List.append_eq_nil_iff.1 (spells_of_onlySymbol hb hp).2).2
  rw [hufDecompress_payload hu hft hahead hnone, ← hx]
  rw [← bitsAhead_header hahead] at hp
  exact decodeSymbols_short (u := u.atPayload ft) rfl (treeOf_finished ft).inv hp hq

/-- HUF_DECOMPRESS and the file row are one body in the frame of a unit command (log entry 3). -/
theorem instrBody_hufDecompress {i : Instr} (hi : i = .hufDecompress ∨ i = .huffFile) :
    isHostCommand i = false ∧ instrBody i = noResult hufDecompress := by
  rcases hi with rfl | rfl <;> exact ⟨rfl, rfl⟩

/-- Settles O35: the header gives the table, and the payload is decoded with its tree. -/
theorem hufDecompressReadsTheFile : Obligations.HufDecompressReadsTheFile := by
  unfold Obligations.HufDecompressReadsTheFile
  intro s u i ⟨hs, hu⟩ hi
  obtain ⟨hunit, hbody⟩ := instrBody_hufDecompress hi
  refine ⟨fun ft x p rest hft hx hp hahead => ?_, fun hshort => ?_, fun ft x p q hft hx hp hq hahead => ?_⟩
  · rw [List.append_assoc] at hahead
    have hrun := hufDecompress_ok (s := startUnit s) hu hft hx hp hahead
    exact exec_unit_ok hunit hs (by rw [hbody]; exact noResult_ok hrun)
  · rw [bitsAhead_length] at hshort
    refine exec_unit_endsShort hunit hs ?_
    rw [hbody]
    exact (endsShort_hufDecompress (s := startUnit s) hu hshort).bind _
  · obtain ⟨r, hrun⟩ := hufDecompress_short (s := startUnit s) hu hft hx hp hq hahead
    refine ⟨raise .unexpectedEndOfStream (startUnit s) r, ?_, by simp, by simp⟩
    rw [exec_ready hs, instrStart_unit hunit, hbody, noResult_raised hrun]
    rfl

end Sys2Proof.Machine
end

section

/-! ## DECOMPRESS of a Huffman file returns the input (R87, R111, R112, R113) -/

namespace Sys2Proof.Machine

/-- A host command whose body completes. -/
theorem exec_host_ok {i : Instr} {s t : State} (hi : isHostCommand i = true) (hs : s.stat.phase ≠ .busy)
    (h : instrBody i (startHost s) = .ok () t) : exec i s = .next (t.withPhase .done) := by
  rw [exec_ready hs, instrStart_host hi, h]
  rfl

/-- COMPRESS with legal operands stores them, runs HUF_COMPRESS and makes CFG readable (R111). -/
theorem compress_huffman {W : BitVec 5} {p : BitVec 7} (hW : 9 ≤ W.toNat) (hp : p.toNat ≤ 100) (m : BitVec 32)
    (s : State) : compress .huffman W p m s =
      (hufCompress (s.withCfg (some { algo := .huffman, maxw := W, pct := p, mins := m }))).bind fun _ s =>
        .ok () (s.withCfgReady true) := by
  rw [compress, if_neg (by simp [(legalMaxWidth_iff _).2 hW, (legalPct_iff _).2 hp])]

/-- The bits of a Huffman file of the bytes `x` (R62). -/
def IsHuffFile (x : Bytes) (bits : Bits) : Prop := ∃ payload pad, (treeOf (countsOf x)).Spells x payload ∧
  bits = bitsMsb 32 Config.huffMagic.toNat ++ ((countsOf x).headerBits ++ (payload ++ pad))

/-- START leaves nothing pending, so the file begins where OUT does. -/
theorem isHuffFile_from_start {x : Bytes} {payload : Bits} (h : (treeOf (countsOf x)).Spells x payload) (pad : Bits) :
    IsHuffFile x (huffFileBits (writtenBits [] Units.start.bw) (countsOf x) payload ++ pad) := by
  have hstart : writtenBits [] Units.start.bw = [] := rfl
  refine ⟨payload, pad, h, ?_⟩
  simp only [huffFileBits, hstart, List.nil_append, List.append_assoc]

/-- COMPRESS with Huffman writes the file where every count fits its field. -/
theorem exec_compress_huffman {s : State} {W : BitVec 5} {p : BitVec 7} (hs : s.stat.phase ≠ .busy)
    (hW : 9 ≤ W.toNat) (hp : p.toNat ≤ 100) (m : BitVec 32) (h : ∀ b, s.input.count b < 2 ^ 32) :
    ∃ t : State, exec (.compress .huffman W p m) s = .next t ∧ t.stat.phase = .done ∧
      t.cfg = some { algo := .huffman, maxw := W, pct := p, mins := m } ∧ t.cfgReady = true ∧
      IsHuffFile s.input (bitsOfBytes t.out) := by
  obtain ⟨payload, out, hpayload, hout, hrun⟩ := hufCompress_ok
    (s := (startHost s).withCfg (some { algo := .huffman, maxw := W, pct := p, mins := m })) rfl rfl
    ⟨by decide, by decide⟩ h
  have hbody := compress_huffman hW hp m (startHost s)
  rw [hrun, Eff.bind_ok] at hbody
  refine ⟨_, exec_host_ok rfl hs (noResult_ok hbody), rfl, rfl, rfl, ?_⟩
  exact hout ▸ isHuffFile_from_start hpayload _

/-- DECOMPRESS of a Huffman file emits the bytes that it was made of (R87, R112). -/
theorem decompress_huffFile {r : State} {x : Bytes} (h : ∀ b, x.count b < 2 ^ 32)
    (hfile : IsHuffFile x (bitsOfBytes r.input)) :
    ∃ u, decompress (startHost r) = .ok () { pastMagic r with out := x, units := some u } := by
  obtain ⟨payload, pad, hpayload, hbits⟩ := hfile
  have hahead : bitsAhead (startHost r) Units.start = _ := (bitsAhead_start r).trans hbits
  have hmagic : readMagic (startHost r) = .ok _ (pastMagic r) := readMagic_next (startHost_units r) hahead
  have hft : ∀ b, (countsOf x).get b < 2 ^ 32 := by simpa only [countsOf_get] using h
  have hrun := hufDecompress_ok (s := pastMagic r) (u := Units.start.skip 32) rfl hft (countsOf_sum x).symm hpayload
    (bitsAhead_skip_bitsMsb hahead)
  simp only [decompress, hmagic, Eff.bind_ok, classifyMagic_huff]
  exact ⟨_, hrun⟩

/-- Settles O36: COMPRESS writes a Huffman file of the input, and DECOMPRESS emits what such a file was made of. -/
theorem huffmanFileRoundTrip : Obligations.HuffmanFileRoundTrip := by
  unfold Obligations.HuffmanFileRoundTrip
  intro s W p m hs hW hp h
  obtain ⟨t, hexec, hdone, hcfg, hready, hfile⟩ := exec_compress_huffman hs hW hp m h
  refine ⟨t, hexec, hdone, hcfg, hready, fun r hr hinput => ?_⟩
  obtain ⟨u, hrun⟩ := decompress_huffFile h (r := r) (hinput ▸ hfile)
  exact ⟨_, exec_host_ok rfl hr (noResult_ok hrun), rfl, rfl, rfl⟩

end Sys2Proof.Machine
end

section

/-! ## The dictionary commands (R89 to R94)

Each command is one operation on `LD` in the frame of a unit command. Which branch the operation takes is said by
`legalCursor`, `entryCode` and `edgeAt`; membership in the edge list is what the rules of the spec speak of. -/

namespace Sys2Proof.Machine

/-! ### Looking up an edge (R88) -/

theorem mem_of_edgeAt {k : Nat × Byte} {n : Nat} {es : List ((Nat × Byte) × Nat)} (h : edgeAt k es = some n) :
    (k, n) ∈ es := by
  induction es with
  | nil => cases h
  | cons e es ih =>
    unfold edgeAt at h
    split at h
    · rename_i hkey
      obtain rfl := Option.some.inj h
      exact hkey ▸ List.mem_cons_self
    · exact List.mem_cons_of_mem _ (ih h)

theorem edgeAt_isSome_iff {k : Nat × Byte} {es : List ((Nat × Byte) × Nat)} :
    (edgeAt k es).isSome ↔ k ∈ es.map (·.1) := by
  cases h : edgeAt k es with
  | none => simpa using edgeAt_eq_none h
  | some n => simpa using ⟨n, mem_of_edgeAt h⟩

/-- Where no key stands twice, an edge in the list is the one that is found. -/
theorem edgeAt_of_mem {k : Nat × Byte} {n : Nat} {es : List ((Nat × Byte) × Nat)} (hkeys : (es.map (·.1)).Nodup)
    (h : (k, n) ∈ es) : edgeAt k es = some n := by
  obtain ⟨m, hm⟩ := Option.isSome_iff_exists.1 (edgeAt_isSome_iff.2 (List.mem_map_of_mem h))
  have hsame : (k, m) = (k, n) := List.inj_on_of_nodup_map hkeys (mem_of_edgeAt hm) h rfl
  rw [hm, (Prod.mk.inj hsame).2]

theorem edgeAt_eq_none_of_not_mem {k : Nat × Byte} {es : List ((Nat × Byte) × Nat)} (h : ∀ n, (k, n) ∉ es) :
    edgeAt k es = none :=
  Option.eq_none_iff_forall_ne_some.2 fun n hn => h n (mem_of_edgeAt hn)

/-! ### Cursors that name no entry (R36, R58) -/

theorem legalCursor_code_iff (d : LzwDict) (c : Nat) : legalCursor d (.code c) = true ↔ c < d.next := decide_eq_true_iff

theorem legalCursor_unassigned {d : LzwDict} {c : Nat} (h : d.next ≤ c) : legalCursor d (.code c) = false :=
  decide_eq_false (Nat.not_lt.2 h)

theorem entryCode_unassigned {d : LzwDict} {c : Nat} (h : d.next ≤ c) : entryCode d (.code c) = none :=
  if_neg (Nat.not_lt.2 h)

/-! ### Extending the dictionary (R90, R93) -/

theorem LzwDict.full_iff {d : LzwDict} : d.full = true ↔ d.last < d.next := decide_eq_true_iff

theorem LzwDict.extend_full {d : LzwDict} (h : d.last < d.next) (c : Nat) (b : Byte) : d.extend c b = d :=
  if_pos (LzwDict.full_iff.2 h)

theorem LzwDict.extend_room {d : LzwDict} (h : d.next ≤ d.last) (c : Nat) (b : Byte) :
    d.extend c b = { d with child := d.child ++ [((c, b), d.next)], next := d.next + 1 } :=
  if_neg (mt LzwDict.full_iff.1 (Nat.not_lt.2 h))

/-! ### What each operation does -/

theorem ldInit_illegal {W : Nat} (hW : W < 9) (s : State) : ldInit W s = .raised .configurationError s := by
  have hlegal : legalMaxWidth W = false := decide_eq_false (Nat.not_le.2 hW)
  rw [ldInit, hlegal]
  rfl

theorem setLd_some {s : State} {u : Units} (hu : s.units = some u) (d : LzwDict) :
    setLd s d = s.withUnits (some { u with ld := some d }) := mapUnits_some hu _

section
variable {s : State} {u : Units} {d : LzwDict} (hu : s.units = some u) (hd : u.ld = some d)
include hu hd

theorem ldHasnext_entry {c : Cursor} (hc : legalCursor d c = true) (b : Byte) :
    ldHasnext c b s = .ok (d.childOf c b).isSome s := by
  rw [ldHasnext, readLd_some hu hd, hc]
  rfl

theorem ldHasnext_no_entry {c : Cursor} (hc : legalCursor d c = false) (b : Byte) :
    ldHasnext c b s = .raised .badOperand s := by
  rw [ldHasnext, readLd_some hu hd, hc]
  rfl

theorem ldGetcode_entry {c : Cursor} {n : Nat} (hc : entryCode d c = some n) : ldGetcode c s = .ok n s := by
  rw [ldGetcode, readLd_some hu hd, hc]

theorem ldGetcode_no_entry {c : Cursor} (hc : entryCode d c = none) : ldGetcode c s = .raised .badOperand s := by
  rw [ldGetcode, readLd_some hu hd, hc]

theorem ldAdd_no_entry {c : Cursor} (hc : entryCode d c = none) (b : Byte) :
    ldAdd c b s = .raised .badOperand s := by
  rw [ldAdd, readLd_some hu hd, hc]

theorem ldAdd_edge {c : Nat} {b : Byte} (hc : c < d.next) (hedge : (edgeAt (c, b) d.child).isSome) :
    ldAdd (.code c) b s = .raised .badOperand s := by
  rw [ldAdd, readLd_some hu hd, entryCode_code hc]
  exact if_pos hedge

/-- A new edge extends the dictionary, which leaves a full one as it is. -/
theorem ldAdd_new {c : Nat} {b : Byte} (hc : c < d.next) (hnew : edgeAt (c, b) d.child = none) :
    ldAdd (.code c) b s = .ok () (s.withUnits (some { u with ld := some (d.extend c b) })) := by
  rw [ldAdd, readLd_some hu hd, entryCode_code hc]
  simp only [hnew, Option.isSome_none, Bool.false_eq_true, if_false, LzwDict.extend]
  split
  · rw [← hd, State.withUnits_self hu]
  · rw [setLd_some hu]

theorem ldReset_some : ldReset s =
    .ok () (s.withUnits (some { u with ld := some { d with child := [], next := Config.firstCode } })) := by
  rw [ldReset, mapUnits_some hu, hd]
  rfl

end

/-! ### The commands -/

/-- Settles O37: a legal width only writes `LD`, and an illegal one is refused before a unit is touched. -/
theorem ldInitMakesAnEmptyDictionary : Obligations.LdInitMakesAnEmptyDictionary := by
  unfold Obligations.LdInitMakesAnEmptyDictionary
  refine ⟨fun s u W hready hW => ?_, fun s W hs hW => ?_⟩
  · have hinit := ldInit_legal hW (startUnit s)
    rw [setLd_some (s := startUnit s) hready.2] at hinit
    exact exec_unit_ok (i := .ldInit W) rfl hready.1 (noResult_ok hinit)
  · exact exec_unit_raises rfl hs (noResult_raised (ldInit_illegal hW (startUnit s)))

section
variable {s : State} {u : Units} {d : LzwDict} (hready : Ready s u) (hd : u.ld = some d)
include hready hd

theorem exec_ldHasnext_entry {c : Cursor} (hc : legalCursor d c = true) (b : Byte) :
    exec (.ldHasnext c b) s = .next (completed s (.bool (d.childOf c b).isSome) (some u)) := by
  rw [← hready.2]
  exact exec_unit_ok (i := .ldHasnext c b) rfl hready.1
    (withResult_ok (ldHasnext_entry (s := startUnit s) hready.2 hd hc b))

theorem exec_ldGetcode_entry {c : Nat} (hc : c < d.next) :
    exec (.ldGetcode (.code c)) s = .next (completed s (.num c) (some u)) := by
  rw [← hready.2]
  exact exec_unit_ok (i := .ldGetcode (.code c)) rfl hready.1
    (withResult_ok (ldGetcode_entry (s := startUnit s) hready.2 hd (entryCode_code hc)))

theorem exec_ldGetcode_no_entry {c : Cursor} (hc : entryCode d c = none) :
    exec (.ldGetcode c) s = .next (raisedClean s .badOperand) :=
  exec_unit_raises rfl hready.1 (withResult_raised (ldGetcode_no_entry (s := startUnit s) hready.2 hd hc))

theorem exec_ldAdd_no_entry {c : Cursor} (hc : entryCode d c = none) (b : Byte) :
    exec (.ldAdd c b) s = .next (raisedClean s .badOperand) :=
  exec_unit_raises rfl hready.1 (noResult_raised (ldAdd_no_entry (s := startUnit s) hready.2 hd hc b))

theorem exec_ldAdd_edge {c : Nat} {b : Byte} (hc : c < d.next) (hedge : (edgeAt (c, b) d.child).isSome) :
    exec (.ldAdd (.code c) b) s = .next (raisedClean s .badOperand) :=
  exec_unit_raises rfl hready.1 (noResult_raised (ldAdd_edge (s := startUnit s) hready.2 hd hc hedge))

theorem exec_ldAdd_new {c : Nat} {b : Byte} (hc : c < d.next) (hnew : edgeAt (c, b) d.child = none) :
    exec (.ldAdd (.code c) b) s = .next (completed s .none (some { u with ld := some (d.extend c b) })) :=
  exec_unit_ok (i := .ldAdd (.code c) b) rfl hready.1
    (noResult_ok (ldAdd_new (s := startUnit s) hready.2 hd hc hnew))

end

/-- Settles O38: both commands answer from `LD` and leave it, where the cursor names an entry that has a code. -/
theorem ldLookupsAnswerFromTheTrie : Obligations.LdLookupsAnswerFromTheTrie := by
  unfold Obligations.LdLookupsAnswerFromTheTrie
  intro s u d b hready hd
  refine ⟨exec_ldHasnext_entry hready hd (c := .root) rfl b, exec_ldGetcode_no_entry hready hd rfl, fun c hc => ⟨?_, ?_⟩,
    fun c hc => ⟨?_, ?_⟩⟩
  · have hanswer : (d.childOf (.code c) b).isSome = decide ((c, b) ∈ d.child.map (·.1)) := by
      rw [Bool.eq_iff_iff, decide_eq_true_iff]
      exact edgeAt_isSome_iff
    rw [← hanswer]
    exact exec_ldHasnext_entry hready hd ((legalCursor_code_iff d c).2 hc) b
  · exact exec_ldGetcode_entry hready hd hc
  · exact exec_unit_raises rfl hready.1
      (withResult_raised (ldHasnext_no_entry (s := startUnit s) hready.2 hd (legalCursor_unassigned hc) b))
  · exact exec_ldGetcode_no_entry hready hd (entryCode_unassigned hc)

/-- Settles O39: the cursor is checked first, then the edge, and a new edge extends the dictionary unless it is full. -/
theorem ldAddAssignsTheNextCode : Obligations.LdAddAssignsTheNextCode := by
  unfold Obligations.LdAddAssignsTheNextCode
  intro s u d b hready hd
  refine ⟨exec_ldAdd_no_entry hready hd rfl b, fun c hbad => ?_, fun c hc hnew => ?_⟩
  · rcases Nat.lt_or_ge c d.next with hc | hc
    · obtain ⟨n, hn⟩ := hbad.resolve_left (Nat.not_le.2 hc)
      exact exec_ldAdd_edge hready hd hc (edgeAt_isSome_iff.2 (List.mem_map_of_mem hn))
    · exact exec_ldAdd_no_entry hready hd (entryCode_unassigned hc) b
  · have hexec := exec_ldAdd_new hready hd hc (edgeAt_eq_none_of_not_mem hnew)
    refine ⟨fun hfull => ?_, fun hroom => ?_⟩
    · rwa [LzwDict.extend_full hfull, ← hd] at hexec
    · rwa [LzwDict.extend_room hroom] at hexec

/-- Settles O40: one write of `LD`, which keeps the maximum width and the last code. -/
theorem ldResetKeepsOnlyTheSingletons : Obligations.LdResetKeepsOnlyTheSingletons := by
  unfold Obligations.LdResetKeepsOnlyTheSingletons
  intro s u d hready hd
  exact exec_unit_ok (i := .ldReset) rfl hready.1 (noResult_ok (ldReset_some (s := startUnit s) hready.2 hd))

end Sys2Proof.Machine
end

section

/-! ## The dictionary invariants and the strings of the trie (R88, R95)

A dictionary command either raises, and then no `LD` is left, or it completes with the `LD` that R89 to R94 give. -/

namespace Sys2Proof.Machine

/-! ### The commands keep the invariant -/

/-- Whatever dictionary the instruction leaves meets the invariant. -/
def LeavesDictInv (i : Instr) (s : State) : Prop :=
  ∀ (t : State) (v : Units) (e : LzwDict), exec i s = .next t → t.units = some v → v.ld = some e → e.Inv

theorem leavesDictInv_of_raised {i : Instr} {s : State} {k : ErrKind} (h : exec i s = .next (raisedClean s k)) :
    LeavesDictInv i s := by
  intro t v e ht hv _
  obtain rfl := Host.Outcome.next.inj (h.symm.trans ht)
  cases hv

theorem leavesDictInv_of_completed {i : Instr} {s : State} {r : Result} {w : Units} {d : LzwDict}
    (h : exec i s = .next (completed s r (some w))) (hw : w.ld = some d) (hd : d.Inv) : LeavesDictInv i s := by
  intro t v e ht hv he
  obtain rfl := Host.Outcome.next.inj (h.symm.trans ht)
  obtain rfl := Option.some.inj hv
  exact Option.some.inj (hw.symm.trans he) ▸ hd

theorem LzwDict.Inv.extend {d : LzwDict} (h : d.Inv) {c : Nat} {b : Byte} (hc : c < d.next)
    (hnew : edgeAt (c, b) d.child = none) : (d.extend c b).Inv := by
  unfold LzwDict.extend
  split
  · exact h
  · rename_i hroom
    exact h.add hc hnew (Bool.eq_false_iff.2 hroom)

theorem leavesDictInv_ldInit {s : State} {u : Units} (hready : Ready s u) (W : BitVec 5) :
    LeavesDictInv (.ldInit W) s := by
  obtain ⟨hlegal, hillegal⟩ := ldInitMakesAnEmptyDictionary
  rcases Nat.lt_or_ge W.toNat 9 with hW | hW
  · exact leavesDictInv_of_raised (hillegal s W hready.1 hW)
  · exact leavesDictInv_of_completed (hlegal s u W hready hW) rfl
      (LzwDict.inv_init ⟨hW, Nat.le_of_lt_succ W.isLt⟩ rfl)

section
variable {s : State} {u : Units} {d : LzwDict} (hready : Ready s u) (hd : u.ld = some d) (hinv : d.Inv)
include hready hd hinv

theorem leavesDictInv_ldHasnext (c : Cursor) (b : Byte) : LeavesDictInv (.ldHasnext c b) s := by
  obtain ⟨hroot, -, hentry, hunassigned⟩ := ldLookupsAnswerFromTheTrie s u d b hready hd
  cases c with
  | root => exact leavesDictInv_of_completed hroot hd hinv
  | code c =>
    rcases Nat.lt_or_ge c d.next with hc | hc
    · exact leavesDictInv_of_completed (hentry c hc).1 hd hinv
    · exact leavesDictInv_of_raised (hunassigned c hc).1

theorem leavesDictInv_ldGetcode (c : Cursor) : LeavesDictInv (.ldGetcode c) s := by
  cases hc : entryCode d c with
  | none => exact leavesDictInv_of_raised (exec_ldGetcode_no_entry hready hd hc)
  | some n =>
    obtain ⟨rfl, hn⟩ := entryCode_eq_some hc
    exact leavesDictInv_of_completed (exec_ldGetcode_entry hready hd hn) hd hinv

theorem leavesDictInv_ldAdd (c : Cursor) (b : Byte) : LeavesDictInv (.ldAdd c b) s := by
  cases hc : entryCode d c with
  | none => exact leavesDictInv_of_raised (exec_ldAdd_no_entry hready hd hc b)
  | some n =>
    obtain ⟨rfl, hn⟩ := entryCode_eq_some hc
    cases hedge : edgeAt (n, b) d.child with
    | none => exact leavesDictInv_of_completed (exec_ldAdd_new hready hd hn hedge) rfl (hinv.extend hn hedge)
    | some m => exact leavesDictInv_of_raised (exec_ldAdd_edge hready hd hn (by rw [hedge]; rfl))

theorem leavesDictInv_ldReset : LeavesDictInv .ldReset s :=
  leavesDictInv_of_completed (ldResetKeepsOnlyTheSingletons s u d hready hd) rfl hinv.reset

end

/-! ### Codes and edges (R95) -/

/-- The values of the edges are the codes from 256 on that are below `LD.next`. -/
theorem LzwDict.Inv.mem_codes_iff {d : LzwDict} (h : d.Inv) {n : Nat} :
    n ∈ d.child.map (·.2) ↔ 256 ≤ n ∧ n < d.next := by
  have hnext := h.next.1
  simp only [Config.firstCode] at hnext
  rw [h.codes, List.mem_range'_1]
  simp only [Config.firstCode]
  omega

theorem LzwDict.Inv.code_of_mem {d : LzwDict} (h : d.Inv) {k : Nat × Byte} {n : Nat} (hmem : (k, n) ∈ d.child) :
    256 ≤ n ∧ n < d.next := h.mem_codes_iff.1 (List.mem_map_of_mem (f := (·.2)) hmem)

theorem LzwDict.Inv.exists_edge {d : LzwDict} (h : d.Inv) {n : Nat} (hn : 256 ≤ n ∧ n < d.next) :
    ∃ k, (k, n) ∈ d.child := by
  obtain ⟨⟨k, m⟩, hmem, rfl⟩ := List.mem_map.1 (h.mem_codes_iff.2 hn)
  exact ⟨k, hmem⟩

theorem LzwDict.Inv.edge_unique {d : LzwDict} (h : d.Inv) {k k' : Nat × Byte} {n : Nat} (hmem : (k, n) ∈ d.child)
    (hmem' : (k', n) ∈ d.child) : k' = k := by
  have hcodes : (d.child.map (·.2)).Nodup := h.codes ▸ List.nodup_range'
  exact (Prod.mk.inj (List.inj_on_of_nodup_map hcodes hmem' hmem rfl)).1

theorem LzwDict.Inv.byte_lt_next {d : LzwDict} (h : d.Inv) (b : Byte) : b.toNat < d.next :=
  b.isLt.trans_le h.next.1

/-! ### Strings (R88, R95) -/

theorem LzwDict.IsString.ne_nil {d : LzwDict} {n : Nat} {str : Bytes} (h : d.IsString n str) : str ≠ [] := by
  cases h <;> simp

theorem LzwDict.IsString.lt_next {d : LzwDict} (hinv : d.Inv) {n : Nat} {str : Bytes} (h : d.IsString n str) :
    n < d.next := by
  cases h with
  | single b => exact hinv.byte_lt_next b
  | edge c n b str _ hedge => exact (hinv.code_of_mem (mem_of_edgeAt hedge)).2

/-- Every code has a string: a later code's edge leads to it from an earlier one. -/
theorem LzwDict.Inv.exists_isString {d : LzwDict} (h : d.Inv) {n : Nat} (hn : n < d.next) :
    ∃ str, d.IsString n str := by
  induction n using Nat.strong_induction_on with
  | _ n ih =>
    rcases Nat.lt_or_ge n 256 with hbyte | hcode
    · have hsingle := LzwDict.IsString.single (d := d) (BitVec.ofNat 8 n)
      rw [BitVec.toNat_ofNat, Nat.mod_eq_of_lt hbyte] at hsingle
      exact ⟨_, hsingle⟩
    · obtain ⟨⟨c, b⟩, hmem⟩ := h.exists_edge ⟨hcode, hn⟩
      have hlater : c < n := h.later _ hmem
      obtain ⟨str, hstr⟩ := ih c hlater (hlater.trans hn)
      exact ⟨str ++ [b], .edge c n b str hstr (edgeAt_of_mem h.edges hmem)⟩

/-- The path of a string from the root leads to one code: `child` is a function. -/
theorem LzwDict.IsString.code_unique {d : LzwDict} {n n' : Nat} {str : Bytes} (h : d.IsString n str)
    (h' : d.IsString n' str) : n = n' := by
  induction h generalizing n' with
  | single b =>
    generalize hstr : [b] = str at h'
    cases h' with
    | single b' => rw [List.singleton_inj.1 hstr]
    | edge c n' b' str' hc _ =>
      obtain ⟨hnil, -⟩ := List.append_inj' (s₁ := []) (t₁ := [b]) hstr rfl
      exact absurd hnil.symm hc.ne_nil
  | edge c n b str hc hedge ih =>
    generalize hstr : str ++ [b] = full at h'
    cases h' with
    | single b' =>
      obtain ⟨hnil, -⟩ := List.append_inj' (s₂ := []) (t₂ := [b']) hstr rfl
      exact absurd hnil hc.ne_nil
    | edge c' n' b' str' hc' hedge' =>
      obtain ⟨rfl, hb⟩ := List.append_inj' hstr rfl
      obtain rfl := List.singleton_inj.1 hb
      obtain rfl := ih hc'
      exact Option.some.inj (hedge.symm.trans hedge')

/-- Every beginning of a path in the trie is a path. -/
theorem LzwDict.IsString.exists_of_isPrefix {d : LzwDict} {n : Nat} {str p : Bytes} (h : d.IsString n str)
    (hp : p <+: str) (hne : p ≠ []) : ∃ n', d.IsString n' p := by
  induction h with
  | single b =>
    rcases List.prefix_concat_iff (l₂ := []).1 hp with rfl | hnil
    · exact ⟨_, .single b⟩
    · exact absurd (List.prefix_nil.1 hnil) hne
  | edge c n b str hc hedge ih =>
    rcases List.prefix_concat_iff.1 hp with rfl | hshort
    · exact ⟨n, .edge c n b str hc hedge⟩
    · exact ih hshort

/-- Settles O41: each command by what it does to `LD`; the strings by induction over their paths. -/
theorem lzwDictionaryInvariants : Obligations.LzwDictionaryInvariants := by
  unfold Obligations.LzwDictionaryInvariants
  refine ⟨fun i s t u v d e hready hd hinv hi => ?_, fun d hinv => ⟨fun n hn hlt => ?_, ?_, ?_, ?_, ?_⟩⟩
  · have hleaves : LeavesDictInv i s := by
      rcases hi with ⟨W, rfl⟩ | ⟨c, b, rfl⟩ | ⟨c, rfl⟩ | ⟨c, b, rfl⟩ | rfl
      · exact leavesDictInv_ldInit hready W
      · exact leavesDictInv_ldHasnext hready hd hinv c b
      · exact leavesDictInv_ldGetcode hready hd hinv c
      · exact leavesDictInv_ldAdd hready hd hinv c b
      · exact leavesDictInv_ldReset hready hd hinv
    exact hleaves t v e
  · obtain ⟨k, hk⟩ := hinv.exists_edge ⟨hn, hlt⟩
    exact ⟨k, hk, fun k' hk' => hinv.edge_unique hk hk'⟩
  · exact fun k n hmem => hinv.code_of_mem hmem
  · exact fun n hn => hinv.exists_isString hn
  · exact fun n n' str h h' => h.code_unique h'
  · intro n str p hstr hp hne
    obtain ⟨n', hn'⟩ := hstr.exists_of_isPrefix hp hne
    exact ⟨n', hn'.lt_next hinv, hn'⟩

end Sys2Proof.Machine
end

section

/-! ## What the LZW encoder does to the state (R96 to R101)

`Encoder` is the part of the state that the encoder works on. What a part of a command does to it, `Drives` says for every
state around it, so the parts are put together without a look at the rest; in particular the same part does the same as a
command of its own and inside LZW_COMPRESS. Nothing here needs the BitWriter to be within a byte, but for which bits are
written. -/

namespace Sys2Proof.Machine

/-! ### The encoder's part of the state -/

/-- OUT, the BitWriter, `STAT.TOTAL`, `STAT.RESETS`, `LD` and `LE` (R26, R27, R30, R36, R37). -/
structure Encoder where
  out : Bytes
  bw : BitWriter
  total : Nat
  resets : Nat
  d : LzwDict
  e : LzwEnc

/-- The state `s`, whose other units are those of `u`, with the encoder's part `x`. -/
def State.withEncoder (s : State) (u : Units) (x : Encoder) : State :=
  { s with
    out := x.out
    units := some { u with bw := x.bw, ld := some x.d, le := some x.e }
    stat := { s.stat with total := x.total, resets := x.resets } }

/-- The encoder's part of a state. -/
def State.encoder (s : State) (u : Units) (d : LzwDict) (e : LzwEnc) : Encoder :=
  ⟨s.out, u.bw, s.stat.total, s.stat.resets, d, e⟩

theorem State.withEncoder_encoder {s : State} {u : Units} {d : LzwDict} {e : LzwEnc} (hu : s.units = some u)
    (hd : u.ld = some d) (he : u.le = some e) : s.withEncoder u (s.encoder u d e) = s := by
  simp only [State.withEncoder, State.encoder, ← hd, ← he, ← hu]

/-- In every state that has the part `x`, `body` completes, leaves `y` for it, and changes nothing else. -/
def Drives (body : State → Eff Unit) (x y : Encoder) : Prop :=
  ∀ (s : State) (u : Units), body (s.withEncoder u x) = .ok () (s.withEncoder u y)

theorem Drives.bind {f g : State → Eff Unit} {x y z : Encoder} (hf : Drives f x y) (hg : Drives g y z) :
    Drives (fun s => (f s).bind fun _ s => g s) x z := fun s u => by
  simp only [hf s u, Eff.bind_ok, hg s u]

/-- `s` after a command without a result, as far as the phase, the error and RES are concerned (R22 to R24). -/
def State.settled (s : State) : State :=
  { s with stat := { s.stat with phase := .done, err := .none }, res := .none }

/-- A unit command does to the encoder's part what its body does. -/
theorem exec_of_drives {i : Instr} {body : State → Eff Unit} (hi : isHostCommand i = false)
    (hbody : instrBody i = noResult body) {x y : Encoder} (h : Drives body x y) {s : State} (hs : s.stat.phase ≠ .busy)
    (u : Units) : exec i (s.withEncoder u x) = .next (s.settled.withEncoder u y) := by
  refine exec_unit_ok (s := s.withEncoder u x) (t := ((startUnit s).withEncoder u y).withRes .none) hi hs ?_
  rw [hbody]
  exact noResult_ok (h (startUnit s) u)

/-! ### Writing (R70, R71) -/

/-- The bits `bits` are appended, if the BitWriter was within a byte. -/
def Puts (out : Bytes) (bw : BitWriter) (bits : Bits) (out' : Bytes) (bw' : BitWriter) : Prop :=
  bw.Inv → Appends out bw bits out' bw'

theorem Puts.trans {o o' o'' : Bytes} {b b' b'' : BitWriter} {x y : Bits} (h : Puts o b x o' b')
    (k : Puts o' b' y o'' b'') : Puts o b (x ++ y) o'' b'' := fun hb => (h hb).trans (k (h hb).inv)

/-- The encoder after it has written, and perhaps widened its code words. -/
def Encoder.wrote (x : Encoder) (w : Nat) (out : Bytes) (bw : BitWriter) : Encoder :=
  { x with out := out, bw := bw, total := bw.total, e := { x.e with width := w } }

theorem writeBits_drives {n : Nat} (hn : n ≤ 32) (v : Nat) (x : Encoder) :
    ∃ out bw, Puts x.out x.bw (bitsMsb n v) out bw ∧ Drives (writeBits n v) x (x.wrote x.e.width out bw) := by
  refine ⟨(putBits v n (x.bw, x.out)).2, { (putBits v n (x.bw, x.out)).1 with total := x.bw.total + n },
    fun hb => ?_, fun s u => ?_⟩
  · obtain ⟨hinv, -, hbits⟩ := putBits_spec v n (x.bw, x.out) hb
    exact ⟨⟨hinv.few, hinv.fits⟩, by rw [bitsMsb_length], hbits⟩
  · exact if_neg (Nat.not_lt.2 hn)

theorem flush_drives (x : Encoder) : ∃ out bw, Drives flush x { x with out := out, bw := bw } := by
  by_cases hpending : x.bw.nacc > 0
  · exact ⟨x.out ++ [BitVec.ofNat 8 (x.bw.acc * 2 ^ (8 - x.bw.nacc))], { x.bw with acc := 0, nacc := 0 },
      fun s u => if_pos hpending⟩
  · exact ⟨x.out, x.bw, fun s u => if_neg hpending⟩

/-! ### LZC_EMIT (R97) -/

/-- The loop of R97 for a code below GROW at width 31, with a pass for each width up to 31. -/
theorem growAndWrite_drives {c : Nat} (hc : c < growCode 31) (k : Nat) {x : Encoder} (hw : x.e.width ≤ 31)
    (hk : 32 ≤ x.e.width + k) :
    ∃ w out bw, WidthFor x.e.width c w ∧ w ≤ 31 ∧ Puts x.out x.bw (emission x.e.width c w) out bw ∧
      Drives (growAndWrite c k) x (x.wrote w out bw) := by
  induction k generalizing x with
  | zero => omega
  | succ k ih =>
    by_cases hgrow : growCode x.e.width ≤ c
    · have hne : x.e.width ≠ 31 := fun h => by rw [h] at hgrow; omega
      obtain ⟨out, bw, hputs, hwrite⟩ := writeBits_drives (n := x.e.width) (by omega) (growCode x.e.width) x
      obtain ⟨w, out', bw', hfor, h31, hputs', hrest⟩ := ih (x := x.wrote (x.e.width + 1) out bw)
        (by simp only [Encoder.wrote]; omega) (by simp only [Encoder.wrote]; omega)
      refine ⟨w, out', bw', hfor.grow hgrow, h31, ?_, fun s u => (if_pos hgrow).trans ?_⟩
      · rw [emission_grow hfor.1]
        exact hputs.trans hputs'
      · rw [hwrite s u, Eff.bind_ok]
        exact hrest s u
    · obtain ⟨out, bw, hputs, hwrite⟩ := writeBits_drives (n := x.e.width) (by omega) c x
      exact ⟨x.e.width, out, bw, .self (Nat.not_le.1 hgrow), hw, by rwa [emission_self],
        fun s u => (if_neg hgrow).trans (hwrite s u)⟩

theorem lzcEmit_drives {x : Encoder} (hd : x.d.Inv) (he : x.e.Inv) {c : Nat} (hc : c < x.d.next) :
    ∃ w out bw, WidthFor x.e.width c w ∧ w ≤ 31 ∧ Puts x.out x.bw (emission x.e.width c w) out bw ∧
      Drives (lzcEmit (.code c)) x (x.wrote w out bw) := by
  obtain ⟨w, out, bw, hfor, h31, hputs, hgrow⟩ := growAndWrite_drives (hc.trans_le hd.next_le) (Config.maxRwBits + 2)
    he.width.2 (by simp only [Config.maxRwBits]; omega)
  refine ⟨w, out, bw, hfor, h31, hputs, fun s u => ?_⟩
  rw [lzcEmit, readLd_some rfl rfl, entryCode_code hc]
  exact hgrow s u

/-! ### The branches of LZC_BYTE (R98 to R101) -/

/-- An edge leads on from the cursor: the match is extended, and a hit counted while the dictionary is full. -/
theorem lzcByte_drives_edge {x : Encoder} {b : Byte} {n : Nat} (hcur : legalCursor x.d x.e.cur = true)
    (hedge : x.d.childOf x.e.cur b = some n) :
    Drives (lzcByte b) x { x with e := x.e.moveTo n (if x.d.full then x.e.hits + 1 else x.e.hits) } := fun s u => by
  rw [lzcByte, readLe_some rfl rfl, ldHasnext_entry rfl rfl hcur, Eff.bind_ok, readLd_some rfl rfl]
  simp only [hedge]
  rfl

theorem ldAdd_drives {x : Encoder} {c : Nat} {b : Byte} (hc : c < x.d.next) (hnew : edgeAt (c, b) x.d.child = none) :
    Drives (ldAdd (.code c) b) x { x with d := x.d.extend c b } := fun s u =>
  ldAdd_new (s := s.withEncoder u x) rfl rfl hc hnew

/-- The code is written and the new string registered (R93, R97). -/
def Encoder.missed (x : Encoder) (c : Nat) (b : Byte) (w : Nat) (out : Bytes) (bw : BitWriter) : Encoder :=
  { x.wrote w out bw with d := x.d.extend c b }

theorem lzcMiss_drives {x : Encoder} (hd : x.d.Inv) (he : x.e.Inv) {c : Nat} {b : Byte} (hc : c < x.d.next)
    (hnew : edgeAt (c, b) x.d.child = none) :
    ∃ w out bw, WidthFor x.e.width c w ∧ w ≤ 31 ∧ Puts x.out x.bw (emission x.e.width c w) out bw ∧
      Drives (lzcMiss (.code c) b) x (x.missed c b w out bw) := by
  obtain ⟨w, out, bw, hfor, h31, hputs, hemit⟩ := lzcEmit_drives hd he hc
  refine ⟨w, out, bw, hfor, h31, hputs, fun s u => ?_⟩
  rw [lzcMiss, ldGetcode_entry rfl rfl (entryCode_code hc), Eff.bind_ok, hemit s u, Eff.bind_ok, readLd_some rfl rfl]
  by_cases hfull : x.d.full = true
  · rw [Encoder.missed, LzwDict.extend, if_pos hfull]
    exact if_pos hfull
  · exact (if_neg hfull).trans (ldAdd_drives (x := x.wrote w out bw) hc hnew s u)

/-- No edge leads on: LZC_BYTE is what precedes the restart, then the restart. -/
theorem lzcByte_drives_off {x : Encoder} (hd : x.d.Inv) (he : x.e.Inv) {c : Nat} {b : Byte} (hcur : x.e.cur = .code c)
    (hc : c < x.d.next) (hnew : edgeAt (c, b) x.d.child = none) :
    ∃ w out bw, WidthFor x.e.width c w ∧ w ≤ 31 ∧ Puts x.out x.bw (emission x.e.width c w) out bw ∧
      ∀ y, Drives (lzcRestart b) (x.missed c b w out bw) y → Drives (lzcByte b) x y := by
  obtain ⟨w, out, bw, hfor, h31, hputs, hmiss⟩ := lzcMiss_drives hd he hc hnew
  refine ⟨w, out, bw, hfor, h31, hputs, fun y hrestart s u => ?_⟩
  have hlegal : legalCursor x.d x.e.cur = true := by rw [hcur, legalCursor_code_iff]; exact hc
  have hedge : x.d.childOf x.e.cur b = none := by rw [hcur]; exact hnew
  rw [lzcByte, readLe_some rfl rfl, ldHasnext_entry rfl rfl hlegal, Eff.bind_ok, readLd_some rfl rfl]
  simp only [hedge]
  rw [hcur]
  exact hmiss.bind hrestart s u

/-- The encoder that restarts at the byte `b`, with its misses counted (R98, R99). -/
def Encoder.restartAt (x : Encoder) (b : Byte) (misses : Nat) : Encoder := { x with e := x.e.restartAt b misses }

/-- The encoder after a reset at the byte `b` (R101). -/
def Encoder.afterReset (x : Encoder) (b : Byte) : Encoder :=
  { x with
    d := { x.d with child := [], next := Config.firstCode }
    e := x.e.afterReset b
    resets := x.e.resets + 1 }

theorem lzcReset_drives {x : Encoder} (hw : x.e.width ≤ 32) (b : Byte) :
    ∃ out bw, Puts x.out x.bw (bitsMsb x.e.width (resetCode x.e.width)) out bw ∧
      Drives (lzcReset b) x ((x.wrote x.e.width out bw).afterReset b) := by
  obtain ⟨out, bw, hputs, hwrite⟩ := writeBits_drives hw (resetCode x.e.width) x
  refine ⟨out, bw, hputs, fun s u => ?_⟩
  rw [lzcReset, readLe_some rfl rfl, hwrite s u]
  rfl

/-- A miss is counted that makes a reset due (R99, R100). -/
def Encoder.ResetFollows (x : Encoder) (b : Byte) : Prop :=
  x.d.full = true ∧ (x.restartAt b (x.e.misses + 1)).e.resetDue = true

theorem lzcRestart_withEncoder (s : State) (u : Units) (x : Encoder) (b : Byte) : lzcRestart b (s.withEncoder u x) =
    if x.d.full then
      if (x.restartAt b (x.e.misses + 1)).e.resetDue then lzcReset b (s.withEncoder u (x.restartAt b (x.e.misses + 1)))
      else .ok () (s.withEncoder u (x.restartAt b (x.e.misses + 1)))
    else .ok () (s.withEncoder u (x.restartAt b x.e.misses)) := rfl

theorem lzcRestart_drives {x : Encoder} {b : Byte} (h : ¬ x.ResetFollows b) :
    Drives (lzcRestart b) x (x.restartAt b (if x.d.full then x.e.misses + 1 else x.e.misses)) := fun s u => by
  rw [lzcRestart_withEncoder]
  by_cases hfull : x.d.full = true
  · rw [if_pos hfull, if_pos hfull, if_neg fun hdue => h ⟨hfull, hdue⟩]
  · rw [if_neg hfull, if_neg hfull]

theorem lzcRestart_drives_reset {x : Encoder} {b : Byte} (h : x.ResetFollows b) (hw : x.e.width ≤ 32) :
    ∃ out bw, Puts x.out x.bw (bitsMsb x.e.width (resetCode x.e.width)) out bw ∧
      Drives (lzcRestart b) x ((x.wrote x.e.width out bw).afterReset b) := by
  obtain ⟨out, bw, hputs, hreset⟩ := lzcReset_drives (x := x.restartAt b (x.e.misses + 1)) hw b
  obtain ⟨hfull, hdue⟩ := h
  refine ⟨out, bw, hputs, fun s u => ?_⟩
  rw [lzcRestart_withEncoder, if_pos hfull, if_pos hdue]
  exact hreset s u

end Sys2Proof.Machine
end

section

/-! ## The commands of the LZW encoder (R96 to R102)

Each command is one part of `Drives` in the frame of a unit command, or it raises before it changes anything. -/

namespace Sys2Proof.Machine

/-! ### LZC_INIT (R96) -/

theorem lzcInit_illegal {W : BitVec 5} {p : BitVec 7} (h : W.toNat < 9 ∨ 100 < p.toNat) (m : BitVec 32) (s : State) :
    lzcInit W p m s = .raised .configurationError s := by
  have hlegal : (!legalMaxWidth W.toNat || !legalPct p) = true := by
    rcases h with hW | hp
    · simp [legalMaxWidth, hW]
    · simp [legalPct, hp]
  rw [lzcInit, if_pos hlegal]

theorem exec_lzcInit_illegal {s : State} (hs : s.stat.phase ≠ .busy) {W : BitVec 5} {p : BitVec 7}
    (h : W.toNat < 9 ∨ 100 < p.toNat) (m : BitVec 32) :
    exec (.lzcInit W p m) s = .next (raisedClean s .configurationError) :=
  exec_unit_raises rfl hs (noResult_raised (lzcInit_illegal h m (startUnit s)))

/-- The encoder's part after LZC_INIT. -/
def State.initialEncoder (s : State) (u : Units) (W : BitVec 5) (p : BitVec 7) (m : BitVec 32) : Encoder where
  out := s.out
  bw := u.bw
  total := s.stat.total
  resets := 0
  d := { child := [], next := Config.firstCode, W := W.toNat, last := lastCodeAt W.toNat }
  e := { cur := .root, width := Config.initWidth, hits := 0, misses := 0, resets := 0, pct := p, mins := m }

theorem lzcInit_initial {s : State} {u : Units} (hu : s.units = some u) {W : BitVec 5} {p : BitVec 7}
    (hW : 9 ≤ W.toNat) (hp : p.toNat ≤ 100) (m : BitVec 32) :
    lzcInit W p m s = .ok () (s.withEncoder u (s.initialEncoder u W p m)) := by
  rw [lzcInit_legal hW hp, setLd_some hu, setLe, mapUnits_some rfl]
  rfl

theorem exec_lzcInit_legal {s : State} {u : Units} (hready : Ready s u) {W : BitVec 5} {p : BitVec 7}
    (hW : 9 ≤ W.toNat) (hp : p.toNat ≤ 100) (m : BitVec 32) :
    exec (.lzcInit W p m) s = .next (s.settled.withEncoder u (s.initialEncoder u W p m)) :=
  exec_unit_ok (i := .lzcInit W p m) rfl hready.1 (noResult_ok (lzcInit_initial (s := startUnit s) hready.2 hW hp m))

/-- Settles O42: legal operands lead to one write of `LD` and `LE`, illegal ones are refused before a unit is touched. -/
theorem lzcInitStartsTheEncoder : Obligations.LzcInitStartsTheEncoder := by
  unfold Obligations.LzcInitStartsTheEncoder
  exact ⟨fun _ _ _ _ m hready hW hp => exec_lzcInit_legal hready hW hp m,
    fun _ _ _ m hs hbad => exec_lzcInit_illegal hs hbad m⟩

/-! ### Commands that the encoder's part decides -/

section
variable {s : State} {u : Units} {d : LzwDict} {e : LzwEnc} (hready : Ready s u) (hd : u.ld = some d)
  (he : u.le = some e) {i : Instr} {body : State → Eff Unit} (hi : isHostCommand i = false)
  (hbody : instrBody i = noResult body)
include hready hd he hi hbody

theorem exec_encoder {y : Encoder} (h : Drives body (s.encoder u d e) y) :
    exec i s = .next (s.settled.withEncoder u y) := by
  have hexec := exec_of_drives hi hbody h (s := s) hready.1 u
  rwa [State.withEncoder_encoder hready.2 hd he] at hexec

/-- A command that leaves `LD`. -/
theorem exec_encoder_same_ld {y : Encoder} (h : Drives body (s.encoder u d e) y) (hy : y.d = d) :
    exec i s = .next { completed s .none (some { u with bw := y.bw, le := some y.e }) with
      out := y.out
      stat := { phase := .done, err := .none, total := y.total, resets := y.resets } } := by
  rw [exec_encoder hready hd he hi hbody h, State.withEncoder, hy, ← hd]
  rfl

/-- A command that does what LZC_EMIT does for the code of an entry (R97, R102). -/
theorem exec_emits {c : Nat} (hb : u.bw.Inv) (hdi : d.Inv) (hei : e.Inv) (hc : c < d.next)
    (hsame : ∀ y, Drives (lzcEmit (.code c)) (s.encoder u d e) y → Drives body (s.encoder u d e) y) :
    ∃ (w : Nat) (out : Bytes) (bw : BitWriter), WidthFor e.width c w ∧ w ≤ 31 ∧ bw.Inv ∧
      bw.total = u.bw.total + (emission e.width c w).length ∧
      writtenBits out bw = writtenBits s.out u.bw ++ emission e.width c w ∧
      exec i s = .next { completed s .none (some { u with bw := bw, le := some { e with width := w } }) with
        out := out
        stat := { phase := .done, err := .none, total := bw.total, resets := s.stat.resets } } := by
  obtain ⟨w, out, bw, hfor, h31, hputs, hemit⟩ := lzcEmit_drives (x := s.encoder u d e) hdi hei hc
  obtain ⟨hinv, htotal, hbits⟩ := hputs hb
  exact ⟨w, out, bw, hfor, h31, hinv, htotal, hbits,
    exec_encoder_same_ld hready hd he hi hbody (hsame _ hemit) rfl⟩

end

/-! ### LZC_EMIT and LZC_FINISH (R97, R102) -/

theorem lzcEmit_no_entry {s : State} {u : Units} {d : LzwDict} (hu : s.units = some u) (hd : u.ld = some d)
    {c : Cursor} (hc : entryCode d c = none) : lzcEmit c s = .raised .badOperand s := by
  rw [lzcEmit, readLd_some hu hd, hc]

/-- Settles O43: the loop of R97, for a code that is checked against the dictionary first. -/
theorem lzcEmitGrowsThenWrites : Obligations.LzcEmitGrowsThenWrites := by
  unfold Obligations.LzcEmitGrowsThenWrites
  intro s u d e hready hd he
  have hraise : ∀ c, entryCode d c = none → exec (.lzcEmit c) s = .next (raisedClean s .badOperand) := fun c hc =>
    exec_unit_raises rfl hready.1 (noResult_raised (lzcEmit_no_entry (s := startUnit s) hready.2 hd hc))
  exact ⟨hraise .root rfl, fun c hc => hraise (.code c) (entryCode_unassigned hc),
    fun hb hdi hei c hc => exec_emits hready hd he rfl rfl hb hdi hei hc fun _ h => h⟩

section
variable {s : State} {u : Units} {e : LzwEnc} (hu : s.units = some u) (he : u.le = some e)
include hu he

theorem lzcFinish_root (hcur : e.cur = .root) : lzcFinish s = .ok () s := by
  rw [lzcFinish, readLe_some hu he, hcur]

theorem lzcFinish_code {c : Nat} (hcur : e.cur = .code c) : lzcFinish s = lzcEmit (.code c) s := by
  rw [lzcFinish, readLe_some hu he, hcur]

end

/-- Settles O47: off the root, LZC_FINISH is LZC_EMIT of the cursor. -/
theorem lzcFinishWritesTheLastCode : Obligations.LzcFinishWritesTheLastCode := by
  unfold Obligations.LzcFinishWritesTheLastCode
  intro s u e hready he
  refine ⟨fun hcur => ?_, fun d c hd hcur hc => ?_, fun d c hb hd hdi hei hcur hc => ?_⟩
  · rw [← hready.2]
    exact exec_unit_ok (i := .lzcFinish) rfl hready.1
      (noResult_ok (lzcFinish_root (s := startUnit s) hready.2 he hcur))
  · refine exec_unit_raises rfl hready.1 (noResult_raised ?_)
    rw [lzcFinish_code (s := startUnit s) hready.2 he hcur]
    exact lzcEmit_no_entry (s := startUnit s) hready.2 hd (entryCode_unassigned hc)
  · exact exec_emits hready hd he (i := .lzcFinish) rfl rfl hb hdi hei hc fun y h r v =>
      (lzcFinish_code (s := r.withEncoder v _) rfl rfl hcur).trans (h r v)

/-! ### LZC_BYTE (R98 to R101) -/

theorem lzcByte_no_entry {s : State} {u : Units} {d : LzwDict} {e : LzwEnc} (hu : s.units = some u)
    (hd : u.ld = some d) (he : u.le = some e) (hcur : legalCursor d e.cur = false) (b : Byte) :
    lzcByte b s = .raised .badOperand s := by
  rw [lzcByte, readLe_some hu he, ldHasnext_no_entry hu hd hcur, Eff.bind_raised]

/-- Settles O44: the edge leads to the new cursor; the cursor is checked first. -/
theorem lzcByteExtendsTheMatch : Obligations.LzcByteExtendsTheMatch := by
  unfold Obligations.LzcByteExtendsTheMatch
  refine ⟨fun s u d e b c hready hd he hcur hc => ?_, fun s u d e b n hready hd he hedge => ?_⟩
  · have hlegal : legalCursor d e.cur = false := by rw [hcur, legalCursor_unassigned hc]
    exact exec_unit_raises rfl hready.1
      (noResult_raised (lzcByte_no_entry (s := startUnit s) hready.2 hd he hlegal b))
  · have hchild : legalCursor d e.cur = true ∧ d.childOf e.cur b = some n := by
      rcases hedge with ⟨hcur, rfl⟩ | ⟨c, hcur, hc, hn⟩ <;> rw [hcur]
      · exact ⟨rfl, rfl⟩
      · exact ⟨(legalCursor_code_iff d c).2 hc, hn⟩
    have hexec := exec_encoder_same_ld hready hd he (i := .lzcByte b) rfl rfl
      (lzcByte_drives_edge (x := s.encoder u d e) hchild.1 hchild.2) rfl
    rw [hexec]
    simp only [State.encoder, LzwDict.full_iff]
    rfl

theorem LzwEnc.resetDue_iff (e : LzwEnc) : e.resetDue = true ↔
    e.hits + e.misses > e.mins.toNat ∧ 100 * e.misses > e.pct.toNat * (e.hits + e.misses) := by
  rw [LzwEnc.resetDue, Bool.and_eq_true, decide_eq_true_iff, decide_eq_true_iff]

theorem Encoder.resetFollows_missed {x : Encoder} {c : Nat} {b : Byte} {w : Nat} {out : Bytes} {bw : BitWriter} :
    (x.missed c b w out bw).ResetFollows b ↔ (x.d.extend c b).last < (x.d.extend c b).next ∧
      x.e.hits + (x.e.misses + 1) > x.e.mins.toNat ∧
      100 * (x.e.misses + 1) > x.e.pct.toNat * (x.e.hits + (x.e.misses + 1)) :=
  and_congr LzwDict.full_iff (LzwEnc.resetDue_iff _)

/-- Settles O45: LZC_EMIT, LD_ADD and the restart, one after the other. -/
theorem lzcByteWritesAndRegisters : Obligations.LzcByteWritesAndRegisters := by
  unfold Obligations.LzcByteWritesAndRegisters
  intro s u d e b c hready hb hd hdi he hei hcur hc hnew d' misses hnot
  have hextend : d' = d.extend c b := if_congr LzwDict.full_iff.symm rfl rfl
  obtain ⟨w, out, bw, hfor, h31, hputs, hbyte⟩ := lzcByte_drives_off (x := s.encoder u d e) hdi hei hcur hc hnew
  have hstay : ¬ ((s.encoder u d e).missed c b w out bw).ResetFollows b := by
    rw [Encoder.resetFollows_missed]
    rintro ⟨hfull, hdue⟩
    have hfull' : d'.next > d'.last := by rw [hextend]; exact hfull
    refine hnot ⟨hfull', ?_⟩
    simp only [misses, if_pos hfull']
    exact hdue
  obtain ⟨hinv, htotal, hbits⟩ := hputs hb
  refine ⟨w, out, bw, hfor, h31, hinv, htotal, hbits, ?_⟩
  rw [exec_encoder hready hd he (i := .lzcByte b) rfl rfl (hbyte _ (lzcRestart_drives hstay))]
  have hmisses : misses = if (d.extend c b).full then e.misses + 1 else e.misses := by
    simp only [misses, hextend]
    exact if_congr LzwDict.full_iff.symm rfl rfl
  rw [hmisses, hextend]
  rfl

/-- Registering keeps what a reset keeps (R93, R94). -/
theorem LzwDict.extend_emptied (d : LzwDict) (c : Nat) (b : Byte) :
    ({ d.extend c b with child := [], next := Config.firstCode } : LzwDict) =
      { d with child := [], next := Config.firstCode } := by
  unfold LzwDict.extend
  split <;> rfl

/-- A dictionary with room for no more than one entry is full once it is extended. -/
theorem LzwDict.extend_now_full {d : LzwDict} (h : d.last ≤ d.next) (c : Nat) (b : Byte) :
    (d.extend c b).last < (d.extend c b).next := by
  rcases Nat.lt_or_ge d.last d.next with hfull | hroom
  · rwa [LzwDict.extend_full hfull]
  · rw [LzwDict.extend_room hroom]
    exact Nat.lt_succ_of_le h

/-- Settles O46: the same, with the RESET code after the plain code. -/
theorem lzcByteResetsWhenDue : Obligations.LzcByteResetsWhenDue := by
  unfold Obligations.LzcByteResetsWhenDue
  intro s u d e b c hready hb hd hdi he hei hcur hc hnew hlast hmins hpct
  obtain ⟨w, out, bw, hfor, h31, hputs, hbyte⟩ := lzcByte_drives_off (x := s.encoder u d e) hdi hei hcur hc hnew
  have hfollows : ((s.encoder u d e).missed c b w out bw).ResetFollows b :=
    Encoder.resetFollows_missed.2 ⟨LzwDict.extend_now_full hlast c b, hmins, hpct⟩
  obtain ⟨out', bw', hputs', hreset⟩ := lzcRestart_drives_reset hfollows (h31.trans (by decide))
  obtain ⟨hinv, htotal, hbits⟩ := hputs.trans hputs' hb
  refine ⟨w, out', bw', hfor, h31, hinv, ?_, ?_, ?_⟩
  · rw [htotal, List.length_append, bitsMsb_length, ← Nat.add_assoc]
    rfl
  · rw [hbits, ← List.append_assoc]
    rfl
  · rw [exec_encoder hready hd he (i := .lzcByte b) rfl rfl (hbyte _ hreset)]
    have hempty := d.extend_emptied c b
    simp only [State.withEncoder, Encoder.afterReset, Encoder.wrote, Encoder.missed, State.encoder, hempty]
    rfl

end Sys2Proof.Machine
end

section

/-! ## LZW_COMPRESS is its unit commands, one after the other (R69, R103)

After LZC_INIT nothing raises: the cursor names an entry, and the dictionary and the encoder meet their invariants. So each
of the other commands drives the encoder's part, in its own frame as inside LZW_COMPRESS. -/

namespace Sys2Proof.Machine

/-! ### An encoder that can go on (R95, R97, R98) -/

structure Encoder.Running (x : Encoder) : Prop where
  dict : x.d.Inv
  enc : x.e.Inv
  cursor : legalCursor x.d x.e.cur = true

theorem LzwDict.Inv.legalCursor_byte {d : LzwDict} (h : d.Inv) (b : Byte) : legalCursor d (.code b.toNat) = true :=
  (legalCursor_code_iff d _).2 (h.byte_lt_next b)

/-- From every running encoder, `body` completes with a running encoder. -/
def KeepsRunning (body : State → Eff Unit) : Prop :=
  ∀ x : Encoder, x.Running → ∃ y : Encoder, Drives body x y ∧ y.Running

theorem Encoder.Running.wrote {x : Encoder} (h : x.Running) {w : Nat} (hw : 9 ≤ w ∧ w ≤ 31) (out : Bytes)
    (bw : BitWriter) : (x.wrote w out bw).Running := ⟨h.dict, ⟨hw, h.enc.pct⟩, h.cursor⟩

theorem keepsRunning_writeBits {n : Nat} (hn : n ≤ 32) (v : Nat) : KeepsRunning (writeBits n v) := fun x h => by
  obtain ⟨out, bw, -, hdrives⟩ := writeBits_drives hn v x
  exact ⟨_, hdrives, h.wrote h.enc.width out bw⟩

theorem keepsRunning_flush : KeepsRunning flush := fun x h => by
  obtain ⟨out, bw, hdrives⟩ := flush_drives x
  exact ⟨_, hdrives, h.dict, h.enc, h.cursor⟩

theorem keepsRunning_lzcFinish : KeepsRunning lzcFinish := fun x h => by
  cases hcur : x.e.cur with
  | root => exact ⟨x, fun s u => lzcFinish_root rfl rfl hcur, h⟩
  | code c =>
    have hc : c < x.d.next := (legalCursor_code_iff x.d c).1 (hcur ▸ h.cursor)
    obtain ⟨w, out, bw, hfor, h31, -, hemit⟩ := lzcEmit_drives h.dict h.enc hc
    exact ⟨_, fun s u => (lzcFinish_code rfl rfl hcur).trans (hemit s u),
      h.wrote ⟨h.enc.width.1.trans hfor.1, h31⟩ out bw⟩

/-- The restart needs no cursor, for it sets one. -/
theorem lzcRestart_keepsRunning {x : Encoder} (hd : x.d.Inv) (he : x.e.Inv) (b : Byte) :
    ∃ y : Encoder, Drives (lzcRestart b) x y ∧ y.Running := by
  by_cases hreset : x.ResetFollows b
  · obtain ⟨out, bw, -, hdrives⟩ := lzcRestart_drives_reset hreset (he.width.2.trans (by decide))
    exact ⟨_, hdrives, hd.reset, ⟨initWidth_legal, he.pct⟩, hd.reset.legalCursor_byte b⟩
  · exact ⟨_, lzcRestart_drives hreset, hd, ⟨he.width, he.pct⟩, hd.legalCursor_byte b⟩

theorem LzwDict.Inv.legalCursor_childOf {d : LzwDict} (h : d.Inv) {c : Cursor} {b : Byte} {n : Nat}
    (hn : d.childOf c b = some n) : legalCursor d (.code n) = true := by
  cases c with
  | root => obtain rfl := Option.some.inj hn; exact h.legalCursor_byte b
  | code c => exact (legalCursor_code_iff d n).2 (h.code_of_mem (mem_of_edgeAt hn)).2

theorem keepsRunning_lzcByte (b : Byte) : KeepsRunning (lzcByte b) := fun x h => by
  cases hedge : x.d.childOf x.e.cur b with
  | some n =>
    exact ⟨_, lzcByte_drives_edge h.cursor hedge, h.dict, ⟨h.enc.width, h.enc.pct⟩, h.dict.legalCursor_childOf hedge⟩
  | none =>
    cases hcur : x.e.cur with
    | root => rw [hcur] at hedge; cases hedge
    | code c =>
      have hc : c < x.d.next := (legalCursor_code_iff x.d c).1 (hcur ▸ h.cursor)
      have hnew : edgeAt (c, b) x.d.child = none := by rw [hcur] at hedge; exact hedge
      obtain ⟨w, out, bw, hfor, h31, -, hbyte⟩ := lzcByte_drives_off h.dict h.enc hcur hc hnew
      obtain ⟨y, hrestart, hy⟩ := lzcRestart_keepsRunning (x := x.missed c b w out bw) (h.dict.extend hc hnew)
        ⟨⟨h.enc.width.1.trans hfor.1, h31⟩, h.enc.pct⟩ b
      exact ⟨y, hbyte y hrestart, hy⟩

theorem State.initialEncoder_running (s : State) (u : Units) {W : BitVec 5} {p : BitVec 7} (hW : 9 ≤ W.toNat)
    (hp : p.toNat ≤ 100) (m : BitVec 32) : (s.initialEncoder u W p m).Running :=
  ⟨LzwDict.inv_init ⟨hW, Nat.le_of_lt_succ W.isLt⟩ rfl, ⟨initWidth_legal, hp⟩, rfl⟩

/-! ### The commands after LZC_INIT (R103) -/

/-- The body of a command of LZW_COMPRESS after LZC_INIT. -/
def encoderBody : Instr → State → Eff Unit
  | .bwWrite n v => writeBits n.toNat v.toNat
  | .bwFlush => flush
  | .lzcByte b => lzcByte b
  | .lzcFinish => lzcFinish
  | _ => fun s => .ok () s

/-- A command that is `encoderBody` in the frame of a unit command, and keeps a running encoder running. -/
structure EncoderStep (i : Instr) : Prop where
  unit : isHostCommand i = false
  body : instrBody i = noResult (encoderBody i)
  keeps : KeepsRunning (encoderBody i)

/-- The commands of LZW_COMPRESS after LZC_INIT, for the maximum width `W` and the input `input`. -/
def encoderSteps (W : BitVec 5) (input : Bytes) : List Instr :=
  (magicBytes Config.lzwMagic).map (fun b => .bwWrite 8 (b.setWidth 32)) ++ [.bwWrite 5 (W.setWidth 32)] ++
    input.map .lzcByte ++ [.lzcFinish, .bwFlush]

theorem lzwCompressSteps_eq (c : Cfg) (input : Bytes) :
    lzwCompressSteps c input = .lzcInit c.maxw c.pct c.mins :: encoderSteps c.maxw input := rfl

theorem encoderStep_of_mem {W : BitVec 5} {input : Bytes} {i : Instr} (h : i ∈ encoderSteps W input) :
    EncoderStep i := by
  have hwrite : ∀ (n : BitVec 6) (v : BitVec 32), n.toNat ≤ 32 → EncoderStep (.bwWrite n v) := fun n v hn =>
    ⟨rfl, rfl, keepsRunning_writeBits hn v.toNat⟩
  simp only [encoderSteps, List.mem_append, List.mem_map, List.mem_cons, List.not_mem_nil, or_false] at h
  rcases h with ((⟨b, -, rfl⟩ | rfl) | ⟨b, -, rfl⟩) | rfl | rfl
  · exact hwrite _ _ (by decide)
  · exact hwrite _ _ (by decide)
  · exact ⟨rfl, rfl, keepsRunning_lzcByte b⟩
  · exact ⟨rfl, rfl, keepsRunning_lzcFinish⟩
  · exact ⟨rfl, rfl, keepsRunning_flush⟩

theorem execAll_cons {i : Instr} {s t : State} (h : exec i s = .next t) (hdone : t.stat.phase ≠ .failed)
    (is : List Instr) : execAll (i :: is) s = execAll is t := by
  rw [execAll, h]
  exact if_neg hdone

/-- Such commands, one after the other, do to the encoder's part what their bodies do in one command. -/
theorem encoderSteps_run (is : List Instr) (hall : ∀ i ∈ is, EncoderStep i) {x : Encoder} (hx : x.Running) :
    ∃ y : Encoder, Drives (forEach encoderBody is) x y ∧
      ∀ (s : State) (u : Units), execAll is (s.settled.withEncoder u x) = .next (s.settled.withEncoder u y) := by
  induction is generalizing x with
  | nil => exact ⟨x, fun _ _ => rfl, fun _ _ => rfl⟩
  | cons i is ih =>
    obtain ⟨hi, hrest⟩ := List.forall_mem_cons.1 hall
    obtain ⟨y, hstep, hy⟩ := hi.keeps x hx
    obtain ⟨z, hbodies, hexec⟩ := ih hrest hy
    refine ⟨z, hstep.bind hbodies, fun s u => ?_⟩
    have hfirst : exec i (s.settled.withEncoder u x) = .next (s.settled.withEncoder u y) :=
      exec_of_drives hi.unit hi.body hstep (s := s.settled) nofun u
    exact (execAll_cons hfirst nofun is).trans (hexec s u)

/-! ### LZW_COMPRESS (R103) -/

theorem forEach_map {α β : Type} (g : α → β) (f : β → State → Eff Unit) (as : List α) (s : State) :
    forEach f (as.map g) s = forEach (fun a => f (g a)) as s := by
  induction as generalizing s with
  | nil => rfl
  | cons a as ih =>
    rw [List.map_cons, forEach_cons, forEach_cons]
    congr 1
    funext _ t
    exact ih t

theorem Eff.bind_done (r : Eff Unit) : (r.bind fun _ s => .ok () s) = r := by cases r <;> rfl

/-- The commands after LZC_INIT have the bodies that LZW_COMPRESS runs there. -/
theorem forEach_encoderSteps (W : BitVec 5) (input : Bytes) (s : State) :
    forEach encoderBody (encoderSteps W input) s =
      (writeMagic Config.lzwMagic s).bind fun _ s => (writeBits Config.widthFieldBits W.toNat s).bind fun _ s =>
      (forEach lzcByte input s).bind fun _ s => (lzcFinish s).bind fun _ s => flush s := by
  have hmagic : (fun b : Byte => encoderBody (.bwWrite 8 (b.setWidth 32))) = fun b s => writeBits 8 b.toNat s := by
    funext b t
    change writeBits 8 (b.setWidth 32).toNat t = _
    rw [BitVec.toNat_setWidth_of_le (by decide)]
  have hwidth : encoderBody (.bwWrite 5 (W.setWidth 32)) = writeBits Config.widthFieldBits W.toNat := by
    change writeBits 5 (W.setWidth 32).toNat = _
    rw [BitVec.toNat_setWidth_of_le (by decide)]
    rfl
  simp only [encoderSteps, forEach_append, forEach_map, forEach_cons, forEach_nil, hmagic, hwidth, Eff.bind_assoc,
    Eff.bind_done]
  rfl

/-- What follows a quiet part finds the input that the part found. -/
theorem Eff.bind_congr_input {s : State} {r : Eff Unit} (hr : r.Quiet s) {k l : Unit → State → Eff Unit}
    (h : ∀ t, t.input = s.input → k () t = l () t) : r.bind k = r.bind l := by
  cases r with
  | ok _ t => exact h t (Quiet.input hr)
  | raised _ _ => rfl
  | stuck _ => rfl

/-- LZC_INIT with legal operands, then the commands that follow it. -/
theorem lzwCompress_legal {s : State} {u : Units} {c : Cfg} (hu : s.units = some u) (hcfg : s.cfg = some c)
    (hcfgReady : s.cfgReady = true) (hc : c.Inv) :
    lzwCompress s = forEach encoderBody (encoderSteps c.maxw s.input)
      (s.withEncoder u (s.initialEncoder u c.maxw c.pct c.mins)) := by
  rw [lzwCompress, readCfg_ready hcfgReady hcfg, lzwCompressWith, lzcInit_initial hu hc.1 hc.2, Eff.bind_ok,
    forEach_encoderSteps]
  refine Eff.bind_congr_input (quiet_writeMagic _ _) fun t ht => Eff.bind_congr_input (quiet_writeBits _ _ t) fun r hr => ?_
  rw [hr, ht]
  rfl

theorem exec_lzwCompress_legal {s : State} {u : Units} {c : Cfg} (hready : Ready s u) (hcfg : s.cfg = some c)
    (hcfgReady : s.cfgReady = true) (hc : c.Inv) :
    exec .lzwCompress s = execAll (lzwCompressSteps c s.input) s := by
  obtain ⟨y, hbodies, hexec⟩ := encoderSteps_run (encoderSteps c.maxw s.input) (fun _ => encoderStep_of_mem)
    (s.initialEncoder_running u hc.1 hc.2 c.mins)
  have hbody : lzwCompress (startUnit s) = .ok () ((startUnit s).withEncoder u y) :=
    (lzwCompress_legal (s := startUnit s) hready.2 hcfg hcfgReady hc).trans (hbodies (startUnit s) u)
  rw [exec_unit_ok (i := .lzwCompress) rfl hready.1 (noResult_ok hbody), lzwCompressSteps_eq,
    execAll_cons (exec_lzcInit_legal hready hc.1 hc.2 c.mins) nofun, hexec s u]
  rfl

theorem exec_lzwCompress_illegal {s : State} {c : Cfg} (hs : s.stat.phase ≠ .busy) (hcfg : s.cfg = some c)
    (hcfgReady : s.cfgReady = true) (hc : c.maxw.toNat < 9 ∨ 100 < c.pct.toNat) :
    exec .lzwCompress s = .next (raisedClean s .configurationError) := by
  refine exec_unit_raises rfl hs (noResult_raised ?_)
  rw [lzwCompress, readCfg_ready (s := startUnit s) hcfgReady hcfg, lzwCompressWith, lzcInit_illegal hc, Eff.bind_raised]

/-- Settles O48: LZC_INIT refuses the configuration in both runs, or the commands after it drive the encoder's part in the
same way. -/
theorem lzwCompressRunsTheByteLoop : Obligations.LzwCompressRunsTheByteLoop := by
  unfold Obligations.LzwCompressRunsTheByteLoop
  intro s u c hready hcfg hcfgReady
  refine ⟨?_, exec_lzwCompress_illegal hready.1 hcfg hcfgReady⟩
  by_cases hc : c.maxw.toNat < 9 ∨ 100 < c.pct.toNat
  · rw [exec_lzwCompress_illegal hready.1 hcfg hcfgReady hc, lzwCompressSteps_eq, execAll,
      exec_lzcInit_illegal hready.1 hc]
    rfl
  · rw [not_or, Nat.not_lt, Nat.not_lt] at hc
    exact exec_lzwCompress_legal hready hcfg hcfgReady hc

end Sys2Proof.Machine
end

section

/-! ## DECOMPRESS of an LZW file returns the input (R64, R109, R111 to R113) -/

namespace Sys2Proof.Machine

/-- COMPRESS with legal operands stores them, runs the steps of LZW_COMPRESS and makes CFG readable (R111). -/
theorem compress_lzw {W : BitVec 5} {p : BitVec 7} (hW : 9 ≤ W.toNat) (hp : p.toNat ≤ 100) (m : BitVec 32)
    (s : State) : compress .lzw W p m s =
      (lzwCompressWith ⟨.lzw, W, p, m⟩ (s.withCfg (some ⟨.lzw, W, p, m⟩))).bind fun _ s =>
        .ok () (s.withCfgReady true) := by
  rw [compress, if_neg (by simp [(legalMaxWidth_iff _).2 hW, (legalPct_iff _).2 hp])]

/-- The bits of an LZW file of the bytes `x`, with the maximum width `W` (R64). -/
def IsLzwFile (W : Nat) (x : Bytes) (bits : Bits) : Prop := ∃ stream pad : Bits, IsStream W stream x ∧ pad.length < 8 ∧
  bits = bitsMsb 32 Config.lzwMagic.toNat ++ (bitsMsb 5 W ++ stream ++ pad)

theorem padBits_length_lt (k : Nat) : (padBits k).length < 8 := by
  rw [padBits, List.length_replicate]
  exact Nat.mod_lt _ (by decide)

/-- START leaves nothing pending, so the file begins where OUT does. -/
theorem isLzwFile_from_start {W : Nat} {x : Bytes} {stream pad : Bits} (h : IsStream W stream x)
    (hpad : pad.length < 8) : IsLzwFile W x (lzwFileBits (writtenBits [] Units.start.bw) W stream ++ pad) := by
  have hstart : writtenBits [] Units.start.bw = [] := rfl
  refine ⟨stream, pad, h, hpad, ?_⟩
  simp only [lzwFileBits, hstart, List.nil_append, List.append_assoc]

/-- COMPRESS with LZW writes the file of its input. -/
theorem exec_compress_lzw {s : State} {W : BitVec 5} {p : BitVec 7} (hs : s.stat.phase ≠ .busy) (hW : 9 ≤ W.toNat)
    (hp : p.toNat ≤ 100) (m : BitVec 32) :
    ∃ t : State, exec (.compress .lzw W p m) s = .next t ∧ t.stat.phase = .done ∧
      t.cfg = some { algo := .lzw, maxw := W, pct := p, mins := m } ∧ t.cfgReady = true ∧
      IsLzwFile W.toNat s.input (bitsOfBytes t.out) := by
  obtain ⟨stream, out, d, e, hstream, -, hout, hrun⟩ := lzwCompressWith_ok (c := ⟨.lzw, W, p, m⟩) ⟨hW, hp⟩
    (s := (startHost s).withCfg (some ⟨.lzw, W, p, m⟩)) rfl ⟨by decide, by decide⟩
  have hbody := compress_lzw hW hp m (startHost s)
  rw [hrun, Eff.bind_ok] at hbody
  refine ⟨_, exec_host_ok rfl hs (noResult_ok hbody), rfl, rfl, rfl, ?_⟩
  exact hout ▸ isLzwFile_from_start hstream (padBits_length_lt _)

/-- DECOMPRESS of an LZW file emits the bytes that it was made of (R109, R112). -/
theorem decompress_lzwFile {r : State} {W : Nat} (hW : 9 ≤ W ∧ W ≤ 31) {x : Bytes}
    (hfile : IsLzwFile W x (bitsOfBytes r.input)) :
    ∃ res z, decompress (startHost r) = .ok () ((pastMagic r).decoded (Units.start.skip 32) x z res) := by
  obtain ⟨stream, pad, ⟨y, hdec, hdone, h9, h31⟩, hpad, hbits⟩ := hfile
  have hahead : bitsAhead (startHost r) Units.start = _ := (bitsAhead_start r).trans hbits
  have hmagic : readMagic (startHost r) = .ok _ (pastMagic r) := readMagic_next (startHost_units r) hahead
  obtain ⟨res, z, -, hrun⟩ := lzwDecompress_ok hW hdec hdone (by omega) (by omega : pad.length < y.width)
    (s := pastMagic r) (u := Units.start.skip 32) rfl (bitsAhead_skip_bitsMsb hahead)
  simp only [decompress, hmagic, Eff.bind_ok, classifyMagic_lzw]
  exact ⟨res, z, hrun⟩

/-- Settles O60: COMPRESS writes an LZW file of the input, and DECOMPRESS emits what such a file was made of. -/
theorem lzwFileRoundTrip : Obligations.LzwFileRoundTrip := by
  unfold Obligations.LzwFileRoundTrip
  intro s W p m hs hW hp
  obtain ⟨t, hexec, hdone, hcfg, hready, hfile⟩ := exec_compress_lzw hs hW hp m
  refine ⟨t, hexec, hdone, hcfg, hready, fun r hr hinput => ?_⟩
  obtain ⟨res, z, hrun⟩ := decompress_lzwFile ⟨hW, Nat.le_of_lt_succ W.isLt⟩ (r := r) (hinput ▸ hfile)
  exact ⟨_, exec_host_ok rfl hr (noResult_ok hrun), rfl, rfl, rfl⟩

end Sys2Proof.Machine
end

section

/-! ## LZD_INIT, and LZD_CODE on one code word (R65, R105 to R107, R130) -/

namespace Sys2Proof.Machine

/-! ### LZD_INIT (R105) -/

/-- A width field below 9. -/
theorem lzdInit_illegal {s : State} {u : Units} {W : Nat} {rest : Bits} (hu : s.units = some u) (hW : W < 9)
    (hahead : bitsAhead s u = bitsMsb 5 W ++ rest) :
    lzdInit s = .raised .configurationError (s.withUnits (some (u.skip 5))) := by
  have hlegal : legalMaxWidth (W % 2 ^ Config.widthFieldBits) = false :=
    decide_eq_false (by simp only [Config.widthFieldBits]; omega)
  rw [lzdInit, readOrEnd_next (n := Config.widthFieldBits) (by decide) (by decide) hu hahead, Eff.bind_ok, hlegal]
  rfl

theorem endsShort_lzdInit {s : State} {u : Units} (hu : s.units = some u) (h : bitsLeft s u < 5) :
    EndsShort s (lzdInit s) :=
  endsShort_readOrEnd (by decide) (by decide) hu fun _ hleft => absurd h (Nat.not_lt.2 hleft)

/-- Settles O50: LZD_INIT reads the width field and then refuses it or starts the decoder, or the input ends in it. -/
theorem lzdInitReadsTheWidth : Obligations.LzdInitReadsTheWidth := by
  unfold Obligations.LzdInitReadsTheWidth
  rintro s u ⟨hs, hu⟩
  refine ⟨fun W rest hahead => ⟨fun hW => ?_, fun hW => ?_⟩, fun hshort => ?_⟩
  · have hinit := lzdInit_next (s := startUnit s) hu ⟨hW, Nat.le_of_lt_succ W.isLt⟩ hahead
    exact exec_unit_ok (i := .lzdInit) rfl hs (withResult_ok hinit)
  · have hinit := lzdInit_illegal (s := startUnit s) hu hW hahead
    exact exec_unit_raised (t := (startUnit s).withUnits (some (u.skip 5))) rfl hs (withResult_raised hinit) rfl
  · rw [bitsAhead_length] at hshort
    exact exec_unit_endsShort rfl hs ((endsShort_lzdInit (s := startUnit s) hu hshort).bind _)

/-! ### Fetching a code word (R65, R106, R130) -/

/-- A class's row runs the branch of its class (log entry 3). -/
theorem exec_codeWord (k : CodeWord) {s : State} (hs : s.stat.phase ≠ .busy) :
    exec k.instr s = finish (startUnit s) (actOn k (startUnit s)) := by
  cases k <;> exact exec_ready hs _

theorem LzwDec.Inv.width_le {x : LzwDec} (h : x.Inv) : x.width ≤ 31 := h.width.2.trans h.maxWidth.2

/-- LZD_CODE fetches the code word that is ahead and acts on its class. -/
theorem lzdCode_fetch {s : State} {u : Units} {x : LzwDec} {v : Nat} {rest : Bits} (hu : s.units = some u)
    (hx : u.lx = some x) (hinv : x.Inv) (hdone : x.done = false) (hv : v < 2 ^ x.width)
    (hahead : bitsAhead s u = bitsMsb x.width v ++ rest) :
    lzdCode s = actOn (classifyCode x.width v) (s.withUnits (some (u.skip x.width))) := by
  have h9 := hinv.width.1
  have h31 := hinv.width_le
  rw [lzdCode, readLx_some hu hx, hdone, if_neg (by decide), readBits_next (by omega) (by omega) hu hahead,
    Eff.bind_ok, Nat.mod_eq_of_lt hv]

theorem lzdCode_done {s : State} {u : Units} {x : LzwDec} (hu : s.units = some u) (hx : u.lx = some x)
    (hdone : x.done = true) : lzdCode s = .ok () (s.withRes .exhausted) := by
  rw [lzdCode, readLx_some hu hx, if_pos hdone]

/-- Settles O51: LZD_CODE is its class's row, started where the code word has been read; or there is none to read. -/
theorem lzdCodeFetchesAndActs : Obligations.LzdCodeFetchesAndActs := by
  unfold Obligations.LzdCodeFetchesAndActs
  rintro s u x ⟨hs, hu⟩ hx hinv
  refine ⟨fun hdone => ?_, fun hdone hshort => ?_, fun hdone v rest hv hahead => ?_⟩
  · have hbody := exec_unit_ok (i := .lzdCode) rfl hs (lzdCode_done (s := startUnit s) hu hx hdone)
    rw [hbody, ← hu]
    rfl
  · have h32 : x.width ≤ 32 := hinv.width_le.trans (by decide)
    rw [bitsAhead_length] at hshort
    exact exec_unit_ok (i := .lzdCode) rfl hs (lzdCode_short (s := startUnit s) hu hx hdone h32 hshort)
  · have hfetch := lzdCode_fetch (s := startUnit s) hu hx hinv hdone hv hahead
    calc exec .lzdCode s = finish (startUnit s) (lzdCode (startUnit s)) := exec_ready hs _
      _ = finish (startUnit s) (actOn _ ((startUnit s).withUnits (some (u.skip x.width)))) := congrArg _ hfetch
      _ = _ := (exec_codeWord _ (s := s.withUnits (some (u.skip x.width))) hs).symm

/-! ### LITERAL and REFERENCE (R106, R107) -/

/-- A code word's row, where its class's branch completes. -/
theorem exec_of_acts {k : CodeWord} {x y : LzwDec} {o : Bytes} (h : Acts k x o y) {s : State} {u : Units}
    (hready : Ready s u) (hx : u.lx = some x) :
    exec k.instr s = .next { completed s (.num (k.value x.width)) (some { u with lx := some y }) with
      out := s.out ++ o } := by
  obtain ⟨hs, hu⟩ := hready
  have hstart : (emitBytes o ((startUnit s).withRes (.num (k.value x.width)))).units = some u := hu
  rw [exec_codeWord k hs, h (startUnit s) u hu hx, setLx_some hstart]
  rfl

section
variable {x : LzwDec} {str : Bytes} (last : Bytes)

/-- The registration at the end of R106, where its test holds. -/
theorem register_enters (h : 1 < str.length ∧ str ∉ x.reg ∧ x.next ≤ x.lastCode) :
    ({ x with last := last } : LzwDec).register str = { x.enter str with last := last } := if_pos h

/-- The same, where its test fails. -/
theorem register_refuses (h : ¬ (1 < str.length ∧ str ∉ x.reg ∧ x.next ≤ x.lastCode)) :
    ({ x with last := last } : LzwDec).register str = { x with last := last } := if_neg h

end

/-- The last output with one more byte is long enough to be registered where there is one. -/
theorem one_lt_length_append_byte (last : Bytes) (b : Byte) : 1 < (last ++ [b]).length ↔ last ≠ [] := by
  rw [List.length_append, List.length_singleton, Nat.lt_add_left_iff_pos, List.length_pos_iff]

/-- Settles O53: the literal acts on the decoder, and the registration's test decides what is entered. -/
theorem lzwLiteralOutputsAndRegisters : Obligations.LzwLiteralOutputsAndRegisters := by
  unfold Obligations.LzwLiteralOutputsAndRegisters
  intro s u x b hready hx
  have hexec := exec_of_acts (acts_literal b x) hready hx
  rw [← one_lt_length_append_byte x.last b]
  refine ⟨fun hreg => ?_, fun hreg => ?_⟩
  · rwa [register_enters [b] hreg] at hexec
  · rwa [register_refuses [b] hreg] at hexec

/-- A reference that is not in the table needs a last output (R107). -/
theorem actOn_reference_unformed {s : State} {u : Units} {x : LzwDec} {c : Nat} (hu : s.units = some u)
    (hx : u.lx = some x) (hc : tableAt c x.table = none) (hlast : x.last = []) :
    actOn (.reference c) s = .raised .internalInvariantViolation (s.withRes (.num c)) := by
  rw [actOn, readLx_some hu hx]
  simp only [actReference, hc, hlast]
  rfl

/-- Settles O54: the reference is in the table, or is the entry being formed, or there is nothing to form it from. -/
theorem lzwReferenceOutputsAndRegisters : Obligations.LzwReferenceOutputsAndRegisters := by
  unfold Obligations.LzwReferenceOutputsAndRegisters
  intro s u x c hready hx
  refine ⟨fun y ys hc => ?_, fun y ys hc hlast => ?_, fun hc hlast => ?_⟩
  · have hexec := exec_of_acts (acts_reference_found hc) hready hx
    rw [List.take_succ_cons, List.take_zero] at hexec
    rw [← one_lt_length_append_byte x.last y]
    refine ⟨fun hreg => ?_, fun hreg => ?_⟩
    · rwa [register_enters (y :: ys) hreg] at hexec
    · rwa [register_refuses (y :: ys) hreg] at hexec
  · have hexec := exec_of_acts (acts_reference_formed hc hlast) hready hx
    have hlong : 1 < (y :: ys ++ [y]).length := (one_lt_length_append_byte _ y).2 (List.cons_ne_nil y ys)
    rw [hlast] at hexec
    refine ⟨fun hreg => ?_, fun hreg => ?_⟩
    · rwa [register_enters _ ⟨hlong, hreg⟩] at hexec
    · rwa [register_refuses _ fun h => hreg h.2] at hexec
  · have hraise := actOn_reference_unformed (s := startUnit s) hready.2 hx hc hlast
    exact exec_unit_raised (t := (startUnit s).withRes (.num c)) rfl hready.1 hraise rfl

end Sys2Proof.Machine
end

section

/-! ## LZW_DECOMPRESS is LZD_INIT and then LZD_CODE until LX.done or a raise (R69, R106, R108, R116)

A pass of the loop of R108 and the command LZD_CODE run one body, and the decoder's invariant is all that the loop needs of
the units: code words are then of 9 to 31 bits, so that the loop's bound is enough. -/

namespace Sys2Proof.Machine

/-! ### What a code word can do (R106, R107) -/

/-- The code word `k`, fetched by the decoder `x`, raises `e` before it sinks a byte. -/
def Raises (k : CodeWord) (x : LzwDec) (e : ErrKind) : Prop :=
  ∀ (s : State) (u : Units), s.units = some u → u.lx = some x →
    actOn k s = .raised e (s.withRes (.num (k.value x.width)))

theorem raises_grow {x : LzwDec} (h : x.W ≤ x.width) : Raises .grow x .corruptStream := by
  intro s u hu hx
  rw [actOn_grow hu hx, actGrow, if_pos h]
  rfl

/-- A code word leaves a decoder that meets the invariant, or raises. -/
theorem acts_or_raises (k : CodeWord) {x : LzwDec} (hinv : x.Inv) :
    (∃ o y, Acts k x o y ∧ y.Inv) ∨ ∃ e, Raises k x e := by
  cases k with
  | grow =>
    by_cases hw : x.width < x.W
    · exact .inl ⟨_, _, acts_grow hw, hinv.grow hw⟩
    · exact .inr ⟨_, raises_grow (Nat.not_lt.1 hw)⟩
  | reset => exact .inl ⟨_, _, acts_reset x, LzwDec.inv_init hinv.maxWidth hinv.lastCode⟩
  | literal b => exact .inl ⟨_, _, acts_literal b x, (hinv.setLast _).register _⟩
  | reference c =>
    cases hc : tableAt c x.table with
    | some dec => exact .inl ⟨_, _, acts_reference_found hc, (hinv.setLast _).register _⟩
    | none =>
      cases hlast : x.last with
      | nil => exact .inr ⟨_, fun s u hu hx => actOn_reference_unformed hu hx hc hlast⟩
      | cons b str => exact .inl ⟨_, _, acts_reference_formed hc hlast, (hinv.setLast _).register _⟩

/-! ### One pass (R106, R108) -/

theorem bitsAhead_number {s : State} {u : Units} {n : Nat} (h : n ≤ bitsLeft s u) :
    ∃ v rest, v < 2 ^ n ∧ bitsAhead s u = bitsMsb n v ++ rest := by
  rw [← bitsAhead_length] at h
  have hlen : ((bitsAhead s u).take n).length = n := List.length_take_of_le h
  have hnum := bitsMsb_natOfBits ((bitsAhead s u).take n)
  have hlt := natOfBits_lt ((bitsAhead s u).take n)
  rw [hlen] at hnum hlt
  exact ⟨_, _, hlt, by rw [hnum, List.take_append_drop]⟩

/-- LZD_CODE with a decoder that meets the invariant and is not done: it ends the stream, or takes a code word's bits, or
raises before it sinks a byte. -/
theorem lzdCode_pass {s : State} {u : Units} {x : LzwDec} (hu : s.units = some u) (hx : u.lx = some x)
    (hinv : x.Inv) (hdone : x.done = false) :
    (∃ t v y, lzdCode s = .ok () t ∧ t.units = some v ∧ v.lx = some y ∧ y.Inv ∧
      (y.done = false → bitsLeft t v < bitsLeft s u)) ∨
    ∃ e t, lzdCode s = .raised e t ∧ t.out = s.out := by
  have h9 := hinv.width.1
  have h32 : x.width ≤ 32 := hinv.width_le.trans (by decide)
  by_cases hleft : bitsLeft s u < x.width
  · exact .inl ⟨_, _, _, lzdCode_short hu hx hdone h32 hleft, rfl, rfl, hinv.setDone true, nofun⟩
  · obtain ⟨v, rest, hv, hahead⟩ := bitsAhead_number (Nat.not_lt.1 hleft)
    have hfetch := lzdCode_fetch hu hx hinv hdone hv hahead
    rcases acts_or_raises (classifyCode x.width v) hinv with ⟨o, y, hacts, hy⟩ | ⟨e, hraises⟩
    · rw [hacts _ (u.skip x.width) rfl hx] at hfetch
      refine .inl ⟨_, { u.skip x.width with lx := some y }, y, hfetch, rfl, rfl, hy, fun _ => ?_⟩
      have hskip : bitsLeft s (u.skip x.width) < bitsLeft s u := by rw [bitsLeft_skip]; omega
      exact hskip
    · rw [hraises _ (u.skip x.width) rfl hx] at hfetch
      exact .inr ⟨_, _, hfetch, rfl⟩

/-- A code word sets RES first (R106). -/
theorem actOn_withRes {s : State} {u : Units} {x : LzwDec} (hu : s.units = some u) (hx : u.lx = some x) (k : CodeWord)
    (r : Result) : actOn k (s.withRes r) = actOn k s := by
  rw [actOn, actOn, readLx_some (s := s.withRes r) hu hx, readLx_some hu hx]
  rfl

/-- Such a pass sets RES whatever it held (R24). -/
theorem lzdCode_withRes {s : State} {u : Units} {x : LzwDec} (hu : s.units = some u) (hx : u.lx = some x)
    (hinv : x.Inv) (hdone : x.done = false) (r : Result) : lzdCode (s.withRes r) = lzdCode s := by
  have h32 : x.width ≤ 32 := hinv.width_le.trans (by decide)
  by_cases hleft : bitsLeft s u < x.width
  · rw [lzdCode_short hu hx hdone h32 hleft, lzdCode_short (s := s.withRes r) hu hx hdone h32 hleft]
    rfl
  · obtain ⟨v, rest, hv, hahead⟩ := bitsAhead_number (Nat.not_lt.1 hleft)
    rw [lzdCode_fetch hu hx hinv hdone hv hahead, lzdCode_fetch (s := s.withRes r) hu hx hinv hdone hv hahead]
    exact actOn_withRes (s := s.withUnits (some (u.skip x.width))) rfl hx _ r

/-! ### Between two commands (R22, R122) -/

/-- A state inside a command that has not raised (R22, R110). -/
def Inside (s : State) : Prop := s.stat.phase = .busy ∧ s.stat.err = .none

theorem Inside.of_quiet {s t : State} (h : Inside s) (hq : Quiet s t) : Inside t :=
  ⟨hq.phase.trans h.1, hq.err.trans h.2⟩

/-- A command that ends there lets the next one start in the same state, but for the phase. -/
theorem Inside.startUnit_done {s : State} (h : Inside s) : startUnit (s.withPhase .done) = s := by
  rw [startUnit, State.withPhase, State.withStat, State.withStat, ← h.1, ← h.2]

theorem Inside.exec_lzdCode {s : State} (h : Inside s) :
    exec .lzdCode (s.withPhase .done) = finish s (lzdCode s) := by
  rw [exec_ready (s := s.withPhase .done) nofun, instrStart_unit rfl, h.startUnit_done]
  rfl

/-! ### The loop (R108) -/

/-- A run of LZD_CODE from `s` stops in `t`, where the loop of R108 has the answer `r`: the decoder is done, or the next
LZD_CODE raises as the loop does. -/
def StopsAt (r : Eff Unit) (t : State) : Prop :=
  (∃ v y, t.units = some v ∧ v.lx = some y ∧ y.done = true ∧ r = .ok () t) ∨
  ∃ e q, lzdCode t = .raised e q ∧ q.out = t.out ∧ r = .raised e q

/-- The passes of the loop are LZD_CODE commands, up to the one that finds the decoder done or raises. -/
theorem decodeCodes_stops (k : Nat) {s : State} {u : Units} {x : LzwDec} (hu : s.units = some u)
    (hx : u.lx = some x) (hinv : x.Inv) (hk : x.done = false → bitsLeft s u < k) (hs : Inside s) :
    ∃ n t, execAll (List.replicate n .lzdCode) (s.withPhase .done) = .next (t.withPhase .done) ∧ Quiet s t ∧
      StopsAt (decodeCodes k s) t := by
  induction k generalizing s u x with
  | zero =>
    have hdone : x.done = true := by
      rw [← Bool.not_eq_false]
      exact fun h => Nat.not_lt_zero _ (hk h)
    exact ⟨0, s, rfl, .refl s, .inl ⟨u, x, hu, hx, hdone, decodeCodes_done hu hx hdone 0⟩⟩
  | succ k ih =>
    cases hdone : x.done with
    | true => exact ⟨0, s, rfl, .refl s, .inl ⟨u, x, hu, hx, hdone, decodeCodes_done hu hx hdone _⟩⟩
    | false =>
      rw [decodeCodes_pass hu hx hdone]
      rcases lzdCode_pass hu hx hinv hdone with ⟨t, v, y, hpass, hv, hy, hyinv, hless⟩ | ⟨e, q, hraise, hout⟩
      · have hq : Quiet s t := quiet_of_instrBody_ok (i := .lzdCode) hpass
        have hk' : y.done = false → bitsLeft t v < k := fun h =>
          Nat.lt_of_lt_of_le (hless h) (Nat.le_of_lt_succ (hk hdone))
        obtain ⟨n, p, hrun, hquiet, hstop⟩ := ih hv hy hyinv hk' (hs.of_quiet hq)
        have hexec : exec .lzdCode (s.withPhase .done) = .next (t.withPhase .done) := by
          rw [hs.exec_lzdCode, hpass]
          rfl
        refine ⟨n + 1, p, ?_, hq.trans hquiet, ?_⟩
        · rw [List.replicate_succ, execAll_cons hexec nofun]
          exact hrun
        · rw [hpass]
          exact hstop
      · exact ⟨0, s, rfl, .refl s, .inr ⟨e, q, hraise, hout, by rw [hraise, Eff.bind_raised]⟩⟩

/-! ### LZW_DECOMPRESS (R108, R116) -/

theorem LzwDec.initial_inv {W : Nat} (hW : 9 ≤ W ∧ W ≤ 31) : (LzwDec.initial W).Inv :=
  LzwDec.inv_init (x := .initial W) hW rfl

/-- The units after LZD_INIT has read the width `W` (R105). -/
def Units.startDecoder (u : Units) (W : Nat) : Units := { u.skip 5 with lx := some (.initial W) }

/-- LZD_INIT starts the decoder, or raises (R105). -/
theorem lzdInit_cases {s : State} {u : Units} (hu : s.units = some u) :
    (∃ W, (9 ≤ W ∧ W ≤ 31) ∧ lzdInit s = .ok W (s.withUnits (some (u.startDecoder W)))) ∨
    ∃ e t, lzdInit s = .raised e t := by
  by_cases hleft : bitsLeft s u < 5
  · obtain ⟨v, hshort⟩ := endsShort_lzdInit hu hleft
    exact .inr ⟨_, _, hshort⟩
  · obtain ⟨W, rest, hlt, hahead⟩ := bitsAhead_number (Nat.not_lt.1 hleft)
    by_cases hW : W < 9
    · exact .inr ⟨_, _, lzdInit_illegal hu hW hahead⟩
    · have hlegal : 9 ≤ W ∧ W ≤ 31 := by omega
      exact .inl ⟨W, hlegal, lzdInit_next hu hlegal hahead⟩

/-- LZW_DECOMPRESS after a completed LZD_INIT is a run of LZD_CODE commands, from the state that LZD_INIT leaves. -/
theorem lzwDecompress_stops {s : State} {W : Nat} (hW : 9 ≤ W ∧ W ≤ 31) {u : Units} (hs : Inside s)
    (hinit : lzdInit s = .ok W (s.withUnits (some (u.startDecoder W)))) :
    ∃ n t, execAll (List.replicate n .lzdCode)
        (((s.withUnits (some (u.startDecoder W))).withRes (.num W)).withPhase .done) = .next (t.withPhase .done) ∧
      Quiet s t ∧ StopsAt (lzwDecompress s) t := by
  have hinv := LzwDec.initial_inv hW
  obtain ⟨n, t, hrun, hquiet, hstop⟩ := decodeCodes_stops (bitsLeft s (u.startDecoder W) + 1)
    (s := (s.withUnits (some (u.startDecoder W))).withRes (.num W)) rfl rfl hinv (fun _ => Nat.lt_succ_self _) hs
  have hloop : lzwDecompress s = decodeCodes (bitsLeft s (u.startDecoder W) + 1)
      ((s.withUnits (some (u.startDecoder W))).withRes (.num W)) := by
    rw [lzwDecompress, hinit, Eff.bind_ok, readUnits_some rfl, bitsLeft_withUnits,
      decodeCodes_pass (u := u.startDecoder W) rfl rfl rfl, decodeCodes_pass (u := u.startDecoder W) rfl rfl rfl,
      lzdCode_withRes (u := u.startDecoder W) rfl rfl hinv rfl]
  refine ⟨n, t, hrun, ?_, hloop ▸ hstop⟩
  exact ((quiet_withUnits s _).trans (quiet_withRes _ _)).trans hquiet

/-- A raise of a command, told from the raise of a later command in the same state: OUT alone differs, where bytes were
sunk in between (R116). -/
theorem raise_later (e : ErrKind) {s p q : State} (hp : Quiet s p) (hq : Quiet p q) (hout : q.out = p.out) :
    raise e s q = if p.out = s.out then raise e p q
      else { raise e p q with out := Config.unspecifiedOut s.draws, draws := s.draws + 1 } := by
  have hlen : p.out.length = s.out.length ↔ p.out = s.out :=
    ⟨fun h => (hp.out.eq_of_length h.symm).symm, congrArg List.length⟩
  rw [raise_clean e p q (congrArg List.length hout), raise, hout, ← hp.draws, ← hq.draws]
  simp only [hlen]
  rfl

/-- Settles O55: after LZD_INIT, each pass of the loop is an LZD_CODE command, and the raise of the last one is that of
LZW_DECOMPRESS but for OUT. -/
theorem lzwDecompressRunsTheCodeLoop : Obligations.LzwDecompressRunsTheCodeLoop := by
  unfold Obligations.LzwDecompressRunsTheCodeLoop
  rintro r w ⟨hr, hw⟩
  rcases lzdInit_cases (s := startUnit r) hw with ⟨W, hW, hinit⟩ | ⟨e, t, hinit⟩
  · refine ⟨_, exec_unit_ok (i := .lzdInit) rfl hr (withResult_ok hinit), nofun, fun _ => ?_⟩
    obtain ⟨n, p, hrun, hquiet, hstop⟩ := lzwDecompress_stops hW ⟨rfl, rfl⟩ hinit
    have hinside : Inside p := .of_quiet ⟨rfl, rfl⟩ hquiet
    refine ⟨n, p.withPhase .done, hrun, rfl, ?_⟩
    rcases hstop with ⟨v, y, hv, hy, hdone, hbody⟩ | ⟨e, q, hraise, hout, hbody⟩
    · exact .inl ⟨v, y, hv, hy, hdone, exec_unit_ok (i := .lzwDecompress) rfl hr (noResult_ok hbody)⟩
    · have hq := (quiet_of_instrBody_raised (i := .lzdCode) hraise).1
      refine .inr ⟨raise e p q, by rw [hinside.exec_lzdCode, hraise]; rfl, by rw [raise_stat], ?_⟩
      have hexec : exec .lzwDecompress r = .next (raise e (startUnit r) q) := by
        rw [exec_ready hr]
        exact congrArg (finish (startUnit r)) (noResult_raised hbody)
      rw [hexec, raise_later e hquiet hq hout]
      rfl
  · have hcode : lzwDecompress (startUnit r) = .raised e t := by rw [lzwDecompress, hinit, Eff.bind_raised]
    refine ⟨raise e (startUnit r) t, ?_, fun _ => ?_, fun h => absurd (by rw [raise_stat]) h⟩
    · rw [exec_ready hr]
      exact congrArg (finish (startUnit r)) (withResult_raised hinit)
    · rw [exec_ready hr]
      exact congrArg (finish (startUnit r)) (noResult_raised hcode)

end Sys2Proof.Machine
end

section

/-! ## COMPRESS and DECOMPRESS run the codec from START's state (R110 to R112)

A host command and a unit command differ in the state they start from. From START's state, between two commands, the unit
command of a codec does what the host command does once it has stored its configuration, or read the magic. -/

namespace Sys2Proof.Machine

/-! ### COMPRESS (R111) -/

/-- The configuration is checked before anything is stored, whatever the algorithm. -/
theorem compress_illegal {W : BitVec 5} {p : BitVec 7} (h : W.toNat < 9 ∨ 100 < p.toNat) (a : Algo) (m : BitVec 32)
    (s : State) : compress a W p m s = .raised .configurationError s :=
  if_pos (by simpa [legalMaxWidth, legalPct] using h)

/-- START's state between two commands, with the configuration `c` stored and readable. -/
def configuredStart (s : State) (c : Cfg) : State :=
  (((startHost s).withPhase .idle).withCfg (some c)).withCfgReady true

theorem configuredStart_ready (s : State) (c : Cfg) : (configuredStart s c).stat.phase ≠ .busy :=
  (nofun : Phase.idle ≠ .busy)

/-- LZW_COMPRESS reads the configuration that COMPRESS has stored (R103). -/
theorem lzwCompress_configuredStart (s : State) (c : Cfg) :
    lzwCompress (startUnit (configuredStart s c)) = lzwCompressWith c (startUnit (configuredStart s c)) :=
  readCfg_ready (s := startUnit (configuredStart s c)) rfl rfl _

/-- A part that completes and does not use CFG may as well run after CFG has become readable. -/
theorem CfgFree.withCfgReady_before {f : State → Eff Unit} (hf : CfgFree f) {s t : State} (h : f s = .ok () t) :
    f (s.withCfgReady true) = .ok () (t.withCfgReady true) := by
  have hcfg := hf.sameCfg s
  have hrun := hf s s.cfg true
  rw [h] at hcfg hrun
  have hsame : t.reCfg s.cfg true = t.withCfgReady true := by rw [← hcfg.1]; rfl
  exact hrun.trans (congrArg _ hsame)

/-- COMPRESS whose codec completes is the codec's unit command `i`, run where the configuration is stored. -/
theorem exec_compress_eq {c : Cfg} {codec : State → Eff Unit} {i : Instr} {s t : State} (hs : s.stat.phase ≠ .busy)
    (hcompress : compress c.algo c.maxw c.pct c.mins (startHost s) =
      (codec ((startHost s).withCfg (some c))).bind fun _ s => .ok () (s.withCfgReady true))
    (hfree : CfgFree codec) (hrun : codec ((startHost s).withCfg (some c)) = .ok () t) (hi : isHostCommand i = false)
    (hbody : instrBody i (startUnit (configuredStart s c)) = noResult codec (startUnit (configuredStart s c))) :
    exec (.compress c.algo c.maxw c.pct c.mins) s = exec i (configuredStart s c) := by
  rw [hrun, Eff.bind_ok] at hcompress
  have hcodec := noResult_ok (hfree.withCfgReady_before hrun)
  rw [exec_host_ok (i := .compress c.algo c.maxw c.pct c.mins) rfl hs (noResult_ok hcompress),
    exec_unit_ok hi (configuredStart_ready s c) (hbody.trans hcodec)]

section
variable {s : State} (hs : s.stat.phase ≠ .busy) {W : BitVec 5} {p : BitVec 7} (hW : 9 ≤ W.toNat) (hp : p.toNat ≤ 100)
  (m : BitVec 32)
include hs hW hp

theorem exec_compress_eq_lzwCompress :
    exec (.compress .lzw W p m) s = exec .lzwCompress (configuredStart s ⟨.lzw, W, p, m⟩) := by
  obtain ⟨_, _, _, _, _, _, _, hrun⟩ := lzwCompressWith_ok (c := ⟨.lzw, W, p, m⟩) ⟨hW, hp⟩
    (s := (startHost s).withCfg (some ⟨.lzw, W, p, m⟩)) rfl ⟨by decide, by decide⟩
  exact exec_compress_eq hs (compress_lzw hW hp m _) (cfgFree_lzwCompressWith _) hrun rfl
    (congrArg (Eff.bind · fun _ s => .ok () (s.withRes .none)) (lzwCompress_configuredStart s _))

theorem exec_compress_eq_hufCompress (h : ∀ b, s.input.count b < 2 ^ 32) :
    exec (.compress .huffman W p m) s = exec .hufCompress (configuredStart s ⟨.huffman, W, p, m⟩) := by
  generalize hft : countsOf s.input = ft
  obtain ⟨_, _, _, _, hrun⟩ := hufCompress_ok (s := (startHost s).withCfg (some ⟨.huffman, W, p, m⟩)) hft rfl
    ⟨by decide, by decide⟩ h
  exact exec_compress_eq hs (compress_huffman hW hp m _) cfgFree_hufCompress hrun rfl rfl

/-- No byte has been sunk when a count is refused, and only the stored configuration tells it from a clean raise. -/
theorem exec_compress_countOverflow {b : Byte} (hb : 2 ^ 32 ≤ s.input.count b) :
    exec (.compress .huffman W p m) s = .next (((raisedAfterStart s .countOverflow).withCfg
      (some ⟨.huffman, W, p, m⟩)).withCfgReady s.cfgReady) := by
  obtain ⟨v, hrun⟩ := exec_compress_overflow m hs hW hp hb
  exact hrun.trans (congrArg _ (raise_clean _ _ _ rfl))

end

/-- Settles O56: an illegal configuration raises before it is stored; a codec that completes does the same as its unit
command; and a count that does not fit raises before any output. -/
theorem compressChecksThenRunsTheCodec : Obligations.CompressChecksThenRunsTheCodec := by
  unfold Obligations.CompressChecksThenRunsTheCodec
  intro s a W p m hs
  refine ⟨fun h => ?_, fun hW hp => ⟨?_, ?_, ?_⟩⟩
  · exact exec_host_raised (v := some Units.start) rfl hs (noResult_raised (compress_illegal h a m (startHost s)))
  · rintro rfl
    exact exec_compress_eq_lzwCompress hs hW hp m
  · rintro rfl hcount
    exact exec_compress_eq_hufCompress hs hW hp m hcount
  · rintro rfl ⟨b, hb⟩
    exact ⟨s.cfgReady, exec_compress_countOverflow hs hW hp m hb⟩

/-! ### DECOMPRESS (R112) -/

/-- The end of a command looks at no part of its start but OUT (R116). -/
theorem finish_congr_out {start start' : State} (h : start.out = start'.out) (r : Eff Unit) :
    finish start r = finish start' r := by
  cases r with
  | ok _ _ => rfl
  | raised e s => simp only [finish, raise, h]
  | stuck _ => rfl

/-- START's state between two commands, with the four bytes of the magic consumed. -/
def pastMagicStart (s : State) : State :=
  ((startHost s).withPhase .idle).withUnits (some { Units.start with br := { pos := 32 } })

theorem startUnit_pastMagicStart (s : State) : startUnit (pastMagicStart s) = pastMagic s := rfl
theorem pastMagicStart_ready (s : State) : (pastMagicStart s).stat.phase ≠ .busy :=
  (nofun : Phase.idle ≠ .busy)

/-- DECOMPRESS that goes on with a codec after the magic is the row `i` of that codec's file, run past the magic. -/
theorem exec_decompress_eq {codec : State → Eff Unit} {i : Instr} {s : State} (hs : s.stat.phase ≠ .busy)
    (hrun : decompress (startHost s) = codec (pastMagic s)) (hi : isHostCommand i = false)
    (hbody : instrBody i = noResult codec) : exec .decompress s = exec i (pastMagicStart s) := by
  have hcodec : noResult decompress (startHost s) = noResult codec (pastMagic s) := congrArg (Eff.bind · _) hrun
  rw [exec_ready hs, exec_ready (pastMagicStart_ready s), instrStart_host rfl, instrStart_unit hi, hbody,
    startUnit_pastMagicStart]
  exact (congrArg _ hcodec).trans (finish_congr_out rfl _)

/-- Settles O58: the raises are those of the header (R113), and past a known magic DECOMPRESS is that codec. -/
theorem decompressMatchesTheMagicThenRuns : Obligations.DecompressMatchesTheMagicThenRuns := by
  unfold Obligations.DecompressMatchesTheMagicThenRuns
  intro s hs
  refine ⟨(headerErrorsLeaveNoOutput s [] hs).1, fun m rest hm => ⟨?_, ?_, ?_⟩⟩
  · obtain ⟨-, hunknown, -⟩ := headerErrorsLeaveNoOutput s rest hs
    exact hunknown m hm
  · rintro rfl
    exact exec_decompress_eq hs (decompress_huff hm) rfl rfl
  · rintro rfl
    exact exec_decompress_eq hs (decompress_lzw hm) rfl rfl

end Sys2Proof.Machine
end

section

/-! ## The power-on state (R125)

Its unit values are START's, so what is known of `Units.start` is known of it, and `CFG` is not readable yet. -/

namespace Sys2Proof.Machine

theorem reset_not_busy : State.reset.stat.phase ≠ .busy := (nofun : Phase.idle ≠ .busy)

/-- Settles O10: every field is read off, the tables of `Units.start` hold their one value at each symbol, and LZW_COMPRESS
finds `CFG` undefined. -/
theorem powerOnState : Obligations.PowerOnState := by
  unfold Obligations.PowerOnState
  have hlzw : exec .lzwCompress State.reset = .next (raisedClean State.reset .badOperand) :=
    lzwCompress_undefinedCfg reset_not_busy rfl
  exact ⟨rfl, rfl, rfl, rfl, hlzw, rfl, rfl, Units.start, rfl, rfl, rfl, FreqTable.get_zero, rfl, rfl,
    HuffTree.empty_leafOf, rfl, rfl, rfl, rfl, rfl, startHost_units⟩

/-- Settles O11: START's units meet their invariant, and power-on records the same counters as START. -/
theorem powerOnStateMeetsTheInvariant : Obligations.PowerOnStateMeetsTheInvariant := by
  unfold Obligations.PowerOnStateMeetsTheInvariant
  exact {
    notBusy := reset_not_busy
    failed := by simp [State.reset]
    res := by rintro v ⟨⟩
    cfg := by rintro c ⟨⟩
    cfgReady := by rintro ⟨⟩
    units := by
      rintro u ⟨⟩
      exact units_inv_start.of_counters rfl rfl }

end Sys2Proof.Machine
end
